-- ==== Sys2Proof/Word.lean ====
section
/-! DEFINITION. The word types of the block (00_scope.md R11, 10_state.md R21, 30_encoding.md R70). -/
namespace Sys2Proof

/-- A byte of a stream, and the width of `wbuf`, `rbuf` and STATUS. -/
abbrev Byte := BitVec 8

/-- A code value: `low`, `high` and `value` are W = 32 bits wide (R5, R21). -/
abbrev Code := BitVec 32

/-- One entry of a frequency table, 16 bits (R26). -/
abbrev Entry := BitVec 16

/-- A bit counter of the writer or the reader, 4 bits (R21). -/
abbrev BitCount := BitVec 4

/-- A command word CMD (R70). -/
abbrev CmdWord := BitVec 32

/-- The operand DIN and the result DOUT, 64 bits (R70). -/
abbrev Operand := BitVec 64

end Sys2Proof
end

