-- ==== Sys2Proof/Syntax.lean ====
section
/-! DEFINITION. The 19 commands of the block, one constructor per row of spec/opcode_table.json (30_encoding.md R74).
An operand stands as the number the assembler line names (R80): `sym` and `sel` for the SYM field, `n` for the N field.
DIN is not part of the command word: it comes with the command (R70). -/
namespace Sys2Proof

inductive Instr where
  /-- `enc.init`, byte 0x01 (R170). -/
  | encInit
  /-- `enc.preload sym`, byte 0x02, the count in DIN (R141). -/
  | encPreload (sym : Nat)
  /-- `enc.code sym`, byte 0x03 (R178). -/
  | encCode (sym : Nat)
  /-- `enc.prob sym`, byte 0x04 (R142). -/
  | encProb (sym : Nat)
  /-- `enc.symfor`, byte 0x05, the scaled value in DIN (R143). -/
  | encSymfor
  /-- `enc.update sym`, byte 0x06 (R144). -/
  | encUpdate (sym : Nat)
  /-- `enc.rescale`, byte 0x07 (R145). -/
  | encRescale
  /-- `enc.bits n`, byte 0x08, the value in DIN (R106). -/
  | encBits (n : Nat)
  /-- `enc.bflush`, byte 0x09 (R107). -/
  | encBflush
  /-- `enc.rdstate sel`, byte 0x0A (R220). -/
  | encRdstate (sel : Nat)
  /-- `dec.init`, byte 0x11 (R200). -/
  | decInit
  /-- `dec.preload sym`, byte 0x12, the count in DIN (R141). -/
  | decPreload (sym : Nat)
  /-- `dec.code`, byte 0x13 (R203). -/
  | decCode
  /-- `dec.prob sym`, byte 0x14 (R142). -/
  | decProb (sym : Nat)
  /-- `dec.symfor`, byte 0x15, the scaled value in DIN (R143). -/
  | decSymfor
  /-- `dec.update sym`, byte 0x16 (R144). -/
  | decUpdate (sym : Nat)
  /-- `dec.rescale`, byte 0x17 (R145). -/
  | decRescale
  /-- `dec.bits n`, byte 0x18 (R108). -/
  | decBits (n : Nat)
  /-- `dec.rdstate sel`, byte 0x1A (R220). -/
  | decRdstate (sel : Nat)
  deriving DecidableEq, Repr

end Sys2Proof
end

