-- ==== Sys2Proof/WellFormed.lean ====
section
/-! DEFINITION. Which commands have a command word: an operand must fit its field (30_encoding.md R71, R80: the
assembler refuses `sym` and `sel` over 511 and `n` over 127). An operand that fits but is out of R76's range is
well-formed: it assembles, and the block rejects it. -/
namespace Sys2Proof

/-- A symbol or selector fits the 9 bits of SYM. -/
def symFits (sym : Nat) : Bool := sym < 512

/-- A bit count fits the 7 bits of N. -/
def countFits (n : Nat) : Bool := n < 128

def Instr.wellFormed : Instr → Bool
  | .encInit => true
  | .encPreload sym => symFits sym
  | .encCode sym => symFits sym
  | .encProb sym => symFits sym
  | .encSymfor => true
  | .encUpdate sym => symFits sym
  | .encRescale => true
  | .encBits n => countFits n
  | .encBflush => true
  | .encRdstate sel => symFits sel
  | .decInit => true
  | .decPreload sym => symFits sym
  | .decCode => true
  | .decProb sym => symFits sym
  | .decSymfor => true
  | .decUpdate sym => symFits sym
  | .decRescale => true
  | .decBits n => countFits n
  | .decRdstate sel => symFits sel

end Sys2Proof
end

