-- ==== Sys2Proof/Decode.lean ====
section
/-! DEFINITION. The decoder of 30_encoding.md R78, total on every 32-bit word and rejecting by name, and the encoder
written from the same format (R71) and opcode map (R74). -/
namespace Sys2Proof

/-- Why a word is an ILLEGAL_COMMAND (R77). -/
inductive DecodeError where
  /-- RES1 or RES0 is not 0. -/
  | reservedBits
  /-- FN is 0x0 or 0xB to 0xF, or FN is 0x9 with U = 1. -/
  | reservedFunction
  /-- SYM is not 0 in a command that uses no SYM (R75). -/
  | unusedSym
  /-- N is not 0 in a command that uses no N (R75). -/
  | unusedCount
  deriving DecidableEq, Repr

/-- The field of `len` bits of `w` whose lowest bit is bit `lo`, as a number (R15). -/
def field (w : CmdWord) (lo len : Nat) : Nat := w.toNat / 2 ^ lo % 2 ^ len

/-- RES1 = CMD[31:24] (R71). -/
def fieldRes1 (w : CmdWord) : Nat := field w 24 8

/-- N = CMD[23:17] (R71). -/
def fieldN (w : CmdWord) : Nat := field w 17 7

/-- SYM = CMD[16:8] (R71). -/
def fieldSym (w : CmdWord) : Nat := field w 8 9

/-- RES0 = CMD[7:5] (R71). -/
def fieldRes0 (w : CmdWord) : Nat := field w 5 3

/-- U = CMD[4]: 0 is ENC, 1 is DEC (R71). -/
def fieldU (w : CmdWord) : Nat := field w 4 1

/-- FN = CMD[3:0] (R71). -/
def fieldFn (w : CmdWord) : Nat := field w 0 4

/-- The command that unit `u` has at function code `fn` (R74), `none` where the map is reserved (R77). -/
def opcodeMap (u fn sym n : Nat) : Option Instr :=
  match u, fn with
  | 0, 0x1 => some .encInit
  | 0, 0x2 => some (.encPreload sym)
  | 0, 0x3 => some (.encCode sym)
  | 0, 0x4 => some (.encProb sym)
  | 0, 0x5 => some .encSymfor
  | 0, 0x6 => some (.encUpdate sym)
  | 0, 0x7 => some .encRescale
  | 0, 0x8 => some (.encBits n)
  | 0, 0x9 => some .encBflush
  | 0, 0xA => some (.encRdstate sym)
  | 1, 0x1 => some .decInit
  | 1, 0x2 => some (.decPreload sym)
  | 1, 0x3 => some .decCode
  | 1, 0x4 => some (.decProb sym)
  | 1, 0x5 => some .decSymfor
  | 1, 0x6 => some (.decUpdate sym)
  | 1, 0x7 => some .decRescale
  | 1, 0x8 => some (.decBits n)
  | 1, 0xA => some (.decRdstate sym)
  | _, _ => none

/-- Whether the command uses its SYM field (R74, R78). -/
def usesSym (u fn : Nat) : Bool := fn == 0x2 || fn == 0x4 || fn == 0x6 || fn == 0xA || (fn == 0x3 && u == 0)

/-- Whether the command uses its N field (R74, R78). -/
def usesCount (fn : Nat) : Bool := fn == 0x8

/-- The decode function of R78. -/
def decode (w : CmdWord) : Except DecodeError Instr :=
  if fieldRes1 w ≠ 0 ∨ fieldRes0 w ≠ 0 then .error .reservedBits
  else
    match opcodeMap (fieldU w) (fieldFn w) (fieldSym w) (fieldN w) with
    | none => .error .reservedFunction
    | some i =>
      if usesSym (fieldU w) (fieldFn w) = false ∧ fieldSym w ≠ 0 then .error .unusedSym
      else if usesCount (fieldFn w) = false ∧ fieldN w ≠ 0 then .error .unusedCount
      else .ok i

/-- The word `N<<17 | SYM<<8 | U<<4 | FN` (R71). -/
def commandWord (u fn sym n : Nat) : CmdWord := BitVec.ofNat 32 (n * 2 ^ 17 + sym * 2 ^ 8 + u * 2 ^ 4 + fn)

/-- The command word of a well-formed command (R71, R74, R80). -/
def encode : Instr → CmdWord
  | .encInit => commandWord 0 0x1 0 0
  | .encPreload sym => commandWord 0 0x2 sym 0
  | .encCode sym => commandWord 0 0x3 sym 0
  | .encProb sym => commandWord 0 0x4 sym 0
  | .encSymfor => commandWord 0 0x5 0 0
  | .encUpdate sym => commandWord 0 0x6 sym 0
  | .encRescale => commandWord 0 0x7 0 0
  | .encBits n => commandWord 0 0x8 0 n
  | .encBflush => commandWord 0 0x9 0 0
  | .encRdstate sel => commandWord 0 0xA sel 0
  | .decInit => commandWord 1 0x1 0 0
  | .decPreload sym => commandWord 1 0x2 sym 0
  | .decCode => commandWord 1 0x3 0 0
  | .decProb sym => commandWord 1 0x4 sym 0
  | .decSymfor => commandWord 1 0x5 0 0
  | .decUpdate sym => commandWord 1 0x6 sym 0
  | .decRescale => commandWord 1 0x7 0 0
  | .decBits n => commandWord 1 0x8 0 n
  | .decRdstate sel => commandWord 1 0xA sel 0

/-- The command word of a table row's first `nbits` bits `w`, the bits above them 0. Every row is one 32-bit word. -/
def tableWord (nbits w : Nat) : CmdWord := BitVec.ofNat 32 (w % 2 ^ nbits)

/-- What the decoder reads from an opcode-table word: bit 0 is the least significant bit of the command word. The block
has no bytes to lay out (20_memory.md R54): a command word is presented whole (R70). -/
def decodeTableWord (nbits w : Nat) : Option Instr :=
  match decode (tableWord nbits w) with
  | .ok i => some i
  | .error _ => none

end Sys2Proof
end

