-- ==== Sys2Proof/Config.lean ====
section
/-! DEFINITION. The parameters of this hardware (00_scope.md R5 to R9) and the free values: opaque constants with no
body, for what the spec calls unspecified (93_implementation_defined.md section 2, log 4, 5, 9). -/
namespace Sys2Proof.Config

/-- `W`, the code width in bits (R5). -/
def codeWidth : Nat := 32

/-- `MAX_FREQ`, the rescale threshold on the table's total (R6). -/
def maxFreq : Nat := 0x3FFF

/-- `NSYM`, the number of symbols, 0 to 256 (R7). -/
def numSymbols : Nat := 257

/-- `EOF`, the end-of-stream symbol (R7). -/
def eofSymbol : Nat := 256

/-- `MAX_CODE = 2^W - 1` (R8). -/
def maxCode : Nat := 0xFFFFFFFF

/-- `HALF = 2^(W-1)` (R8). -/
def half : Nat := 0x80000000

/-- `QUARTER = 2^(W-2)` (R8). -/
def quarter : Nat := 0x40000000

/-- `THREE_QUARTERS = 3 * QUARTER` (R8). -/
def threeQuarters : Nat := 0xC0000000

/-- `EXTRA_BITS`, the reader's padding budget (R9; `EXTRA_BITS >= W`, R14). -/
def extraBits : Nat := 32

/-- How many shifts the renormalization loop may make before the model calls it endless (DEDUCED, log 11). The spec
bounds a symbol's shifts by 15 (R182) in every state a run reaches; the model's bound is far above it. -/
def shiftFuel : Nat := 64

/-- A free register value of width `w`: any value (R237, R261). `draw` is the machine's draw counter, `sel` the
register's RDSTATE selector (R35), so that two draws, or two registers of one draw, are not related. -/
opaque freeBits : (w : Nat) → (draw : Nat) → (sel : Nat) → BitVec w

/-- A free natural number, for the registers held as naturals (`pending_bits`, `pad_used`). -/
opaque freeNat : (draw : Nat) → (sel : Nat) → Nat

/-- The free value an RDSTATE in Idle or Failed answers with, fresh on each read (R222). -/
opaque freeRead : (draw : Nat) → BitVec 64

end Sys2Proof.Config
end

