-- ==== Sys2Proof/Machine/State.lean ====
section
/-! DEFINITION. The state of the machine: every register of 10_state.md R21, the two devices of 60_exceptions.md R247,
the host's events still to come (10_state.md R31, 70_reset_and_hazards.md R260), and the reasons a step stops. -/
namespace Sys2Proof.Machine

/-- A unit's lifecycle state (R29). Codes 5 to 7 are never held, so they have no name here. -/
inductive Phase where
  /-- Code 0: no stream; entered at reset. -/
  | idle
  /-- Code 1: entered by INIT. -/
  | active
  /-- Code 2: exists only inside one `enc.code 256`. -/
  | flushing
  /-- Code 3: the stream is complete. -/
  | done
  /-- Code 4: an I/O failure or an unexpected end of stream aborted the stream. -/
  | failed
  deriving DecidableEq, Repr

/-- A cumulative frequency table `freqs[0..257]`: 258 entries of 16 bits (R26). -/
abbrev Table := Vector Entry 258

/-- The registers of unit ENC (R21). -/
structure EncUnit where
  /-- `ENC.low` (R22). -/
  low : Code
  /-- `ENC.high` (R22). -/
  high : Code
  /-- `ENC.pending_bits`, an unbounded natural (R24). -/
  pending : Nat
  /-- `ENC.freqs[0..257]` (R26). -/
  freqs : Table
  /-- `ENC.wbuf`, the writer's partial byte (R27). -/
  wbuf : Byte
  /-- `ENC.wcount`, how many bits the writer holds (R27). -/
  wcount : BitCount
  /-- `ENC.phase` (R29). -/
  phase : Phase
  deriving DecidableEq, Repr

/-- The registers of unit DEC (R21). -/
structure DecUnit where
  /-- `DEC.low` (R23). -/
  low : Code
  /-- `DEC.high` (R23). -/
  high : Code
  /-- `DEC.value`, the window into the bit stream (R25). -/
  value : Code
  /-- `DEC.freqs[0..257]` (R26). -/
  freqs : Table
  /-- `DEC.rbuf`, the last byte taken from the source (R28). -/
  rbuf : Byte
  /-- `DEC.rcount`, how many bits of `rbuf` are not yet consumed (R28). -/
  rcount : BitCount
  /-- `DEC.pad_used`, how many implicit zero bits were supplied (R28). -/
  padUsed : Nat
  /-- `DEC.src_end`: the source has answered `end` in this stream (R28). -/
  srcEnd : Bool
  /-- `DEC.phase` (R29). -/
  phase : Phase
  deriving DecidableEq, Repr

/-- What the sink answers to one SinkWrite or SinkFlush (R247). -/
inductive SinkAnswer where
  | ok
  | ioError
  deriving DecidableEq, Repr

/-- What the source answers to one SourceRead (R247). -/
inductive SourceAnswer where
  | byte (b : Byte)
  | endOfData
  | ioError
  deriving DecidableEq, Repr

/-- One entry of a device's coming answers: an answer, or a delay before the next one (R248: a call may take any time). -/
inductive Turn (α : Type) where
  | answer (a : α)
  /-- The call made now is not answered at once, and its command waits. The entry after this one answers it; or, if the
  reset input abandons the command first (R260), answers the next call. How long the delay is stands nowhere (R276). -/
  | late
  deriving DecidableEq, Repr

/-- The byte sink on ENC's output port, an agent outside the block (R20). Its answers are the sink's half of `dev_oracle`
(R247, D37) as plain data (DESIGN CHOICE, safe: a statement over every state holds for every sequence of answers; log 2). -/
structure Sink where
  /-- The bytes the sink holds, oldest first (R58). -/
  received : List Byte
  /-- How many of them a SinkFlush answered `ok` has passed on (R62). -/
  passedOn : Nat
  /-- How many SinkFlush calls were answered `ok` (R62). -/
  flushes : Nat
  /-- The sink's coming answers to SinkWrite and SinkFlush, in order, and the delays before them. -/
  answers : List (Turn SinkAnswer)
  /-- What it answers to every call after `answers` is used up; `none`: it never answers again (R248). -/
  thereafter : Option SinkAnswer
  deriving DecidableEq, Repr

/-- The byte source on DEC's input port, an agent outside the block (R20). Its answers are the source's half of
`dev_oracle` (R247, D37) as plain data (DESIGN CHOICE, safe; log 2). -/
structure Source where
  /-- The bytes taken from the source, oldest first (R58). -/
  taken : List Byte
  /-- The source's coming answers to SourceRead, in order, and the delays before them. -/
  answers : List (Turn SourceAnswer)
  /-- What it answers to every call after `answers` is used up; `none`: it never answers again (R248). -/
  thereafter : Option SourceAnswer
  deriving DecidableEq, Repr

/-- ENC with its sink: all that an ENC command can read or write besides the operands and the response (R20). -/
structure EncSide where
  unit : EncUnit
  sink : Sink
  deriving DecidableEq, Repr

/-- DEC with its source: all that a DEC command can read or write besides the operands and the response (R20). -/
structure DecSide where
  unit : DecUnit
  source : Source
  deriving DecidableEq, Repr

/-- A command in progress that waits on a device (R248), with the side it started from, the delay it waits for taken out
of the device's coming answers: the command goes on by running again from there (log 7). -/
inductive Waiting where
  /-- An ENC command waits on the sink. -/
  | onSink (command : Instr) (start : EncSide)
  /-- A DEC command waits on the source. -/
  | onSource (command : Instr) (start : DecSide)
  deriving DecidableEq, Repr

/-- What the host does next: present a command word with its DIN (R70), or assert the reset input (R260). -/
inductive HostEvent where
  | command (cmd : CmdWord) (din : Operand)
  | reset
  deriving DecidableEq, Repr

/-- Why the model stops. Each is a place where the spec says a value cannot arise, and that a model which meets it has
found a bug in the spec and should fault, not wrap (R16, D29; log 10, 11). The block itself reports every error of its
own through STATUS (R230), which is a next state. -/
inductive Fault where
  /-- Raised by `narrowTo` and `tableOf`: a register write of a value that does not fit its width (R16). Safe. -/
  | outOfRange
  /-- Raised by `minus` and `tableRescale`: a subtraction whose result would be negative (R16). Safe. -/
  | negative
  /-- Raised by `divide`: a division by 0 (R16, DEDUCED). Safe. -/
  | divideByZero
  /-- Raised by `symbolFor`: SymbolFor(v) with `v >= freqs[257]`, where no symbol exists (R139). Safe. -/
  | noSymbol
  /-- Raised by `encRenorm` and `decRenorm`: more than `Config.shiftFuel` shifts in one command (R182, DEDUCED). Safe. -/
  | endlessShifts
  deriving DecidableEq, Repr

/-- Why an instruction has no meaning. -/
inductive Refusal where
  /-- Raised by an arm of `exec` whose instruction has no meaning yet; no arm does. Safe. -/
  | notModelled (mnemonic : String)
  deriving DecidableEq, Repr

/-- The machine: the block's registers (R21, R30), the operand the host presents (R70), the two devices (R247), the
host's events still to come, and the model's own `waiting` and `draws`. -/
structure State where
  /-- Unit ENC. -/
  enc : EncUnit
  /-- Unit DEC. -/
  dec : DecUnit
  /-- STATUS of the last response (R30). -/
  status : Byte
  /-- DOUT of the last response (R30). -/
  dout : Operand
  /-- DIN as the host presents it with the current command (R70). -/
  din : Operand
  /-- ENC's sink. -/
  sink : Sink
  /-- DEC's source. -/
  source : Source
  /-- The host's events still to come, the next one first (R31, log 8). -/
  host : List HostEvent
  /-- The command in progress that waits on a device, if any (R248, log 7). -/
  waiting : Option Waiting
  /-- How many free values have been drawn (the model's own counter, log 6). -/
  draws : Nat
  deriving DecidableEq, Repr

/-- A table whose every entry is 0: State.reset's named value for an unspecified table (log 1). -/
def zeroTable : Table := ⟨⟨(List.range 258).map fun _ => 0⟩, by rw [List.size_toArray, List.length_map, List.length_range]⟩

/-- The machine right after reset (R261): both units Idle, STATUS 0, DOUT 0, nothing in progress, no host event. Every
data register R261 calls unspecified holds 0 here (DESIGN CHOICE, unsafe, log 1); no command reads one before INIT
writes it. The devices are new: the sink holds nothing and answers `ok`, the source holds no byte and answers `end`
(DESIGN CHOICE, unsafe, log 3). -/
def State.reset : State where
  enc := { low := 0, high := 0, pending := 0, freqs := zeroTable, wbuf := 0, wcount := 0, phase := .idle }
  dec := { low := 0, high := 0, value := 0, freqs := zeroTable, rbuf := 0, rcount := 0, padUsed := 0, srcEnd := false,
           phase := .idle }
  status := 0
  dout := 0
  din := 0
  sink := { received := [], passedOn := 0, flushes := 0, answers := [], thereafter := some .ok }
  source := { taken := [], answers := [], thereafter := some .endOfData }
  host := []
  waiting := none
  draws := 0

end Sys2Proof.Machine
end

