-- ==== Sys2Proof/Machine/Flags.lean ====
section
/-! DEFINITION. STATUS codes and phase codes. The block has no condition codes or flags (10_state.md R32); its only status
is each unit's phase (R29) and the last response's STATUS (R30). -/
namespace Sys2Proof.Machine

/-- How a command ended (60_exceptions.md R231). -/
inductive Status where
  | ok
  | ioError
  | unexpectedEof
  | illegalCommand
  | badPhase
  | badOperand
  deriving DecidableEq, Repr

/-- The code STATUS holds (R231). Codes 6 to 255 are never written. -/
def statusCode : Status → Byte
  | .ok => 0
  | .ioError => 1
  | .unexpectedEof => 2
  | .illegalCommand => 3
  | .badPhase => 4
  | .badOperand => 5

/-- The code of a phase (R29), as RDSTATE selector 261 reads it. -/
def phaseCode : Phase → Nat
  | .idle => 0
  | .active => 1
  | .flushing => 2
  | .done => 3
  | .failed => 4

/-- The phases in which a unit's data registers are unspecified (R222, R237, R261). -/
def dataUnspecified : Phase → Bool
  | .idle => true
  | .active => false
  | .flushing => false
  | .done => false
  | .failed => true

end Sys2Proof.Machine
end

