-- ==== Sys2Proof/Machine/Operands.lean ====
section
/-! DEFINITION. Operand checks (30_encoding.md R76) and result assembly (R73). Operand assembly itself (R72) is the
decoder's: a command's `sym`, `sel` and `n` are the unsigned values of its fields; DIN is read whole from `State.din`. -/
namespace Sys2Proof.Machine

/-- The symbol check of PRELOAD, ENC CODE, PROB and UPDATE: `sym <= 256` (R76). -/
def symbolInRange (sym : Nat) : Bool := sym ≤ 256

/-- The bit count check of BITS: `n <= 64` (R76). -/
def countInRange (n : Nat) : Bool := n ≤ 64

/-- The highest RDSTATE selector of ENC (R35, R76). -/
def encLastSelector : Nat := 263

/-- The highest RDSTATE selector of DEC (R35, R76). -/
def decLastSelector : Nat := 265

/-- The RDSTATE selector of `phase` (R35), the one register that is specified in every phase (R222). -/
def phaseSelector : Nat := 261

/-- DOUT of PROB: `{0[63:48], total, high_cum, low_cum}` in fields of 16 bits (R73). -/
def packRange (lowCum highCum total : Nat) : Operand :=
  BitVec.ofNat 64 (total * 2 ^ 32 + highCum * 2 ^ 16 + lowCum)

/-- DOUT of SYMFOR: PROB's, with the symbol in DOUT[56:48] (R73). -/
def packSymbolRange (sym lowCum highCum total : Nat) : Operand :=
  BitVec.ofNat 64 (sym * 2 ^ 48 + total * 2 ^ 32 + highCum * 2 ^ 16 + lowCum)

end Sys2Proof.Machine
end

