-- ==== Sys2Proof/Machine/Ops.lean ====
section
/-! DEFINITION. The named operations over the registers, the devices and the response: arithmetic that faults instead of
wrapping (00_scope.md R16), the stream primitives (R17), how a command runs and ends (60_exceptions.md R230), what an
error does (R237, R238) and what reset does (70_reset_and_hazards.md R260, R261). -/
namespace Sys2Proof.Machine

/-! ### Arithmetic (R16) -/

/-- The value `v` as it is written to a register of `w` bits; a value that does not fit faults (R16, D29, log 10). -/
def narrowTo (w v : Nat) : Except Fault (BitVec w) :=
  if v < 2 ^ w then .ok (BitVec.ofNat w v) else .error .outOfRange

/-- `a - b`, used only where the spec shows that it is not negative; a negative result faults (R16, log 10). -/
def minus (a b : Nat) : Except Fault Nat :=
  if b ≤ a then .ok (a - b) else .error .negative

/-- `a div b` (R16); `b = 0`, which the spec's bounds exclude, faults (DEDUCED, safe, log 10). -/
def divide (a b : Nat) : Except Fault Nat :=
  if b = 0 then .error .divideByZero else .ok (a / b)

/-! ### The devices (R17, R247, R248) -/

/-- The sink's next answer, `none` if it does not answer now; a delay met is over for the next call (R247, R248). -/
def sinkAnswer (k : Sink) : Option SinkAnswer × Sink :=
  match k.answers with
  | .answer a :: rest => (some a, { k with answers := rest })
  | .late :: rest => (none, { k with answers := rest })
  | [] => (k.thereafter, k)

/-- The sink with one byte more (R58). -/
def takeByte (b : Byte) (k : Sink) : Sink := { k with received := k.received ++ [b] }

/-- `SinkWrite(b)` (R17): the byte is the sink's for good, whatever it answers (R58); a byte not answered yet is not
(log 7). -/
def sinkWrite (b : Byte) (k : Sink) : Option SinkAnswer × Sink :=
  match sinkAnswer k with
  | (none, k') => (none, k')
  | (some a, k') => (some a, takeByte b k')

/-- `SinkFlush()` (R17): answered `ok`, every byte the sink holds has been passed on (R62, log 12). -/
def sinkFlush (k : Sink) : Option SinkAnswer × Sink :=
  match sinkAnswer k with
  | (none, k') => (none, k')
  | (some .ok, k') => (some .ok, { k' with passedOn := k'.received.length, flushes := k'.flushes + 1 })
  | (some .ioError, k') => (some .ioError, k')

/-- The source's next answer, `none` if it does not answer now; a delay met is over for the next call (R247, R248). -/
def sourceAnswer (src : Source) : Option SourceAnswer × Source :=
  match src.answers with
  | .answer a :: rest => (some a, { src with answers := rest })
  | .late :: rest => (none, { src with answers := rest })
  | [] => (src.thereafter, src)

/-- `SourceRead()` (R17): a byte given is consumed for good (R58). -/
def sourceRead (src : Source) : Option SourceAnswer × Source :=
  match sourceAnswer src with
  | (none, src') => (none, src')
  | (some (.byte b), src') => (some (.byte b), { src' with taken := src'.taken ++ [b] })
  | (some .endOfData, src') => (some .endOfData, src')
  | (some .ioError, src') => (some .ioError, src')

/-- A device's coming answers without their first delay. -/
def dropLate {α : Type} : List (Turn α) → List (Turn α)
  | [] => []
  | .late :: rest => rest
  | .answer a :: rest => .answer a :: dropLate rest

/-- ENC's side with the sink's first delay over. -/
def promptSink (x : EncSide) : EncSide := { x with sink := { x.sink with answers := dropLate x.sink.answers } }

/-- DEC's side with the source's first delay over. -/
def promptSource (x : DecSide) : DecSide := { x with source := { x.source with answers := dropLate x.source.answers } }

/-! ### How a command runs on one unit and its device -/

/-- How far a piece of pseudocode ran on a side `σ`. -/
inductive Run (σ α : Type) where
  /-- It ran to its end with result `a`. -/
  | done (a : α) (x : σ)
  /-- It raised IO_ERROR or UNEXPECTED_EOF at this point (R230). -/
  | raised (e : Status) (x : σ)
  /-- It waits at this point on a device that does not answer (R248). -/
  | waiting (x : σ)
  /-- The spec's own bounds do not hold (R16). -/
  | broken (f : Fault)
  deriving DecidableEq, Repr

/-- Run `k` after `r`: an error, a wait or a fault ends the command at that point (R230, R239). -/
def Run.andThen {σ α β : Type} (r : Run σ α) (k : α → σ → Run σ β) : Run σ β :=
  match r with
  | .done a x => k a x
  | .raised e x => .raised e x
  | .waiting x => .waiting x
  | .broken f => .broken f

/-- A computation that touches no register: continue with its value, or fault. -/
def Run.lift {σ α β : Type} (c : Except Fault α) (k : α → Run σ β) : Run σ β :=
  match c with
  | .ok a => k a
  | .error f => .broken f

/-! ### Responses and errors -/

/-- `respond OK` with result `d` (R230). -/
def respond (d : Operand) (s : State) : State := { s with status := statusCode .ok, dout := d }

/-- A rejection, ILLEGAL_COMMAND, BAD_PHASE or BAD_OPERAND: nothing changes but STATUS and DOUT (R230, R238). -/
def reject (e : Status) (s : State) : State := { s with status := statusCode e, dout := 0 }

/-- ENC with every register but `phase` unspecified: free values of draw `d` (R237, R261, log 4, 9). -/
def unspecifiedEnc (d : Nat) (p : Phase) : EncUnit where
  low := Config.freeBits 32 d 258
  high := Config.freeBits 32 d 259
  pending := Config.freeNat d 260
  freqs := ⟨⟨(List.range 258).map fun i => Config.freeBits 16 d i⟩, by
    rw [List.size_toArray, List.length_map, List.length_range]⟩
  wbuf := Config.freeBits 8 d 263
  wcount := Config.freeBits 4 d 262
  phase := p

/-- DEC with every register but `phase` unspecified: free values of draw `d`, `pad_used` within its range
`0..EXTRA_BITS` (R28, R237, R261, log 4, 9). -/
def unspecifiedDec (d : Nat) (p : Phase) : DecUnit where
  low := Config.freeBits 32 d 258
  high := Config.freeBits 32 d 259
  value := Config.freeBits 32 d 260
  freqs := ⟨⟨(List.range 258).map fun i => Config.freeBits 16 d i⟩, by
    rw [List.size_toArray, List.length_map, List.length_range]⟩
  rbuf := Config.freeBits 8 d 263
  rcount := Config.freeBits 4 d 262
  padUsed := Config.freeNat d 264 % (Config.extraBits + 1)
  srcEnd := Config.freeBits 1 d 265 == 1
  phase := p

/-- A fatal error raised in an ENC command: `raise E` (R230) and what it does (R237): the block's one way of taking an
error. `k` is the sink as the command left it; bytes already sent stay sent. -/
def failEnc (e : Status) (k : Sink) (s : State) : State :=
  { s with
    enc := unspecifiedEnc s.draws .failed
    sink := k
    status := statusCode e
    dout := 0
    draws := s.draws + 1 }

/-- A fatal error raised in a DEC command (R230, R237). `src` is the source as the command left it. -/
def failDec (e : Status) (src : Source) (s : State) : State :=
  { s with
    dec := unspecifiedDec s.draws .failed
    source := src
    status := statusCode e
    dout := 0
    draws := s.draws + 1 }

/-- ENC's side of the state. -/
def encSide (s : State) : EncSide := ⟨s.enc, s.sink⟩

/-- DEC's side of the state. -/
def decSide (s : State) : DecSide := ⟨s.dec, s.source⟩

/-- The state with ENC's side replaced. -/
def withEncSide (s : State) (x : EncSide) : State := { s with enc := x.unit, sink := x.sink }

/-- The state with DEC's side replaced. -/
def withDecSide (s : State) (x : DecSide) : State := { s with dec := x.unit, source := x.source }

/-- How the ENC command `i` ends (R230): with its result, with a fatal error, waiting on the sink part way (R248: neither
ended nor failed, no response, log 7), or with a fault of the model (R16). -/
def endEnc (i : Instr) (s : State) (r : Run EncSide Operand) : Host.Outcome State Fault Refusal :=
  match r with
  | .done d x => .next (respond d (withEncSide s x))
  | .raised e x => .next (failEnc e x.sink s)
  | .waiting x => .next { withEncSide s x with waiting := some (.onSink i (promptSink (encSide s))) }
  | .broken f => .fault f

/-- How the DEC command `i` ends (R230, R248, R16). -/
def endDec (i : Instr) (s : State) (r : Run DecSide Operand) : Host.Outcome State Fault Refusal :=
  match r with
  | .done d x => .next (respond d (withDecSide s x))
  | .raised e x => .next (failDec e x.source s)
  | .waiting x => .next { withDecSide s x with waiting := some (.onSource i (promptSource (decSide s))) }
  | .broken f => .fault f

/-- `require phase == Active, else BAD_PHASE`, then `require operand, else BAD_OPERAND`, then run: the order of R239. -/
def checked (p : Phase) (operandOk : Bool) (s : State) (run : Host.Outcome State Fault Refusal) :
    Host.Outcome State Fault Refusal :=
  if p = .active then
    if operandOk = true then run else .next (reject .badOperand s)
  else .next (reject .badPhase s)

/-! ### Reset and the host's next event -/

/-- The reset input (R260, R261): both units Idle, STATUS 0, DOUT 0, every data register unspecified (free values of two
draws, log 9); a command in progress is abandoned; sink, source and the host's coming events are not touched. -/
def resetBlock (s : State) : State :=
  { s with
    enc := unspecifiedEnc s.draws .idle
    dec := unspecifiedDec (s.draws + 1) .idle
    status := statusCode .ok
    dout := 0
    waiting := none
    draws := s.draws + 2 }

/-- The command that waits. -/
def waitingCommand : Waiting → Instr
  | .onSink i _ => i
  | .onSource i _ => i

/-- The state from which the command in progress, if there is one, runs again: its unit and device as it started, the
delay over (R248, log 7). Between commands it is the state itself. -/
def restart (s : State) : State :=
  match s.waiting with
  | none => s
  | some (.onSink _ x) => { withEncSide s x with waiting := none }
  | some (.onSource _ x) => { withDecSide s x with waiting := none }

/-- What the next step is about. -/
inductive Arrival where
  /-- Nothing: no command is in progress and the host has no event. -/
  | nothing
  /-- The reset input is asserted. -/
  | reset (s : State)
  /-- A command word is presented, its DIN latched. -/
  | command (cmd : CmdWord) (s : State)
  /-- The device answers the command in progress, which goes on. -/
  | resume (i : Instr) (s : State)
  deriving Repr

/-- What comes next. The reset input is taken between commands and while one waits on a device (R260). A command that
waits goes on when its device answers (R248); on a device that never answers it waits again. A new command is taken only
when none is in progress (R70, R273). With no event the block holds all state and does nothing (R251). -/
def takeEvent (s : State) : Arrival :=
  match s.host with
  | .reset :: rest => .reset { s with host := rest }
  | .command cmd din :: rest =>
    match s.waiting with
    | some w => .resume (waitingCommand w) (restart s)
    | none => .command cmd { s with din := din, host := rest }
  | [] =>
    match s.waiting with
    | some w => .resume (waitingCommand w) (restart s)
    | none => .nothing

/-- Put a command word in front of the host's events, its DIN the one now presented, and let no earlier command be in
progress: the next step takes it. -/
def presentWord (cmd : CmdWord) (s : State) : State :=
  { s with host := .command cmd s.din :: s.host, waiting := none }

end Sys2Proof.Machine
end

