-- ==== Sys2Proof/Machine/BitIo.lean ====
section
/-! DEFINITION. The bit writer of ENC and the bit reader of DEC (40_bit_io.md), and their commands `enc.bits`,
`enc.bflush` and `dec.bits`. -/
namespace Sys2Proof.Machine

/-! ### Writer primitives -/

/-- A bit as a byte. -/
def bitByte (b : Bool) : Byte := if b then 1 else 0

/-- `wbuf <- ((wbuf << 1) | b)[7:0]` and `wcount <- wcount + 1` (R100). -/
def pushBit (b : Bool) (u : EncUnit) : Except Fault EncUnit :=
  match narrowTo 4 (u.wcount.toNat + 1) with
  | .ok c => .ok { u with wbuf := (u.wbuf <<< 1) ||| bitByte b, wcount := c }
  | .error f => .error f

/-- ENC's writer emptied: `wbuf <- 0; wcount <- 0`. -/
def emptyWriter (u : EncUnit) : EncUnit := { u with wbuf := 0, wcount := 0 }

/-- Hand the byte `v` to the sink and empty the writer, then raise IO_ERROR if the sink answered so (R100, R102). -/
def sendByte (v : Byte) (x : EncSide) : Run EncSide Unit :=
  match sinkWrite v x.sink with
  | (none, k) => .waiting { x with sink := k }
  | (some .ok, k) => .done () ⟨emptyWriter x.unit, k⟩
  | (some .ioError, k) => .raised .ioError ⟨emptyWriter x.unit, k⟩

/-- `WBit(b)` (R100): a completed byte goes to the sink at once. -/
def wbit (b : Bool) (x : EncSide) : Run EncSide Unit :=
  Run.lift (pushBit b x.unit) fun u =>
    if u.wcount.toNat = 8 then sendByte u.wbuf { x with unit := u } else .done () { x with unit := u }

/-- `WriteBits(v, count)` (R101): bits `count-1` down to 0 of `v`. -/
def writeBits (v : Operand) : Nat → EncSide → Run EncSide Unit
  | 0, x => .done () x
  | n + 1, x => (wbit (v.getLsbD n) x).andThen fun _ y => writeBits v n y

/-- `repeat n times: WBit(b)`. -/
def repeatBit (b : Bool) : Nat → EncSide → Run EncSide Unit
  | 0, x => .done () x
  | n + 1, x => (wbit b x).andThen fun _ y => repeatBit b n y

/-- `SinkFlush()`, raising IO_ERROR if the sink answers so (R102). -/
def flushSink (x : EncSide) : Run EncSide Unit :=
  match sinkFlush x.sink with
  | (none, k) => .waiting { x with sink := k }
  | (some .ok, k) => .done () { x with sink := k }
  | (some .ioError, k) => .raised .ioError { x with sink := k }

/-- `(wbuf << (8 - wcount))[7:0]`: the partial byte padded with zero bits (R102). With `wcount` over 8, which R27 excludes,
the shift amount would be negative, which faults (R16, log 10). -/
def paddedByte (u : EncUnit) : Except Fault Byte :=
  match minus 8 u.wcount.toNat with
  | .ok n => .ok (u.wbuf <<< n)
  | .error f => .error f

/-- `WFlush()` (R102): the padded partial byte if there is one, then the sink's flush in any case. -/
def writerFlush (x : EncSide) : Run EncSide Unit :=
  if 0 < x.unit.wcount.toNat then
    Run.lift (paddedByte x.unit) fun v => (sendByte v x).andThen fun _ y => flushSink y
  else flushSink x

/-! ### Reader primitives -/

/-- The first step of `RBit()` (R103): take a byte from the source when no bit is buffered and the source has not ended. -/
def fillReader (x : DecSide) : Run DecSide Unit :=
  if x.unit.rcount = 0 ∧ x.unit.srcEnd = false then
    match sourceRead x.source with
    | (none, src) => .waiting { x with source := src }
    | (some (.byte b), src) => .done () ⟨{ x.unit with rbuf := b, rcount := 8 }, src⟩
    | (some .endOfData, src) => .done () ⟨{ x.unit with srcEnd := true }, src⟩
    | (some .ioError, src) => .raised .ioError { x with source := src }
  else .done () x

/-- The rest of `RBit()` (R103): a buffered bit, most significant first; else a padding zero within the budget; else
UNEXPECTED_EOF. -/
def takeBit (x : DecSide) : Run DecSide Bool :=
  if 0 < x.unit.rcount.toNat then
    .done (x.unit.rbuf.getLsbD (x.unit.rcount.toNat - 1))
      { x with unit := { x.unit with rcount := x.unit.rcount - 1 } }
  else if x.unit.padUsed < Config.extraBits then
    .done false { x with unit := { x.unit with padUsed := x.unit.padUsed + 1 } }
  else .raised .unexpectedEof x

/-- `RBit()` (R103). -/
def rbit (x : DecSide) : Run DecSide Bool := (fillReader x).andThen fun _ y => takeBit y

/-- `ReadBits(count)` after the bits `v` (R104): `v <- (v << 1) | RBit()`, `count` times. -/
def readBitsFrom : Nat → Nat → DecSide → Run DecSide Nat
  | 0, v, x => .done v x
  | n + 1, v, x => (rbit x).andThen fun b y => readBitsFrom n (2 * v + b.toNat) y

/-- `ReadBits(count)` (R104): the first bit read is the result's bit `count-1`. -/
def readBits (count : Nat) (x : DecSide) : Run DecSide Nat := readBitsFrom count 0 x

/-- `ReaderReset()` (R105): a new stream on the reader; the source's own position does not change. -/
def readerReset (u : DecUnit) : DecUnit := { u with rbuf := 0, rcount := 0, srcEnd := false, padUsed := 0 }

/-! ### Commands -/

/-- `enc.bits n` (R106). -/
def execEncBits (n : Nat) (s : State) : Host.Outcome State Fault Refusal :=
  checked s.enc.phase (countInRange n) s <|
    endEnc (.encBits n) s ((writeBits s.din n (encSide s)).andThen fun _ x => .done 0 x)

/-- `enc.bflush` (R107). -/
def execEncBflush (s : State) : Host.Outcome State Fault Refusal :=
  checked s.enc.phase true s <| endEnc .encBflush s ((writerFlush (encSide s)).andThen fun _ x => .done 0 x)

/-- `dec.bits n` (R108): the bits read, zero-extended, in DOUT. -/
def execDecBits (n : Nat) (s : State) : Host.Outcome State Fault Refusal :=
  checked s.dec.phase (countInRange n) s <|
    endDec (.decBits n) s ((readBits n (decSide s)).andThen fun v x => Run.lift (narrowTo 64 v) fun d => .done d x)

end Sys2Proof.Machine
end

