-- ==== Sys2Proof/Machine/FrequencyModel.lean ====
section
/-! DEFINITION. The cumulative frequency table (41_frequency_model.md): its primitives, shared by both units, and the ten
commands on a unit's own table. -/
namespace Sys2Proof.Machine

/-! ### The table -/

/-- Entry `i` of a list of entries, as a number; 0 past its end. -/
def entryAt : List Entry → Nat → Nat
  | [], _ => 0
  | e :: _, 0 => e.toNat
  | _ :: rest, i + 1 => entryAt rest i

/-- `freqs[i]` as a number (R26). Only `i <= 257` is ever asked for. -/
def tableAt (t : Table) (i : Nat) : Nat := entryAt t.toList i

/-- A table from its 258 entries as numbers, each cut to 16 bits. -/
def tableOfList (l : List Nat) (h : l.length = 258) : Table := ⟨⟨l.map (BitVec.ofNat 16)⟩, by simp [h]⟩

/-- The total, `freqs[257]` (R130). -/
def total (t : Table) : Nat := tableAt t Config.numSymbols

/-- Write all 258 entries: a value over 16 bits faults (R16, R26, log 10). -/
def writeTable (l : List Nat) (h : l.length = 258) : Except Fault Table :=
  if l.all (fun v => v < 2 ^ 16) = true then .ok (tableOfList l h) else .error .outOfRange

/-- `FreshTable()` (R131): `freqs[i] = i`. -/
def freshTable : Table := tableOfList (List.range 258) List.length_range

/-- The individual count `c[s] = freqs[s+1] - freqs[s]` (R130). -/
def countOf (t : Table) (sym : Nat) : Nat := tableAt t (sym + 1) - tableAt t sym

/-! ### Update and rescale -/

/-- The entries from index `i` on after the increments of `Update(sym)`: one more for every index over `sym` (R134). -/
def bumpFrom (sym : Nat) : Nat → List Entry → List Nat
  | _, [] => []
  | i, e :: rest => (if sym < i then e.toNat + 1 else e.toNat) :: bumpFrom sym (i + 1) rest

theorem bumpFrom_length (sym : Nat) (l : List Entry) : ∀ i, (bumpFrom sym i l).length = l.length := by
  induction l with
  | nil => intro i; rfl
  | cons e rest ih => intro i; simp [bumpFrom, ih]

/-- `max(c div 2, 1)` (R136). -/
def halvedCount (c : Nat) : Nat := max (c / 2) 1

/-- The rescaled entries after one whose old value is `prev` and whose new value is `acc`: each adds its symbol's halved
count to the one before it (R136). -/
def rescaleFrom : Nat → Nat → List Entry → List Nat
  | _, _, [] => []
  | prev, acc, e :: rest =>
    (acc + halvedCount (e.toNat - prev)) :: rescaleFrom e.toNat (acc + halvedCount (e.toNat - prev)) rest

theorem rescaleFrom_length (l : List Entry) : ∀ prev acc, (rescaleFrom prev acc l).length = l.length := by
  induction l with
  | nil => intro prev acc; rfl
  | cons e rest ih => intro prev acc; simp [rescaleFrom, ih]

/-- The rescaled entries of a table: `freqs[0]` becomes 0 (R136). -/
def rescaleEntries : List Entry → List Nat
  | [] => []
  | e :: rest => 0 :: rescaleFrom e.toNat 0 rest

theorem rescaleEntries_length (l : List Entry) : (rescaleEntries l).length = l.length := by
  cases l with
  | nil => rfl
  | cons e rest => simp [rescaleEntries, rescaleFrom_length]

/-- Whether no entry is below the one before it. -/
def nonDecreasing : List Entry → Bool
  | [] => true
  | e :: rest =>
    match rest with
    | [] => true
    | e' :: _ => decide (e.toNat ≤ e'.toNat) && nonDecreasing rest

/-- `Rescale()` (R136). A table that is not non-decreasing has a negative count, which faults (R16, R132, log 10). -/
def tableRescale (t : Table) : Except Fault Table :=
  if nonDecreasing t.toList = true then
    writeTable (rescaleEntries t.toList) (by simp [rescaleEntries_length])
  else .error .negative

/-- `Update(sym)` (R134): increment, then rescale if the total has reached MAX_FREQ. -/
def tableUpdate (t : Table) (sym : Nat) : Except Fault Table :=
  match writeTable (bumpFrom sym 0 t.toList) (by simp [bumpFrom_length]) with
  | .ok t' => if Config.maxFreq ≤ total t' then tableRescale t' else .ok t'
  | .error f => .error f

/-- `Preload(sym, count)` (R140): `Update(sym)`, `count` times. -/
def tablePreload (sym : Nat) : Nat → Table → Except Fault Table
  | 0, t => .ok t
  | n + 1, t =>
    match tableUpdate t sym with
    | .ok t' => tablePreload sym n t'
    | .error f => .error f

/-! ### Lookups -/

/-- The first symbol from `sym` on whose upper entry is over `v`; the list holds the upper entries from `sym`'s on. -/
def findFrom (v : Nat) : Nat → List Entry → Option Nat
  | _, [] => none
  | sym, e :: rest => if v < e.toNat then some sym else findFrom v (sym + 1) rest

/-- The least symbol in `0..256` with `v < freqs[sym+1]` (R139), `none` if there is none. -/
def findSymbol (t : Table) (v : Nat) : Option Nat := findFrom v 0 t.toList.tail

/-- `SymbolFor(v)`'s symbol (R139). With `v >= freqs[257]` the primitive is undefined and faults; the command rejects
such a `v` (R143) and the decoder never produces one (R208, log 10). -/
def symbolFor (t : Table) (v : Nat) : Except Fault Nat :=
  match findSymbol t v with
  | some sym => .ok sym
  | none => .error .noSymbol

/-! ### What each table command does to a table: its DOUT and the table after -/

/-- PRELOAD (R141). -/
def preloadTable (sym count : Nat) (t : Table) : Except Fault (Operand × Table) :=
  match tablePreload sym count t with
  | .ok t' => .ok (0, t')
  | .error f => .error f

/-- PROB (R142): the range before the update (R133, R138). -/
def probTable (sym : Nat) (t : Table) : Except Fault (Operand × Table) :=
  match tableUpdate t sym with
  | .ok t' => .ok (packRange (tableAt t sym) (tableAt t (sym + 1)) (total t), t')
  | .error f => .error f

/-- SYMFOR (R143): the symbol and its range before the update (R139). -/
def symforTable (v : Nat) (t : Table) : Except Fault (Operand × Table) :=
  match symbolFor t v with
  | .error f => .error f
  | .ok sym =>
    match tableUpdate t sym with
    | .ok t' => .ok (packSymbolRange sym (tableAt t sym) (tableAt t (sym + 1)) (total t), t')
    | .error f => .error f

/-- UPDATE (R144). -/
def updateTable (sym : Nat) (t : Table) : Except Fault (Operand × Table) :=
  match tableUpdate t sym with
  | .ok t' => .ok (0, t')
  | .error f => .error f

/-- RESCALE (R145). -/
def rescaleTable (t : Table) : Except Fault (Operand × Table) :=
  match tableRescale t with
  | .ok t' => .ok (0, t')
  | .error f => .error f

/-- The SYMFOR operand check: `DIN < freqs[257]` (R76). -/
def scaledInRange (t : Table) (v : Operand) : Bool := v.toNat < total t

/-! ### Running a table command on a unit -/

/-- A table command on ENC: only `freqs` is written. -/
def onEncTable (f : Table → Except Fault (Operand × Table)) (x : EncSide) : Run EncSide Operand :=
  Run.lift (f x.unit.freqs) fun r => .done r.1 { x with unit := { x.unit with freqs := r.2 } }

/-- A table command on DEC: only `freqs` is written. -/
def onDecTable (f : Table → Except Fault (Operand × Table)) (x : DecSide) : Run DecSide Operand :=
  Run.lift (f x.unit.freqs) fun r => .done r.1 { x with unit := { x.unit with freqs := r.2 } }

/-- `enc.preload sym` (R141), the count in DIN. -/
def execEncPreload (sym : Nat) (s : State) : Host.Outcome State Fault Refusal :=
  checked s.enc.phase (symbolInRange sym) s <| endEnc (.encPreload sym) s (onEncTable (preloadTable sym s.din.toNat) (encSide s))

/-- `dec.preload sym` (R141), the count in DIN. -/
def execDecPreload (sym : Nat) (s : State) : Host.Outcome State Fault Refusal :=
  checked s.dec.phase (symbolInRange sym) s <| endDec (.decPreload sym) s (onDecTable (preloadTable sym s.din.toNat) (decSide s))

/-- `enc.prob sym` (R142). -/
def execEncProb (sym : Nat) (s : State) : Host.Outcome State Fault Refusal :=
  checked s.enc.phase (symbolInRange sym) s <| endEnc (.encProb sym) s (onEncTable (probTable sym) (encSide s))

/-- `dec.prob sym` (R142). -/
def execDecProb (sym : Nat) (s : State) : Host.Outcome State Fault Refusal :=
  checked s.dec.phase (symbolInRange sym) s <| endDec (.decProb sym) s (onDecTable (probTable sym) (decSide s))

/-- `enc.symfor` (R143), the scaled value in DIN. -/
def execEncSymfor (s : State) : Host.Outcome State Fault Refusal :=
  checked s.enc.phase (scaledInRange s.enc.freqs s.din) s <|
    endEnc .encSymfor s (onEncTable (symforTable s.din.toNat) (encSide s))

/-- `dec.symfor` (R143), the scaled value in DIN. -/
def execDecSymfor (s : State) : Host.Outcome State Fault Refusal :=
  checked s.dec.phase (scaledInRange s.dec.freqs s.din) s <|
    endDec .decSymfor s (onDecTable (symforTable s.din.toNat) (decSide s))

/-- `enc.update sym` (R144). -/
def execEncUpdate (sym : Nat) (s : State) : Host.Outcome State Fault Refusal :=
  checked s.enc.phase (symbolInRange sym) s <| endEnc (.encUpdate sym) s (onEncTable (updateTable sym) (encSide s))

/-- `dec.update sym` (R144). -/
def execDecUpdate (sym : Nat) (s : State) : Host.Outcome State Fault Refusal :=
  checked s.dec.phase (symbolInRange sym) s <| endDec (.decUpdate sym) s (onDecTable (updateTable sym) (decSide s))

/-- `enc.rescale` (R145). -/
def execEncRescale (s : State) : Host.Outcome State Fault Refusal :=
  checked s.enc.phase true s <| endEnc .encRescale s (onEncTable rescaleTable (encSide s))

/-- `dec.rescale` (R145). -/
def execDecRescale (s : State) : Host.Outcome State Fault Refusal :=
  checked s.dec.phase true s <| endDec .decRescale s (onDecTable rescaleTable (decSide s))

end Sys2Proof.Machine
end

