-- ==== Sys2Proof/Machine/Renorm.lean ====
section
/-! DEFINITION. What the encoder and the decoder share of the renormalization engine (42_encoder.md R171, R173 to R176,
43_decoder.md R205): narrowing, case selection, and the shift of the interval registers. -/
namespace Sys2Proof.Machine

/-- The interval registers `(low, high)`. -/
structure Interval where
  low : Code
  high : Code
  deriving DecidableEq, Repr

/-- One of the three renormalization cases (R173). -/
inductive Shift where
  | e1
  | e2
  | e3
  deriving DecidableEq, Repr

/-- `range = high - low + 1` (R171). -/
def intervalRange (iv : Interval) : Except Fault Nat :=
  match minus iv.high.toNat iv.low.toNat with
  | .ok d => .ok (d + 1)
  | .error f => .error f

/-- `low + (range * hc) div t - 1` as a code value: Narrow's new `high` (R171). -/
def narrowedHigh (low range hc t : Nat) : Except Fault Code :=
  match divide (range * hc) t with
  | .error f => .error f
  | .ok q =>
    match minus (low + q) 1 with
    | .error f => .error f
    | .ok h => narrowTo 32 h

/-- `low + (range * lc) div t` as a code value: Narrow's new `low` (R171). -/
def narrowedLow (low range lc t : Nat) : Except Fault Code :=
  match divide (range * lc) t with
  | .error f => .error f
  | .ok q => narrowTo 32 (low + q)

/-- `Narrow(low, high, lc, hc, t)` (R171): both bounds from the old `low`, the products exact (R10). -/
def narrowInterval (iv : Interval) (lc hc t : Nat) : Except Fault Interval :=
  match intervalRange iv with
  | .error f => .error f
  | .ok range =>
    match narrowedHigh iv.low.toNat range hc t with
    | .error f => .error f
    | .ok h =>
      match narrowedLow iv.low.toNat range lc t with
      | .error f => .error f
      | .ok l => .ok ⟨l, h⟩

/-- `RenormCase(low, high)` (R173), in the order E1, E2, E3; `none` exits the loop. -/
def renormCase (iv : Interval) : Option Shift :=
  if iv.high.toNat < Config.half then some .e1
  else if Config.half ≤ iv.low.toNat then some .e2
  else if Config.quarter ≤ iv.low.toNat ∧ iv.high.toNat < Config.threeQuarters then some .e3
  else none

/-- What a shift subtracts before it doubles: nothing, HALF or QUARTER (R174, R175, R176). -/
def shiftOffset : Shift → Nat
  | .e1 => 0
  | .e2 => Config.half
  | .e3 => Config.quarter

/-- `2*(v - offset) + bit` as a code value: the shift of one register (R174 to R176, R205). -/
def shiftCode (sh : Shift) (v : Code) (bit : Nat) : Except Fault Code :=
  match minus v.toNat (shiftOffset sh) with
  | .error f => .error f
  | .ok d => narrowTo 32 (2 * d + bit)

/-- The shift of `low`, which takes a 0, and of `high`, which takes a 1 (R174 to R176). -/
def shiftInterval (sh : Shift) (iv : Interval) : Except Fault Interval :=
  match shiftCode sh iv.low 0 with
  | .error f => .error f
  | .ok l =>
    match shiftCode sh iv.high 1 with
    | .error f => .error f
    | .ok h => .ok ⟨l, h⟩

end Sys2Proof.Machine
end

