-- ==== Sys2Proof/Machine/Decoder.lean ====
section
/-! DEFINITION. The decoder (43_decoder.md): `dec.init` with its priming, and `dec.code` with its renormalization. -/
namespace Sys2Proof.Machine

/-- DEC's interval registers. -/
def decInterval (u : DecUnit) : Interval := ⟨u.low, u.high⟩

/-- DEC with its interval registers written. -/
def setDecInterval (u : DecUnit) (iv : Interval) : DecUnit := { u with low := iv.low, high := iv.high }

/-- DEC as `dec.init` has it before priming (R200): fresh table, full interval, reader reset, Active. `value` is written
last, so until then it is what it was. -/
def startDec (u : DecUnit) : DecUnit :=
  { readerReset u with low := 0, high := BitVec.ofNat 32 Config.maxCode, freqs := freshTable, phase := .active }

/-- DEC's side with `value` written. -/
def setValue (v : Code) (x : DecSide) : DecSide := { x with unit := { x.unit with value := v } }

/-- `value <- ReadBits(W)` (R201): the first stream bit becomes `value[W-1]`. -/
def primeValue (x : DecSide) : Run DecSide Unit :=
  (readBits Config.codeWidth x).andThen fun v y =>
    Run.lift (narrowTo 32 v) fun c => .done () (setValue c y)

/-- `count = ((value - low + 1) * t - 1) div range` (R204). -/
def scaledCount (value : Code) (iv : Interval) (t : Nat) : Except Fault Nat :=
  match intervalRange iv with
  | .error f => .error f
  | .ok range =>
    match minus value.toNat iv.low.toNat with
    | .error f => .error f
    | .ok d =>
      match minus ((d + 1) * t) 1 with
      | .error f => .error f
      | .ok p => divide p range

/-- DecE1, DecE2, DecE3 (R205): `low` and `high` as on the encoder, then `value` with one freshly read bit. -/
def decShift (sh : Shift) (x : DecSide) : Run DecSide Unit :=
  Run.lift (shiftInterval sh (decInterval x.unit)) fun iv =>
    (rbit { x with unit := setDecInterval x.unit iv }).andThen fun b y =>
      Run.lift (shiftCode sh y.unit.value b.toNat) fun v => .done () (setValue v y)

/-- DecRenorm, the loop of R203: shift until RenormCase says NONE. The first argument bounds the shifts (log 11). -/
def decRenorm : Nat → DecSide → Run DecSide Unit
  | 0, x =>
    match renormCase (decInterval x.unit) with
    | none => .done () x
    | some _ => .broken .endlessShifts
  | n + 1, x =>
    match renormCase (decInterval x.unit) with
    | none => .done () x
    | some sh => (decShift sh x).andThen fun _ y => decRenorm n y

/-- The symbol that DEC's registers select, before anything is written (R203, R204, R139). -/
def selectSymbol (u : DecUnit) : Except Fault Nat :=
  match scaledCount u.value (decInterval u) (total u.freqs) with
  | .error f => .error f
  | .ok count => symbolFor u.freqs count

/-- DEC after SymbolFor and Narrow for symbol `sym`, before the loop of R203: the range is read before the update. -/
def decNarrow (sym : Nat) (u : DecUnit) : Except Fault DecUnit :=
  match tableUpdate u.freqs sym with
  | .error f => .error f
  | .ok t' =>
    match narrowInterval (decInterval u) (tableAt u.freqs sym) (tableAt u.freqs (sym + 1)) (total u.freqs) with
    | .error f => .error f
    | .ok iv => .ok (setDecInterval { u with freqs := t' } iv)

/-- `if sym == 256: phase <- Done` (R203). -/
def finishDec (sym : Nat) (x : DecSide) : DecSide :=
  if sym = Config.eofSymbol then { x with unit := { x.unit with phase := .done } } else x

/-- The body of `dec.code` (R203); its result is the symbol. -/
def decodeSymbol (x : DecSide) : Run DecSide Nat :=
  Run.lift (selectSymbol x.unit) fun sym =>
    Run.lift (decNarrow sym x.unit) fun u =>
      (decRenorm Config.shiftFuel { x with unit := u }).andThen fun _ y => .done sym (finishDec sym y)

/-- `dec.init` (R200): legal in every phase; an error while priming makes DEC Failed. -/
def execDecInit (s : State) : Host.Outcome State Fault Refusal :=
  endDec .decInit s ((primeValue ⟨startDec s.dec, s.source⟩).andThen fun _ x => .done 0 x)

/-- `dec.code` (R203). -/
def execDecCode (s : State) : Host.Outcome State Fault Refusal :=
  checked s.dec.phase true s <|
    endDec .decCode s ((decodeSymbol (decSide s)).andThen fun sym x => .done (BitVec.ofNat 64 sym) x)

end Sys2Proof.Machine
end

