-- ==== Sys2Proof/Machine/Encoder.lean ====
section
/-! DEFINITION. The encoder (42_encoder.md): `enc.init`, `enc.code` with its renormalization, and the EOF flush. -/
namespace Sys2Proof.Machine

/-- ENC's interval registers. -/
def encInterval (u : EncUnit) : Interval := ⟨u.low, u.high⟩

/-- ENC with its interval registers written. -/
def setEncInterval (u : EncUnit) (iv : Interval) : EncUnit := { u with low := iv.low, high := iv.high }

/-- ENC as `enc.init` leaves it (R170); the writer's buffered bits are discarded. -/
def freshEnc : EncUnit where
  low := 0
  high := BitVec.ofNat 32 Config.maxCode
  pending := 0
  freqs := freshTable
  wbuf := 0
  wcount := 0
  phase := .active

/-- `EmitWithPending(b)` (R177): `b`, then `pending_bits` copies of `1 - b`, then the counter is cleared. -/
def emitWithPending (b : Bool) (x : EncSide) : Run EncSide Unit :=
  (wbit b x).andThen fun _ y =>
    (repeatBit (!b) y.unit.pending y).andThen fun _ z => .done () { z with unit := { z.unit with pending := 0 } }

/-- What a shift emits or defers on the encoder, before the registers move: 0 for E1, 1 for E2, one more pending bit for
E3 (R174, R175, R176). -/
def encShiftBits (sh : Shift) (x : EncSide) : Run EncSide Unit :=
  match sh with
  | .e1 => emitWithPending false x
  | .e2 => emitWithPending true x
  | .e3 => .done () { x with unit := { x.unit with pending := x.unit.pending + 1 } }

/-- EncE1, EncE2, EncE3 (R174, R175, R176). -/
def encShift (sh : Shift) (x : EncSide) : Run EncSide Unit :=
  (encShiftBits sh x).andThen fun _ y =>
    Run.lift (shiftInterval sh (encInterval y.unit)) fun iv => .done () { y with unit := setEncInterval y.unit iv }

/-- EncRenorm, the loop of R178: shift until RenormCase says NONE. The first argument bounds the shifts (log 11). -/
def encRenorm : Nat → EncSide → Run EncSide Unit
  | 0, x =>
    match renormCase (encInterval x.unit) with
    | none => .done () x
    | some _ => .broken .endlessShifts
  | n + 1, x =>
    match renormCase (encInterval x.unit) with
    | none => .done () x
    | some sh => (encShift sh x).andThen fun _ y => encRenorm n y

/-- `phase <- p` on ENC's side. -/
def setEncPhase (p : Phase) (x : EncSide) : EncSide := { x with unit := { x.unit with phase := p } }

/-- ENC's side as EncFinish starts its final bit: Flushing, one more pending bit (R179). -/
def beginFlush (x : EncSide) : EncSide :=
  { x with unit := { x.unit with phase := .flushing, pending := x.unit.pending + 1 } }

/-- `EncFinish()`, the EOF flush (R179): the final bit is 0 if `low < QUARTER`, else 1. -/
def encFinish (x : EncSide) : Run EncSide Unit :=
  (emitWithPending (!decide (x.unit.low.toNat < Config.quarter)) (beginFlush x)).andThen fun _ y =>
    (writerFlush y).andThen fun _ z => .done () (setEncPhase .done z)

/-- ENC after ProbabilityFor(sym) and Narrow, before the loop of R178: the range is read before the update. -/
def encNarrow (sym : Nat) (u : EncUnit) : Except Fault EncUnit :=
  match tableUpdate u.freqs sym with
  | .error f => .error f
  | .ok t' =>
    match narrowInterval (encInterval u) (tableAt u.freqs sym) (tableAt u.freqs (sym + 1)) (total u.freqs) with
    | .error f => .error f
    | .ok iv => .ok (setEncInterval { u with freqs := t' } iv)

/-- The body of `enc.code sym` (R178). -/
def encodeSymbol (sym : Nat) (x : EncSide) : Run EncSide Unit :=
  Run.lift (encNarrow sym x.unit) fun u =>
    (encRenorm Config.shiftFuel { x with unit := u }).andThen fun _ y =>
      if sym = Config.eofSymbol then encFinish y else .done () y

/-- `enc.init` (R170): legal in every phase; touches neither sink nor source. -/
def execEncInit (s : State) : Host.Outcome State Fault Refusal :=
  .next (respond 0 { s with enc := freshEnc })

/-- `enc.code sym` (R178). -/
def execEncCode (sym : Nat) (s : State) : Host.Outcome State Fault Refusal :=
  checked s.enc.phase (symbolInRange sym) s <|
    endEnc (.encCode sym) s ((encodeSymbol sym (encSide s)).andThen fun _ x => .done 0 x)

end Sys2Proof.Machine
end

