-- ==== Sys2Proof/Machine/StateRead.lean ====
section
/-! DEFINITION. RDSTATE (44_state_read.md): `enc.rdstate` and `dec.rdstate`. -/
namespace Sys2Proof.Machine

/-- `StateReg(ENC, sel)` as a number (R221, R35); `none` for a reserved selector. -/
def encRegister (u : EncUnit) (sel : Nat) : Option Nat :=
  if sel ≤ 257 then some (tableAt u.freqs sel)
  else if sel = 258 then some u.low.toNat
  else if sel = 259 then some u.high.toNat
  else if sel = 260 then some u.pending
  else if sel = 261 then some (phaseCode u.phase)
  else if sel = 262 then some u.wcount.toNat
  else if sel = 263 then some u.wbuf.toNat
  else none

/-- `StateReg(DEC, sel)` as a number (R221, R35); `none` for a reserved selector. -/
def decRegister (u : DecUnit) (sel : Nat) : Option Nat :=
  if sel ≤ 257 then some (tableAt u.freqs sel)
  else if sel = 258 then some u.low.toNat
  else if sel = 259 then some u.high.toNat
  else if sel = 260 then some u.value.toNat
  else if sel = 261 then some (phaseCode u.phase)
  else if sel = 262 then some u.rcount.toNat
  else if sel = 263 then some u.rbuf.toNat
  else if sel = 264 then some u.padUsed
  else if sel = 265 then some u.srcEnd.toNat
  else none

/-- Answer a read of selector `sel`, whose register holds `v`, on a unit in phase `p`: the register's low 64 bits (R221),
but in Idle and Failed a free value, fresh on each read, for every selector but that of `phase` (R222, log 5). -/
def answerRead (p : Phase) (sel : Nat) (v : Option Nat) (s : State) : State :=
  match v with
  | none => reject .badOperand s
  | some n =>
    if dataUnspecified p = true ∧ sel ≠ phaseSelector then
      respond (Config.freeRead s.draws) { s with draws := s.draws + 1 }
    else respond (BitVec.ofNat 64 n) s

/-- `enc.rdstate sel` (R220): legal in every phase; no register of ENC changes. -/
def execEncRdstate (sel : Nat) (s : State) : Host.Outcome State Fault Refusal :=
  .next (answerRead s.enc.phase sel (encRegister s.enc sel) s)

/-- `dec.rdstate sel` (R220): legal in every phase; no register of DEC changes. -/
def execDecRdstate (sel : Nat) (s : State) : Host.Outcome State Fault Refusal :=
  .next (answerRead s.dec.phase sel (decRegister s.dec sel) s)

end Sys2Proof.Machine
end

