-- ==== Sys2Proof/Machine/Dispatch.lean ====
section
/-! DEFINITION. The meaning of every command, one arm per constructor (30_encoding.md R74). -/
namespace Sys2Proof.Machine

def exec (i : Instr) (s : State) : Host.Outcome State Fault Refusal :=
  match i with
  | .encInit => Sys2Proof.Machine.execEncInit s
  | .encPreload sym => Sys2Proof.Machine.execEncPreload sym s
  | .encCode sym => Sys2Proof.Machine.execEncCode sym s
  | .encProb sym => Sys2Proof.Machine.execEncProb sym s
  | .encSymfor => Sys2Proof.Machine.execEncSymfor s
  | .encUpdate sym => Sys2Proof.Machine.execEncUpdate sym s
  | .encRescale => Sys2Proof.Machine.execEncRescale s
  | .encBits n => Sys2Proof.Machine.execEncBits n s
  | .encBflush => Sys2Proof.Machine.execEncBflush s
  | .encRdstate sel => Sys2Proof.Machine.execEncRdstate sel s
  | .decInit => Sys2Proof.Machine.execDecInit s
  | .decPreload sym => Sys2Proof.Machine.execDecPreload sym s
  | .decCode => Sys2Proof.Machine.execDecCode s
  | .decProb sym => Sys2Proof.Machine.execDecProb sym s
  | .decSymfor => Sys2Proof.Machine.execDecSymfor s
  | .decUpdate sym => Sys2Proof.Machine.execDecUpdate sym s
  | .decRescale => Sys2Proof.Machine.execDecRescale s
  | .decBits n => Sys2Proof.Machine.execDecBits n s
  | .decRdstate sel => Sys2Proof.Machine.execDecRdstate sel s

end Sys2Proof.Machine
end

