-- ==== Sys2Proof/Machine/Fetch.lean ====
section
/-! DEFINITION. What the block does with a presented command word (30_encoding.md R78, 60_exceptions.md R234, R239). -/
namespace Sys2Proof.Machine

/-- A presented word: the decoded command runs; any other word is an ILLEGAL_COMMAND (R78, R234, R238), checked before
phase and operand (R239). -/
def runWord (cmd : CmdWord) (s : State) : Host.Outcome State Fault Refusal :=
  match decode cmd with
  | .ok i => exec i s
  | .error _ => .next (reject .illegalCommand s)

end Sys2Proof.Machine
end

