-- ==== Sys2Proof/Machine/Step.lean ====
section
/-! DEFINITION. One step of the machine: the host's next event (30_encoding.md R70, 70_reset_and_hazards.md R260). -/
namespace Sys2Proof.Machine

/-- One step: the reset input, the command in progress going on, or the next command; with none of them the block holds
all state (R251). -/
def step (s : State) : Host.Outcome State Fault Refusal :=
  match takeEvent s with
  | .nothing => .next s
  | .reset s' => .next (resetBlock s')
  | .command cmd s' => runWord cmd s'
  | .resume i s' => exec i s'

/-- `s` with the opcode-table word `w` as the host's next event, so that the next step runs it (log 8). -/
def State.withFetchWord (s : State) (nbits w : Nat) : State := presentWord (tableWord nbits w) s

end Sys2Proof.Machine
end

