-- ==== Sys2Proof/Machine/Assembler.lean ====
section
/-! DEFINITION. The assembler of 30_encoding.md R80 and the pseudo-instructions of R81: from one line of text, as a list
of characters, to the host events it stands for. -/
namespace Sys2Proof.Machine

/-- A line's tokens (R80). -/
inductive Token where
  /-- A mnemonic or a number, as written. -/
  | word (cs : List Char)
  /-- A character in single quotes: its byte value. -/
  | charValue (n : Nat)
  /-- A string in double quotes (R81). -/
  | text (cs : List Char)
  | comma
  deriving DecidableEq, Repr

/-- Why a line does not assemble. -/
inductive AsmError where
  /-- A quote that is not closed, or a quoted character that is no byte value. -/
  | badQuote
  /-- A word that is no number where one is needed. -/
  | badNumber
  | unknownMnemonic
  /-- The operands are not those of the mnemonic's syntax. -/
  | badOperands
  /-- An operand that does not fit its field (R80), or is out of a pseudo-instruction's range (R81). -/
  | operandTooLarge
  deriving DecidableEq, Repr

/-! ### Lexing -/

/-- The word collected so far (its characters in reverse), put before the tokens that follow it. -/
def flushWord (acc : List Char) (ts : List Token) : List Token :=
  match acc with
  | [] => ts
  | _ => .word acc.reverse :: ts

/-- What separates words (DESIGN CHOICE, log 13). -/
def isBlank (c : Char) : Bool := c = ' ' || c = '\t' || c = '\r'

/-- The tokens of a line. `inText` holds the characters of an open string, in reverse; `acc` those of an open word.
`;` outside a quote starts a comment (R80). A comma or an opening quote ends a word, with or without a blank before it, and
whatever follows a closing quote starts a new token (DESIGN CHOICE, log 13). A string ends at the next double quote, and nothing in it stands for another
character, so it cannot hold a double quote (DESIGN CHOICE, log 13). -/
def lex (inText : Option (List Char)) (acc : List Char) : List Char → Except AsmError (List Token)
  | [] =>
    match inText with
    | some _ => .error .badQuote
    | none => .ok (flushWord acc [])
  | c :: rest =>
    match inText with
    | some t =>
      if c = '"' then (lex none [] rest).map fun ts => .text t.reverse :: ts
      else lex (some (c :: t)) [] rest
    | none =>
      if c = '"' then (lex (some []) [] rest).map (flushWord acc)
      else if c = '\'' then
        match rest with
        | d :: '\'' :: rest' =>
          if d.toNat < 256 then (lex none [] rest').map fun ts => flushWord acc (.charValue d.toNat :: ts)
          else .error .badQuote
        | _ => .error .badQuote
      else if c = ';' then .ok (flushWord acc [])
      else if c = ',' then (lex none [] rest).map fun ts => flushWord acc (.comma :: ts)
      else if isBlank c = true then (lex none [] rest).map (flushWord acc)
      else lex none (c :: acc) rest

/-! ### Numbers (R80: decimal, `0x` hexadecimal, `0b` binary) -/

/-- The value of a digit character, `none` for any other (hexadecimal letters of either case: DESIGN CHOICE, log 13). -/
def digitValue (c : Char) : Option Nat :=
  if 48 ≤ c.toNat ∧ c.toNat ≤ 57 then some (c.toNat - 48)
  else if 97 ≤ c.toNat ∧ c.toNat ≤ 102 then some (c.toNat - 87)
  else if 65 ≤ c.toNat ∧ c.toNat ≤ 70 then some (c.toNat - 55)
  else none

/-- The digits of a number in base `b`, after those of value `n`. -/
def digitsFrom (b n : Nat) : List Char → Except AsmError Nat
  | [] => .ok n
  | c :: rest =>
    match digitValue c with
    | none => .error .badNumber
    | some d => if d < b then digitsFrom b (n * b + d) rest else .error .badNumber

/-- A number of at least one digit in base `b`. -/
def digits (b : Nat) : List Char → Except AsmError Nat
  | [] => .error .badNumber
  | c :: rest => digitsFrom b 0 (c :: rest)

/-- A number as R80 writes it. -/
def numberOf : List Char → Except AsmError Nat
  | '0' :: 'x' :: rest => digits 16 rest
  | '0' :: 'b' :: rest => digits 2 rest
  | cs => digits 10 cs

/-- An operand's value. -/
def tokenValue : Token → Except AsmError Nat
  | .word cs => numberOf cs
  | .charValue n => .ok n
  | .text _ => .error .badOperands
  | .comma => .error .badOperands

/-- The numbers of an operand list separated by commas. -/
def operandsOf : List Token → Except AsmError (List Nat)
  | [] => .ok []
  | [t] => (tokenValue t).map fun n => [n]
  | t :: .comma :: u :: rest =>
    match tokenValue t with
    | .error e => .error e
    | .ok n => (operandsOf (u :: rest)).map fun ns => n :: ns
  | _ :: _ => .error .badOperands

/-! ### Statements -/

/-- The command word with its DIN, if the operands fit their fields (R80). -/
def emit (i : Instr) (din : Nat) : Except AsmError (List HostEvent) :=
  if i.wellFormed = true ∧ din < 2 ^ 64 then .ok [.command (encode i) (BitVec.ofNat 64 din)]
  else .error .operandTooLarge

/-- The commands of both units, by name after `enc.` and `dec.` and by operands (R80). -/
def emitCommand (isDec : Bool) (name : List Char) (ops : List Nat) : Except AsmError (List HostEvent) :=
  match name, ops with
  | ['i', 'n', 'i', 't'], [] => emit (if isDec then .decInit else .encInit) 0
  | ['p', 'r', 'e', 'l', 'o', 'a', 'd'], [sym, count] =>
    emit (if isDec then .decPreload sym else .encPreload sym) count
  | ['p', 'r', 'o', 'b'], [sym] => emit (if isDec then .decProb sym else .encProb sym) 0
  | ['s', 'y', 'm', 'f', 'o', 'r'], [v] => emit (if isDec then .decSymfor else .encSymfor) v
  | ['u', 'p', 'd', 'a', 't', 'e'], [sym] => emit (if isDec then .decUpdate sym else .encUpdate sym) 0
  | ['r', 'e', 's', 'c', 'a', 'l', 'e'], [] => emit (if isDec then .decRescale else .encRescale) 0
  | ['r', 'd', 's', 't', 'a', 't', 'e'], [sel] => emit (if isDec then .decRdstate sel else .encRdstate sel) 0
  | ['c', 'o', 'd', 'e'], [sym] => if isDec then .error .badOperands else emit (.encCode sym) 0
  | ['c', 'o', 'd', 'e'], [] => if isDec then emit .decCode 0 else .error .badOperands
  | ['b', 'i', 't', 's'], [n, v] => if isDec then .error .badOperands else emit (.encBits n) v
  | ['b', 'i', 't', 's'], [n] => if isDec then emit (.decBits n) 0 else .error .badOperands
  | ['b', 'f', 'l', 'u', 's', 'h'], [] => if isDec then .error .unknownMnemonic else emit .encBflush 0
  | ['e', 'o', 'f'], [] => if isDec then .error .unknownMnemonic else emit (.encCode 256) 0
  | ['b', 'y', 't', 'e'], [b] =>
    if isDec then .error .unknownMnemonic
    else if b ≤ 255 then emit (.encCode b) 0 else .error .operandTooLarge
  | ['w', 'b', 'i', 't'], [b] =>
    if isDec then .error .unknownMnemonic
    else if b ≤ 1 then emit (.encBits 1) b else .error .operandTooLarge
  | ['r', 'b', 'i', 't'], [] => if isDec then emit (.decBits 1) 0 else .error .unknownMnemonic
  | _, _ => .error .unknownMnemonic

/-- `enc.code c` for each byte of a string, then `enc.code 256` (R81). Each character of code below 256 is the one byte of
that code, and a string with any other character is refused (DESIGN CHOICE, log 13). -/
def emitText : List Char → Except AsmError (List HostEvent)
  | [] => emit (.encCode 256) 0
  | c :: rest =>
    if c.toNat < 256 then
      match emit (.encCode c.toNat) 0, emitText rest with
      | .ok a, .ok b => .ok (a ++ b)
      | .error e, _ => .error e
      | .ok _, .error e => .error e
    else .error .operandTooLarge

/-- One statement from its tokens. -/
def assembleTokens : List Token → Except AsmError (List HostEvent)
  | [] => .ok []
  | [.word ['e', 'n', 'c', '.', 's', 't', 'r', 'i', 'n', 'g'], .text cs] =>
    (emitText cs).map fun es => .command (encode .encInit) 0 :: es
  | .word ('e' :: 'n' :: 'c' :: '.' :: name) :: rest =>
    match operandsOf rest with
    | .ok ops => emitCommand false name ops
    | .error e => .error e
  | .word ('d' :: 'e' :: 'c' :: '.' :: name) :: rest =>
    match operandsOf rest with
    | .ok ops => emitCommand true name ops
    | .error e => .error e
  | _ :: _ => .error .unknownMnemonic

/-- One line of assembly (R80, R81): the host events it stands for, none for an empty or comment line. -/
def assembleLine (line : List Char) : Except AsmError (List HostEvent) :=
  match lex none [] line with
  | .ok ts => assembleTokens ts
  | .error e => .error e

end Sys2Proof.Machine
end

