-- ==== Sys2Proof/Machine/Runs.lean ====
section
/-! DEFINITION. The runs the spec names: `encode(S)` (42_encoder.md R187) and `decode(B)` (43_decoder.md R214), the boot
sequences (70_reset_and_hazards.md R263, R264) as host events, and the premises of claims about a stream (R274). -/
namespace Sys2Proof.Machine

/-- The host presents the command `i` with DIN `din`. -/
def hostCommand (i : Instr) (din : Operand) : HostEvent := .command (encode i) din

/-- The preload commands of a histogram on ENC, in list order (R140, R263 step 3). -/
def encPreloads (histogram : List (Nat × Operand)) : List HostEvent :=
  histogram.map fun p => hostCommand (.encPreload p.1) p.2

/-- The preload commands of a histogram on DEC, in list order (R140, R264 step 3). -/
def decPreloads (histogram : List (Nat × Operand)) : List HostEvent :=
  histogram.map fun p => hostCommand (.decPreload p.1) p.2

/-- `encode(S)` (R187) after a preload of `histogram` (R263): INIT, the preloads, one CODE per byte, CODE 256. -/
def encodeEvents (histogram : List (Nat × Operand)) (bytes : List Byte) : List HostEvent :=
  hostCommand .encInit 0 :: encPreloads histogram
    ++ bytes.map (fun b => hostCommand (.encCode b.toNat) 0) ++ [hostCommand (.encCode 256) 0]

/-- Whether the last response was OK. -/
def responseOk (s : State) : Bool := s.status = statusCode .ok

/-- How a run the spec names ends. -/
inductive Ending (α : Type) where
  /-- Every command returned OK. -/
  | value (a : α)
  /-- A command returned this error status: the run fails with it and has no value (R187, R214). -/
  | failed (status : Byte)
  /-- A device never answers a command: the run is stuck and does not end (R248). -/
  | stuck
  /-- The run goes on after the commands counted (R214). -/
  | unfinished
  /-- The model stopped with a fault of its own (R16). -/
  | halted
  deriving DecidableEq, Repr

/-- Continue with the value of a run. -/
def Ending.andThen {α β : Type} (r : Ending α) (k : α → Ending β) : Ending β :=
  match r with
  | .value a => k a
  | .failed e => .failed e
  | .stuck => .stuck
  | .unfinished => .unfinished
  | .halted => .halted

/-- How many delays a device's coming answers hold. -/
def lateTurns {α : Type} : List (Turn α) → Nat
  | [] => 0
  | .late :: rest => lateTurns rest + 1
  | .answer _ :: rest => lateTurns rest

/-- Take at most `n` steps for a command that waits, as long as it waits. -/
def awaitResponse : Nat → State → Host.Outcome State Fault Refusal
  | 0, s => .next s
  | n + 1, s =>
    match s.waiting with
    | none => .next s
    | some _ =>
      match step s with
      | .next t => awaitResponse n t
      | .fault f => .fault f
      | .refused r => .refused r

/-- The host presents the event `e` and waits for the response (R70): one step, and one more for each delay of a device
(R248). A command that waits even then waits on a device that never answers. -/
def present (e : HostEvent) (s : State) : Host.Outcome State Fault Refusal :=
  match step { s with host := [e] } with
  | .next t => awaitResponse (lateTurns s.sink.answers + lateTurns s.source.answers) t
  | .fault f => .fault f
  | .refused r => .refused r

/-- Present the events of a list one after another, each of which must return OK (R187, R214). -/
def runAll : List HostEvent → State → Ending State
  | [], s => .value s
  | e :: rest, s =>
    match present e s with
    | .next t =>
      match t.waiting with
      | some _ => .stuck
      | none => if responseOk t = true then runAll rest t else .failed t.status
    | .fault _ => .halted
    | .refused _ => .halted

/-- `encode(S)` from state `s` (R187), after a preload of `histogram` (R263): its value is the bytes the sink received
during the run. -/
def encodeRun (histogram : List (Nat × Operand)) (bytes : List Byte) (s : State) : Ending (List Byte) :=
  (runAll (encodeEvents histogram bytes) s).andThen fun t => .value (t.sink.received.drop s.sink.received.length)

/-- `dec.code` until DOUT is 256 (R214), at most `n` times: the symbols before it. -/
def decodeLoop : Nat → State → Ending (List Nat)
  | 0, _ => .unfinished
  | n + 1, s =>
    (runAll [hostCommand .decCode 0] s).andThen fun t =>
      if t.dout.toNat = Config.eofSymbol then .value []
      else (decodeLoop n t).andThen fun syms => .value (t.dout.toNat :: syms)

/-- `decode(B)` from state `s` whose source is connected (R214), after a preload of `histogram` (R264), in at most `n`
`dec.code` commands. -/
def decodeRun (histogram : List (Nat × Operand)) (n : Nat) (s : State) : Ending (List Nat) :=
  (runAll (hostCommand .decInit 0 :: decPreloads histogram) s).andThen fun t => decodeLoop n t

/-- The most `dec.code` commands a run on a source of `bytes` bytes can take (R214). -/
def decodeBound (bytes : Nat) : Nat := 89 * (8 * bytes + Config.extraBits - Config.codeWidth + 1)

/-- A source positioned at the first of `bytes`, which answers `end` after the last (R264 step 1, R274
`source_is_stream`). -/
def sourceOf (bytes : List Byte) : Source where
  taken := []
  answers := bytes.map fun b => .answer (.byte b)
  thereafter := some .endOfData

/-- A sink that holds nothing and takes every byte (R263 step 1, R274 `no_io_error`, `devices_answer`). -/
def openSink : Sink where
  received := []
  passedOn := 0
  flushes := 0
  answers := []
  thereafter := some .ok

/-- `encode(S)` (R187), after a preload of `histogram` (R263), on a sink that starts empty. The block starts from reset;
`enc.init` rebuilds all of ENC's registers (R170). -/
def encodeOf (histogram : List (Nat × Operand)) (bytes : List Byte) : Ending (List Byte) :=
  encodeRun histogram bytes { State.reset with sink := openSink }

/-- `decode(B)` (R214), after a preload of `histogram` (R264), for a source that gives `bytes` and then `end`. -/
def decodeOf (histogram : List (Nat × Operand)) (bytes : List Byte) : Ending (List Nat) :=
  decodeRun histogram (decodeBound bytes.length) { State.reset with source := sourceOf bytes }

end Sys2Proof.Machine
end

