-- ==== Sys2Proof/Safety.lean ====
section
/-! DEFINITION. The terms claims use: the invariant of the machine (10_state.md R33, 41_frequency_model.md R132, R135,
42_encoder.md R183, 43_decoder.md R207), devices that answer (70_reset_and_hazards.md R274), and the bit-level view of
the streams and of coding one symbol, on plain natural numbers and lists of bits. -/
namespace Sys2Proof.Machine

/-! ### The invariant -/

/-- A legal frequency table between two primitives (R132), with the stronger bound of R135 on the total. -/
structure TableOk (t : Table) : Prop where
  zero : tableAt t 0 = 0
  rising : ∀ sym, sym ≤ 256 → tableAt t sym < tableAt t (sym + 1)
  bounded : total t < Config.maxFreq

/-- The interval between two commands of an Active unit (R183). -/
structure IntervalOk (iv : Interval) : Prop where
  lowBelowHalf : iv.low.toNat < Config.half
  highFromHalf : Config.half ≤ iv.high.toNat
  apart : iv.low.toNat < Config.quarter ∨ Config.threeQuarters ≤ iv.high.toNat

/-- The writer between commands (R27): fewer than 8 bits, in the low bits of `wbuf`. -/
structure WriterOk (u : EncUnit) : Prop where
  count : u.wcount.toNat < 8
  bits : u.wbuf.toNat < 2 ^ u.wcount.toNat

/-- The reader between commands (R28): at most 8 bits buffered, none once the source has ended. -/
structure ReaderOk (u : DecUnit) : Prop where
  count : u.rcount.toNat ≤ 8
  ended : u.srcEnd = true → u.rcount.toNat = 0

/-- The value window lies in the interval (R207). -/
structure ValueOk (u : DecUnit) : Prop where
  fromLow : u.low.toNat ≤ u.value.toNat
  toHigh : u.value.toNat ≤ u.high.toNat

/-- A phase in which a unit's registers are those of a stream: Active or Done. -/
def holdsStream (p : Phase) : Prop := p = .active ∨ p = .done

/-- ENC between commands. -/
structure EncOk (u : EncUnit) : Prop where
  phase : u.phase ≠ .flushing
  table : holdsStream u.phase → TableOk u.freqs
  interval : holdsStream u.phase → IntervalOk (encInterval u)
  writer : holdsStream u.phase → WriterOk u

/-- DEC between commands. -/
structure DecOk (u : DecUnit) : Prop where
  phase : u.phase ≠ .flushing
  pad : u.padUsed ≤ Config.extraBits
  table : holdsStream u.phase → TableOk u.freqs
  interval : holdsStream u.phase → IntervalOk (decInterval u)
  value : holdsStream u.phase → ValueOk u
  reader : holdsStream u.phase → ReaderOk u

/-- The response registers (R73, R231): a code of the table, and DOUT 0 with every code but OK. -/
structure ResponseOk (s : State) : Prop where
  code : s.status.toNat ≤ 5
  result : s.status ≠ 0 → s.dout = 0

/-- The command in progress, when it goes on, takes back no byte that the sink holds or that came from the source
(R58). -/
def Resumable (s : State) : Prop :=
  ∀ w, s.waiting = some w → ∀ t, exec (waitingCommand w) (restart s) = .next t →
    s.sink.received <+: t.sink.received ∧ s.source.taken <+: t.source.taken

/-- The machine's invariant. While a command waits on a device its unit is part way; what is legal then is the state it
runs again from, `restart s`, which between commands is `s` itself. -/
structure Inv (s : State) : Prop where
  response : ResponseOk s
  enc : EncOk (restart s).enc
  dec : DecOk (restart s).dec
  resumable : Resumable s

/-! ### Devices -/

/-- A device's coming answers, without the delays. -/
def answersOf {α : Type} : List (Turn α) → List α
  | [] => []
  | .late :: rest => answersOf rest
  | .answer a :: rest => a :: answersOf rest

/-- The sink answers `ok` to every call at once (R274 `no_io_error`, `devices_answer`). -/
structure SinkReady (k : Sink) : Prop where
  scripted : ∀ a ∈ k.answers, a = .answer .ok
  thereafter : k.thereafter = some .ok

/-- The sink answers `ok` to every call, after any delay (R274 `no_io_error`, `devices_answer`). -/
structure SinkAnswersOk (k : Sink) : Prop where
  scripted : ∀ a ∈ answersOf k.answers, a = .ok
  thereafter : k.thereafter = some .ok

/-- The source gives exactly `bytes`, each at once, and then answers `end` (R274 `source_is_stream`, `no_io_error`,
`devices_answer`). -/
structure SourceGives (src : Source) (bytes : List Byte) : Prop where
  scripted : src.answers = bytes.map fun b => .answer (.byte b)
  thereafter : src.thereafter = some .endOfData

/-- The source gives `bytes`, followed by anything, and never fails; each answer after any delay (R274
`source_is_stream`, `no_io_error`, `devices_answer`). -/
structure SourceHolds (src : Source) (bytes : List Byte) : Prop where
  scripted : ∃ more, answersOf src.answers = bytes.map .byte ++ more ∧ SourceAnswer.ioError ∉ more
  thereafter : ∃ a, src.thereafter = some a ∧ a ≠ .ioError

/-- The entry of a script for an answer, or for none at once. -/
def turnOf {α : Type} : Option α → Turn α
  | some a => .answer a
  | none => .late

/-- The sink answers `ok` to its next `n` calls, and to the one after them `a`, once or from then on; `a = none`: that
call is not answered at once, or never (R247, R248). -/
def SinkStopsAt (k : Sink) (n : Nat) (a : Option SinkAnswer) : Prop :=
  (∃ rest, k.answers = List.replicate n (.answer .ok) ++ turnOf a :: rest) ∨
    (k.answers = List.replicate n (.answer .ok) ∧ k.thereafter = a)

/-- The source gives `bytes`, and answers the call after them with `a`, once or from then on; `a = none`: that call is not
answered at once, or never (R247, R248). -/
def SourceStopsAt (src : Source) (bytes : List Byte) (a : Option SourceAnswer) : Prop :=
  (∃ rest, src.answers = (bytes.map fun b => .answer (.byte b)) ++ turnOf a :: rest) ∨
    (src.answers = (bytes.map fun b => .answer (.byte b)) ∧ src.thereafter = a)

/-- The same sink, answering `ok` to every call at once. -/
def openFrom (k : Sink) : Sink := { k with answers := [], thereafter := some .ok }

/-- How many SinkWrite and SinkFlush calls lie between two states of a sink that answered `ok` to all of them. -/
def callsMade (k k' : Sink) : Nat := (k'.received.length - k.received.length) + (k'.flushes - k.flushes)

/-! ### The streams as bits (R52, R53) -/

/-- The `n` low bits of `v`, most significant first (R53). -/
def msbBits (v : Nat) : Nat → List Bool
  | 0 => []
  | n + 1 => v.testBit n :: msbBits v n

/-- A byte's bits in stream order: bit 7 first (R52). -/
def byteBits (b : Byte) : List Bool := msbBits b.toNat 8

/-- The number whose bits are `l`, most significant first (R53, R104). -/
def bitsValue (l : List Bool) : Nat := l.foldl (fun v b => 2 * v + b.toNat) 0

/-- Every bit the writer has written: the sink's bytes, then the partial byte (R27, R52). -/
def writtenBits (x : EncSide) : List Bool :=
  x.sink.received.flatMap byteBits ++ msbBits x.unit.wbuf.toNat x.unit.wcount.toNat

/-- Every bit the reader will still supply when its source gives `bytes` and then `end`: the buffered bits, the bytes'
bits, then what is left of the padding budget (R103). -/
def upcomingBits (u : DecUnit) (bytes : List Byte) : List Bool :=
  msbBits u.rbuf.toNat u.rcount.toNat
    ++ (if u.srcEnd = true then [] else bytes.flatMap byteBits)
    ++ List.replicate (Config.extraBits - u.padUsed) false

/-- WriteBits calls one after another, each a value and a count (R109). -/
def writeAll : List (Operand × Nat) → EncSide → Run EncSide Unit
  | [], x => .done () x
  | p :: rest, x => (writeBits p.1 p.2 x).andThen fun _ y => writeAll rest y

/-- ReadBits calls one after another, each with its count (R109). -/
def readAll : List Nat → DecSide → Run DecSide (List Nat)
  | [], x => .done [] x
  | n :: rest, x => (readBits n x).andThen fun v y => (readAll rest y).andThen fun vs z => .done (v :: vs) z

/-! ### Coding one symbol on bits (R171 to R179, R203 to R205) -/

/-- The case of R173 on plain numbers. -/
def bitCase (low high : Nat) : Option Shift :=
  if high < Config.half then some .e1
  else if Config.half ≤ low then some .e2
  else if Config.quarter ≤ low ∧ high < Config.threeQuarters then some .e3
  else none

/-- The encoder as it codes one symbol, on plain numbers; `bits` are those it has emitted for this symbol. -/
structure Coder where
  low : Nat
  high : Nat
  pending : Nat
  bits : List Bool
  deriving DecidableEq, Repr

/-- `b`, then `pending` copies of its complement (R177). -/
def coderEmit (b : Bool) (c : Coder) : Coder :=
  { c with bits := c.bits ++ b :: List.replicate c.pending (!b), pending := 0 }

/-- Subtract the case's offset, double, and shift a 0 into `low` and a 1 into `high` (R174 to R176). -/
def coderMove (sh : Shift) (c : Coder) : Coder :=
  { c with low := 2 * (c.low - shiftOffset sh), high := 2 * (c.high - shiftOffset sh) + 1 }

/-- One shift (R174 to R176). -/
def coderShift (sh : Shift) (c : Coder) : Coder :=
  match sh with
  | .e1 => coderMove .e1 (coderEmit false c)
  | .e2 => coderMove .e2 (coderEmit true c)
  | .e3 => coderMove .e3 { c with pending := c.pending + 1 }

/-- At most `n` shifts, as long as a case applies (R178). -/
def coderRenorm : Nat → Coder → Coder
  | 0, c => c
  | n + 1, c =>
    match bitCase c.low c.high with
    | none => c
    | some sh => coderRenorm n (coderShift sh c)

/-- Narrow to the part `lc..hc` of `t` (R171). -/
def coderNarrow (lc hc t : Nat) (c : Coder) : Coder :=
  { c with
    low := c.low + (c.high - c.low + 1) * lc / t
    high := c.low + (c.high - c.low + 1) * hc / t - 1 }

/-- The EOF flush before padding (R179). -/
def coderFinish (c : Coder) : Coder :=
  coderEmit (!decide (c.low < Config.quarter)) { c with pending := c.pending + 1 }

/-- ENC at the start of a symbol, nothing emitted yet. -/
def coderOf (u : EncUnit) : Coder := ⟨u.low.toNat, u.high.toNat, u.pending, []⟩

/-- Coding symbol `sym` with at most 15 shifts (R178, R182), without the EOF flush. -/
def coderSymbol (sym : Nat) (t : Table) (c : Coder) : Coder :=
  coderRenorm 15 (coderNarrow (tableAt t sym) (tableAt t (sym + 1)) (total t) c)

/-- The decoder as it decodes one symbol, on plain numbers; `bits` are those still to be read. -/
structure Window where
  low : Nat
  high : Nat
  value : Nat
  bits : List Bool
  deriving DecidableEq, Repr

/-- At most `n` shifts, each reading one bit (R205); `none` where a bit is needed and none is left (R233). -/
def windowRenorm : Nat → Window → Option Window
  | 0, w => some w
  | n + 1, w =>
    match bitCase w.low w.high with
    | none => some w
    | some sh =>
      match w.bits with
      | [] => none
      | b :: rest =>
        windowRenorm n
          { low := 2 * (w.low - shiftOffset sh)
            high := 2 * (w.high - shiftOffset sh) + 1
            value := 2 * (w.value - shiftOffset sh) + b.toNat
            bits := rest }

/-- The count that selects the symbol (R204). -/
def windowCount (w : Window) (t : Nat) : Nat := ((w.value - w.low + 1) * t - 1) / (w.high - w.low + 1)

/-- DEC's window when its source gives `bytes` and then `end`. -/
def windowOf (u : DecUnit) (bytes : List Byte) : Window :=
  ⟨u.low.toNat, u.high.toNat, u.value.toNat, upcomingBits u bytes⟩

/-- DEC's window over what its reader has buffered and `bytes`, whatever the source answers after them. -/
def knownWindow (u : DecUnit) (bytes : List Byte) : Window :=
  ⟨u.low.toNat, u.high.toNat, u.value.toNat, msbBits u.rbuf.toNat u.rcount.toNat ++ bytes.flatMap byteBits⟩

/-- Narrow to the part `lc..hc` of `t`, then at most 15 shifts (R203, R182). -/
def windowSymbol (sym : Nat) (t : Table) (w : Window) : Option Window :=
  windowRenorm 15
    { w with
      low := w.low + (w.high - w.low + 1) * tableAt t sym / total t
      high := w.low + (w.high - w.low + 1) * tableAt t (sym + 1) / total t - 1 }

/-! ### Which commands are whose -/

/-- The commands of unit ENC: those with `U = 0` (R74). -/
def isEncCommand : Instr → Bool
  | .encInit => true
  | .encPreload _ => true
  | .encCode _ => true
  | .encProb _ => true
  | .encSymfor => true
  | .encUpdate _ => true
  | .encRescale => true
  | .encBits _ => true
  | .encBflush => true
  | .encRdstate _ => true
  | .decInit => false
  | .decPreload _ => false
  | .decCode => false
  | .decProb _ => false
  | .decSymfor => false
  | .decUpdate _ => false
  | .decRescale => false
  | .decBits _ => false
  | .decRdstate _ => false

/-- The phase of the unit a command addresses. -/
def addressedPhase (i : Instr) (s : State) : Phase := if isEncCommand i = true then s.enc.phase else s.dec.phase

/-- The state in which the first delay of the device that command `i` calls is over. -/
def promptState (i : Instr) (s : State) : State :=
  if isEncCommand i = true then withEncSide s (promptSink (encSide s)) else withDecSide s (promptSource (decSide s))

/-- The commands that are legal in every phase (R252): INIT and RDSTATE. -/
def legalInEveryPhase : Instr → Bool
  | .encInit => true
  | .encPreload _ => false
  | .encCode _ => false
  | .encProb _ => false
  | .encSymfor => false
  | .encUpdate _ => false
  | .encRescale => false
  | .encBits _ => false
  | .encBflush => false
  | .encRdstate _ => true
  | .decInit => true
  | .decPreload _ => false
  | .decCode => false
  | .decProb _ => false
  | .decSymfor => false
  | .decUpdate _ => false
  | .decRescale => false
  | .decBits _ => false
  | .decRdstate _ => true

/-- Whether a command uses DIN (R74): PRELOAD, SYMFOR and ENC BITS. -/
def usesDin : Instr → Bool
  | .encInit => false
  | .encPreload _ => true
  | .encCode _ => false
  | .encProb _ => false
  | .encSymfor => true
  | .encUpdate _ => false
  | .encRescale => false
  | .encBits _ => true
  | .encBflush => false
  | .encRdstate _ => false
  | .decInit => false
  | .decPreload _ => true
  | .decCode => false
  | .decProb _ => false
  | .decSymfor => true
  | .decUpdate _ => false
  | .decRescale => false
  | .decBits _ => false
  | .decRdstate _ => false

/-- Whether a command has a result (R73): PROB, SYMFOR, `dec.code`, `dec.bits` and RDSTATE. -/
def hasResult : Instr → Bool
  | .encInit => false
  | .encPreload _ => false
  | .encCode _ => false
  | .encProb _ => true
  | .encSymfor => true
  | .encUpdate _ => false
  | .encRescale => false
  | .encBits _ => false
  | .encBflush => false
  | .encRdstate _ => true
  | .decInit => false
  | .decPreload _ => false
  | .decCode => true
  | .decProb _ => true
  | .decSymfor => true
  | .decUpdate _ => false
  | .decRescale => false
  | .decBits _ => true
  | .decRdstate _ => true

/-- The commands that can raise IO_ERROR (R232). -/
def callsDevice : Instr → Bool
  | .encInit => false
  | .encPreload _ => false
  | .encCode _ => true
  | .encProb _ => false
  | .encSymfor => false
  | .encUpdate _ => false
  | .encRescale => false
  | .encBits _ => true
  | .encBflush => true
  | .encRdstate _ => false
  | .decInit => true
  | .decPreload _ => false
  | .decCode => true
  | .decProb _ => false
  | .decSymfor => false
  | .decUpdate _ => false
  | .decRescale => false
  | .decBits _ => true
  | .decRdstate _ => false

/-- Whether a command's operand is out of the range of R76. -/
def operandBad (i : Instr) (s : State) : Prop :=
  match i with
  | .encInit => False
  | .encPreload sym => 256 < sym
  | .encCode sym => 256 < sym
  | .encProb sym => 256 < sym
  | .encSymfor => total s.enc.freqs ≤ s.din.toNat
  | .encUpdate sym => 256 < sym
  | .encRescale => False
  | .encBits n => 64 < n
  | .encBflush => False
  | .encRdstate sel => 263 < sel
  | .decInit => False
  | .decPreload sym => 256 < sym
  | .decCode => False
  | .decProb sym => 256 < sym
  | .decSymfor => total s.dec.freqs ≤ s.din.toNat
  | .decUpdate sym => 256 < sym
  | .decRescale => False
  | .decBits n => 64 < n
  | .decRdstate sel => 265 < sel

/-! ### Lines of assembly (R80) -/

/-- `enc.` -/
def encDot : List Char := ['e', 'n', 'c', '.']

/-- `dec.` -/
def decDot : List Char := ['d', 'e', 'c', '.']

/-- The line of a mnemonic with its operands, separated by commas (R80). -/
def asmLine (mnemonic : List Char) : List (List Char) → List Char
  | [] => mnemonic
  | a :: rest => mnemonic ++ ' ' :: a ++ rest.flatMap fun b => ',' :: ' ' :: b

/-- A text of an operand of value `n` (R80): a number, or a character in single quotes. -/
def OperandText (cs : List Char) (n : Nat) : Prop :=
  numberOf cs = .ok n ∨ ∃ c : Char, cs = ['\'', c, '\''] ∧ c.toNat < 256 ∧ n = c.toNat

/-- The line, alone and with any comment after it, assembles to the one command `i` with DIN `din` if its operands fit, and
is refused if not (R80). -/
def AssemblesTo (line : List Char) (i : Instr) (din : Nat) (fits : Prop) : Prop :=
  ∀ tail, (tail = [] ∨ ∃ comment, tail = ';' :: comment) →
    (fits → assembleLine (line ++ tail) = .ok [.command (encode i) (BitVec.ofNat 64 din)]) ∧
      (¬fits → assembleLine (line ++ tail) = .error .operandTooLarge)

end Sys2Proof.Machine
end

