-- ==== Sys2Proof/Certificates/Slice0/Obligations.lean ====
section
/-! DEFINITION. The statements for the provers, from the numbered rules of spec/. Titles, ids and the rules each one
cites stand in OBLIGATIONS.json. A next state is often written `t = { s with … }`: it says that every field not named
is that of `s`. -/

open Sys2Proof Sys2Proof.Machine

/-! ### Encoding (30_encoding.md) -/

/-- R71, R74: the decoder gives back every well-formed command from its word, every operand at every value its field
admits. -/
def Obligations.DecodeOfEncode : Prop :=
  ∀ i : Instr, i.wellFormed = true → decode (encode i) = .ok i

/-- R78: a word that decodes is the one word of a well-formed command. -/
def Obligations.DecodedWordIsItsEncoding : Prop :=
  ∀ (w : CmdWord) (i : Instr), decode w = .ok i → i.wellFormed = true ∧ encode i = w

/-- R77: which words are illegal, on the bits of the word; and such a word changes nothing but STATUS and DOUT. -/
def Obligations.IllegalWordsExactly : Prop :=
  (∀ w : CmdWord,
    (∃ e, decode w = .error e) ↔
      (w.extractLsb' 0 4 = 0x0 ∨ 0xB ≤ w.extractLsb' 0 4 ∨ (w.extractLsb' 0 4 = 0x9 ∧ w.getLsbD 4 = true) ∨
        w.extractLsb' 24 8 ≠ 0 ∨ w.extractLsb' 5 3 ≠ 0 ∨
        (w.extractLsb' 8 9 ≠ 0 ∧ w.extractLsb' 0 4 ≠ 0x2 ∧ w.extractLsb' 0 4 ≠ 0x4 ∧ w.extractLsb' 0 4 ≠ 0x6 ∧
          w.extractLsb' 0 4 ≠ 0xA ∧ ¬(w.extractLsb' 0 4 = 0x3 ∧ w.getLsbD 4 = false)) ∨
        (w.extractLsb' 17 7 ≠ 0 ∧ w.extractLsb' 0 4 ≠ 0x8))) ∧
  ∀ (w : CmdWord) (e : DecodeError) (din : Operand) (rest : List HostEvent) (s : State),
    decode w = .error e → s.host = .command w din :: rest → s.waiting = none →
      step s = .next { s with din := din, host := rest, status := 3, dout := 0 }

/-- R74: the opcode bytes of the 19 commands, and fields at a few values. -/
def Obligations.TableWordsDecode : Prop :=
  decode 0x00000001#32 = .ok .encInit ∧ decode 0x00004102#32 = .ok (.encPreload 65) ∧
  decode 0x00010003#32 = .ok (.encCode 256) ∧ decode 0x00000704#32 = .ok (.encProb 7) ∧
  decode 0x00000005#32 = .ok .encSymfor ∧ decode 0x0001FF06#32 = .ok (.encUpdate 511) ∧
  decode 0x00000007#32 = .ok .encRescale ∧ decode 0x00800008#32 = .ok (.encBits 64) ∧
  decode 0x00000009#32 = .ok .encBflush ∧ decode 0x0001070A#32 = .ok (.encRdstate 263) ∧
  decode 0x00000011#32 = .ok .decInit ∧ decode 0x00010012#32 = .ok (.decPreload 256) ∧
  decode 0x00000013#32 = .ok .decCode ∧ decode 0x00000014#32 = .ok (.decProb 0) ∧
  decode 0x00000015#32 = .ok .decSymfor ∧ decode 0x00000116#32 = .ok (.decUpdate 1) ∧
  decode 0x00000017#32 = .ok .decRescale ∧ decode 0x00FE0018#32 = .ok (.decBits 127) ∧
  decode 0x0001091A#32 = .ok (.decRdstate 265)

/-- R80, R81: which command each row of the syntax tables assembles to, with every operand text of every value, and which
operands are refused; how a number is written; and that nothing but commands comes out. Where R80 and R81 are silent on
the text of a line, it is read as log 13 says (the model's choice). -/
def Obligations.AssemblerEmitsCommands : Prop :=
  (∀ (a b : List Char) (m n : Nat), OperandText a m → OperandText b n →
    AssemblesTo (asmLine (encDot ++ ['i', 'n', 'i', 't']) []) .encInit 0 True ∧
    AssemblesTo (asmLine (decDot ++ ['i', 'n', 'i', 't']) []) .decInit 0 True ∧
    AssemblesTo (asmLine (encDot ++ ['p', 'r', 'e', 'l', 'o', 'a', 'd']) [a, b]) (.encPreload m) n
      (m ≤ 511 ∧ n ≤ 2 ^ 64 - 1) ∧
    AssemblesTo (asmLine (decDot ++ ['p', 'r', 'e', 'l', 'o', 'a', 'd']) [a, b]) (.decPreload m) n
      (m ≤ 511 ∧ n ≤ 2 ^ 64 - 1) ∧
    AssemblesTo (asmLine (encDot ++ ['c', 'o', 'd', 'e']) [a]) (.encCode m) 0 (m ≤ 511) ∧
    AssemblesTo (asmLine (decDot ++ ['c', 'o', 'd', 'e']) []) .decCode 0 True ∧
    AssemblesTo (asmLine (encDot ++ ['p', 'r', 'o', 'b']) [a]) (.encProb m) 0 (m ≤ 511) ∧
    AssemblesTo (asmLine (decDot ++ ['p', 'r', 'o', 'b']) [a]) (.decProb m) 0 (m ≤ 511) ∧
    AssemblesTo (asmLine (encDot ++ ['s', 'y', 'm', 'f', 'o', 'r']) [a]) .encSymfor m (m ≤ 2 ^ 64 - 1) ∧
    AssemblesTo (asmLine (decDot ++ ['s', 'y', 'm', 'f', 'o', 'r']) [a]) .decSymfor m (m ≤ 2 ^ 64 - 1) ∧
    AssemblesTo (asmLine (encDot ++ ['u', 'p', 'd', 'a', 't', 'e']) [a]) (.encUpdate m) 0 (m ≤ 511) ∧
    AssemblesTo (asmLine (decDot ++ ['u', 'p', 'd', 'a', 't', 'e']) [a]) (.decUpdate m) 0 (m ≤ 511) ∧
    AssemblesTo (asmLine (encDot ++ ['r', 'e', 's', 'c', 'a', 'l', 'e']) []) .encRescale 0 True ∧
    AssemblesTo (asmLine (decDot ++ ['r', 'e', 's', 'c', 'a', 'l', 'e']) []) .decRescale 0 True ∧
    AssemblesTo (asmLine (encDot ++ ['b', 'i', 't', 's']) [a, b]) (.encBits m) n (m ≤ 127 ∧ n ≤ 2 ^ 64 - 1) ∧
    AssemblesTo (asmLine (decDot ++ ['b', 'i', 't', 's']) [a]) (.decBits m) 0 (m ≤ 127) ∧
    AssemblesTo (asmLine (encDot ++ ['b', 'f', 'l', 'u', 's', 'h']) []) .encBflush 0 True ∧
    AssemblesTo (asmLine (encDot ++ ['r', 'd', 's', 't', 'a', 't', 'e']) [a]) (.encRdstate m) 0 (m ≤ 511) ∧
    AssemblesTo (asmLine (decDot ++ ['r', 'd', 's', 't', 'a', 't', 'e']) [a]) (.decRdstate m) 0 (m ≤ 511) ∧
    AssemblesTo (asmLine (encDot ++ ['e', 'o', 'f']) []) (.encCode 256) 0 True ∧
    AssemblesTo (asmLine (encDot ++ ['b', 'y', 't', 'e']) [a]) (.encCode m) 0 (m ≤ 255) ∧
    AssemblesTo (asmLine (encDot ++ ['w', 'b', 'i', 't']) [a]) (.encBits 1) m (m ≤ 1) ∧
    AssemblesTo (asmLine (decDot ++ ['r', 'b', 'i', 't']) []) (.decBits 1) 0 True) ∧
  (∀ cs : List Char, (∀ c ∈ cs, c.toNat < 256 ∧ c ≠ '"') →
    assembleLine (asmLine (encDot ++ ['s', 't', 'r', 'i', 'n', 'g']) ['"' :: cs ++ ['"']]) =
      .ok (.command (encode .encInit) 0 :: cs.map (fun c => .command (encode (.encCode c.toNat)) 0)
        ++ [.command (encode (.encCode 256)) 0])) ∧
  (∀ n : Nat, numberOf (Nat.toDigits 10 n) = .ok n ∧ numberOf ('0' :: 'x' :: Nat.toDigits 16 n) = .ok n ∧
    numberOf ('0' :: 'b' :: Nat.toDigits 2 n) = .ok n) ∧
  ∀ (line : List Char) (events : List HostEvent), assembleLine line = .ok events →
    ∀ e ∈ events, ∃ (i : Instr) (din : Operand), i.wellFormed = true ∧ e = .command (encode i) din

/-! ### The step and the reset (30_encoding.md R70, 70_reset_and_hazards.md) -/

/-- R70, R78: when no command is in progress and the host's next event is a command, the step latches its DIN, moves past
it and is `exec` of the decoded command. -/
def Obligations.StepRunsDecodedCommand : Prop :=
  ∀ (w : CmdWord) (i : Instr) (din : Operand) (rest : List HostEvent) (s : State),
    decode w = .ok i → s.host = .command w din :: rest → s.waiting = none →
      step s = exec i { s with din := din, host := rest }

/-- R251, R248: with no command in progress and no event the block holds all state; a command that waits on a device that
never answers is stuck: without a reset, each step answers the same state (log 7, 8 are the model's form of both). -/
def Obligations.StepHoldsStateWithoutEvent : Prop :=
  (∀ s : State, s.host = [] → s.waiting = none → step s = .next s) ∧
  ∀ (i : Instr) (s t : State), s.waiting = none → exec i s = .next t → t.waiting ≠ none →
    (isEncCommand i = true → Turn.late ∉ s.sink.answers) → (isEncCommand i = false → Turn.late ∉ s.source.answers) →
      (∀ rest, t.host ≠ .reset :: rest) → step t = .next t

/-- R260: the reset input resets both units together, between commands and during a blocked one; sink and source keep
what they hold. The unspecified registers are left open. -/
def Obligations.ResetInputResetsBothUnits : Prop :=
  ∀ (s : State) (rest : List HostEvent), s.host = .reset :: rest →
    ∃ t, step s = .next t ∧ t.enc.phase = .idle ∧ t.dec.phase = .idle ∧ t.status = 0 ∧ t.dout = 0 ∧
      t.waiting = none ∧ t.sink = s.sink ∧ t.source = s.source ∧ t.host = rest

/-- R261: what the spec states of the state right after reset. -/
def Obligations.ResetStateHoldsGivenValues : Prop :=
  State.reset.enc.phase = .idle ∧ State.reset.dec.phase = .idle ∧ State.reset.status = 0 ∧ State.reset.dout = 0 ∧
    State.reset.waiting = none ∧ State.reset.host = []

/-- The invariant holds at reset. -/
def Obligations.ResetStateMeetsInvariant : Prop := Inv State.reset

/-- R33, R132, R135, R183, R207, R27, R28, R58: from every state that meets the invariant the step answers a next state (no
fault, no refusal), and that state meets it. -/
def Obligations.StepKeepsInvariant : Prop :=
  ∀ s : State, Inv s → ∃ t, step s = .next t ∧ Inv t

/-! ### Responses and errors (60_exceptions.md) -/

/-- R235, R252: a command other than INIT and RDSTATE to a unit that is not Active is BAD_PHASE and changes nothing but
STATUS and DOUT; and nothing else answers BAD_PHASE. -/
def Obligations.BadPhaseExactly : Prop :=
  ∀ (i : Instr) (s : State),
    (legalInEveryPhase i = false → addressedPhase i s ≠ .active →
      exec i s = .next { s with status := 4, dout := 0 }) ∧
    (s.waiting = none → ∀ t, exec i s = .next t → t.waiting = none → t.status = 4 →
      legalInEveryPhase i = false ∧ addressedPhase i s ≠ .active)

/-- R76, R236, R239: in a phase in which the command is legal, an operand out of range is BAD_OPERAND and changes nothing
but STATUS and DOUT; and nothing else answers BAD_OPERAND. -/
def Obligations.BadOperandExactly : Prop :=
  ∀ (i : Instr) (s : State),
    (legalInEveryPhase i = true ∨ addressedPhase i s = .active → operandBad i s →
      exec i s = .next { s with status := 5, dout := 0 }) ∧
    (s.waiting = none → ∀ t, exec i s = .next t → t.waiting = none → t.status = 5 →
      operandBad i s ∧ (legalInEveryPhase i = true ∨ addressedPhase i s = .active))

/-- R230, R231, R73: a command that ends writes one of the six codes, DOUT 0 with every code but OK, and DOUT 0 also
with OK if it has no result. -/
def Obligations.ResponseOfEveryCommand : Prop :=
  ∀ (i : Instr) (s t : State), s.waiting = none → exec i s = .next t → t.waiting = none →
    (t.status = 0 ∨ t.status = 1 ∨ t.status = 2 ∨ t.status = 3 ∨ t.status = 4 ∨ t.status = 5) ∧
      (t.status ≠ 0 → t.dout = 0) ∧ (hasResult i = false → t.dout = 0)

/-- R237, R244: a fatal error makes the unit that raised it Failed and DOUT 0, and touches the other unit and its stream
not at all; bytes given to the sink and taken from the source stay given and taken. -/
def Obligations.FatalErrorFailsItsUnit : Prop :=
  ∀ (i : Instr) (s t : State), s.waiting = none → exec i s = .next t → t.waiting = none →
    (t.status = 1 ∨ t.status = 2) →
      addressedPhase i t = .failed ∧ t.dout = 0 ∧
        (if isEncCommand i = true then
          t = { s with enc := t.enc, sink := t.sink, status := t.status, dout := 0, draws := t.draws } ∧
            s.sink.received <+: t.sink.received
        else
          t = { s with dec := t.dec, source := t.source, status := t.status, dout := 0, draws := t.draws } ∧
            s.source.taken <+: t.source.taken)

/-- R232, R233, R202: IO_ERROR comes only from the six commands that call a device, UNEXPECTED_EOF only from `dec.code`
and `dec.bits`. -/
def Obligations.FatalErrorsComeFromDeviceCommands : Prop :=
  ∀ (i : Instr) (s t : State), s.waiting = none → exec i s = .next t → t.waiting = none →
    (t.status = 1 → callsDevice i = true) ∧ (t.status = 2 → i = .decCode ∨ ∃ n, i = .decBits n)

/-- R232, R186, R110, R58: if the sink answers `io_error` to one of the calls an ENC command makes, once or from then on, the
command ends with IO_ERROR and ENC Failed, whichever the command and the call; the sink keeps the bytes written before
and, of a failing write, its byte too. The calls are those the command makes on the same sink when it accepts
all of them. Then, said on the state alone: `enc.bits` and `enc.code` whose first byte or flush is refused, and
`enc.bflush`. -/
def Obligations.SinkErrorFailsEncoder : Prop :=
  (∀ (i : Instr) (s t₀ : State) (n : Nat), isEncCommand i = true → s.waiting = none →
    exec i { s with sink := openFrom s.sink } = .next t₀ → n < callsMade s.sink t₀.sink →
    SinkStopsAt s.sink n (some .ioError) →
      ∃ t, exec i s = .next t ∧ t.status = 1 ∧ t.dout = 0 ∧ t.enc.phase = .failed ∧
        t.sink.received = t₀.sink.received.take (s.sink.received.length + n + 1) ∧
        t.sink.flushes = s.sink.flushes ∧ t.sink.passedOn = s.sink.passedOn ∧
        t = { s with enc := t.enc, sink := t.sink, status := 1, dout := 0, draws := t.draws }) ∧
  ∀ (s : State), s.enc.phase = .active → WriterOk s.enc → SinkStopsAt s.sink 0 (some .ioError) →
    (∀ n, n ≤ 64 → 8 ≤ s.enc.wcount.toNat + n →
      ∃ t, exec (.encBits n) s = .next t ∧ t.status = 1 ∧ t.dout = 0 ∧ t.enc.phase = .failed) ∧
    (∃ t, exec .encBflush s = .next t ∧ t.status = 1 ∧ t.dout = 0 ∧ t.enc.phase = .failed) ∧
    ∀ sym, sym ≤ 256 → TableOk s.enc.freqs → IntervalOk (encInterval s.enc) →
      (sym = 256 ∨ 8 ≤ s.enc.wcount.toNat + (coderSymbol sym s.enc.freqs (coderOf s.enc)).bits.length) →
        ∃ t, exec (.encCode sym) s = .next t ∧ t.status = 1 ∧ t.dout = 0 ∧ t.enc.phase = .failed

/-- R232, R110: if a DEC command needs a bit and the source answers `io_error` to the read for it, once or from then on, the
command ends with IO_ERROR and DEC Failed, and the bytes before stay taken: `dec.init` with fewer than four bytes before the
error, `dec.bits` with fewer bits than it reads, `dec.code` with fewer than its shifts need. -/
def Obligations.SourceErrorFailsDecoder : Prop :=
  ∀ (s : State) (bytes : List Byte), SourceStopsAt s.source bytes (some .ioError) →
    (bytes.length < 4 → ∃ t, exec .decInit s = .next t ∧ t.status = 1 ∧ t.dout = 0 ∧ t.dec.phase = .failed ∧
      t.source.taken = s.source.taken ++ bytes ∧
      t = { s with dec := t.dec, source := t.source, status := 1, dout := 0, draws := t.draws }) ∧
    (s.dec.phase = .active → s.dec.srcEnd = false →
      (∀ n, n ≤ 64 → s.dec.rcount.toNat + 8 * bytes.length < n →
        ∃ t, exec (.decBits n) s = .next t ∧ t.status = 1 ∧ t.dout = 0 ∧ t.dec.phase = .failed ∧
          t.source.taken = s.source.taken ++ bytes ∧
          t = { s with dec := t.dec, source := t.source, status := 1, dout := 0, draws := t.draws }) ∧
      ∀ sym, TableOk s.dec.freqs → IntervalOk (decInterval s.dec) → ValueOk s.dec → sym ≤ 256 →
        tableAt s.dec.freqs sym ≤ windowCount (knownWindow s.dec bytes) (total s.dec.freqs) →
        windowCount (knownWindow s.dec bytes) (total s.dec.freqs) < tableAt s.dec.freqs (sym + 1) →
        windowSymbol sym s.dec.freqs (knownWindow s.dec bytes) = none →
          ∃ t, exec .decCode s = .next t ∧ t.status = 1 ∧ t.dout = 0 ∧ t.dec.phase = .failed ∧
            t.source.taken = s.source.taken ++ bytes ∧
            t = { s with dec := t.dec, source := t.source, status := 1, dout := 0, draws := t.draws })

/-- R248, R57: a command whose device call is not answered at once neither ends nor fails: STATUS and DOUT stay, what the
device did before stays done, and the command waits; whichever the command and the call. It goes on, if no reset comes
first, exactly as if the device had not been late. The calls of an ENC command are those it makes on the same sink when it
accepts all of them (log 7). -/
def Obligations.UnansweredCallLeavesCommandWaiting : Prop :=
  (∀ (i : Instr) (s t₀ : State) (n : Nat), isEncCommand i = true → s.waiting = none →
    exec i { s with sink := openFrom s.sink } = .next t₀ → n < callsMade s.sink t₀.sink → SinkStopsAt s.sink n none →
      ∃ t, exec i s = .next t ∧ t.waiting = some (.onSink i (promptSink (encSide s))) ∧
        t.sink.received = t₀.sink.received.take (s.sink.received.length + n) ∧
        t.sink.flushes = s.sink.flushes ∧ t.sink.passedOn = s.sink.passedOn ∧
        t = { s with enc := t.enc, sink := t.sink, waiting := t.waiting }) ∧
  (∀ (s : State) (bytes : List Byte), s.waiting = none → SourceStopsAt s.source bytes none →
    (bytes.length < 4 →
      ∃ t, exec .decInit s = .next t ∧ t.waiting = some (.onSource .decInit (promptSource (decSide s))) ∧
        t.source.taken = s.source.taken ++ bytes ∧
        t = { s with dec := t.dec, source := t.source, waiting := t.waiting }) ∧
    (s.dec.phase = .active → s.dec.srcEnd = false →
      (∀ n, n ≤ 64 → s.dec.rcount.toNat + 8 * bytes.length < n →
        ∃ t, exec (.decBits n) s = .next t ∧
          t.waiting = some (.onSource (.decBits n) (promptSource (decSide s))) ∧
          t.source.taken = s.source.taken ++ bytes ∧
          t = { s with dec := t.dec, source := t.source, waiting := t.waiting }) ∧
      ∀ sym, TableOk s.dec.freqs → IntervalOk (decInterval s.dec) → ValueOk s.dec → sym ≤ 256 →
        tableAt s.dec.freqs sym ≤ windowCount (knownWindow s.dec bytes) (total s.dec.freqs) →
        windowCount (knownWindow s.dec bytes) (total s.dec.freqs) < tableAt s.dec.freqs (sym + 1) →
        windowSymbol sym s.dec.freqs (knownWindow s.dec bytes) = none →
          ∃ t, exec .decCode s = .next t ∧ t.waiting = some (.onSource .decCode (promptSource (decSide s))) ∧
            t.source.taken = s.source.taken ++ bytes ∧
            t = { s with dec := t.dec, source := t.source, waiting := t.waiting })) ∧
  ∀ (i : Instr) (s t : State), s.waiting = none → exec i s = .next t → t.waiting ≠ none →
    (∀ rest, t.host ≠ .reset :: rest) → step t = exec i (promptState i s)

/-- R180: every phase transition of ENC that a command makes. -/
def Obligations.EncPhaseTransitions : Prop :=
  ∀ (i : Instr) (s t : State), s.waiting = none → exec i s = .next t → t.waiting = none →
    (i = .encInit → t.enc.phase = .active) ∧
    (i ≠ .encInit →
      (t.enc.phase = s.enc.phase ∧ ¬(i = .encCode 256 ∧ s.enc.phase = .active ∧ t.status = 0) ∧
          ¬(isEncCommand i = true ∧ t.status = 1)) ∨
        (s.enc.phase = .active ∧ i = .encCode 256 ∧ t.status = 0 ∧ t.enc.phase = .done) ∨
        (s.enc.phase = .active ∧ isEncCommand i = true ∧ t.status = 1 ∧ t.enc.phase = .failed))

/-- R209: every phase transition of DEC that a command makes. -/
def Obligations.DecPhaseTransitions : Prop :=
  ∀ (i : Instr) (s t : State), s.waiting = none → exec i s = .next t → t.waiting = none →
    (i = .decInit → (t.status = 0 ∧ t.dec.phase = .active) ∨ (t.status = 1 ∧ t.dec.phase = .failed)) ∧
    (i ≠ .decInit →
      (t.dec.phase = s.dec.phase ∧ ¬(i = .decCode ∧ s.dec.phase = .active ∧ t.status = 0 ∧ t.dout = 256) ∧
          ¬(isEncCommand i = false ∧ (t.status = 1 ∨ t.status = 2))) ∨
        (s.dec.phase = .active ∧ i = .decCode ∧ t.status = 0 ∧ t.dout = 256 ∧ t.dec.phase = .done) ∨
        (s.dec.phase = .active ∧ (i = .decCode ∨ ∃ n, i = .decBits n) ∧ (t.status = 1 ∨ t.status = 2) ∧
          t.dec.phase = .failed))

/-! ### What a command leaves alone -/

/-- R20, R262, R61: a command of one unit leaves the other unit and its stream alone, and the host's coming events and
DIN. -/
def Obligations.UnitsAreIndependent : Prop :=
  ∀ (i : Instr) (s t : State), exec i s = .next t →
    t.host = s.host ∧ t.din = s.din ∧
      (isEncCommand i = true → t.dec = s.dec ∧ t.source = s.source) ∧
      (isEncCommand i = false → t.enc = s.enc ∧ t.sink = s.sink)

/-- R58: what the sink has received and what was taken from the source is never undone, by any step. (Where a command is in
progress, it is one that can have come so far: the invariant's clause `Resumable`.) -/
def Obligations.StreamsOnlyGrow : Prop :=
  ∀ s t : State, Resumable s → step s = .next t →
    s.sink.received <+: t.sink.received ∧ s.source.taken <+: t.source.taken

/-- R75: a command that does not use DIN answers the same whatever DIN is. -/
def Obligations.UnusedDinIsIgnored : Prop :=
  ∀ (i : Instr) (s : State) (d : Operand), usesDin i = false →
    (∀ t, exec i s = .next t → exec i { s with din := d } = .next { t with din := d }) ∧
    (∀ f, exec i s = .fault f → exec i { s with din := d } = .fault f)

/-- R185, R20: what an ENC command does depends on nothing but ENC, its sink and the operand (and the model's own draw
counter, log 6); the same for DEC. -/
def Obligations.CommandDependsOnItsSideOnly : Prop :=
  (∀ (i : Instr) (s s' t : State), isEncCommand i = true → s'.enc = s.enc → s'.sink = s.sink → s'.din = s.din →
    s'.draws = s.draws → s.waiting = none → s'.waiting = none → exec i s = .next t →
      ∃ t', exec i s' = .next t' ∧ t'.enc = t.enc ∧ t'.sink = t.sink ∧ t'.waiting = t.waiting ∧
        (t.waiting = none → t'.status = t.status ∧ t'.dout = t.dout)) ∧
  (∀ (i : Instr) (s s' t : State), isEncCommand i = false → s'.dec = s.dec → s'.source = s.source → s'.din = s.din →
    s'.draws = s.draws → s.waiting = none → s'.waiting = none → exec i s = .next t →
      ∃ t', exec i s' = .next t' ∧ t'.dec = t.dec ∧ t'.source = t.source ∧ t'.waiting = t.waiting ∧
        (t.waiting = none → t'.status = t.status ∧ t'.dout = t.dout))

/-! ### Bit input and output (40_bit_io.md) -/

/-- R106, R101: `enc.bits n` completes on a sink that answers, appends the `n` low bits of DIN, most significant first, to
the bits written, and changes nothing else of ENC; outside Active and above 64 it is rejected. -/
def Obligations.EncBitsAppendsBits : Prop :=
  (∀ (s : State) (n : Nat), s.enc.phase = .active → n ≤ 64 → WriterOk s.enc → SinkReady s.sink →
    ∃ t, exec (.encBits n) s = .next t ∧
      writtenBits (encSide t) = writtenBits (encSide s) ++ msbBits s.din.toNat n ∧ WriterOk t.enc ∧
      t.enc = { s.enc with wbuf := t.enc.wbuf, wcount := t.enc.wcount } ∧ SinkReady t.sink ∧
      s.sink.received <+: t.sink.received ∧ t.sink.flushes = s.sink.flushes ∧ t.sink.passedOn = s.sink.passedOn ∧
      t = { s with enc := t.enc, sink := t.sink, status := 0, dout := 0 }) ∧
  (∀ (s : State) (n : Nat), s.enc.phase ≠ .active → exec (.encBits n) s = .next { s with status := 4, dout := 0 }) ∧
  ∀ (s : State) (n : Nat), s.enc.phase = .active → 64 < n →
    exec (.encBits n) s = .next { s with status := 5, dout := 0 }

/-- R107, R102: `enc.bflush` completes on a sink that answers, pads the partial byte with zero bits, empties the writer and
flushes the sink in any case; with nothing buffered no byte is written. -/
def Obligations.EncBflushPadsAndFlushes : Prop :=
  (∀ s : State, s.enc.phase = .active → WriterOk s.enc → SinkReady s.sink →
    ∃ t, exec .encBflush s = .next t ∧
      t.sink.received.flatMap byteBits =
        writtenBits (encSide s) ++ List.replicate ((8 - s.enc.wcount.toNat) % 8) false ∧
      t.enc = { s.enc with wbuf := 0, wcount := 0 } ∧ SinkReady t.sink ∧
      s.sink.received <+: t.sink.received ∧
      t.sink.received.length = s.sink.received.length + (if s.enc.wcount.toNat = 0 then 0 else 1) ∧
      t.sink.flushes = s.sink.flushes + 1 ∧ t.sink.passedOn = t.sink.received.length ∧
      t = { s with enc := t.enc, sink := t.sink, status := 0, dout := 0 }) ∧
  ∀ s : State, s.enc.phase ≠ .active → exec .encBflush s = .next { s with status := 4, dout := 0 }

/-- R108, R104, R53, R59: `dec.bits n` completes when the stream and the padding budget hold `n` more bits, answers them
with the first bit read in DOUT[n-1], consumes exactly them, and changes nothing else of DEC. -/
def Obligations.DecBitsReadsBits : Prop :=
  ∀ (s : State) (n : Nat) (bytes : List Byte), s.dec.phase = .active → n ≤ 64 → SourceGives s.source bytes →
    n ≤ (upcomingBits s.dec bytes).length →
      ∃ t left, exec (.decBits n) s = .next t ∧
        t.dout.toNat = bitsValue ((upcomingBits s.dec bytes).take n) ∧
        SourceGives t.source left ∧ upcomingBits t.dec left = (upcomingBits s.dec bytes).drop n ∧
        t.source.taken ++ left = s.source.taken ++ bytes ∧
        t.dec = { s.dec with rbuf := t.dec.rbuf, rcount := t.dec.rcount, padUsed := t.dec.padUsed,
                             srcEnd := t.dec.srcEnd } ∧
        t = { s with dec := t.dec, source := t.source, status := 0, dout := t.dout }

/-- R233, R103: when the stream and the padding budget hold fewer than `n` more bits, `dec.bits n` ends with
UNEXPECTED_EOF, DOUT 0 and DEC Failed; ENC is not touched. -/
def Obligations.DecBitsPastBudgetIsUnexpectedEof : Prop :=
  ∀ (s : State) (n : Nat) (bytes : List Byte), s.dec.phase = .active → n ≤ 64 → SourceGives s.source bytes →
    (upcomingBits s.dec bytes).length < n →
      ∃ t, exec (.decBits n) s = .next t ∧ t.status = 2 ∧ t.dout = 0 ∧ t.dec.phase = .failed ∧
        t = { s with dec := t.dec, source := t.source, status := 2, dout := 0, draws := t.draws }

/-- R111: the byte count of `enc.bits`: each full eight bits written since the writer was empty are one byte at the sink,
and `wcount` is the remainder. -/
def Obligations.EncBitsByteCount : Prop :=
  ∀ (s : State) (n : Nat), s.enc.phase = .active → n ≤ 64 → WriterOk s.enc → SinkReady s.sink →
    ∃ t, exec (.encBits n) s = .next t ∧
      t.sink.received.length = s.sink.received.length + (s.enc.wcount.toNat + n) / 8 ∧
      t.enc.wcount.toNat = (s.enc.wcount.toNat + n) % 8

/-- R109: what `WriteBits` calls and a `WFlush` sent to the sink, a fresh reader's `ReadBits` calls with the same counts
give back; after them come the pad bits and then the padding budget, all zeros. -/
def Obligations.ReaderReturnsWhatWriterWrote : Prop :=
  ∀ (ws : List (Operand × Nat)) (x : EncSide), (∀ p ∈ ws, p.2 ≤ 64) → x.unit.wbuf = 0 → x.unit.wcount = 0 →
    SinkReady x.sink →
      ∃ y sent, ((writeAll ws x).andThen fun _ z => writerFlush z) = .done () y ∧
        y.sink.received = x.sink.received ++ sent ∧
        ∀ (u : DecUnit) (z : DecSide), z.unit = readerReset u → SourceGives z.source sent →
          ∃ z' left, readAll (ws.map Prod.snd) z = .done (ws.map fun p => p.1.toNat % 2 ^ p.2) z' ∧
            SourceGives z'.source left ∧
            upcomingBits z'.unit left =
              List.replicate ((8 - (ws.map Prod.snd).sum % 8) % 8 + Config.extraBits) false ∧
            ∀ k, k ≤ (8 - (ws.map Prod.snd).sum % 8) % 8 + Config.extraBits → ∃ z'', readBits k z' = .done 0 z''

/-! ### The frequency table (41_frequency_model.md) -/

/-- R132, R135: a fresh table is legal, a legal table's total lies in 257..16382 and bounds every entry, and Update and
Rescale answer legal tables. -/
def Obligations.TableStaysLegal : Prop :=
  TableOk freshTable ∧
  ∀ t : Table, TableOk t →
    257 ≤ total t ∧ total t ≤ 16382 ∧ (∀ i, i ≤ 257 → tableAt t i ≤ 16382) ∧
    (∀ sym, sym ≤ 256 → ∃ r, tableUpdate t sym = .ok r ∧ TableOk r) ∧
    (∃ r, tableRescale t = .ok r ∧ TableOk r)

/-- R134: Update adds 1 to exactly the entries above the symbol's, and rescales exactly when the total reaches MAX_FREQ. -/
def Obligations.UpdateIncrementsEntriesAbove : Prop :=
  ∀ (t : Table) (sym : Nat), TableOk t → sym ≤ 256 →
    ∃ r, tableUpdate t sym = .ok r ∧
      (total t + 1 < Config.maxFreq →
        ∀ i, i ≤ 257 → tableAt r i = tableAt t i + (if sym < i then 1 else 0)) ∧
      (total t + 1 = Config.maxFreq →
        ∃ m, (∀ i, i ≤ 257 → tableAt m i = tableAt t i + (if sym < i then 1 else 0)) ∧ tableRescale m = .ok r)

/-- R136: Rescale halves every count, not below 1, and sums the counts up again from 0; on every table whose entries do
not decrease. -/
def Obligations.RescaleHalvesCounts : Prop :=
  ∀ t : Table, (∀ sym, sym ≤ 256 → tableAt t sym ≤ tableAt t (sym + 1)) →
    ∃ r, tableRescale t = .ok r ∧ tableAt r 0 = 0 ∧
      ∀ sym, sym ≤ 256 → tableAt r (sym + 1) = tableAt r sym + max ((tableAt t (sym + 1) - tableAt t sym) / 2) 1

/-- R137: on a table of counts at least 1, Rescale increases no count, and from total 16383 it leaves at most 8320. -/
def Obligations.RescaleShrinksTable : Prop :=
  ∀ t : Table, tableAt t 0 = 0 → (∀ sym, sym ≤ 256 → tableAt t sym < tableAt t (sym + 1)) →
    ∃ r, tableRescale t = .ok r ∧ (∀ sym, sym ≤ 256 → 1 ≤ countOf r sym ∧ countOf r sym ≤ countOf t sym) ∧
      (total t = 16383 → total r ≤ 8320)

/-- R139: SymbolFor finds the least symbol whose upper entry is over `v`, and `v` lies in its range. -/
def Obligations.SymbolForFindsLeastSymbol : Prop :=
  ∀ (t : Table) (v : Nat), TableOk t → v < total t →
    ∃ sym, symbolFor t v = .ok sym ∧ sym ≤ 256 ∧ tableAt t sym ≤ v ∧ v < tableAt t (sym + 1) ∧
      ∀ s, s < sym → tableAt t (s + 1) ≤ v

/-- R140, R148: Preload replays Update, once per count: one count more is one Update more at the end, and a count split in
two is two Preloads. -/
def Obligations.PreloadReplaysUpdates : Prop :=
  ∀ (t : Table) (sym : Nat), TableOk t → sym ≤ 256 → ∀ n,
    ∃ r, tablePreload sym n t = .ok r ∧ TableOk r ∧ tablePreload sym (n + 1) t = tableUpdate r sym ∧
      ∀ m, tablePreload sym (n + m) t = tablePreload sym m r

/-- R141: `enc.preload` and `dec.preload`. -/
def Obligations.PreloadSeedsTable : Prop :=
  (∀ (s : State) (sym : Nat),
    (s.enc.phase ≠ .active → exec (.encPreload sym) s = .next { s with status := 4, dout := 0 }) ∧
    (s.enc.phase = .active → 256 < sym → exec (.encPreload sym) s = .next { s with status := 5, dout := 0 }) ∧
    (s.enc.phase = .active → sym ≤ 256 → TableOk s.enc.freqs →
      ∃ r, tablePreload sym s.din.toNat s.enc.freqs = .ok r ∧ TableOk r ∧
        exec (.encPreload sym) s = .next { s with enc := { s.enc with freqs := r }, status := 0, dout := 0 })) ∧
  ∀ (s : State) (sym : Nat),
    (s.dec.phase ≠ .active → exec (.decPreload sym) s = .next { s with status := 4, dout := 0 }) ∧
    (s.dec.phase = .active → 256 < sym → exec (.decPreload sym) s = .next { s with status := 5, dout := 0 }) ∧
    (s.dec.phase = .active → sym ≤ 256 → TableOk s.dec.freqs →
      ∃ r, tablePreload sym s.din.toNat s.dec.freqs = .ok r ∧ TableOk r ∧
        exec (.decPreload sym) s = .next { s with dec := { s.dec with freqs := r }, status := 0, dout := 0 })

/-- R142: `enc.prob` and `dec.prob` answer the range before the update they make, in the fields of R73. -/
def Obligations.ProbAnswersRangeBeforeUpdate : Prop :=
  (∀ (s : State) (sym : Nat),
    (s.enc.phase ≠ .active → exec (.encProb sym) s = .next { s with status := 4, dout := 0 }) ∧
    (s.enc.phase = .active → 256 < sym → exec (.encProb sym) s = .next { s with status := 5, dout := 0 }) ∧
    (s.enc.phase = .active → sym ≤ 256 → TableOk s.enc.freqs →
      ∃ r d, tableUpdate s.enc.freqs sym = .ok r ∧
        exec (.encProb sym) s = .next { s with enc := { s.enc with freqs := r }, status := 0, dout := d } ∧
        (d.extractLsb' 0 16).toNat = tableAt s.enc.freqs sym ∧
        (d.extractLsb' 16 16).toNat = tableAt s.enc.freqs (sym + 1) ∧
        (d.extractLsb' 32 16).toNat = total s.enc.freqs ∧ d.extractLsb' 48 16 = 0)) ∧
  ∀ (s : State) (sym : Nat),
    (s.dec.phase ≠ .active → exec (.decProb sym) s = .next { s with status := 4, dout := 0 }) ∧
    (s.dec.phase = .active → 256 < sym → exec (.decProb sym) s = .next { s with status := 5, dout := 0 }) ∧
    (s.dec.phase = .active → sym ≤ 256 → TableOk s.dec.freqs →
      ∃ r d, tableUpdate s.dec.freqs sym = .ok r ∧
        exec (.decProb sym) s = .next { s with dec := { s.dec with freqs := r }, status := 0, dout := d } ∧
        (d.extractLsb' 0 16).toNat = tableAt s.dec.freqs sym ∧
        (d.extractLsb' 16 16).toNat = tableAt s.dec.freqs (sym + 1) ∧
        (d.extractLsb' 32 16).toNat = total s.dec.freqs ∧ d.extractLsb' 48 16 = 0)

/-- R143: `enc.symfor` and `dec.symfor` answer the symbol of DIN and its range before the update they make. -/
def Obligations.SymforAnswersSymbolAndRange : Prop :=
  (∀ s : State,
    (s.enc.phase ≠ .active → exec .encSymfor s = .next { s with status := 4, dout := 0 }) ∧
    (s.enc.phase = .active → total s.enc.freqs ≤ s.din.toNat →
      exec .encSymfor s = .next { s with status := 5, dout := 0 }) ∧
    (s.enc.phase = .active → s.din.toNat < total s.enc.freqs → TableOk s.enc.freqs →
      ∃ sym r d, sym ≤ 256 ∧ tableAt s.enc.freqs sym ≤ s.din.toNat ∧ s.din.toNat < tableAt s.enc.freqs (sym + 1) ∧
        tableUpdate s.enc.freqs sym = .ok r ∧
        exec .encSymfor s = .next { s with enc := { s.enc with freqs := r }, status := 0, dout := d } ∧
        (d.extractLsb' 0 16).toNat = tableAt s.enc.freqs sym ∧
        (d.extractLsb' 16 16).toNat = tableAt s.enc.freqs (sym + 1) ∧
        (d.extractLsb' 32 16).toNat = total s.enc.freqs ∧ (d.extractLsb' 48 9).toNat = sym ∧
        d.extractLsb' 57 7 = 0)) ∧
  ∀ s : State,
    (s.dec.phase ≠ .active → exec .decSymfor s = .next { s with status := 4, dout := 0 }) ∧
    (s.dec.phase = .active → total s.dec.freqs ≤ s.din.toNat →
      exec .decSymfor s = .next { s with status := 5, dout := 0 }) ∧
    (s.dec.phase = .active → s.din.toNat < total s.dec.freqs → TableOk s.dec.freqs →
      ∃ sym r d, sym ≤ 256 ∧ tableAt s.dec.freqs sym ≤ s.din.toNat ∧ s.din.toNat < tableAt s.dec.freqs (sym + 1) ∧
        tableUpdate s.dec.freqs sym = .ok r ∧
        exec .decSymfor s = .next { s with dec := { s.dec with freqs := r }, status := 0, dout := d } ∧
        (d.extractLsb' 0 16).toNat = tableAt s.dec.freqs sym ∧
        (d.extractLsb' 16 16).toNat = tableAt s.dec.freqs (sym + 1) ∧
        (d.extractLsb' 32 16).toNat = total s.dec.freqs ∧ (d.extractLsb' 48 9).toNat = sym ∧
        d.extractLsb' 57 7 = 0)

/-- R144: `enc.update` and `dec.update`. -/
def Obligations.UpdateCommandUpdatesTable : Prop :=
  (∀ (s : State) (sym : Nat),
    (s.enc.phase ≠ .active → exec (.encUpdate sym) s = .next { s with status := 4, dout := 0 }) ∧
    (s.enc.phase = .active → 256 < sym → exec (.encUpdate sym) s = .next { s with status := 5, dout := 0 }) ∧
    (s.enc.phase = .active → sym ≤ 256 → TableOk s.enc.freqs →
      ∃ r, tableUpdate s.enc.freqs sym = .ok r ∧ TableOk r ∧
        exec (.encUpdate sym) s = .next { s with enc := { s.enc with freqs := r }, status := 0, dout := 0 })) ∧
  ∀ (s : State) (sym : Nat),
    (s.dec.phase ≠ .active → exec (.decUpdate sym) s = .next { s with status := 4, dout := 0 }) ∧
    (s.dec.phase = .active → 256 < sym → exec (.decUpdate sym) s = .next { s with status := 5, dout := 0 }) ∧
    (s.dec.phase = .active → sym ≤ 256 → TableOk s.dec.freqs →
      ∃ r, tableUpdate s.dec.freqs sym = .ok r ∧ TableOk r ∧
        exec (.decUpdate sym) s = .next { s with dec := { s.dec with freqs := r }, status := 0, dout := 0 })

/-- R145: `enc.rescale` and `dec.rescale`; on a fresh table they change nothing. -/
def Obligations.RescaleCommandRescalesTable : Prop :=
  (∀ s : State,
    (s.enc.phase ≠ .active → exec .encRescale s = .next { s with status := 4, dout := 0 }) ∧
    (s.enc.phase = .active → TableOk s.enc.freqs →
      ∃ r, tableRescale s.enc.freqs = .ok r ∧ TableOk r ∧ (s.enc.freqs = freshTable → r = freshTable) ∧
        exec .encRescale s = .next { s with enc := { s.enc with freqs := r }, status := 0, dout := 0 })) ∧
  ∀ s : State,
    (s.dec.phase ≠ .active → exec .decRescale s = .next { s with status := 4, dout := 0 }) ∧
    (s.dec.phase = .active → TableOk s.dec.freqs →
      ∃ r, tableRescale s.dec.freqs = .ok r ∧ TableOk r ∧ (s.dec.freqs = freshTable → r = freshTable) ∧
        exec .decRescale s = .next { s with dec := { s.dec with freqs := r }, status := 0, dout := 0 })

/-- R146: from equal tables, `enc.prob sym` and a `dec.symfor` of a value in the symbol's range make the same update. -/
def Obligations.ProbAndSymforMakeSameUpdate : Prop :=
  ∀ (s : State) (sym : Nat), s.enc.phase = .active → s.dec.phase = .active → TableOk s.enc.freqs →
    s.dec.freqs = s.enc.freqs → sym ≤ 256 → tableAt s.enc.freqs sym ≤ s.din.toNat →
    s.din.toNat < tableAt s.enc.freqs (sym + 1) →
      ∃ t u, exec (.encProb sym) s = .next t ∧ exec .decSymfor s = .next u ∧ t.enc.freqs = u.dec.freqs

/-! ### Narrowing and renormalization (42_encoder.md) -/

/-- R171, R172: Narrow computes both bounds from the old `low`, with exact products, and stays inside the interval. -/
def Obligations.NarrowComputesBounds : Prop :=
  ∀ (iv : Interval) (lc hc t : Nat), iv.low.toNat ≤ iv.high.toNat →
    Config.quarter + 2 ≤ iv.high.toNat - iv.low.toNat + 1 → 257 ≤ t → t ≤ 16382 → lc < hc → hc ≤ t →
      ∃ r, narrowInterval iv lc hc t = .ok r ∧
        r.low.toNat = iv.low.toNat + (iv.high.toNat - iv.low.toNat + 1) * lc / t ∧
        r.high.toNat + 1 = iv.low.toNat + (iv.high.toNat - iv.low.toNat + 1) * hc / t ∧
        iv.low.toNat ≤ r.low.toNat ∧ r.low.toNat ≤ r.high.toNat ∧ r.high.toNat ≤ iv.high.toNat ∧
        (iv.high.toNat - iv.low.toNat + 1) / t ≤ r.high.toNat - r.low.toNat + 1 ∧
        65544 ≤ (iv.high.toNat - iv.low.toNat + 1) / t

/-- R173: the first case in the order E1, E2, E3 whose condition holds, none where no condition holds. R183: where none
holds on an interval, its range is at least QUARTER + 2. -/
def Obligations.RenormCaseSelectsShift : Prop :=
  ∀ iv : Interval,
    (renormCase iv = some .e1 ↔ iv.high.toNat < Config.half) ∧
    (renormCase iv = some .e2 ↔ ¬iv.high.toNat < Config.half ∧ Config.half ≤ iv.low.toNat) ∧
    (renormCase iv = some .e3 ↔
      ¬iv.high.toNat < Config.half ∧ ¬Config.half ≤ iv.low.toNat ∧ Config.quarter ≤ iv.low.toNat ∧
        iv.high.toNat < Config.threeQuarters) ∧
    (renormCase iv = none ↔
      ¬iv.high.toNat < Config.half ∧ ¬Config.half ≤ iv.low.toNat ∧
        ¬(Config.quarter ≤ iv.low.toNat ∧ iv.high.toNat < Config.threeQuarters)) ∧
    (renormCase iv = none → Config.quarter + 2 ≤ iv.high.toNat - iv.low.toNat + 1)

/-- R174, R175, R176, R177: what each shift does on the encoder, on a sink that answers: the registers, the pending count,
and the bits written. -/
def Obligations.EncoderShifts : Prop :=
  ∀ x : EncSide, x.unit.low.toNat ≤ x.unit.high.toNat → WriterOk x.unit → SinkReady x.sink →
    (x.unit.high.toNat < Config.half →
      ∃ y, encShift .e1 x = .done () y ∧ y.unit.low.toNat = 2 * x.unit.low.toNat ∧
        y.unit.high.toNat = 2 * x.unit.high.toNat + 1 ∧ y.unit.pending = 0 ∧
        writtenBits y = writtenBits x ++ false :: List.replicate x.unit.pending true) ∧
    (Config.half ≤ x.unit.low.toNat →
      ∃ y, encShift .e2 x = .done () y ∧ y.unit.low.toNat = 2 * (x.unit.low.toNat - Config.half) ∧
        y.unit.high.toNat = 2 * (x.unit.high.toNat - Config.half) + 1 ∧ y.unit.pending = 0 ∧
        writtenBits y = writtenBits x ++ true :: List.replicate x.unit.pending false) ∧
    (Config.quarter ≤ x.unit.low.toNat → x.unit.high.toNat < Config.threeQuarters →
      ∃ y, encShift .e3 x = .done () y ∧ y.unit.low.toNat = 2 * (x.unit.low.toNat - Config.quarter) ∧
        y.unit.high.toNat = 2 * (x.unit.high.toNat - Config.quarter) + 1 ∧
        y.unit.pending = x.unit.pending + 1 ∧ y.sink = x.sink ∧ y.unit.wbuf = x.unit.wbuf ∧
        y.unit.wcount = x.unit.wcount)

/-- R181: where two cases apply, both orders end in the same state: the same bits and the same registers. -/
def Obligations.ShiftOrderDoesNotMatter : Prop :=
  ∀ x : EncSide, x.unit.low.toNat ≤ x.unit.high.toNat → WriterOk x.unit → SinkReady x.sink →
    (Config.quarter ≤ x.unit.low.toNat → x.unit.high.toNat < Config.half →
      ∃ y, ((encShift .e1 x).andThen fun _ z => encShift .e2 z) = .done () y ∧
        ((encShift .e3 x).andThen fun _ z => encShift .e1 z) = .done () y) ∧
    (Config.half ≤ x.unit.low.toNat → x.unit.high.toNat < Config.threeQuarters →
      ∃ y, ((encShift .e2 x).andThen fun _ z => encShift .e1 z) = .done () y ∧
        ((encShift .e3 x).andThen fun _ z => encShift .e2 z) = .done () y)

/-- R182: each shift doubles the range exactly and needs it at most HALF, and after the narrowing of any symbol at most 15
shifts are made: the loop ends with 15 as its bound. -/
def Obligations.SymbolShiftsAtMostFifteenTimes : Prop :=
  (∀ (iv : Interval) (sh : Shift), iv.low.toNat ≤ iv.high.toNat → renormCase iv = some sh →
    iv.high.toNat - iv.low.toNat + 1 ≤ Config.half ∧
      ∃ r, shiftInterval sh iv = .ok r ∧ r.low.toNat ≤ r.high.toNat ∧
        r.high.toNat - r.low.toNat + 1 = 2 * (iv.high.toNat - iv.low.toNat + 1)) ∧
  ∀ (x : EncSide) (sym : Nat), TableOk x.unit.freqs → IntervalOk (encInterval x.unit) → WriterOk x.unit →
    SinkReady x.sink → sym ≤ 256 →
      ∃ u y, encNarrow sym x.unit = .ok u ∧ encRenorm 15 { x with unit := u } = .done () y

/-! ### The encoder's commands (42_encoder.md) -/

/-- R170: `enc.init`, in every phase. -/
def Obligations.EncInitStartsStream : Prop :=
  ∀ s : State, ∃ t, exec .encInit s = .next t ∧ (∀ i, i ≤ 257 → tableAt t.enc.freqs i = i) ∧ t.enc.low = 0 ∧
    t.enc.high = 0xFFFFFFFF ∧ t.enc.pending = 0 ∧ t.enc.wbuf = 0 ∧ t.enc.wcount = 0 ∧ t.enc.phase = .active ∧
    t = { s with enc := t.enc, status := 0, dout := 0 }

/-- R178 for a data symbol: from the state between two commands of an Active ENC and on a sink that answers, `enc.code sym`
completes; its bits and registers are those of coding the symbol on plain numbers, in which no case of R173 is left. -/
def Obligations.EncCodeRefinesSymbolCoding : Prop :=
  ∀ (s : State) (sym : Nat), s.enc.phase = .active → sym < 256 → TableOk s.enc.freqs →
    IntervalOk (encInterval s.enc) → WriterOk s.enc → SinkReady s.sink →
      ∃ t, exec (.encCode sym) s = .next t ∧
        bitCase (coderSymbol sym s.enc.freqs (coderOf s.enc)).low
          (coderSymbol sym s.enc.freqs (coderOf s.enc)).high = none ∧
        t.enc.low.toNat = (coderSymbol sym s.enc.freqs (coderOf s.enc)).low ∧
        t.enc.high.toNat = (coderSymbol sym s.enc.freqs (coderOf s.enc)).high ∧
        t.enc.pending = (coderSymbol sym s.enc.freqs (coderOf s.enc)).pending ∧
        writtenBits (encSide t) =
          writtenBits (encSide s) ++ (coderSymbol sym s.enc.freqs (coderOf s.enc)).bits ∧
        tableUpdate s.enc.freqs sym = .ok t.enc.freqs ∧ WriterOk t.enc ∧ t.enc.phase = .active ∧
        SinkReady t.sink ∧ s.sink.received <+: t.sink.received ∧ t.sink.flushes = s.sink.flushes ∧
        t.sink.passedOn = s.sink.passedOn ∧
        t = { s with enc := t.enc, sink := t.sink, status := 0, dout := 0 }

/-- R178, R179 for the EOF symbol: `enc.code 256` completes, emits the symbol's bits, the final bit with the pending bits
and one more, pads the last byte with zeros, flushes the sink, keeps `low` and `high`, and leaves ENC Done. -/
def Obligations.EncCodeEofFinishesStream : Prop :=
  ∀ s : State, s.enc.phase = .active → TableOk s.enc.freqs →
    IntervalOk (encInterval s.enc) → WriterOk s.enc → SinkReady s.sink →
      ∃ t pad, exec (.encCode 256) s = .next t ∧ pad < 8 ∧
        t.enc.low.toNat = (coderSymbol 256 s.enc.freqs (coderOf s.enc)).low ∧
        t.enc.high.toNat = (coderSymbol 256 s.enc.freqs (coderOf s.enc)).high ∧
        t.enc.pending = 0 ∧ t.enc.wbuf = 0 ∧ t.enc.wcount = 0 ∧
        t.sink.received.flatMap byteBits =
          writtenBits (encSide s) ++ (coderFinish (coderSymbol 256 s.enc.freqs (coderOf s.enc))).bits
            ++ List.replicate pad false ∧
        (coderFinish (coderSymbol 256 s.enc.freqs (coderOf s.enc))).bits.length =
          (coderSymbol 256 s.enc.freqs (coderOf s.enc)).bits.length
            + (coderSymbol 256 s.enc.freqs (coderOf s.enc)).pending + 2 ∧
        tableUpdate s.enc.freqs 256 = .ok t.enc.freqs ∧ t.enc.phase = .done ∧ SinkReady t.sink ∧
        s.sink.received <+: t.sink.received ∧ t.sink.flushes = s.sink.flushes + 1 ∧
        t.sink.passedOn = t.sink.received.length ∧
        t = { s with enc := t.enc, sink := t.sink, status := 0, dout := 0 }

/-! ### The decoder's commands (43_decoder.md) -/

/-- R200, R201: `dec.init`, in every phase, on a source that gives bytes and then `end`: fresh table, full interval, and
`value` the first 32 bits of the stream, the first bit on top, zeros past its end. -/
def Obligations.DecInitPrimesValue : Prop :=
  ∀ (s : State) (bytes : List Byte), SourceGives s.source bytes →
    ∃ t left, exec .decInit s = .next t ∧ (∀ i, i ≤ 257 → tableAt t.dec.freqs i = i) ∧ t.dec.low = 0 ∧
      t.dec.high = 0xFFFFFFFF ∧ t.dec.phase = .active ∧
      t.dec.value.toNat = bitsValue ((bytes.flatMap byteBits ++ List.replicate 32 false).take 32) ∧
      SourceGives t.source left ∧
      upcomingBits t.dec left = (bytes.flatMap byteBits ++ List.replicate 32 false).drop 32 ∧
      t.source.taken ++ left = s.source.taken ++ bytes ∧
      t = { s with dec := t.dec, source := t.source, status := 0, dout := 0 }

/-- R202: priming never fails with UNEXPECTED_EOF, whatever the source answers. -/
def Obligations.PrimingNeverRunsOutOfBits : Prop :=
  ∀ s t : State, s.waiting = none → exec .decInit s = .next t → t.waiting = none → t.status = 0 ∨ t.status = 1

/-- R203, R204, R205, R208: from the state between two commands of an Active DEC, `dec.code` selects the symbol whose range
holds the count; if the stream and the budget hold the bits that the shifts need, it completes with that symbol, and the
registers are those of decoding it on plain numbers. If not, it ends with UNEXPECTED_EOF (R233). -/
def Obligations.DecCodeRefinesSymbolDecoding : Prop :=
  ∀ (s : State) (bytes : List Byte), s.dec.phase = .active → TableOk s.dec.freqs → IntervalOk (decInterval s.dec) →
    ValueOk s.dec → SourceGives s.source bytes →
      ∃ sym, sym ≤ 256 ∧
        tableAt s.dec.freqs sym ≤ windowCount (windowOf s.dec bytes) (total s.dec.freqs) ∧
        windowCount (windowOf s.dec bytes) (total s.dec.freqs) < tableAt s.dec.freqs (sym + 1) ∧
        (∀ w, windowSymbol sym s.dec.freqs (windowOf s.dec bytes) = some w →
          ∃ t left, exec .decCode s = .next t ∧ t.dout.toNat = sym ∧ t.dec.low.toNat = w.low ∧
            t.dec.high.toNat = w.high ∧ t.dec.value.toNat = w.value ∧ bitCase w.low w.high = none ∧
            SourceGives t.source left ∧ upcomingBits t.dec left = w.bits ∧
            t.source.taken ++ left = s.source.taken ++ bytes ∧
            tableUpdate s.dec.freqs sym = .ok t.dec.freqs ∧
            t.dec.phase = (if sym = 256 then .done else .active) ∧
            t = { s with dec := t.dec, source := t.source, status := 0, dout := t.dout }) ∧
        (windowSymbol sym s.dec.freqs (windowOf s.dec bytes) = none →
          ∃ t, exec .decCode s = .next t ∧ t.dec.phase = .failed ∧
            t = { s with dec := t.dec, source := t.source, status := 2, dout := 0, draws := t.draws })

/-- R203, R208: `dec.code` completes with a symbol whenever 15 more bits are to be had. -/
def Obligations.DecCodeCompletesWithFifteenBits : Prop :=
  ∀ (s : State) (bytes : List Byte), s.dec.phase = .active → TableOk s.dec.freqs → IntervalOk (decInterval s.dec) →
    ValueOk s.dec → SourceGives s.source bytes → 15 ≤ (upcomingBits s.dec bytes).length →
      ∃ t, exec .decCode s = .next t ∧ t.status = 0 ∧ t.dout.toNat ≤ 256 ∧
        IntervalOk (decInterval t.dec) ∧ ValueOk t.dec ∧ TableOk t.dec.freqs

/-- R210, one symbol: from equal tables and intervals, when `dec.code` returns the symbol that `enc.code` encoded, the two
units' tables and intervals are equal again. -/
def Obligations.UnitsStayInLockstep : Prop :=
  ∀ (s t u : State) (sym : Nat), s.waiting = none → s.enc.phase = .active → s.dec.phase = .active →
    s.dec.freqs = s.enc.freqs → s.dec.low = s.enc.low → s.dec.high = s.enc.high →
    exec (.encCode sym) s = .next t → t.waiting = none → t.status = 0 →
    exec .decCode s = .next u → u.waiting = none → u.status = 0 → u.dout.toNat = sym →
      u.dec.freqs = t.enc.freqs ∧ u.dec.low = t.enc.low ∧ u.dec.high = t.enc.high

/-- R211, R274: `decode(encode(S)) = S`, after the same preloads on both sides (R265), from any state of each run, on a sink
that accepts every byte after any delay, and on a source that holds the bytes the encoder sent, followed by anything, each
after any delay, and never fails. -/
def Obligations.DecodeOfEncodedStream : Prop :=
  ∀ (histogram : List (Nat × Operand)) (bytes : List Byte) (s r : State), (∀ p ∈ histogram, p.1 ≤ 256) →
    s.waiting = none → SinkAnswersOk s.sink → r.waiting = none →
      ∃ sent, encodeRun histogram bytes s = .value sent ∧
        (SourceHolds r.source sent → ∀ n, bytes.length < n →
          decodeRun histogram n r = .value (bytes.map BitVec.toNat)) ∧
        decodeOf histogram sent = .value (bytes.map BitVec.toNat)

/-- R214: on a source of `L` bytes and then `end`, `decode(B)` always ends within `89 * (8*L + EXTRA_BITS - W + 1)`
`dec.code` commands: with a value, or with UNEXPECTED_EOF. -/
def Obligations.DecodeAlwaysEnds : Prop :=
  ∀ (histogram : List (Nat × Operand)) (bytes : List Byte) (r : State), (∀ p ∈ histogram, p.1 ≤ 256) →
    r.waiting = none → SourceGives r.source bytes →
      (∃ symbols, decodeRun histogram (decodeBound bytes.length) r = .value symbols) ∨
        decodeRun histogram (decodeBound bytes.length) r = .failed 2

/-! ### Reading the registers (44_state_read.md) -/

/-- R220, R221, R35: RDSTATE, in a phase in which the unit's registers are specified: each selector's register, and no
change. -/
def Obligations.RdstateReadsRegister : Prop :=
  (∀ s : State, holdsStream s.enc.phase →
    (∀ sel, sel ≤ 257 → exec (.encRdstate sel) s =
      .next { s with status := 0, dout := BitVec.ofNat 64 (tableAt s.enc.freqs sel) }) ∧
    exec (.encRdstate 258) s = .next { s with status := 0, dout := s.enc.low.zeroExtend 64 } ∧
    exec (.encRdstate 259) s = .next { s with status := 0, dout := s.enc.high.zeroExtend 64 } ∧
    exec (.encRdstate 260) s = .next { s with status := 0, dout := BitVec.ofNat 64 s.enc.pending } ∧
    exec (.encRdstate 262) s = .next { s with status := 0, dout := s.enc.wcount.zeroExtend 64 } ∧
    exec (.encRdstate 263) s = .next { s with status := 0, dout := s.enc.wbuf.zeroExtend 64 }) ∧
  ∀ s : State, holdsStream s.dec.phase →
    (∀ sel, sel ≤ 257 → exec (.decRdstate sel) s =
      .next { s with status := 0, dout := BitVec.ofNat 64 (tableAt s.dec.freqs sel) }) ∧
    exec (.decRdstate 258) s = .next { s with status := 0, dout := s.dec.low.zeroExtend 64 } ∧
    exec (.decRdstate 259) s = .next { s with status := 0, dout := s.dec.high.zeroExtend 64 } ∧
    exec (.decRdstate 260) s = .next { s with status := 0, dout := s.dec.value.zeroExtend 64 } ∧
    exec (.decRdstate 262) s = .next { s with status := 0, dout := s.dec.rcount.zeroExtend 64 } ∧
    exec (.decRdstate 263) s = .next { s with status := 0, dout := s.dec.rbuf.zeroExtend 64 } ∧
    exec (.decRdstate 264) s = .next { s with status := 0, dout := BitVec.ofNat 64 s.dec.padUsed } ∧
    exec (.decRdstate 265) s = .next { s with status := 0, dout := if s.dec.srcEnd = true then 1 else 0 }

/-- R222: selector 261 returns the true phase in every phase; in Idle and Failed every other defined selector answers OK
with a value this statement says nothing of, and changes no register (the draw counter is the model's own, log 5, 6). -/
def Obligations.RdstateInIdleAndFailed : Prop :=
  (∀ s : State, ∃ t, exec (.encRdstate 261) s = .next t ∧ t.dout.toNat = phaseCode s.enc.phase ∧
    t = { s with status := 0, dout := t.dout }) ∧
  (∀ s : State, ∃ t, exec (.decRdstate 261) s = .next t ∧ t.dout.toNat = phaseCode s.dec.phase ∧
    t = { s with status := 0, dout := t.dout }) ∧
  (∀ (s : State) (sel : Nat), s.enc.phase = .idle ∨ s.enc.phase = .failed → sel ≤ 263 →
    ∃ d n, exec (.encRdstate sel) s = .next { s with status := 0, dout := d, draws := n }) ∧
  ∀ (s : State) (sel : Nat), s.dec.phase = .idle ∨ s.dec.phase = .failed → sel ≤ 265 →
    ∃ d n, exec (.decRdstate sel) s = .next { s with status := 0, dout := d, draws := n }
end

