-- ==== Sys2Proof/Laws/State.lean ====
section
/-! SUPPORT. One lemma per field per named update of the state and of a unit, each true by rfl, so that no later proof
unfolds a record update. -/
namespace Sys2Proof.Machine

/-! ### respond -/

@[simp] theorem respond_enc (d : Operand) (s : State) : (respond d s).enc = s.enc := rfl
@[simp] theorem respond_dec (d : Operand) (s : State) : (respond d s).dec = s.dec := rfl
@[simp] theorem respond_status (d : Operand) (s : State) : (respond d s).status = statusCode .ok := rfl
@[simp] theorem respond_dout (d : Operand) (s : State) : (respond d s).dout = d := rfl
@[simp] theorem respond_din (d : Operand) (s : State) : (respond d s).din = s.din := rfl
@[simp] theorem respond_sink (d : Operand) (s : State) : (respond d s).sink = s.sink := rfl
@[simp] theorem respond_source (d : Operand) (s : State) : (respond d s).source = s.source := rfl
@[simp] theorem respond_host (d : Operand) (s : State) : (respond d s).host = s.host := rfl
@[simp] theorem respond_waiting (d : Operand) (s : State) : (respond d s).waiting = s.waiting := rfl
@[simp] theorem respond_draws (d : Operand) (s : State) : (respond d s).draws = s.draws := rfl

/-! ### reject -/

@[simp] theorem reject_enc (e : Status) (s : State) : (reject e s).enc = s.enc := rfl
@[simp] theorem reject_dec (e : Status) (s : State) : (reject e s).dec = s.dec := rfl
@[simp] theorem reject_status (e : Status) (s : State) : (reject e s).status = statusCode e := rfl
@[simp] theorem reject_dout (e : Status) (s : State) : (reject e s).dout = 0 := rfl
@[simp] theorem reject_din (e : Status) (s : State) : (reject e s).din = s.din := rfl
@[simp] theorem reject_sink (e : Status) (s : State) : (reject e s).sink = s.sink := rfl
@[simp] theorem reject_source (e : Status) (s : State) : (reject e s).source = s.source := rfl
@[simp] theorem reject_host (e : Status) (s : State) : (reject e s).host = s.host := rfl
@[simp] theorem reject_waiting (e : Status) (s : State) : (reject e s).waiting = s.waiting := rfl
@[simp] theorem reject_draws (e : Status) (s : State) : (reject e s).draws = s.draws := rfl

/-! ### withEncSide -/

@[simp] theorem withEncSide_enc (s : State) (x : EncSide) : (withEncSide s x).enc = x.unit := rfl
@[simp] theorem withEncSide_dec (s : State) (x : EncSide) : (withEncSide s x).dec = s.dec := rfl
@[simp] theorem withEncSide_status (s : State) (x : EncSide) : (withEncSide s x).status = s.status := rfl
@[simp] theorem withEncSide_dout (s : State) (x : EncSide) : (withEncSide s x).dout = s.dout := rfl
@[simp] theorem withEncSide_din (s : State) (x : EncSide) : (withEncSide s x).din = s.din := rfl
@[simp] theorem withEncSide_sink (s : State) (x : EncSide) : (withEncSide s x).sink = x.sink := rfl
@[simp] theorem withEncSide_source (s : State) (x : EncSide) : (withEncSide s x).source = s.source := rfl
@[simp] theorem withEncSide_host (s : State) (x : EncSide) : (withEncSide s x).host = s.host := rfl
@[simp] theorem withEncSide_waiting (s : State) (x : EncSide) : (withEncSide s x).waiting = s.waiting := rfl
@[simp] theorem withEncSide_draws (s : State) (x : EncSide) : (withEncSide s x).draws = s.draws := rfl

/-! ### withDecSide -/

@[simp] theorem withDecSide_enc (s : State) (x : DecSide) : (withDecSide s x).enc = s.enc := rfl
@[simp] theorem withDecSide_dec (s : State) (x : DecSide) : (withDecSide s x).dec = x.unit := rfl
@[simp] theorem withDecSide_status (s : State) (x : DecSide) : (withDecSide s x).status = s.status := rfl
@[simp] theorem withDecSide_dout (s : State) (x : DecSide) : (withDecSide s x).dout = s.dout := rfl
@[simp] theorem withDecSide_din (s : State) (x : DecSide) : (withDecSide s x).din = s.din := rfl
@[simp] theorem withDecSide_sink (s : State) (x : DecSide) : (withDecSide s x).sink = s.sink := rfl
@[simp] theorem withDecSide_source (s : State) (x : DecSide) : (withDecSide s x).source = x.source := rfl
@[simp] theorem withDecSide_host (s : State) (x : DecSide) : (withDecSide s x).host = s.host := rfl
@[simp] theorem withDecSide_waiting (s : State) (x : DecSide) : (withDecSide s x).waiting = s.waiting := rfl
@[simp] theorem withDecSide_draws (s : State) (x : DecSide) : (withDecSide s x).draws = s.draws := rfl

/-! ### failEnc -/

@[simp] theorem failEnc_enc (e : Status) (k : Sink) (s : State) : (failEnc e k s).enc = unspecifiedEnc s.draws .failed := rfl
@[simp] theorem failEnc_dec (e : Status) (k : Sink) (s : State) : (failEnc e k s).dec = s.dec := rfl
@[simp] theorem failEnc_status (e : Status) (k : Sink) (s : State) : (failEnc e k s).status = statusCode e := rfl
@[simp] theorem failEnc_dout (e : Status) (k : Sink) (s : State) : (failEnc e k s).dout = 0 := rfl
@[simp] theorem failEnc_din (e : Status) (k : Sink) (s : State) : (failEnc e k s).din = s.din := rfl
@[simp] theorem failEnc_sink (e : Status) (k : Sink) (s : State) : (failEnc e k s).sink = k := rfl
@[simp] theorem failEnc_source (e : Status) (k : Sink) (s : State) : (failEnc e k s).source = s.source := rfl
@[simp] theorem failEnc_host (e : Status) (k : Sink) (s : State) : (failEnc e k s).host = s.host := rfl
@[simp] theorem failEnc_waiting (e : Status) (k : Sink) (s : State) : (failEnc e k s).waiting = s.waiting := rfl
@[simp] theorem failEnc_draws (e : Status) (k : Sink) (s : State) : (failEnc e k s).draws = s.draws + 1 := rfl

/-! ### failDec -/

@[simp] theorem failDec_enc (e : Status) (src : Source) (s : State) : (failDec e src s).enc = s.enc := rfl
@[simp] theorem failDec_dec (e : Status) (src : Source) (s : State) : (failDec e src s).dec = unspecifiedDec s.draws .failed := rfl
@[simp] theorem failDec_status (e : Status) (src : Source) (s : State) : (failDec e src s).status = statusCode e := rfl
@[simp] theorem failDec_dout (e : Status) (src : Source) (s : State) : (failDec e src s).dout = 0 := rfl
@[simp] theorem failDec_din (e : Status) (src : Source) (s : State) : (failDec e src s).din = s.din := rfl
@[simp] theorem failDec_sink (e : Status) (src : Source) (s : State) : (failDec e src s).sink = s.sink := rfl
@[simp] theorem failDec_source (e : Status) (src : Source) (s : State) : (failDec e src s).source = src := rfl
@[simp] theorem failDec_host (e : Status) (src : Source) (s : State) : (failDec e src s).host = s.host := rfl
@[simp] theorem failDec_waiting (e : Status) (src : Source) (s : State) : (failDec e src s).waiting = s.waiting := rfl
@[simp] theorem failDec_draws (e : Status) (src : Source) (s : State) : (failDec e src s).draws = s.draws + 1 := rfl

/-! ### resetBlock -/

@[simp] theorem resetBlock_enc (s : State) : (resetBlock s).enc = unspecifiedEnc s.draws .idle := rfl
@[simp] theorem resetBlock_dec (s : State) : (resetBlock s).dec = unspecifiedDec (s.draws + 1) .idle := rfl
@[simp] theorem resetBlock_status (s : State) : (resetBlock s).status = statusCode .ok := rfl
@[simp] theorem resetBlock_dout (s : State) : (resetBlock s).dout = 0 := rfl
@[simp] theorem resetBlock_din (s : State) : (resetBlock s).din = s.din := rfl
@[simp] theorem resetBlock_sink (s : State) : (resetBlock s).sink = s.sink := rfl
@[simp] theorem resetBlock_source (s : State) : (resetBlock s).source = s.source := rfl
@[simp] theorem resetBlock_host (s : State) : (resetBlock s).host = s.host := rfl
@[simp] theorem resetBlock_waiting (s : State) : (resetBlock s).waiting = none := rfl
@[simp] theorem resetBlock_draws (s : State) : (resetBlock s).draws = s.draws + 2 := rfl

/-! ### presentWord -/

@[simp] theorem presentWord_enc (cmd : CmdWord) (s : State) : (presentWord cmd s).enc = s.enc := rfl
@[simp] theorem presentWord_dec (cmd : CmdWord) (s : State) : (presentWord cmd s).dec = s.dec := rfl
@[simp] theorem presentWord_status (cmd : CmdWord) (s : State) : (presentWord cmd s).status = s.status := rfl
@[simp] theorem presentWord_dout (cmd : CmdWord) (s : State) : (presentWord cmd s).dout = s.dout := rfl
@[simp] theorem presentWord_din (cmd : CmdWord) (s : State) : (presentWord cmd s).din = s.din := rfl
@[simp] theorem presentWord_sink (cmd : CmdWord) (s : State) : (presentWord cmd s).sink = s.sink := rfl
@[simp] theorem presentWord_source (cmd : CmdWord) (s : State) : (presentWord cmd s).source = s.source := rfl
@[simp] theorem presentWord_host (cmd : CmdWord) (s : State) : (presentWord cmd s).host = .command cmd s.din :: s.host := rfl
@[simp] theorem presentWord_waiting (cmd : CmdWord) (s : State) : (presentWord cmd s).waiting = none := rfl
@[simp] theorem presentWord_draws (cmd : CmdWord) (s : State) : (presentWord cmd s).draws = s.draws := rfl

/-! ### takeByte -/

@[simp] theorem takeByte_received (b : Byte) (k : Sink) : (takeByte b k).received = k.received ++ [b] := rfl
@[simp] theorem takeByte_passedOn (b : Byte) (k : Sink) : (takeByte b k).passedOn = k.passedOn := rfl
@[simp] theorem takeByte_flushes (b : Byte) (k : Sink) : (takeByte b k).flushes = k.flushes := rfl
@[simp] theorem takeByte_answers (b : Byte) (k : Sink) : (takeByte b k).answers = k.answers := rfl
@[simp] theorem takeByte_thereafter (b : Byte) (k : Sink) : (takeByte b k).thereafter = k.thereafter := rfl

/-! ### promptSink and promptSource -/

@[simp] theorem promptSink_unit (x : EncSide) : (promptSink x).unit = x.unit := rfl
@[simp] theorem promptSink_received (x : EncSide) : (promptSink x).sink.received = x.sink.received := rfl
@[simp] theorem promptSink_passedOn (x : EncSide) : (promptSink x).sink.passedOn = x.sink.passedOn := rfl
@[simp] theorem promptSink_flushes (x : EncSide) : (promptSink x).sink.flushes = x.sink.flushes := rfl
@[simp] theorem promptSink_answers (x : EncSide) : (promptSink x).sink.answers = dropLate x.sink.answers := rfl
@[simp] theorem promptSink_thereafter (x : EncSide) : (promptSink x).sink.thereafter = x.sink.thereafter := rfl
@[simp] theorem promptSource_unit (x : DecSide) : (promptSource x).unit = x.unit := rfl
@[simp] theorem promptSource_taken (x : DecSide) : (promptSource x).source.taken = x.source.taken := rfl
@[simp] theorem promptSource_answers (x : DecSide) : (promptSource x).source.answers = dropLate x.source.answers := rfl
@[simp] theorem promptSource_thereafter (x : DecSide) : (promptSource x).source.thereafter = x.source.thereafter := rfl

/-! ### restart -/

theorem restart_none {s : State} (h : s.waiting = none) : restart s = s := by simp only [restart, h]
theorem restart_onSink {s : State} {i : Instr} {x : EncSide} (h : s.waiting = some (.onSink i x)) :
    restart s = { withEncSide s x with waiting := none } := by simp only [restart, h]
theorem restart_onSource {s : State} {i : Instr} {x : DecSide} (h : s.waiting = some (.onSource i x)) :
    restart s = { withDecSide s x with waiting := none } := by simp only [restart, h]
@[simp] theorem restart_status (s : State) : (restart s).status = s.status := by unfold restart; split <;> rfl
@[simp] theorem restart_dout (s : State) : (restart s).dout = s.dout := by unfold restart; split <;> rfl
@[simp] theorem restart_din (s : State) : (restart s).din = s.din := by unfold restart; split <;> rfl
@[simp] theorem restart_host (s : State) : (restart s).host = s.host := by unfold restart; split <;> rfl
@[simp] theorem restart_draws (s : State) : (restart s).draws = s.draws := by unfold restart; split <;> rfl
@[simp] theorem restart_waiting (s : State) : (restart s).waiting = none := by unfold restart; split <;> simp_all

/-! ### emptyWriter -/

@[simp] theorem emptyWriter_low (u : EncUnit) : (emptyWriter u).low = u.low := rfl
@[simp] theorem emptyWriter_high (u : EncUnit) : (emptyWriter u).high = u.high := rfl
@[simp] theorem emptyWriter_pending (u : EncUnit) : (emptyWriter u).pending = u.pending := rfl
@[simp] theorem emptyWriter_freqs (u : EncUnit) : (emptyWriter u).freqs = u.freqs := rfl
@[simp] theorem emptyWriter_wbuf (u : EncUnit) : (emptyWriter u).wbuf = 0 := rfl
@[simp] theorem emptyWriter_wcount (u : EncUnit) : (emptyWriter u).wcount = 0 := rfl
@[simp] theorem emptyWriter_phase (u : EncUnit) : (emptyWriter u).phase = u.phase := rfl

/-! ### setEncInterval -/

@[simp] theorem setEncInterval_low (u : EncUnit) (iv : Interval) : (setEncInterval u iv).low = iv.low := rfl
@[simp] theorem setEncInterval_high (u : EncUnit) (iv : Interval) : (setEncInterval u iv).high = iv.high := rfl
@[simp] theorem setEncInterval_pending (u : EncUnit) (iv : Interval) : (setEncInterval u iv).pending = u.pending := rfl
@[simp] theorem setEncInterval_freqs (u : EncUnit) (iv : Interval) : (setEncInterval u iv).freqs = u.freqs := rfl
@[simp] theorem setEncInterval_wbuf (u : EncUnit) (iv : Interval) : (setEncInterval u iv).wbuf = u.wbuf := rfl
@[simp] theorem setEncInterval_wcount (u : EncUnit) (iv : Interval) : (setEncInterval u iv).wcount = u.wcount := rfl
@[simp] theorem setEncInterval_phase (u : EncUnit) (iv : Interval) : (setEncInterval u iv).phase = u.phase := rfl

/-! ### setDecInterval -/

@[simp] theorem setDecInterval_low (u : DecUnit) (iv : Interval) : (setDecInterval u iv).low = iv.low := rfl
@[simp] theorem setDecInterval_high (u : DecUnit) (iv : Interval) : (setDecInterval u iv).high = iv.high := rfl
@[simp] theorem setDecInterval_value (u : DecUnit) (iv : Interval) : (setDecInterval u iv).value = u.value := rfl
@[simp] theorem setDecInterval_freqs (u : DecUnit) (iv : Interval) : (setDecInterval u iv).freqs = u.freqs := rfl
@[simp] theorem setDecInterval_rbuf (u : DecUnit) (iv : Interval) : (setDecInterval u iv).rbuf = u.rbuf := rfl
@[simp] theorem setDecInterval_rcount (u : DecUnit) (iv : Interval) : (setDecInterval u iv).rcount = u.rcount := rfl
@[simp] theorem setDecInterval_padUsed (u : DecUnit) (iv : Interval) : (setDecInterval u iv).padUsed = u.padUsed := rfl
@[simp] theorem setDecInterval_srcEnd (u : DecUnit) (iv : Interval) : (setDecInterval u iv).srcEnd = u.srcEnd := rfl
@[simp] theorem setDecInterval_phase (u : DecUnit) (iv : Interval) : (setDecInterval u iv).phase = u.phase := rfl

/-! ### readerReset -/

@[simp] theorem readerReset_low (u : DecUnit) : (readerReset u).low = u.low := rfl
@[simp] theorem readerReset_high (u : DecUnit) : (readerReset u).high = u.high := rfl
@[simp] theorem readerReset_value (u : DecUnit) : (readerReset u).value = u.value := rfl
@[simp] theorem readerReset_freqs (u : DecUnit) : (readerReset u).freqs = u.freqs := rfl
@[simp] theorem readerReset_rbuf (u : DecUnit) : (readerReset u).rbuf = 0 := rfl
@[simp] theorem readerReset_rcount (u : DecUnit) : (readerReset u).rcount = 0 := rfl
@[simp] theorem readerReset_padUsed (u : DecUnit) : (readerReset u).padUsed = 0 := rfl
@[simp] theorem readerReset_srcEnd (u : DecUnit) : (readerReset u).srcEnd = false := rfl
@[simp] theorem readerReset_phase (u : DecUnit) : (readerReset u).phase = u.phase := rfl

/-! ### startDec -/

@[simp] theorem startDec_low (u : DecUnit) : (startDec u).low = 0 := rfl
@[simp] theorem startDec_high (u : DecUnit) : (startDec u).high = BitVec.ofNat 32 Config.maxCode := rfl
@[simp] theorem startDec_value (u : DecUnit) : (startDec u).value = u.value := rfl
@[simp] theorem startDec_freqs (u : DecUnit) : (startDec u).freqs = freshTable := rfl
@[simp] theorem startDec_rbuf (u : DecUnit) : (startDec u).rbuf = 0 := rfl
@[simp] theorem startDec_rcount (u : DecUnit) : (startDec u).rcount = 0 := rfl
@[simp] theorem startDec_padUsed (u : DecUnit) : (startDec u).padUsed = 0 := rfl
@[simp] theorem startDec_srcEnd (u : DecUnit) : (startDec u).srcEnd = false := rfl
@[simp] theorem startDec_phase (u : DecUnit) : (startDec u).phase = .active := rfl

/-! ### Units after a fatal error or a reset, and ENC after INIT -/

@[simp] theorem unspecifiedEnc_phase (d : Nat) (p : Phase) : (unspecifiedEnc d p).phase = p := rfl
@[simp] theorem unspecifiedDec_phase (d : Nat) (p : Phase) : (unspecifiedDec d p).phase = p := rfl
theorem unspecifiedDec_padUsed (d : Nat) (p : Phase) : (unspecifiedDec d p).padUsed ≤ Config.extraBits :=
  Nat.le_of_lt_succ (Nat.mod_lt _ (by decide))
@[simp] theorem freshEnc_low : freshEnc.low = 0 := rfl
@[simp] theorem freshEnc_high : freshEnc.high = BitVec.ofNat 32 Config.maxCode := rfl
@[simp] theorem freshEnc_pending : freshEnc.pending = 0 := rfl
@[simp] theorem freshEnc_freqs : freshEnc.freqs = freshTable := rfl
@[simp] theorem freshEnc_wbuf : freshEnc.wbuf = 0 := rfl
@[simp] theorem freshEnc_wcount : freshEnc.wcount = 0 := rfl
@[simp] theorem freshEnc_phase : freshEnc.phase = .active := rfl

/-! ### A unit with its device -/

@[simp] theorem encSide_unit (s : State) : (encSide s).unit = s.enc := rfl
@[simp] theorem encSide_sink (s : State) : (encSide s).sink = s.sink := rfl
@[simp] theorem decSide_unit (s : State) : (decSide s).unit = s.dec := rfl
@[simp] theorem decSide_source (s : State) : (decSide s).source = s.source := rfl
@[simp] theorem setEncPhase_unit (p : Phase) (x : EncSide) : (setEncPhase p x).unit = { x.unit with phase := p } := rfl
@[simp] theorem setEncPhase_sink (p : Phase) (x : EncSide) : (setEncPhase p x).sink = x.sink := rfl
@[simp] theorem beginFlush_unit (x : EncSide) :
    (beginFlush x).unit = { x.unit with phase := .flushing, pending := x.unit.pending + 1 } := rfl
@[simp] theorem beginFlush_sink (x : EncSide) : (beginFlush x).sink = x.sink := rfl
@[simp] theorem setValue_unit (v : Code) (x : DecSide) : (setValue v x).unit = { x.unit with value := v } := rfl
@[simp] theorem setValue_source (v : Code) (x : DecSide) : (setValue v x).source = x.source := rfl
@[simp] theorem finishDec_source (sym : Nat) (x : DecSide) : (finishDec sym x).source = x.source := by
  unfold finishDec; split <;> rfl
@[simp] theorem encInterval_low (u : EncUnit) : (encInterval u).low = u.low := rfl
@[simp] theorem encInterval_high (u : EncUnit) : (encInterval u).high = u.high := rfl
@[simp] theorem decInterval_low (u : DecUnit) : (decInterval u).low = u.low := rfl
@[simp] theorem decInterval_high (u : DecUnit) : (decInterval u).high = u.high := rfl

end Sys2Proof.Machine
end

