-- ==== Sys2Proof/Laws/Ops.lean ====
section
/-! SUPPORT. What the shared operations can do: arithmetic that faults instead of wrapping, running a command on a side,
and how a command ends. -/
namespace Sys2Proof.Machine

/-! ### Arithmetic -/

theorem narrowTo_ok {w v : Nat} (h : v < 2 ^ w) : narrowTo w v = .ok (BitVec.ofNat w v) := by
  simp [narrowTo, h]

theorem minus_ok {a b : Nat} (h : b ≤ a) : minus a b = .ok (a - b) := by
  simp [minus, h]

theorem divide_ok {a b : Nat} (h : 0 < b) : divide a b = .ok (a / b) := by
  have : b ≠ 0 := by omega
  simp [divide, this]

theorem toNat_ofNat_of_lt {w v : Nat} (h : v < 2 ^ w) : (BitVec.ofNat w v).toNat = v := by
  simp [BitVec.toNat_ofNat, Nat.mod_eq_of_lt h]

/-! ### Running -/

variable {σ α β γ : Type}

@[simp] theorem andThen_done (a : α) (x : σ) (k : α → σ → Run σ β) : (Run.done a x).andThen k = k a x := rfl
@[simp] theorem andThen_raised (e : Status) (x : σ) (k : α → σ → Run σ β) :
    (Run.raised e x : Run σ α).andThen k = .raised e x := rfl
@[simp] theorem andThen_waiting (x : σ) (k : α → σ → Run σ β) :
    (Run.waiting x : Run σ α).andThen k = .waiting x := rfl
@[simp] theorem andThen_broken (f : Fault) (k : α → σ → Run σ β) :
    (Run.broken f : Run σ α).andThen k = .broken f := rfl
@[simp] theorem lift_ok (a : α) (k : α → Run σ β) : Run.lift (.ok a) k = k a := rfl
@[simp] theorem lift_error (f : Fault) (k : α → Run σ β) : Run.lift (.error f) k = .broken f := rfl

theorem andThen_assoc (r : Run σ α) (k : α → σ → Run σ β) (l : β → σ → Run σ γ) :
    (r.andThen k).andThen l = r.andThen fun a x => (k a x).andThen l := by
  cases r <;> rfl

/-- Wherever a run stops, the side satisfies `P`, and it raises only errors that satisfy `E`. -/
def Stops (P : σ → Prop) (E : Status → Prop) : Run σ α → Prop
  | .done _ x => P x
  | .raised e x => E e ∧ P x
  | .waiting x => P x
  | .broken _ => True

theorem stops_andThen {P : σ → Prop} {E : Status → Prop} {r : Run σ α} {k : α → σ → Run σ β}
    (hr : Stops P E r) (hk : ∀ a x, P x → Stops P E (k a x)) : Stops P E (r.andThen k) := by
  cases r with
  | done a x => exact hk a x hr
  | raised e x => exact hr
  | waiting x => exact hr
  | broken f => trivial

theorem stops_lift {P : σ → Prop} {E : Status → Prop} {c : Except Fault α} {k : α → Run σ β}
    (hk : ∀ a, c = .ok a → Stops P E (k a)) : Stops P E (Run.lift c k) := by
  cases c with
  | ok a => exact hk a rfl
  | error f => trivial

theorem stops_mono {P Q : σ → Prop} {E : Status → Prop} {r : Run σ α} (h : Stops P E r) (hpq : ∀ x, P x → Q x) :
    Stops Q E r := by
  cases r with
  | done a x => exact hpq x h
  | raised e x => exact ⟨h.1, hpq x h.2⟩
  | waiting x => exact hpq x h
  | broken f => trivial

/-! ### How a command ends -/

/-- A checked command that answers a next state was rejected for its phase, rejected for its operand, or ran. -/
theorem checked_next {p : Phase} {ok : Bool} {s t : State} {run : Host.Outcome State Fault Refusal}
    (h : checked p ok s run = .next t) :
    (p ≠ .active ∧ t = reject .badPhase s) ∨ (p = .active ∧ ok = false ∧ t = reject .badOperand s) ∨
      (p = .active ∧ ok = true ∧ run = .next t) := by
  unfold checked at h
  split at h
  · split at h
    · exact .inr (.inr ⟨‹_›, ‹_›, h⟩)
    · injection h with h
      exact .inr (.inl ⟨‹_›, by simpa using ‹¬ok = true›, h.symm⟩)
  · injection h with h
    exact .inl ⟨‹_›, h.symm⟩

theorem checked_active {s : State} {run : Host.Outcome State Fault Refusal} :
    checked .active true s run = run := by simp [checked]

theorem checked_badPhase {p : Phase} {ok : Bool} {s : State} {run : Host.Outcome State Fault Refusal}
    (h : p ≠ .active) : checked p ok s run = .next (reject .badPhase s) := by simp [checked, h]

theorem checked_badOperand {s : State} {run : Host.Outcome State Fault Refusal} :
    checked .active false s run = .next (reject .badOperand s) := by simp [checked]

/-- An ENC command that answers a next state ended with a result, with a fatal error, or waits on the sink. -/
theorem endEnc_next {i : Instr} {s t : State} {r : Run EncSide Operand} (h : endEnc i s r = .next t) :
    (∃ d x, r = .done d x ∧ t = respond d (withEncSide s x)) ∨
      (∃ e x, r = .raised e x ∧ t = failEnc e x.sink s) ∨
        (∃ x, r = .waiting x ∧ t = { withEncSide s x with waiting := some (.onSink i (promptSink (encSide s))) }) := by
  cases r with
  | done d x => injection h with h; exact .inl ⟨d, x, rfl, h.symm⟩
  | raised e x => injection h with h; exact .inr (.inl ⟨e, x, rfl, h.symm⟩)
  | waiting x => injection h with h; exact .inr (.inr ⟨x, rfl, h.symm⟩)
  | broken f => cases h

/-- A DEC command that answers a next state ended with a result, with a fatal error, or waits on the source. -/
theorem endDec_next {i : Instr} {s t : State} {r : Run DecSide Operand} (h : endDec i s r = .next t) :
    (∃ d x, r = .done d x ∧ t = respond d (withDecSide s x)) ∨
      (∃ e x, r = .raised e x ∧ t = failDec e x.source s) ∨
        (∃ x, r = .waiting x ∧ t = { withDecSide s x with waiting := some (.onSource i (promptSource (decSide s))) }) := by
  cases r with
  | done d x => injection h with h; exact .inl ⟨d, x, rfl, h.symm⟩
  | raised e x => injection h with h; exact .inr (.inl ⟨e, x, rfl, h.symm⟩)
  | waiting x => injection h with h; exact .inr (.inr ⟨x, rfl, h.symm⟩)
  | broken f => cases h

@[simp] theorem endEnc_done (i : Instr) (s : State) (d : Operand) (x : EncSide) :
    endEnc i s (.done d x) = .next (respond d (withEncSide s x)) := rfl
@[simp] theorem endEnc_raised (i : Instr) (s : State) (e : Status) (x : EncSide) :
    endEnc i s (.raised e x) = .next (failEnc e x.sink s) := rfl
@[simp] theorem endDec_done (i : Instr) (s : State) (d : Operand) (x : DecSide) :
    endDec i s (.done d x) = .next (respond d (withDecSide s x)) := rfl
@[simp] theorem endDec_raised (i : Instr) (s : State) (e : Status) (x : DecSide) :
    endDec i s (.raised e x) = .next (failDec e x.source s) := rfl

@[simp] theorem endEnc_waiting (i : Instr) (s : State) (x : EncSide) : endEnc i s (.waiting x) =
    .next { withEncSide s x with waiting := some (.onSink i (promptSink (encSide s))) } := rfl
@[simp] theorem endDec_waiting (i : Instr) (s : State) (x : DecSide) : endDec i s (.waiting x) =
    .next { withDecSide s x with waiting := some (.onSource i (promptSource (decSide s))) } := rfl

/-! ### Devices -/

theorem sinkAnswer_ready {k : Sink} (h : SinkReady k) : ∃ k', sinkAnswer k = (some .ok, k') ∧ SinkReady k' := by
  unfold sinkAnswer
  split
  · rename_i a rest heq
    have ha : Turn.answer a = .answer .ok := h.scripted _ (by simp [heq])
    injection ha with ha
    exact ⟨{ k with answers := rest }, by rw [ha],
      ⟨fun b hb => h.scripted b (by rw [heq]; exact List.mem_cons_of_mem _ hb), h.thereafter⟩⟩
  · rename_i rest heq
    exact absurd (h.scripted .late (by simp [heq])) (by simp)
  · exact ⟨k, by simp [h.thereafter], h⟩

/-- Taking an answer changes nothing but the answers still to come. -/
theorem sinkAnswer_keeps (k : Sink) : (sinkAnswer k).2.received = k.received ∧ (sinkAnswer k).2.passedOn = k.passedOn ∧
    (sinkAnswer k).2.flushes = k.flushes ∧ (sinkAnswer k).2.thereafter = k.thereafter := by
  unfold sinkAnswer
  split <;> exact ⟨rfl, rfl, rfl, rfl⟩

/-- SinkWrite on a sink that answers ok (R17, R58). -/
theorem sinkWrite_ready {k : Sink} (h : SinkReady k) (b : Byte) :
    ∃ k', sinkWrite b k = (some .ok, k') ∧ SinkReady k' ∧ k'.received = k.received ++ [b] ∧
      k'.flushes = k.flushes ∧ k'.passedOn = k.passedOn := by
  obtain ⟨k', hk, hr⟩ := sinkAnswer_ready h
  obtain ⟨h1, h2, h3, _⟩ := sinkAnswer_keeps k
  rw [hk] at h1 h2 h3
  simp only at h1 h2 h3
  exact ⟨takeByte b k', by simp only [sinkWrite, hk], ⟨hr.scripted, hr.thereafter⟩, by simp [takeByte, h1], h3, h2⟩

/-- SinkFlush on a sink that answers ok (R17, R62). -/
theorem sinkFlush_ready {k : Sink} (h : SinkReady k) :
    ∃ k', sinkFlush k = (some .ok, k') ∧ SinkReady k' ∧ k'.received = k.received ∧
      k'.flushes = k.flushes + 1 ∧ k'.passedOn = k.received.length := by
  obtain ⟨k', hk, hr⟩ := sinkAnswer_ready h
  obtain ⟨h1, h2, h3, _⟩ := sinkAnswer_keeps k
  rw [hk] at h1 h2 h3
  simp only at h1 h2 h3
  exact ⟨{ k' with passedOn := k'.received.length, flushes := k'.flushes + 1 }, by simp only [sinkFlush, hk],
    ⟨hr.scripted, hr.thereafter⟩, h1, by simp [h3], by simp [h1]⟩

/-- Taking an answer changes nothing but the answers still to come. -/
theorem sourceAnswer_keeps (src : Source) : (sourceAnswer src).2.taken = src.taken ∧
    (sourceAnswer src).2.thereafter = src.thereafter := by
  unfold sourceAnswer
  split <;> exact ⟨rfl, rfl⟩

/-- What a SinkWrite does to the bytes the sink holds: one more when it is answered, whatever the answer (R58), none while
it is not (log 7). -/
theorem sinkWrite_received (b : Byte) (k : Sink) : (sinkWrite b k).2.received =
    match (sinkWrite b k).1 with
    | none => k.received
    | some _ => k.received ++ [b] := by
  have hk := (sinkAnswer_keeps k).1
  unfold sinkWrite
  split
  · rename_i h; rw [h] at hk; exact hk
  · rename_i h; rw [h] at hk; simp only [takeByte]; rw [← hk]

/-- The sink keeps what it holds (R58). -/
theorem sinkWrite_prefix (b : Byte) (k : Sink) : k.received <+: (sinkWrite b k).2.received := by
  rw [sinkWrite_received]
  split
  · exact List.prefix_refl _
  · exact List.prefix_append _ _

/-- A SinkFlush adds no byte. -/
theorem sinkFlush_received (k : Sink) : (sinkFlush k).2.received = k.received := by
  have hk := (sinkAnswer_keeps k).1
  unfold sinkFlush
  split
  · rename_i h; rw [h] at hk; exact hk
  · rename_i h; rw [h] at hk; exact hk
  · rename_i h; rw [h] at hk; exact hk

/-- What a SourceRead does to the bytes taken: one more when it gives one, else none (R58). -/
theorem sourceRead_taken (src : Source) : (sourceRead src).2.taken =
    match (sourceRead src).1 with
    | some (.byte b) => src.taken ++ [b]
    | some .endOfData => src.taken
    | some .ioError => src.taken
    | none => src.taken := by
  have hk := (sourceAnswer_keeps src).1
  unfold sourceRead
  split
  · rename_i h; rw [h] at hk; exact hk
  · rename_i h; rw [h] at hk; simp only; rw [← hk]
  · rename_i h; rw [h] at hk; exact hk
  · rename_i h; rw [h] at hk; exact hk

/-- What was taken from the source stays taken (R58). -/
theorem sourceRead_prefix (src : Source) : src.taken <+: (sourceRead src).2.taken := by
  rw [sourceRead_taken]
  split
  · exact List.prefix_append _ _
  · exact List.prefix_refl _
  · exact List.prefix_refl _
  · exact List.prefix_refl _

theorem sourceRead_byte {src : Source} {b : Byte} {bytes : List Byte} (h : SourceGives src (b :: bytes)) :
    ∃ src', sourceRead src = (some (.byte b), src') ∧ SourceGives src' bytes ∧ src'.taken = src.taken ++ [b] := by
  obtain ⟨taken, ans, aft⟩ := src
  obtain ⟨h1, h2⟩ := h
  simp only at h1 h2
  subst h1 h2
  exact ⟨⟨taken ++ [b], bytes.map fun b => .answer (.byte b), some .endOfData⟩, by simp [sourceRead, sourceAnswer],
    ⟨rfl, rfl⟩, rfl⟩

theorem sourceRead_end {src : Source} (h : SourceGives src []) : sourceRead src = (some .endOfData, src) := by
  obtain ⟨taken, ans, aft⟩ := src
  obtain ⟨h1, h2⟩ := h
  simp only [List.map_nil] at h1 h2
  subst h1 h2
  rfl

end Sys2Proof.Machine
end

