-- ==== Sys2Proof/Laws/BitIo.lean ====
section
/-! SUPPORT. The bit writer and the bit reader in terms of the bits they write and supply (40_bit_io.md), and the errors
they can raise. -/
namespace Sys2Proof.Machine

/-! ### Bits of numbers (R53) -/

@[simp] theorem msbBits_length (v n : Nat) : (msbBits v n).length = n := by
  induction n with
  | zero => rfl
  | succ n ih => simp [msbBits, ih]

theorem testBit_two_mul_add_succ (v n : Nat) (b : Bool) : (2 * v + b.toNat).testBit (n + 1) = v.testBit n := by
  have hb := Bool.toNat_lt b
  rw [Nat.testBit_succ, show (2 * v + b.toNat) / 2 = v from by omega]

theorem testBit_two_mul_add_zero (v : Nat) (b : Bool) : (2 * v + b.toNat).testBit 0 = b := by
  cases b <;> simp

/-- Appending a bit below: `v << 1 | b` has `v`'s bits and then `b`. -/
theorem msbBits_push (v n : Nat) (b : Bool) : msbBits (2 * v + b.toNat) (n + 1) = msbBits v n ++ [b] := by
  induction n with
  | zero =>
    show [(2 * v + b.toNat).testBit 0] = [b]
    rw [testBit_two_mul_add_zero]
  | succ n ih =>
    rw [msbBits, ih, testBit_two_mul_add_succ]
    rfl

/-- Padding with zeros below. -/
theorem msbBits_shift (v n k : Nat) : msbBits (v * 2 ^ k) (n + k) = msbBits v n ++ List.replicate k false := by
  induction k with
  | zero => simp
  | succ k ih =>
    have h : v * 2 ^ (k + 1) = 2 * (v * 2 ^ k) + false.toNat := by simp [pow_succ]; ring
    rw [h, ← Nat.add_assoc, msbBits_push, ih, List.append_assoc, List.replicate_succ']

theorem msbBits_mod (v n k : Nat) (h : n ≤ k) : msbBits (v % 2 ^ k) n = msbBits v n := by
  induction n with
  | zero => rfl
  | succ n ih =>
    rw [msbBits, msbBits, ih (by omega), Nat.testBit_mod_two_pow]
    simp [show n < k from by omega]

theorem bitsValue_append_one (l : List Bool) (b : Bool) : bitsValue (l ++ [b]) = 2 * bitsValue l + b.toNat := by
  simp [bitsValue]

theorem bitsValue_lt (l : List Bool) : bitsValue l < 2 ^ l.length := by
  induction l using List.reverseRecOn with
  | nil => simp [bitsValue]
  | append_singleton l b ih =>
    rw [bitsValue_append_one, List.length_append, List.length_singleton, pow_succ]
    have := Bool.toNat_lt b
    omega

/-- A number's bits give it back (R53, R104). -/
theorem bitsValue_msbBits (v n : Nat) : bitsValue (msbBits v n) = v % 2 ^ n := by
  induction n generalizing v with
  | zero => simp [msbBits, bitsValue, Nat.mod_one]
  | succ n ih =>
    have hv : v = 2 * (v / 2) + (decide (v % 2 = 1)).toNat := by
      by_cases h : v % 2 = 1 <;> simp [h] <;> omega
    conv_lhs => rw [hv]
    rw [msbBits_push, bitsValue_append_one, ih, pow_succ]
    have h1 : v / 2 % 2 ^ n = v % (2 ^ n * 2) / 2 := by
      rw [Nat.mod_mul_left_div_self]
    have h2 : v % (2 ^ n * 2) % 2 = v % 2 := Nat.mod_mul_left_mod v (2 ^ n) 2
    by_cases h : v % 2 = 1 <;> simp [h] <;> omega

/-! ### The writer with a sink that answers ok -/

/-- From `x` to `y` exactly `bits` were written: the sink is still ready, the writer is between bytes, no register but
`wbuf` and `wcount` moved, and the sink was not flushed. -/
structure Wrote (x y : EncSide) (bits : List Bool) : Prop where
  ready : SinkReady y.sink
  writer : WriterOk y.unit
  written : writtenBits y = writtenBits x ++ bits
  unit : y.unit = { x.unit with wbuf := y.unit.wbuf, wcount := y.unit.wcount }
  flushes : y.sink.flushes = x.sink.flushes
  passedOn : y.sink.passedOn = x.sink.passedOn
  received : x.sink.received <+: y.sink.received

theorem Wrote.refl {x : EncSide} (hr : SinkReady x.sink) (hw : WriterOk x.unit) : Wrote x x [] :=
  ⟨hr, hw, by simp, rfl, rfl, rfl, List.prefix_refl _⟩

theorem Wrote.trans {x y z : EncSide} {b c : List Bool} (h : Wrote x y b) (k : Wrote y z c) : Wrote x z (b ++ c) where
  ready := k.ready
  writer := k.writer
  written := by rw [k.written, h.written, List.append_assoc]
  unit := by rw [k.unit, h.unit]
  flushes := k.flushes.trans h.flushes
  passedOn := k.passedOn.trans h.passedOn
  received := h.received.trans k.received

theorem pushBit_toNat {w : Byte} {c : Nat} (hc : c < 8) (hw : w.toNat < 2 ^ c) (b : Bool) :
    ((w <<< 1) ||| bitByte b).toNat = 2 * w.toNat + b.toNat := by
  have h7 : w.toNat < 128 := lt_of_lt_of_le hw (by
    calc 2 ^ c ≤ 2 ^ 7 := Nat.pow_le_pow_right (by omega) (by omega)
      _ = 128 := by norm_num)
  have h1 : (w <<< 1).toNat = 2 * w.toNat := by
    rw [BitVec.toNat_shiftLeft, Nat.shiftLeft_eq]
    omega
  rw [BitVec.toNat_or, h1]
  cases b with
  | false => simp [bitByte]
  | true =>
    have : (bitByte true).toNat = 1 := rfl
    rw [this, Bool.toNat_true]
    have h2 := Nat.two_pow_add_eq_or_of_lt (i := 1) (b := 1) (by omega) w.toNat
    simpa using h2.symm

/-- WBit appends its bit (R100). -/
theorem wbit_ready {x : EncSide} (hr : SinkReady x.sink) (hw : WriterOk x.unit) (b : Bool) :
    ∃ y, wbit b x = .done () y ∧ Wrote x y [b] := by
  obtain ⟨hc, hb⟩ := hw
  have hpush : pushBit b x.unit = .ok
      { x.unit with wbuf := (x.unit.wbuf <<< 1) ||| bitByte b, wcount := BitVec.ofNat 4 (x.unit.wcount.toNat + 1) } := by
    simp only [pushBit, narrowTo_ok (show x.unit.wcount.toNat + 1 < 2 ^ 4 by omega)]
  have hcount : (BitVec.ofNat 4 (x.unit.wcount.toNat + 1)).toNat = x.unit.wcount.toNat + 1 :=
    toNat_ofNat_of_lt (by omega)
  have hval := pushBit_toNat hc hb b
  have hbits : msbBits ((x.unit.wbuf <<< 1) ||| bitByte b).toNat (x.unit.wcount.toNat + 1) =
      msbBits x.unit.wbuf.toNat x.unit.wcount.toNat ++ [b] := by rw [hval, msbBits_push]
  by_cases h8 : x.unit.wcount.toNat + 1 = 8
  · obtain ⟨k, hsink, hready, hrecv, hfl, hpo⟩ := sinkWrite_ready hr ((x.unit.wbuf <<< 1) ||| bitByte b)
    refine ⟨⟨{ x.unit with wbuf := 0, wcount := 0 }, k⟩, ?_, hready, ⟨by simp, by simp⟩, ?_, rfl, hfl, hpo, ?_⟩
    · simp only [wbit, hpush, lift_ok, h8, sendByte, hsink]
      rfl
    · rw [h8] at hbits
      have hbyte : byteBits ((x.unit.wbuf <<< 1) ||| bitByte b) =
          msbBits x.unit.wbuf.toNat x.unit.wcount.toNat ++ [b] := hbits
      have hnone : msbBits (0 : Byte).toNat (0 : BitCount).toNat = [] := rfl
      simp only [writtenBits, hrecv, List.flatMap_append, List.flatMap_cons, List.flatMap_nil, List.append_nil, hbyte,
        hnone, List.append_assoc]
    · rw [hrecv]; exact List.prefix_append _ _
  · refine ⟨⟨{ x.unit with wbuf := (x.unit.wbuf <<< 1) ||| bitByte b,
                           wcount := BitVec.ofNat 4 (x.unit.wcount.toNat + 1) }, x.sink⟩, ?_,
      hr, ⟨by simp only [hcount]; omega, ?_⟩, ?_, rfl, rfl, rfl, List.prefix_refl _⟩
    · simp only [wbit, hpush, lift_ok, hcount, h8, if_false]
    · simp only [hcount, hval, pow_succ]
      have := Bool.toNat_lt b
      omega
    · simp only [writtenBits, hcount, hbits, List.append_assoc]

theorem repeatBit_ready (b : Bool) : ∀ (n : Nat) {x : EncSide}, SinkReady x.sink → WriterOk x.unit →
    ∃ y, repeatBit b n x = .done () y ∧ Wrote x y (List.replicate n b) := by
  intro n
  induction n with
  | zero => intro x hr hw; exact ⟨x, rfl, Wrote.refl hr hw⟩
  | succ n ih =>
    intro x hr hw
    obtain ⟨y, hy, wy⟩ := wbit_ready hr hw b
    obtain ⟨z, hz, wz⟩ := ih wy.ready wy.writer
    exact ⟨z, by simp [repeatBit, hy, hz], by simpa [List.replicate_succ] using wy.trans wz⟩

/-- WriteBits writes the low bits of its value, most significant first (R101). -/
theorem writeBits_ready (v : Operand) : ∀ (n : Nat) {x : EncSide}, SinkReady x.sink → WriterOk x.unit →
    ∃ y, writeBits v n x = .done () y ∧ Wrote x y (msbBits v.toNat n) := by
  intro n
  induction n with
  | zero => intro x hr hw; exact ⟨x, rfl, Wrote.refl hr hw⟩
  | succ n ih =>
    intro x hr hw
    obtain ⟨y, hy, wy⟩ := wbit_ready hr hw (v.getLsbD n)
    obtain ⟨z, hz, wz⟩ := ih wy.ready wy.writer
    exact ⟨z, by simp [writeBits, hy, hz], by simpa [msbBits, BitVec.getLsbD] using wy.trans wz⟩

/-- WFlush pads the partial byte with zero bits, sends it, and flushes the sink (R102). -/
theorem writerFlush_ready {x : EncSide} (hr : SinkReady x.sink) (hw : WriterOk x.unit) :
    ∃ y pad, writerFlush x = .done () y ∧ SinkReady y.sink ∧ pad < 8 ∧
      y.sink.received.flatMap byteBits = writtenBits x ++ List.replicate pad false ∧
        y.unit = { x.unit with wbuf := y.unit.wbuf, wcount := 0 } ∧ WriterOk y.unit ∧
          y.sink.flushes = x.sink.flushes + 1 ∧ y.sink.passedOn = y.sink.received.length ∧
            x.sink.received <+: y.sink.received := by
  obtain ⟨hc, hb⟩ := hw
  by_cases h0 : 0 < x.unit.wcount.toNat
  · have hpad : paddedByte x.unit = .ok (x.unit.wbuf <<< (8 - x.unit.wcount.toNat)) := by
      simp only [paddedByte, minus_ok (show x.unit.wcount.toNat ≤ 8 by omega)]
    obtain ⟨k, hsink, hready, hrecv, hfl, hpo⟩ := sinkWrite_ready hr (x.unit.wbuf <<< (8 - x.unit.wcount.toNat))
    obtain ⟨k', hflush, hready', hrecv', hfl', hpo'⟩ := sinkFlush_ready hready
    have hbits : byteBits (x.unit.wbuf <<< (8 - x.unit.wcount.toNat)) =
        msbBits x.unit.wbuf.toNat x.unit.wcount.toNat ++ List.replicate (8 - x.unit.wcount.toNat) false := by
      rw [byteBits, BitVec.toNat_shiftLeft, msbBits_mod _ _ _ (le_refl _), Nat.shiftLeft_eq]
      have := msbBits_shift x.unit.wbuf.toNat x.unit.wcount.toNat (8 - x.unit.wcount.toNat)
      rwa [show x.unit.wcount.toNat + (8 - x.unit.wcount.toNat) = 8 from by omega] at this
    refine ⟨⟨emptyWriter x.unit, k'⟩, 8 - x.unit.wcount.toNat, ?_, hready', by omega, ?_, rfl,
      ⟨by simp, by simp⟩, by rw [hfl', hfl], by rw [hpo', hrecv'], ?_⟩
    · simp only [writerFlush, h0, if_true, hpad, lift_ok, sendByte, hsink, andThen_done, flushSink, hflush]
    · simp [writtenBits, hrecv', hrecv, hbits]
    · rw [hrecv', hrecv]; exact List.prefix_append _ _
  · obtain ⟨k', hflush, hready, hrecv, hfl, hpo⟩ := sinkFlush_ready hr
    have hz : x.unit.wcount = 0 := BitVec.eq_of_toNat_eq (by simp; omega)
    refine ⟨⟨x.unit, k'⟩, 0, ?_, hready, by omega, ?_, ?_, ⟨hc, hb⟩, hfl, by rw [hpo, hrecv], by rw [hrecv]⟩
    · simp only [writerFlush, h0, if_false, flushSink, hflush]
    · simp [writtenBits, hz, msbBits, hrecv]
    · rw [← hz]

/-! ### The writer with any sink -/

/-- From `x` a writer operation may change `wbuf`, `wcount` and the sink, and the sink keeps what it holds (R58). -/
def WriterFrame (x y : EncSide) : Prop :=
  y.unit = { x.unit with wbuf := y.unit.wbuf, wcount := y.unit.wcount } ∧ x.sink.received <+: y.sink.received

theorem WriterFrame.refl (x : EncSide) : WriterFrame x x := ⟨rfl, List.prefix_refl _⟩

theorem WriterFrame.trans {x y z : EncSide} (h : WriterFrame x y) (k : WriterFrame y z) : WriterFrame x z :=
  ⟨by rw [k.1, h.1], h.2.trans k.2⟩

/-- The one error a writer raises (R232). -/
def IsIoError (e : Status) : Prop := e = .ioError

theorem sendByte_stops (v : Byte) (x : EncSide) : Stops (WriterFrame x) IsIoError (sendByte v x) := by
  have hp := sinkWrite_prefix v x.sink
  unfold sendByte
  split
  · rename_i h; rw [h] at hp; exact ⟨rfl, hp⟩
  · rename_i h; rw [h] at hp; exact ⟨rfl, hp⟩
  · rename_i h; rw [h] at hp; exact ⟨rfl, rfl, hp⟩

theorem wbit_stops (b : Bool) (x : EncSide) : Stops (WriterFrame x) IsIoError (wbit b x) := by
  unfold wbit
  refine stops_lift fun u hu => ?_
  have hf : WriterFrame x { x with unit := u } := by
    unfold pushBit at hu
    split at hu
    · injection hu with hu; subst hu; exact ⟨rfl, List.prefix_refl _⟩
    · cases hu
  split
  · exact stops_mono (sendByte_stops _ _) fun y hy => hf.trans hy
  · exact hf

theorem repeatBit_stops (b : Bool) : ∀ (n : Nat) (x : EncSide), Stops (WriterFrame x) IsIoError (repeatBit b n x) := by
  intro n
  induction n with
  | zero => intro x; exact WriterFrame.refl x
  | succ n ih =>
    intro x
    exact stops_andThen (wbit_stops b x) fun _ y hy => stops_mono (ih y) fun z hz => hy.trans hz

theorem writeBits_stops (v : Operand) : ∀ (n : Nat) (x : EncSide),
    Stops (WriterFrame x) IsIoError (writeBits v n x) := by
  intro n
  induction n with
  | zero => intro x; exact WriterFrame.refl x
  | succ n ih =>
    intro x
    exact stops_andThen (wbit_stops _ x) fun _ y hy => stops_mono (ih y) fun z hz => hy.trans hz

theorem flushSink_stops (x : EncSide) : Stops (WriterFrame x) IsIoError (flushSink x) := by
  have hp : x.sink.received <+: (sinkFlush x.sink).2.received := by rw [sinkFlush_received]
  unfold flushSink
  split
  · rename_i h; rw [h] at hp; exact ⟨rfl, hp⟩
  · rename_i h; rw [h] at hp; exact ⟨rfl, hp⟩
  · rename_i h; rw [h] at hp; exact ⟨rfl, rfl, hp⟩

theorem writerFlush_stops (x : EncSide) : Stops (WriterFrame x) IsIoError (writerFlush x) := by
  unfold writerFlush
  split
  · exact stops_lift fun v _ =>
      stops_andThen (sendByte_stops v x) fun _ y hy => stops_mono (flushSink_stops y) fun z hz => hy.trans hz
  · exact flushSink_stops x

/-! ### The reader with a source that gives bytes and then ends -/

/-- A buffered bit, most significant first (R103). -/
theorem takeBuffered {x : DecSide} {bytes : List Byte} (hs : SourceGives x.source bytes) (hc : 0 < x.unit.rcount.toNat)
    {b : Bool} {rest : List Bool} (hu : upcomingBits x.unit bytes = b :: rest) :
    ∃ y bytes', rbit x = .done b y ∧ SourceGives y.source bytes' ∧ upcomingBits y.unit bytes' = rest ∧
      y.unit = { x.unit with rbuf := y.unit.rbuf, rcount := y.unit.rcount, padUsed := y.unit.padUsed,
                             srcEnd := y.unit.srcEnd } ∧
        (ReaderOk x.unit → ReaderOk y.unit) ∧ (x.unit.padUsed ≤ Config.extraBits → y.unit.padUsed ≤ Config.extraBits) ∧
          x.source.taken ++ bytes = y.source.taken ++ bytes' := by
  have hlt := x.unit.rcount.isLt
  have hne : ¬ (x.unit.rcount = 0 ∧ x.unit.srcEnd = false) := by
    rintro ⟨h, _⟩
    rw [h] at hc
    exact absurd hc (by decide)
  have hsub : (x.unit.rcount - 1).toNat = x.unit.rcount.toNat - 1 := by
    rw [BitVec.toNat_sub]
    have h1 : (1 : BitCount).toNat = 1 := rfl
    rw [h1]
    omega
  obtain ⟨n, hn⟩ : ∃ n, x.unit.rcount.toNat = n + 1 := ⟨x.unit.rcount.toNat - 1, by omega⟩
  have hbits : msbBits x.unit.rbuf.toNat x.unit.rcount.toNat =
      x.unit.rbuf.getLsbD (x.unit.rcount.toNat - 1) :: msbBits x.unit.rbuf.toNat (x.unit.rcount.toNat - 1) := by
    rw [hn]; rfl
  rw [upcomingBits, hbits, List.cons_append, List.cons_append] at hu
  injection hu with h1 h2
  refine ⟨{ x with unit := { x.unit with rcount := x.unit.rcount - 1 } }, bytes, ?_, hs, ?_, rfl, ?_, id, rfl⟩
  · rw [rbit, fillReader, if_neg hne, andThen_done, takeBit, if_pos hc, h1]
  · rw [← h2, upcomingBits, hsub]
  · rintro ⟨hr1, hr2⟩
    exact ⟨by simp only [hsub]; omega, fun he => absurd (hr2 he) (by omega)⟩

/-- A padding zero within the budget (R103). -/
theorem takePad {x : DecSide} {bytes : List Byte} (hz : x.unit.rcount.toNat = 0) (he : x.unit.srcEnd = true)
    {b : Bool} {rest : List Bool} (hu : upcomingBits x.unit bytes = b :: rest) :
    ∃ y, takeBit x = .done b y ∧ y.source = x.source ∧ upcomingBits y.unit bytes = rest ∧
      y.unit = { x.unit with rbuf := y.unit.rbuf, rcount := y.unit.rcount, padUsed := y.unit.padUsed,
                             srcEnd := y.unit.srcEnd } ∧
        (ReaderOk x.unit → ReaderOk y.unit) ∧
          (x.unit.padUsed ≤ Config.extraBits → y.unit.padUsed ≤ Config.extraBits) := by
  rw [upcomingBits, hz, he] at hu
  simp only [msbBits, if_true, List.nil_append] at hu
  obtain ⟨n, hn⟩ : ∃ n, Config.extraBits - x.unit.padUsed = n + 1 := by
    cases hk : Config.extraBits - x.unit.padUsed with
    | zero => rw [hk] at hu; cases hu
    | succ n => exact ⟨n, rfl⟩
  rw [hn, List.replicate_succ] at hu
  injection hu with h1 h2
  refine ⟨{ x with unit := { x.unit with padUsed := x.unit.padUsed + 1 } }, ?_, rfl, ?_, rfl, ?_, fun _ => ?_⟩
  · rw [takeBit, if_neg (by omega), if_pos (by omega), h1]
  · rw [upcomingBits]
    simp only [hz, he, msbBits, if_true, List.nil_append]
    rw [← h2, show Config.extraBits - (x.unit.padUsed + 1) = n from by omega]
  · rintro ⟨hr1, hr2⟩; exact ⟨hr1, hr2⟩
  · simp only; omega

/-- RBit takes the next of the bits the reader will supply (R103). -/
theorem rbit_gives {x : DecSide} {bytes : List Byte} (hs : SourceGives x.source bytes) {b : Bool} {rest : List Bool}
    (hu : upcomingBits x.unit bytes = b :: rest) :
    ∃ y bytes', rbit x = .done b y ∧ SourceGives y.source bytes' ∧ upcomingBits y.unit bytes' = rest ∧
      y.unit = { x.unit with rbuf := y.unit.rbuf, rcount := y.unit.rcount, padUsed := y.unit.padUsed,
                             srcEnd := y.unit.srcEnd } ∧
        (ReaderOk x.unit → ReaderOk y.unit) ∧ (x.unit.padUsed ≤ Config.extraBits → y.unit.padUsed ≤ Config.extraBits) ∧
          x.source.taken ++ bytes = y.source.taken ++ bytes' := by
  by_cases hc : 0 < x.unit.rcount.toNat
  · exact takeBuffered hs hc hu
  · have hz : x.unit.rcount.toNat = 0 := by omega
    have hz' : x.unit.rcount = 0 := BitVec.eq_of_toNat_eq (by simpa using hz)
    cases he : x.unit.srcEnd with
    | true =>
      obtain ⟨y, hy, hrest⟩ := takePad (x := x) (bytes := bytes) hz he hu
      exact ⟨y, bytes, by simp [rbit, fillReader, he, hy], hrest.1.symm ▸ hs, hrest.2.1, hrest.2.2.1, hrest.2.2.2.1,
        hrest.2.2.2.2, by rw [hrest.1]⟩
    | false =>
      cases bytes with
      | nil =>
        let x' : DecSide := { x with unit := { x.unit with srcEnd := true } }
        have hu' : upcomingBits x'.unit [] = b :: rest := by
          simpa [upcomingBits, he, x'] using hu
        obtain ⟨y, hy, hrest⟩ := takePad (x := x') (bytes := []) hz rfl hu'
        refine ⟨y, [], ?_, hrest.1.symm ▸ hs, hrest.2.1, ?_, fun _ => hrest.2.2.2.1 ⟨by simp [x', hz], fun _ => hz⟩,
          hrest.2.2.2.2, by rw [hrest.1]⟩
        · rw [rbit, fillReader, if_pos ⟨hz', he⟩, sourceRead_end hs]
          exact hy
        · rw [hrest.2.2.1]
      | cons b0 bs =>
        obtain ⟨src', hread, hgives, htaken⟩ := sourceRead_byte hs
        let x' : DecSide := ⟨{ x.unit with rbuf := b0, rcount := 8 }, src'⟩
        have hu' : upcomingBits x'.unit bs = b :: rest := by
          have h8 : (8 : BitCount).toNat = 8 := rfl
          simpa [upcomingBits, he, x', hz, msbBits, byteBits] using hu
        obtain ⟨y, bytes', hy, hg, hup, hunit, hok, hpad, htk⟩ :=
          takeBuffered (x := x') hgives (show 0 < (8 : BitCount).toNat by decide) hu'
        refine ⟨y, bytes', ?_, hg, hup, ?_, fun _ => hok ⟨by simp [x'], by simp [x', he]⟩, hpad, ?_⟩
        · rw [rbit, fillReader, if_pos ⟨hz', he⟩, hread]
          have hn : ¬ (x'.unit.rcount = 0 ∧ x'.unit.srcEnd = false) := by simp [x']
          have := hy
          rw [rbit, fillReader, if_neg hn, andThen_done] at this
          exact this
        · rw [hunit]
        · rw [← htk]; simp [x', htaken]

/-- RBit with nothing left to supply raises UNEXPECTED_EOF (R103, R233). -/
theorem rbit_exhausted {x : DecSide} {bytes : List Byte} (hs : SourceGives x.source bytes)
    (hu : upcomingBits x.unit bytes = []) :
    ∃ y, rbit x = .raised .unexpectedEof y ∧ y.source = x.source := by
  simp only [upcomingBits, List.append_eq_nil_iff] at hu
  obtain ⟨⟨h1, h2⟩, h3⟩ := hu
  have hz : x.unit.rcount.toNat = 0 := by simpa using congrArg List.length h1
  have hz' : x.unit.rcount = 0 := BitVec.eq_of_toNat_eq (by simpa using hz)
  have hp : ¬ x.unit.padUsed < Config.extraBits := by
    have := congrArg List.length h3
    simp only [List.length_replicate, List.length_nil] at this
    omega
  cases he : x.unit.srcEnd with
  | true =>
    refine ⟨x, ?_, rfl⟩
    rw [rbit, fillReader, if_neg (by simp [he]), andThen_done, takeBit, if_neg (by omega), if_neg hp]
  | false =>
    rw [he] at h2
    cases bytes with
    | nil =>
      refine ⟨{ x with unit := { x.unit with srcEnd := true } }, ?_, rfl⟩
      rw [rbit, fillReader, if_pos ⟨hz', he⟩, sourceRead_end hs]
      simp only [andThen_done, takeBit]
      rw [if_neg (by omega), if_neg hp]
    | cons b bs => simp [byteBits, msbBits] at h2

/-- From `x` to `y` the reader supplied the bits `bits`; no register but the reader's moved. -/
structure Supplied (x y : DecSide) (bytes bytes' : List Byte) (bits : List Bool) : Prop where
  source : SourceGives y.source bytes'
  upcoming : upcomingBits x.unit bytes = bits ++ upcomingBits y.unit bytes'
  unit : y.unit = { x.unit with rbuf := y.unit.rbuf, rcount := y.unit.rcount, padUsed := y.unit.padUsed,
                                srcEnd := y.unit.srcEnd }
  reader : ReaderOk x.unit → ReaderOk y.unit
  pad : x.unit.padUsed ≤ Config.extraBits → y.unit.padUsed ≤ Config.extraBits
  taken : x.source.taken ++ bytes = y.source.taken ++ bytes'

theorem Supplied.refl {x : DecSide} {bytes : List Byte} (hs : SourceGives x.source bytes) :
    Supplied x x bytes bytes [] := ⟨hs, rfl, rfl, id, id, rfl⟩

theorem Supplied.trans {x y z : DecSide} {a b c : List Byte} {l m : List Bool} (h : Supplied x y a b l)
    (k : Supplied y z b c m) : Supplied x z a c (l ++ m) where
  source := k.source
  upcoming := by rw [h.upcoming, k.upcoming, List.append_assoc]
  unit := by rw [k.unit, h.unit]
  reader hr := k.reader (h.reader hr)
  pad hp := k.pad (h.pad hp)
  taken := h.taken.trans k.taken

theorem rbit_supplies {x : DecSide} {bytes : List Byte} (hs : SourceGives x.source bytes) {b : Bool} {rest : List Bool}
    (hu : upcomingBits x.unit bytes = b :: rest) :
    ∃ y bytes', rbit x = .done b y ∧ Supplied x y bytes bytes' [b] := by
  obtain ⟨y, bytes', hy, h1, h2, h3, h4, h5, h6⟩ := rbit_gives hs hu
  exact ⟨y, bytes', hy, h1, by rw [hu, h2]; rfl, h3, h4, h5, h6⟩

/-- ReadBits gives the value of the next bits, and UNEXPECTED_EOF when there are not enough (R104). -/
theorem readBitsFrom_supplies : ∀ (n : Nat) (l : List Bool) {x : DecSide} {bytes : List Byte},
    SourceGives x.source bytes →
      (n ≤ (upcomingBits x.unit bytes).length →
        ∃ y bytes', readBitsFrom n (bitsValue l) x = .done (bitsValue (l ++ (upcomingBits x.unit bytes).take n)) y ∧
          Supplied x y bytes bytes' ((upcomingBits x.unit bytes).take n)) ∧
      ((upcomingBits x.unit bytes).length < n →
        ∃ y bytes', readBitsFrom n (bitsValue l) x = .raised .unexpectedEof y ∧ SourceGives y.source bytes' ∧
          x.source.taken ++ bytes = y.source.taken ++ bytes') := by
  intro n
  induction n with
  | zero =>
    intro l x bytes hs
    exact ⟨fun _ => ⟨x, bytes, by simp [readBitsFrom], by simpa using Supplied.refl hs⟩, fun h => absurd h (by omega)⟩
  | succ n ih =>
    intro l x bytes hs
    cases hu : upcomingBits x.unit bytes with
    | nil =>
      refine ⟨fun h => absurd h (by simp), fun _ => ?_⟩
      obtain ⟨y, hy, hsrc⟩ := rbit_exhausted hs hu
      exact ⟨y, bytes, by simp [readBitsFrom, hy], hsrc ▸ hs, by rw [hsrc]⟩
    | cons b rest =>
      obtain ⟨y, bytes', hy, hsup⟩ := rbit_supplies hs hu
      have hrest : upcomingBits y.unit bytes' = rest := by
        have := hsup.upcoming
        rw [hu] at this
        simpa using this.symm
      have hl : 2 * bitsValue l + b.toNat = bitsValue (l ++ [b]) := (bitsValue_append_one l b).symm
      obtain ⟨ih1, ih2⟩ := ih (l ++ [b]) hsup.source
      rw [hrest] at ih1 ih2
      refine ⟨fun h => ?_, fun h => ?_⟩
      · obtain ⟨z, bytes'', hz, hsup'⟩ := ih1 (by simpa using h)
        exact ⟨z, bytes'', by simp [readBitsFrom, hy, hl, hz], by simpa using hsup.trans hsup'⟩
      · obtain ⟨z, bytes'', hz, hg, htk⟩ := ih2 (by simpa using h)
        exact ⟨z, bytes'', by simp [readBitsFrom, hy, hl, hz], hg, hsup.taken.trans htk⟩

/-! ### The reader with any source -/

/-- From `x` a reader operation may change the reader's registers and the source, whose bytes are taken for good (R58). -/
def ReaderFrame (x y : DecSide) : Prop :=
  y.unit = { x.unit with rbuf := y.unit.rbuf, rcount := y.unit.rcount, padUsed := y.unit.padUsed,
                         srcEnd := y.unit.srcEnd } ∧
    x.source.taken <+: y.source.taken

theorem ReaderFrame.refl (x : DecSide) : ReaderFrame x x := ⟨rfl, List.prefix_refl _⟩

theorem ReaderFrame.trans {x y z : DecSide} (h : ReaderFrame x y) (k : ReaderFrame y z) : ReaderFrame x z :=
  ⟨by rw [k.1, h.1], h.2.trans k.2⟩

/-- The errors a reader raises (R232, R233). -/
def IsFatal (e : Status) : Prop := e = .ioError ∨ e = .unexpectedEof

theorem fillReader_stops (x : DecSide) : Stops (ReaderFrame x) IsFatal (fillReader x) := by
  have hp := sourceRead_prefix x.source
  unfold fillReader
  split
  · split
    · rename_i h; rw [h] at hp; exact ⟨rfl, hp⟩
    · rename_i h; rw [h] at hp; exact ⟨rfl, hp⟩
    · rename_i h; rw [h] at hp; exact ⟨rfl, hp⟩
    · rename_i h; rw [h] at hp; exact ⟨.inl rfl, rfl, hp⟩
  · exact ReaderFrame.refl x

theorem takeBit_stops (x : DecSide) : Stops (ReaderFrame x) IsFatal (takeBit x) := by
  unfold takeBit
  split
  · exact ⟨rfl, List.prefix_refl _⟩
  · split
    · exact ⟨rfl, List.prefix_refl _⟩
    · exact ⟨.inr rfl, ReaderFrame.refl x⟩

theorem rbit_stops (x : DecSide) : Stops (ReaderFrame x) IsFatal (rbit x) :=
  stops_andThen (fillReader_stops x) fun _ y hy => stops_mono (takeBit_stops y) fun _ hz => hy.trans hz

theorem readBitsFrom_stops : ∀ (n v : Nat) (x : DecSide), Stops (ReaderFrame x) IsFatal (readBitsFrom n v x) := by
  intro n
  induction n with
  | zero => intro v x; exact ReaderFrame.refl x
  | succ n ih =>
    intro v x
    exact stops_andThen (rbit_stops x) fun _ y hy => stops_mono (ih _ y) fun _ hz => hy.trans hz

/-- The reader's own bounds and the padding budget hold wherever a read stops, whatever the source answers (R28). -/
def ReaderBounds (x : DecSide) : Prop := ReaderOk x.unit ∧ x.unit.padUsed ≤ Config.extraBits

theorem fillReader_bounds {x : DecSide} (h : ReaderBounds x) : Stops ReaderBounds IsFatal (fillReader x) := by
  obtain ⟨⟨h1, h2⟩, h3⟩ := h
  unfold fillReader
  split
  · rename_i hc
    split
    · exact ⟨⟨h1, h2⟩, h3⟩
    · exact ⟨⟨by simp, by simp [hc.2]⟩, h3⟩
    · exact ⟨⟨h1, fun _ => by simp [hc.1]⟩, h3⟩
    · exact ⟨.inl rfl, ⟨h1, h2⟩, h3⟩
  · exact ⟨⟨h1, h2⟩, h3⟩

theorem takeBit_bounds {x : DecSide} (h : ReaderBounds x) : Stops ReaderBounds IsFatal (takeBit x) := by
  obtain ⟨⟨h1, h2⟩, h3⟩ := h
  unfold takeBit
  split
  · rename_i hc
    have hsub : (x.unit.rcount - 1).toNat = x.unit.rcount.toNat - 1 := by
      rw [BitVec.toNat_sub]
      have h1 : (1 : BitCount).toNat = 1 := rfl
      rw [h1]
      omega
    exact ⟨⟨by simp only [hsub]; omega, fun he => absurd (h2 he) (by omega)⟩, h3⟩
  · split
    · exact ⟨⟨h1, h2⟩, by simp only; omega⟩
    · exact ⟨.inr rfl, ⟨h1, h2⟩, h3⟩

theorem rbit_bounds {x : DecSide} (h : ReaderBounds x) : Stops ReaderBounds IsFatal (rbit x) :=
  stops_andThen (fillReader_bounds h) fun _ _ hy => takeBit_bounds hy

theorem readBitsFrom_bounds : ∀ (n v : Nat) {x : DecSide}, ReaderBounds x →
    Stops ReaderBounds IsFatal (readBitsFrom n v x) := by
  intro n
  induction n with
  | zero => intro v x h; exact h
  | succ n ih => intro v x h; exact stops_andThen (rbit_bounds h) fun _ _ hy => ih _ hy

/-! ### Nothing breaks -/

/-- A run that is not broken: no register write was out of its width. -/
def Unbroken {σ α : Type} : Run σ α → Prop
  | .done _ _ => True
  | .raised _ _ => True
  | .waiting _ => True
  | .broken _ => False

theorem rbit_unbroken (x : DecSide) : Unbroken (rbit x) := by
  have h1 : ∀ y : DecSide, Unbroken (takeBit y) := fun y => by
    unfold takeBit; split
    · trivial
    · split <;> trivial
  unfold rbit fillReader
  split
  · split
    · trivial
    · exact h1 _
    · exact h1 _
    · trivial
  · exact h1 _

/-- ReadBits never breaks, and its result fits `n` more bits (R104). -/
theorem readBitsFrom_value : ∀ (n v w : Nat) (x : DecSide), v < 2 ^ w →
    match readBitsFrom n v x with
    | .done r _ => r < 2 ^ (w + n)
    | .raised _ _ => True
    | .waiting _ => True
    | .broken _ => False := by
  intro n
  induction n with
  | zero => intro v w x h; simpa [readBitsFrom] using h
  | succ n ih =>
    intro v w x h
    have hb := rbit_unbroken x
    unfold readBitsFrom
    cases hr : rbit x with
    | done b y =>
      simp only [andThen_done]
      have hlt : 2 * v + b.toNat < 2 ^ (w + 1) := by
        have := Bool.toNat_lt b
        rw [pow_succ]
        omega
      have := ih (2 * v + b.toNat) (w + 1) y hlt
      rwa [show w + 1 + n = w + (n + 1) from by omega] at this
    | raised e y => trivial
    | waiting y => trivial
    | broken f => rw [hr] at hb; exact hb

end Sys2Proof.Machine
end

