-- ==== Sys2Proof/Laws/Table.lean ====
section
/-! SUPPORT. What the frequency table's operations do, entry by entry (41_frequency_model.md), and that they keep a legal
table legal (R132, R135, R137). -/
namespace Sys2Proof.Machine

/-! ### Entries -/

theorem entryAt_eq (l : List Entry) (i : Nat) : entryAt l i = (l[i]?.getD 0).toNat := by
  induction l generalizing i with
  | nil => simp [entryAt]
  | cons e rest ih =>
    cases i with
    | zero => simp [entryAt]
    | succ i => simp [entryAt, ih]

theorem tableAt_of_lt (t : Table) {i : Nat} (h : i < 258) : tableAt t i = (t.toList[i]'(by simpa using h)).toNat := by
  have h' : i < t.toList.length := by simpa using h
  simp [tableAt, entryAt_eq, List.getElem?_eq_getElem h']

theorem tableAt_lt (t : Table) (i : Nat) : tableAt t i < 2 ^ 16 := by
  rw [tableAt, entryAt_eq]; exact BitVec.isLt _

theorem tableAt_tableOfList {l : List Nat} {h : l.length = 258} {i : Nat} (hi : i < 258) (hv : l[i] < 2 ^ 16) :
    tableAt (tableOfList l h) i = l[i] := by
  rw [tableAt_of_lt _ hi]
  simp only [tableOfList, Vector.toList, List.getElem_map, BitVec.toNat_ofNat]
  exact Nat.mod_eq_of_lt hv

/-- Two tables with the same entries are the same. -/
theorem table_ext {t u : Table} (h : ∀ i, i ≤ 257 → tableAt t i = tableAt u i) : t = u := by
  apply Vector.toList_inj.mp
  apply List.ext_getElem
  · simp
  · intro i h1 h2
    have hi : i < 258 := by simpa using h1
    have := h i (by omega)
    rw [tableAt_of_lt t hi, tableAt_of_lt u hi] at this
    exact BitVec.eq_of_toNat_eq this

/-- Writing entries that fit gives the table that holds them. -/
theorem writeTable_ok {l : List Nat} {h : l.length = 258} (hv : ∀ (i : Nat) (hi : i < 258), l[i] < 2 ^ 16) :
    ∃ t, writeTable l h = .ok t ∧ ∀ (i : Nat) (hi : i < 258), tableAt t i = l[i] := by
  refine ⟨tableOfList l h, ?_, fun i hi => tableAt_tableOfList hi (hv i hi)⟩
  have : l.all (fun v => v < 2 ^ 16) = true := by
    rw [List.all_eq_true]
    intro v hmem
    obtain ⟨i, hi, rfl⟩ := List.getElem_of_mem hmem
    simpa using hv i (by omega)
  rw [writeTable, if_pos this]

theorem tableAt_freshTable {i : Nat} (h : i ≤ 257) : tableAt freshTable i = i := by
  have hi : i < 258 := by omega
  rw [freshTable, tableAt_tableOfList hi] <;> simp
  omega

/-! ### Update -/

theorem bumpFrom_get (sym : Nat) (l : List Entry) : ∀ (i j : Nat) (h : j < l.length),
    (bumpFrom sym i l)[j]'(by rw [bumpFrom_length]; exact h) =
      if sym < i + j then l[j].toNat + 1 else l[j].toNat := by
  induction l with
  | nil => intro i j h; simp at h
  | cons e rest ih =>
    intro i j h
    cases j with
    | zero => simp [bumpFrom]
    | succ j =>
      have := ih (i + 1) j (by simpa using h)
      simp only [bumpFrom, List.getElem_cons_succ]
      rw [this, show i + 1 + j = i + (j + 1) from by omega]

/-- The table after the increments of `Update(sym)`, before it may rescale (R134). -/
theorem bump_ok {t : Table} (sym : Nat) (h : ∀ i, i ≤ 257 → tableAt t i + 1 < 2 ^ 16) :
    ∃ m, writeTable (bumpFrom sym 0 t.toList) (by simp [bumpFrom_length]) = .ok m ∧
      ∀ i, i ≤ 257 → tableAt m i = if sym < i then tableAt t i + 1 else tableAt t i := by
  have key : ∀ (i : Nat) (hi : i < 258),
      (bumpFrom sym 0 t.toList)[i]'(by simp [bumpFrom_length]; exact hi) =
        if sym < i then tableAt t i + 1 else tableAt t i := by
    intro i hi
    rw [bumpFrom_get sym t.toList 0 i (by simpa using hi), tableAt_of_lt t hi, Nat.zero_add]
  obtain ⟨m, hm, hat⟩ := writeTable_ok (l := bumpFrom sym 0 t.toList) (h := by simp [bumpFrom_length])
    (fun i hi => by
      rw [key i hi]
      have := h i (by omega)
      split <;> omega)
  exact ⟨m, hm, fun i hi => (hat i (by omega)).trans (key i (by omega))⟩

/-! ### Rescale -/

theorem rescaleFrom_get_zero (prev acc : Nat) (e : Entry) (l : List Entry) :
    (rescaleFrom prev acc (e :: l))[0]'(by simp [rescaleFrom]) = acc + halvedCount (e.toNat - prev) := by
  simp [rescaleFrom]

theorem rescaleFrom_get_succ (l : List Entry) : ∀ (prev acc j : Nat) (h : j + 1 < l.length),
    (rescaleFrom prev acc l)[j + 1]'(by rw [rescaleFrom_length]; exact h) =
      (rescaleFrom prev acc l)[j]'(by rw [rescaleFrom_length]; omega) +
        halvedCount (l[j + 1].toNat - l[j].toNat) := by
  induction l with
  | nil => intro prev acc j h; simp at h
  | cons e rest ih =>
    intro prev acc j h
    cases j with
    | zero =>
      cases rest with
      | nil => simp at h
      | cons e' rest => simp [rescaleFrom]
    | succ j =>
      have := ih e.toNat (acc + halvedCount (e.toNat - prev)) j (by simpa using h)
      simpa [rescaleFrom] using this

theorem rescaleEntries_get_succ (l : List Entry) (j : Nat) (h : j + 1 < l.length) :
    (rescaleEntries l)[j + 1]'(by rw [rescaleEntries_length]; exact h) =
      (rescaleEntries l)[j]'(by rw [rescaleEntries_length]; omega) +
        halvedCount (l[j + 1].toNat - l[j].toNat) := by
  cases l with
  | nil => simp at h
  | cons e rest =>
    cases j with
    | zero =>
      cases rest with
      | nil => simp at h
      | cons e' rest => simp [rescaleEntries, rescaleFrom]
    | succ j =>
      have := rescaleFrom_get_succ rest e.toNat 0 j (by simpa using h)
      simpa [rescaleEntries] using this

theorem rescaleEntries_get_zero (l : List Entry) (h : 0 < l.length) :
    (rescaleEntries l)[0]'(by rw [rescaleEntries_length]; exact h) = 0 := by
  cases l with
  | nil => simp at h
  | cons e rest => simp [rescaleEntries]

theorem nonDecreasing_of (l : List Entry) (h : ∀ (j : Nat) (hj : j + 1 < l.length), l[j].toNat ≤ l[j + 1].toNat) :
    nonDecreasing l = true := by
  induction l with
  | nil => rfl
  | cons e rest ih =>
    cases rest with
    | nil => rfl
    | cons e' rest =>
      have h0 := h 0 (by simp)
      have := ih fun j hj => by
        have := h (j + 1) (by simpa using hj)
        simpa using this
      simp only [nonDecreasing, Bool.and_eq_true, decide_eq_true_eq]
      exact ⟨by simpa using h0, this⟩

theorem two_mul_halvedCount_le (c : Nat) : 2 * halvedCount c ≤ c + 2 := by
  unfold halvedCount; omega

theorem two_mul_halvedCount_le_of_pos {c : Nat} (h : 0 < c) : 2 * halvedCount c ≤ c + 1 := by
  unfold halvedCount; omega

theorem halvedCount_le_of_pos {c : Nat} (h : 0 < c) : halvedCount c ≤ c := by
  unfold halvedCount; omega

theorem halvedCount_pos (c : Nat) : 0 < halvedCount c := by
  unfold halvedCount; omega

/-- What `Rescale()` leaves (R136): entry 0 is 0, and each symbol's count is halved, at least 1. -/
structure Rescaled (t r : Table) : Prop where
  zero : tableAt r 0 = 0
  succ : ∀ sym, sym ≤ 256 → tableAt r (sym + 1) = tableAt r sym + halvedCount (countOf t sym)

/-- Rescale of a non-decreasing table answers a table, the rescaled one. -/
theorem rescale_ok {t : Table} (h : ∀ sym, sym ≤ 256 → tableAt t sym ≤ tableAt t (sym + 1)) :
    ∃ r, tableRescale t = .ok r ∧ Rescaled t r := by
  have hlen : t.toList.length = 258 := by simp
  have hnd : nonDecreasing t.toList = true := nonDecreasing_of _ fun j hj => by
    have := h j (by omega)
    rwa [tableAt_of_lt t (by omega), tableAt_of_lt t (by omega)] at this
  have hsucc : ∀ (j : Nat) (hj : j ≤ 256),
      (rescaleEntries t.toList)[j + 1]'(by simp [rescaleEntries_length]; omega) =
        (rescaleEntries t.toList)[j]'(by simp [rescaleEntries_length]; omega) + halvedCount (countOf t j) := by
    intro j hj
    rw [rescaleEntries_get_succ t.toList j (by omega), countOf, tableAt_of_lt t (by omega : j + 1 < 258),
      tableAt_of_lt t (by omega : j < 258)]
  have hbound : ∀ (j : Nat) (hj : j ≤ 257),
      2 * (rescaleEntries t.toList)[j]'(by simp [rescaleEntries_length]; omega) ≤ tableAt t j + 2 * j := by
    intro j
    induction j with
    | zero => intro hj; rw [rescaleEntries_get_zero _ (by omega)]; omega
    | succ j ih =>
      intro hj
      rw [hsucc j (by omega)]
      have h1 := ih (by omega)
      have h2 := two_mul_halvedCount_le (countOf t j)
      have h3 := h j (by omega)
      simp only [countOf] at h2 ⊢
      omega
  obtain ⟨r, hr, hat⟩ := writeTable_ok (l := rescaleEntries t.toList) (h := by simp [rescaleEntries_length])
    (fun i hi => by
      have h1 := hbound i (by omega)
      have h2 := tableAt_lt t i
      omega)
  refine ⟨r, by simp [tableRescale, hnd, hr], ⟨?_, fun sym hs => ?_⟩⟩
  · rw [hat 0 (by omega), rescaleEntries_get_zero _ (by omega)]
  · rw [hat (sym + 1) (by omega), hat sym (by omega), hsucc sym hs]

/-- Rescale of a table whose counts are all positive: counts stay positive and do not grow, and twice the new total is at
most the old one plus 257 (R137). -/
theorem rescaled_bounds {t r : Table} (h0 : tableAt t 0 = 0)
    (h : ∀ sym, sym ≤ 256 → tableAt t sym < tableAt t (sym + 1)) (hr : Rescaled t r) :
    (∀ sym, sym ≤ 256 → tableAt r sym < tableAt r (sym + 1)) ∧
      ∀ i, i ≤ 257 → tableAt r i ≤ tableAt t i ∧ 2 * tableAt r i ≤ tableAt t i + i := by
  refine ⟨fun sym hs => ?_, fun i => ?_⟩
  · rw [hr.succ sym hs]; have := halvedCount_pos (countOf t sym); omega
  · induction i with
    | zero => intro _; rw [hr.zero]; omega
    | succ i ih =>
      intro hi
      have h1 := ih (by omega)
      have h2 := h i (by omega)
      have hc : 0 < countOf t i := by unfold countOf; omega
      have h3 := two_mul_halvedCount_le_of_pos hc
      have h4 := halvedCount_le_of_pos hc
      rw [hr.succ i (by omega)]
      unfold countOf at h3 h4 ⊢
      omega

/-! ### A legal table stays legal -/

theorem TableOk.mono {t : Table} (h : TableOk t) : ∀ {i j : Nat}, i ≤ j → j ≤ 257 → tableAt t i + (j - i) ≤ tableAt t j := by
  intro i j hij
  induction j, hij using Nat.le_induction with
  | base => intro _; omega
  | succ j hij ih =>
    intro hj
    have h1 := ih (by omega)
    have h2 := h.rising j (by omega)
    omega

theorem TableOk.le_total {t : Table} (h : TableOk t) {i : Nat} (hi : i ≤ 257) : tableAt t i ≤ total t := by
  have h1 := h.mono (i := i) (j := 257) hi (le_refl _)
  have h2 : total t = tableAt t 257 := rfl
  omega

/-- R135: the total is at least 257. -/
theorem TableOk.total_ge {t : Table} (h : TableOk t) : 257 ≤ total t := by
  have h1 := h.mono (i := 0) (j := 257) (by omega) (le_refl _)
  have h2 : total t = tableAt t 257 := rfl
  have h3 := h.zero
  omega

theorem TableOk.total_le {t : Table} (h : TableOk t) : total t ≤ 16382 := by
  have := h.bounded; unfold Config.maxFreq at this; omega

theorem freshTable_ok : TableOk freshTable where
  zero := tableAt_freshTable (by omega)
  rising sym hs := by rw [tableAt_freshTable (by omega), tableAt_freshTable (by omega)]; omega
  bounded := by
    have : total freshTable = 257 := tableAt_freshTable (le_refl _)
    rw [this]; decide

/-- A legal table stays legal through Rescale (R132, R135). -/
theorem TableOk.rescale {t : Table} (h : TableOk t) : ∃ r, tableRescale t = .ok r ∧ Rescaled t r ∧ TableOk r := by
  obtain ⟨r, hr, hs⟩ := rescale_ok fun sym hs => (h.rising sym hs).le
  obtain ⟨hrise, hle⟩ := rescaled_bounds h.zero h.rising hs
  refine ⟨r, hr, hs, hs.zero, hrise, ?_⟩
  have h1 := (hle 257 (le_refl _)).1
  have h2 := h.bounded
  exact lt_of_le_of_lt h1 h2

/-- A legal table stays legal through Update, which is the increments, then Rescale if the total reached MAX_FREQ (R134,
R132, R135). -/
theorem TableOk.update {t : Table} (h : TableOk t) {sym : Nat} (hs : sym ≤ 256) :
    ∃ m t', (∀ i, i ≤ 257 → tableAt m i = if sym < i then tableAt t i + 1 else tableAt t i) ∧
      (if Config.maxFreq ≤ total m then tableRescale m = .ok t' else t' = m) ∧
        tableUpdate t sym = .ok t' ∧ TableOk t' := by
  have hle : ∀ i, i ≤ 257 → tableAt t i + 1 < 2 ^ 16 := fun i hi => by
    have h1 := h.le_total hi
    have h2 := h.total_le
    omega
  obtain ⟨m, hm, hat⟩ := bump_ok sym hle
  have hzero : tableAt m 0 = 0 := by rw [hat 0 (by omega)]; simp [h.zero]
  have hrise : ∀ s, s ≤ 256 → tableAt m s < tableAt m (s + 1) := fun s hs' => by
    have := h.rising s hs'
    rw [hat s (by omega), hat (s + 1) (by omega)]
    split <;> split <;> omega
  have htot : total m = total t + 1 := by
    have := hat 257 (le_refl _)
    rw [if_pos (by omega)] at this
    exact this
  by_cases hfull : Config.maxFreq ≤ total m
  · obtain ⟨r, hr, hres⟩ := rescale_ok fun s hs' => (hrise s hs').le
    obtain ⟨hrise', hle'⟩ := rescaled_bounds hzero hrise hres
    refine ⟨m, r, hat, by simp [hfull, hr], by simp [tableUpdate, hm, hfull, hr], hres.zero, hrise', ?_⟩
    have h1 := (hle' 257 (le_refl _)).2
    have h2 : total m = tableAt m 257 := rfl
    have h3 : total r = tableAt r 257 := rfl
    have h4 := h.total_le
    unfold Config.maxFreq
    omega
  · refine ⟨m, m, hat, by simp [hfull], by simp [tableUpdate, hm, hfull], hzero, hrise, by omega⟩

theorem TableOk.update' {t : Table} (h : TableOk t) {sym : Nat} (hs : sym ≤ 256) :
    ∃ t', tableUpdate t sym = .ok t' ∧ TableOk t' := by
  obtain ⟨_, t', _, _, hu, hok⟩ := h.update hs
  exact ⟨t', hu, hok⟩

/-! ### Lookups -/

theorem findFrom_spec (v : Nat) (l : List Entry) : ∀ sym,
    match findFrom v sym l with
    | none => ∀ (j : Nat) (h : j < l.length), l[j].toNat ≤ v
    | some r => ∃ (j : Nat) (h : j < l.length), r = sym + j ∧ v < l[j].toNat ∧
        ∀ (k : Nat) (hk : k < j), (l[k]'(by omega)).toNat ≤ v := by
  induction l with
  | nil => intro sym; simp [findFrom]
  | cons e rest ih =>
    intro sym
    by_cases hv : v < e.toNat
    · simp only [findFrom, hv, if_true]
      exact ⟨0, by simp, by omega, by simpa using hv, fun k hk => absurd hk (by omega)⟩
    · simp only [findFrom, hv, if_false]
      have := ih (sym + 1)
      split at this
      · rename_i heq
        intro j hj
        cases j with
        | zero => simpa using hv
        | succ j => simpa using this j (by simpa using hj)
      · rename_i r heq
        obtain ⟨j, hj, rfl, hlt, hall⟩ := this
        refine ⟨j + 1, by simpa using hj, by omega, by simpa using hlt, fun k hk => ?_⟩
        cases k with
        | zero => simpa using hv
        | succ k => simpa using hall k (by omega)

theorem tail_get (t : Table) {j : Nat} (h : j < 257) :
    (t.toList.tail[j]'(by simp; omega)).toNat = tableAt t (j + 1) := by
  rw [tableAt_of_lt t (by omega), List.getElem_tail]

/-- SymbolFor finds the least symbol whose upper entry is over `v` (R139). -/
theorem symbolFor_ok {t : Table} {v : Nat} (hv : v < total t) :
    ∃ sym, symbolFor t v = .ok sym ∧ sym ≤ 256 ∧ v < tableAt t (sym + 1) ∧
      ∀ s, s < sym → tableAt t (s + 1) ≤ v := by
  have hlen : t.toList.tail.length = 257 := by simp
  have := findFrom_spec v t.toList.tail 0
  cases hf : findFrom v 0 t.toList.tail with
  | none =>
    rw [hf] at this
    have h1 := this 256 (by omega)
    rw [tail_get t (by omega)] at h1
    have h2 : total t = tableAt t (256 + 1) := rfl
    omega
  | some r =>
    rw [hf] at this
    obtain ⟨j, hj, hr, hlt, hall⟩ := this
    have hr' : r = j := by omega
    subst hr'
    refine ⟨r, by simp [symbolFor, findSymbol, hf], by omega, ?_, fun s hs => ?_⟩
    · rwa [tail_get t (by omega)] at hlt
    · have := hall s hs
      rwa [tail_get t (by omega)] at this

/-- In a legal table the symbol found is the one whose range holds `v` (R139). -/
theorem TableOk.symbolFor {t : Table} (h : TableOk t) {v : Nat} (hv : v < total t) :
    ∃ sym, symbolFor t v = .ok sym ∧ sym ≤ 256 ∧ tableAt t sym ≤ v ∧ v < tableAt t (sym + 1) := by
  obtain ⟨sym, hs, hle, hlt, hall⟩ := symbolFor_ok hv
  refine ⟨sym, hs, hle, ?_, hlt⟩
  cases sym with
  | zero => rw [h.zero]; omega
  | succ s => exact hall s (by omega)

end Sys2Proof.Machine
end

