-- ==== Sys2Proof/Laws/Renorm.lean ====
section
/-! SUPPORT. Narrowing and the shift of the interval registers on plain numbers: their results, that none breaks from a
legal state, and how the range grows (42_encoder.md R171 to R176, R172, R182, R183). -/
namespace Sys2Proof.Machine

/-- The parameters as numerals, for omega. -/
theorem half_eq : Config.half = 2147483648 := rfl
theorem quarter_eq : Config.quarter = 1073741824 := rfl
theorem threeQuarters_eq : Config.threeQuarters = 3221225472 := rfl

/-- `high - low + 1` of an interval. -/
def rangeOf (iv : Interval) : Nat := iv.high.toNat - iv.low.toNat + 1

/-- The case selection of the machine is that of the plain numbers. -/
theorem renormCase_eq_bitCase (iv : Interval) : renormCase iv = bitCase iv.low.toNat iv.high.toNat := rfl

/-- Where no case applies, the interval is that of an Active unit between commands (R183). -/
theorem intervalOk_of_exit {iv : Interval} (h : renormCase iv = none) :
    IntervalOk iv := by
  unfold renormCase at h
  split at h
  · cases h
  split at h
  · cases h
  split at h
  · cases h
  rename_i h1 h2 h3
  exact ⟨by omega, by omega, by omega⟩

theorem exit_of_intervalOk {iv : Interval} (h : IntervalOk iv) : renormCase iv = none := by
  obtain ⟨h1, h2, h3⟩ := h
  unfold renormCase
  rw [if_neg (by omega), if_neg (by omega), if_neg (by omega)]

theorem IntervalOk.low_le_high {iv : Interval} (h : IntervalOk iv) : iv.low.toNat ≤ iv.high.toNat := by
  obtain ⟨h1, h2, _⟩ := h
  simp only [half_eq] at *
  omega

/-- R183: the range of such an interval is at least QUARTER + 2. -/
theorem IntervalOk.range_ge {iv : Interval} (h : IntervalOk iv) : Config.quarter + 2 ≤ rangeOf iv := by
  obtain ⟨h1, h2, h3⟩ := h
  simp only [half_eq, quarter_eq, threeQuarters_eq, rangeOf] at *
  omega

/-! ### Narrowing -/

/-- The narrowed bounds on plain numbers (R172): they stay inside the interval and at least 65544 apart. -/
theorem narrow_bounds {range lc hc t : Nat} (hr : Config.quarter + 2 ≤ range) (ht0 : 0 < t) (ht : t ≤ 16382)
    (hlt : lc < hc) (hle : hc ≤ t) :
    range * lc / t + 65544 ≤ range * hc / t ∧ range * hc / t ≤ range := by
  rw [quarter_eq] at hr
  constructor
  · have h1 : 65544 ≤ range / t := by
      rw [Nat.le_div_iff_mul_le ht0]
      calc 65544 * t ≤ 65544 * 16382 := Nat.mul_le_mul_left _ ht
        _ ≤ range := by omega
    have h2 : range * lc / t + range / t ≤ (range * lc + range) / t := Nat.div_add_div_le_add_div
    have h3 : (range * lc + range) / t ≤ range * hc / t := by
      apply Nat.div_le_div_right
      calc range * lc + range = range * (lc + 1) := by ring
        _ ≤ range * hc := Nat.mul_le_mul_left _ hlt
    omega
  · calc range * hc / t ≤ range * t / t := Nat.div_le_div_right (Nat.mul_le_mul_left _ hle)
      _ = range := Nat.mul_div_cancel _ ht0

/-- Narrow from a legal interval and a legal table never breaks, and gives R171's bounds (R172). -/
theorem narrow_ok {iv : Interval} (hiv : IntervalOk iv) {lc hc t : Nat} (ht0 : 0 < t) (ht : t ≤ 16382) (hlt : lc < hc)
    (hle : hc ≤ t) :
    ∃ iv', narrowInterval iv lc hc t = .ok iv' ∧
      iv'.low.toNat = iv.low.toNat + rangeOf iv * lc / t ∧
        iv'.high.toNat = iv.low.toNat + rangeOf iv * hc / t - 1 ∧
          iv.low.toNat ≤ iv'.low.toNat ∧ iv'.high.toNat ≤ iv.high.toNat ∧ iv'.low.toNat + 65543 ≤ iv'.high.toNat := by
  have hlh := hiv.low_le_high
  obtain ⟨h1, h2⟩ := narrow_bounds hiv.range_ge ht0 ht hlt hle
  have hhigh := iv.high.isLt
  have hrange : intervalRange iv = .ok (rangeOf iv) := by simp only [intervalRange, minus_ok hlh, rangeOf]
  have hreq : rangeOf iv = iv.high.toNat - iv.low.toNat + 1 := rfl
  have hdh : divide (rangeOf iv * hc) t = .ok (rangeOf iv * hc / t) := divide_ok ht0
  have hdl : divide (rangeOf iv * lc) t = .ok (rangeOf iv * lc / t) := divide_ok ht0
  generalize rangeOf iv * hc / t = qh at *
  generalize rangeOf iv * lc / t = ql at *
  have hH : iv.low.toNat + qh - 1 < 2 ^ 32 := by omega
  have hL : iv.low.toNat + ql < 2 ^ 32 := by omega
  refine ⟨⟨BitVec.ofNat 32 (iv.low.toNat + ql), BitVec.ofNat 32 (iv.low.toNat + qh - 1)⟩, ?_, ?_⟩
  · have hm : minus (iv.low.toNat + qh) 1 = .ok (iv.low.toNat + qh - 1) := minus_ok (by omega)
    simp only [narrowInterval, hrange, narrowedHigh, narrowedLow, hdh, hdl, hm, narrowTo_ok hH, narrowTo_ok hL]
  · simp only [toNat_ofNat_of_lt hH, toNat_ofNat_of_lt hL]
    refine ⟨trivial, trivial, ?_, ?_, ?_⟩ <;> omega

/-! ### Shifts -/

/-- What holds of the bounds when a case applies (R173). -/
theorem case_bounds {iv : Interval} {sh : Shift} (hle : iv.low.toNat ≤ iv.high.toNat) (h : renormCase iv = some sh) :
    shiftOffset sh ≤ iv.low.toNat ∧ 2 * (iv.high.toNat - shiftOffset sh) + 1 < 2 ^ 32 ∧ rangeOf iv ≤ 2 ^ 31 := by
  have hhigh := iv.high.isLt
  unfold renormCase at h
  split at h
  · cases h
    rename_i h1
    rw [half_eq] at h1
    simp only [shiftOffset, rangeOf]
    omega
  split at h
  · cases h
    rename_i h1 h2
    rw [half_eq] at h1 h2
    simp only [shiftOffset, rangeOf, half_eq]
    omega
  split at h
  · cases h
    rename_i h3
    rw [quarter_eq, threeQuarters_eq] at h3
    simp only [shiftOffset, rangeOf, quarter_eq]
    omega
  cases h

/-- A register's shift does not break when its value is within the bounds (R174 to R176, R205). -/
theorem shiftCode_ok {sh : Shift} {v : Code} {bit : Nat} (h1 : shiftOffset sh ≤ v.toNat)
    (h2 : 2 * (v.toNat - shiftOffset sh) + bit < 2 ^ 32) :
    ∃ c, shiftCode sh v bit = .ok c ∧ c.toNat = 2 * (v.toNat - shiftOffset sh) + bit :=
  ⟨BitVec.ofNat 32 (2 * (v.toNat - shiftOffset sh) + bit), by simp only [shiftCode, minus_ok h1, narrowTo_ok h2],
    toNat_ofNat_of_lt h2⟩

/-- The shift of the interval registers where its case applies: no break, and the range doubles exactly (R182). -/
theorem shift_ok {iv : Interval} {sh : Shift} (hle : iv.low.toNat ≤ iv.high.toNat) (h : renormCase iv = some sh) :
    ∃ iv', shiftInterval sh iv = .ok iv' ∧ iv'.low.toNat = 2 * (iv.low.toNat - shiftOffset sh) ∧
      iv'.high.toNat = 2 * (iv.high.toNat - shiftOffset sh) + 1 ∧ iv'.low.toNat ≤ iv'.high.toNat ∧
        rangeOf iv' = 2 * rangeOf iv := by
  obtain ⟨h1, h2, _⟩ := case_bounds hle h
  obtain ⟨l, hl, hl'⟩ := shiftCode_ok (sh := sh) (v := iv.low) (bit := 0) h1 (by omega)
  obtain ⟨u, hu, hu'⟩ := shiftCode_ok (sh := sh) (v := iv.high) (bit := 1) (by omega) (by omega)
  refine ⟨⟨l, u⟩, by simp only [shiftInterval, hl, hu], by simpa using hl', hu', ?_, ?_⟩
  · simp only; omega
  · simp only [rangeOf]; omega

/-- Enough shifts are allowed when the range times `2^n` is over HALF: with no shift allowed, no case applies (R182). -/
theorem exit_of_range {iv : Interval} (hle : iv.low.toNat ≤ iv.high.toNat) (hr : 2 ^ 31 < rangeOf iv * 2 ^ 0) :
    renormCase iv = none := by
  cases hc : renormCase iv with
  | none => rfl
  | some sh =>
    have := (case_bounds hle hc).2.2
    omega

end Sys2Proof.Machine
end

