-- ==== Sys2Proof/Laws/Encoder.lean ====
section
/-! SUPPORT. What the encoder does (42_encoder.md): with a sink that answers ok, each piece is its bit-level counterpart of
Safety; with any sink, no piece breaks from a legal state and where it completes the state is legal. -/
namespace Sys2Proof.Machine

/-! ### With a sink that answers ok -/

/-- From `x` to `y` the encoder wrote the bits of `c`, and `y`'s registers are `c`'s; the table, the phase and the sink's
flushes are `x`'s. -/
structure Coded (x y : EncSide) (c : Coder) : Prop where
  ready : SinkReady y.sink
  writer : WriterOk y.unit
  low : y.unit.low.toNat = c.low
  high : y.unit.high.toNat = c.high
  pending : y.unit.pending = c.pending
  written : writtenBits y = writtenBits x ++ c.bits
  freqs : y.unit.freqs = x.unit.freqs
  phase : y.unit.phase = x.unit.phase
  flushes : y.sink.flushes = x.sink.flushes
  passedOn : y.sink.passedOn = x.sink.passedOn
  received : x.sink.received <+: y.sink.received

theorem Coded.refl {x : EncSide} (hr : SinkReady x.sink) (hw : WriterOk x.unit) : Coded x x (coderOf x.unit) :=
  ⟨hr, hw, rfl, rfl, rfl, by simp [coderOf], rfl, rfl, rfl, rfl, List.prefix_refl _⟩

/-- EmitWithPending (R177). -/
theorem emitWithPending_ready (b : Bool) {x y : EncSide} {c : Coder} (h : Coded x y c) :
    ∃ z, emitWithPending b y = .done () z ∧ Coded x z (coderEmit b c) := by
  obtain ⟨y1, hy1, w1⟩ := wbit_ready h.ready h.writer b
  obtain ⟨y2, hy2, w2⟩ := repeatBit_ready (!b) y1.unit.pending w1.ready w1.writer
  have w := w1.trans w2
  have hp : y1.unit.pending = c.pending := by rw [w1.unit]; exact h.pending
  refine ⟨{ y2 with unit := { y2.unit with pending := 0 } }, by simp [emitWithPending, hy1, hy2], ?_⟩
  refine ⟨w.ready, ⟨w.writer.count, w.writer.bits⟩, ?_, ?_, rfl, ?_, ?_, ?_, ?_, ?_, h.received.trans w.received⟩
  · exact (congrArg (fun u => u.low.toNat) w.unit).trans h.low
  · exact (congrArg (fun u => u.high.toNat) w.unit).trans h.high
  · have : writtenBits { y2 with unit := { y2.unit with pending := 0 } } = writtenBits y2 := rfl
    rw [this, w.written, h.written, hp]
    simp [coderEmit]
  · exact (congrArg EncUnit.freqs w.unit).trans h.freqs
  · exact (congrArg EncUnit.phase w.unit).trans h.phase
  · exact w.flushes.trans h.flushes
  · exact w.passedOn.trans h.passedOn

/-- What a shift emits or defers (R174, R175, R176). -/
theorem encShiftBits_ready (sh : Shift) {x y : EncSide} {c : Coder} (h : Coded x y c) :
    ∃ z c', encShiftBits sh y = .done () z ∧ Coded x z c' ∧ c'.low = c.low ∧ c'.high = c.high ∧
      coderShift sh c = coderMove sh c' := by
  cases sh with
  | e1 =>
    obtain ⟨z, hz, hc⟩ := emitWithPending_ready false h
    exact ⟨z, _, hz, hc, rfl, rfl, rfl⟩
  | e2 =>
    obtain ⟨z, hz, hc⟩ := emitWithPending_ready true h
    exact ⟨z, _, hz, hc, rfl, rfl, rfl⟩
  | e3 =>
    refine ⟨_, { c with pending := c.pending + 1 }, rfl, ?_, rfl, rfl, rfl⟩
    exact ⟨h.ready, ⟨h.writer.count, h.writer.bits⟩, h.low, h.high, by simp [h.pending], h.written, h.freqs, h.phase,
      h.flushes, h.passedOn, h.received⟩

/-- A shift where its case applies is the bit-level one, and doubles the range (R174 to R176, R182). -/
theorem encShift_ready {sh : Shift} {x y : EncSide} {c : Coder} (h : Coded x y c)
    (hle : y.unit.low.toNat ≤ y.unit.high.toNat) (hc : renormCase (encInterval y.unit) = some sh) :
    ∃ z, encShift sh y = .done () z ∧ Coded x z (coderShift sh c) ∧ z.unit.low.toNat ≤ z.unit.high.toNat ∧
      rangeOf (encInterval z.unit) = 2 * rangeOf (encInterval y.unit) := by
  obtain ⟨z, c', hz, hcz, hl, hh, hmove⟩ := encShiftBits_ready sh h
  have hiv : encInterval z.unit = encInterval y.unit := by
    have h1 : z.unit.low = y.unit.low := BitVec.eq_of_toNat_eq (by rw [hcz.low, hl, h.low])
    have h2 : z.unit.high = y.unit.high := BitVec.eq_of_toNat_eq (by rw [hcz.high, hh, h.high])
    simp [encInterval, h1, h2]
  obtain ⟨iv', hs, h1, h2, h3, h4⟩ := shift_ok (iv := encInterval y.unit) hle hc
  refine ⟨{ z with unit := setEncInterval z.unit iv' }, by simp [encShift, hz, hiv, hs], ?_, h3, h4⟩
  rw [hmove]
  refine ⟨hcz.ready, ⟨hcz.writer.count, hcz.writer.bits⟩, ?_, ?_, hcz.pending, hcz.written, hcz.freqs, hcz.phase,
    hcz.flushes, hcz.passedOn, hcz.received⟩
  · show iv'.low.toNat = _
    rw [h1]; simp only [coderMove, hl, encInterval_low, h.low]
  · show iv'.high.toNat = _
    rw [h2]; simp only [coderMove, hh, encInterval_high, h.high]

/-- EncRenorm is the bit-level loop, and leaves a legal interval (R178, R182, R183). `n` shifts are enough when the range
times `2^n` is over HALF. -/
theorem encRenorm_ready : ∀ (n m : Nat) {x y : EncSide} {c : Coder}, Coded x y c →
    y.unit.low.toNat ≤ y.unit.high.toNat → 2 ^ 31 < rangeOf (encInterval y.unit) * 2 ^ n → n ≤ m →
      ∃ z, encRenorm m y = .done () z ∧ Coded x z (coderRenorm n c) ∧ IntervalOk (encInterval z.unit) := by
  intro n
  induction n with
  | zero =>
    intro m x y c h hle hr _
    have hc := exit_of_range (iv := encInterval y.unit) hle hr
    refine ⟨y, ?_, h, intervalOk_of_exit hc⟩
    cases m <;> simp [encRenorm, hc]
  | succ n ih =>
    intro m x y c h hle hr hm
    obtain ⟨m', rfl⟩ : ∃ m', m = m' + 1 := ⟨m - 1, by omega⟩
    have hcase : renormCase (encInterval y.unit) = bitCase c.low c.high := by
      rw [renormCase_eq_bitCase, encInterval_low, encInterval_high, h.low, h.high]
    cases hc : renormCase (encInterval y.unit) with
    | none =>
      exact ⟨y, by simp [encRenorm, hc], by simpa [coderRenorm, ← hcase, hc] using h, intervalOk_of_exit hc⟩
    | some sh =>
      obtain ⟨z, hz, hcz, hle', hr'⟩ := encShift_ready h hle hc
      have hr2 : 2 ^ 31 < rangeOf (encInterval z.unit) * 2 ^ n := by
        rw [hr']
        calc 2 ^ 31 < rangeOf (encInterval y.unit) * 2 ^ (n + 1) := hr
          _ = 2 * rangeOf (encInterval y.unit) * 2 ^ n := by ring
      obtain ⟨w, hw, hcw, hok⟩ := ih m' hcz hle' hr2 (by omega)
      exact ⟨w, by simp [encRenorm, hc, hz, hw], by simpa [coderRenorm, ← hcase, hc] using hcw, hok⟩

/-- Fifteen shifts are enough after narrowing (R182). -/
theorem range_of_narrowed {iv : Interval} (h : iv.low.toNat + 65543 ≤ iv.high.toNat) : 2 ^ 31 < rangeOf iv * 2 ^ 15 := by
  simp only [rangeOf]; omega

/-- Narrowing for a symbol from a legal ENC: the table is updated, the interval is narrowed with the range before the
update, and nothing else moves (R178). -/
theorem encNarrow_ok {u : EncUnit} {sym : Nat} (ht : TableOk u.freqs) (hi : IntervalOk (encInterval u)) (hs : sym ≤ 256) :
    ∃ t' iv, tableUpdate u.freqs sym = .ok t' ∧ TableOk t' ∧
      encNarrow sym u = .ok (setEncInterval { u with freqs := t' } iv) ∧
        iv.low.toNat + 65543 ≤ iv.high.toNat ∧
          coderNarrow (tableAt u.freqs sym) (tableAt u.freqs (sym + 1)) (total u.freqs) (coderOf u) =
            ⟨iv.low.toNat, iv.high.toNat, u.pending, []⟩ := by
  obtain ⟨t', hup, hok⟩ := ht.update' hs
  have h0 := ht.total_ge
  obtain ⟨iv, hn, hl, hh, _, _, hwide⟩ := narrow_ok hi (t := total u.freqs) (by omega) ht.total_le (ht.rising sym hs)
    (ht.le_total (by omega))
  exact ⟨t', iv, hup, hok, by simp only [encNarrow, hup, hn], hwide, by
    simp only [coderNarrow, coderOf, hl, hh, rangeOf, encInterval_low, encInterval_high]⟩

/-! ### With any sink -/

/-- A run that is not broken, and satisfies `P` where it completes. -/
def Ends {σ α : Type} (P : σ → Prop) : Run σ α → Prop
  | .done _ x => P x
  | .raised _ _ => True
  | .waiting _ => True
  | .broken _ => False

theorem ends_andThen {σ α β : Type} {P Q : σ → Prop} {r : Run σ α} {k : α → σ → Run σ β}
    (hr : Ends P r) (hk : ∀ a x, P x → Ends Q (k a x)) : Ends Q (r.andThen k) := by
  cases r with
  | done a x => exact hk a x hr
  | raised e x => trivial
  | waiting x => trivial
  | broken f => exact hr

theorem ends_mono {σ α : Type} {P Q : σ → Prop} {r : Run σ α} (h : Ends P r) (hpq : ∀ x, P x → Q x) : Ends Q r := by
  cases r with
  | done a x => exact hpq x h
  | raised e x => trivial
  | waiting x => trivial
  | broken f => exact h

/-- The writer is between bytes and every register but `wbuf`, `wcount` and `pending` is that of `u`. -/
def WriterKeeps (u : EncUnit) (y : EncSide) : Prop :=
  WriterOk y.unit ∧ y.unit.low = u.low ∧ y.unit.high = u.high ∧ y.unit.freqs = u.freqs ∧ y.unit.phase = u.phase

theorem wbit_ends (b : Bool) {u : EncUnit} {x : EncSide} (h : WriterKeeps u x) : Ends (WriterKeeps u) (wbit b x) := by
  obtain ⟨⟨hc, hb⟩, h1, h2, h3, h4⟩ := h
  have hval := pushBit_toNat hc hb b
  have hcount : (BitVec.ofNat 4 (x.unit.wcount.toNat + 1)).toNat = x.unit.wcount.toNat + 1 :=
    toNat_ofNat_of_lt (by omega)
  have hpush : pushBit b x.unit = .ok
      { x.unit with wbuf := (x.unit.wbuf <<< 1) ||| bitByte b, wcount := BitVec.ofNat 4 (x.unit.wcount.toNat + 1) } := by
    simp only [pushBit, narrowTo_ok (show x.unit.wcount.toNat + 1 < 2 ^ 4 by omega)]
  by_cases h8 : x.unit.wcount.toNat + 1 = 8
  · simp only [wbit, hpush, lift_ok, h8, sendByte]
    rw [if_pos (by rfl)]
    split
    · trivial
    · exact ⟨⟨by simp, by simp⟩, h1, h2, h3, h4⟩
    · trivial
  · simp only [wbit, hpush, lift_ok, hcount, h8, if_false]
    refine ⟨⟨by simp only [hcount]; omega, ?_⟩, h1, h2, h3, h4⟩
    simp only [hcount, hval, pow_succ]
    have := Bool.toNat_lt b
    omega

theorem repeatBit_ends (b : Bool) {u : EncUnit} : ∀ (n : Nat) {x : EncSide}, WriterKeeps u x →
    Ends (WriterKeeps u) (repeatBit b n x) := by
  intro n
  induction n with
  | zero => intro x h; exact h
  | succ n ih => intro x h; exact ends_andThen (wbit_ends b h) fun _ _ hy => ih hy

theorem writeBits_ends (v : Operand) {u : EncUnit} : ∀ (n : Nat) {x : EncSide}, WriterKeeps u x →
    Ends (WriterKeeps u) (writeBits v n x) := by
  intro n
  induction n with
  | zero => intro x h; exact h
  | succ n ih => intro x h; exact ends_andThen (wbit_ends _ h) fun _ _ hy => ih hy

theorem writerFlush_ends {u : EncUnit} {x : EncSide} (h : WriterKeeps u x) : Ends (WriterKeeps u) (writerFlush x) := by
  have hf : ∀ y, WriterKeeps u y → Ends (WriterKeeps u) (flushSink y) := fun y hy => by
    unfold flushSink
    split
    · trivial
    · exact hy
    · trivial
  unfold writerFlush
  split
  · have hpad : paddedByte x.unit = .ok (x.unit.wbuf <<< (8 - x.unit.wcount.toNat)) := by
      simp only [paddedByte, minus_ok h.1.count.le]
    rw [hpad, lift_ok]
    refine ends_andThen (P := WriterKeeps u) ?_ fun _ y hy => hf y hy
    unfold sendByte
    split
    · trivial
    · exact ⟨⟨by simp, by simp⟩, h.2⟩
    · trivial
  · exact hf x h

theorem emitWithPending_ends (b : Bool) {u : EncUnit} {x : EncSide} (h : WriterKeeps u x) :
    Ends (WriterKeeps u) (emitWithPending b x) :=
  ends_andThen (wbit_ends b h) fun _ _ hy => ends_andThen (repeatBit_ends _ _ hy) fun _ _ hz =>
    ⟨⟨hz.1.count, hz.1.bits⟩, hz.2⟩

theorem encShiftBits_ends (sh : Shift) {u : EncUnit} {x : EncSide} (h : WriterKeeps u x) :
    Ends (WriterKeeps u) (encShiftBits sh x) := by
  cases sh with
  | e1 => exact emitWithPending_ends false h
  | e2 => exact emitWithPending_ends true h
  | e3 => exact ⟨⟨h.1.count, h.1.bits⟩, h.2⟩

/-- ENC inside the loop of R178: the bounds in order, the writer between bytes, table and phase as in `u`. -/
structure Renorming (u : EncUnit) (n : Nat) (y : EncSide) : Prop where
  writer : WriterOk y.unit
  ordered : y.unit.low.toNat ≤ y.unit.high.toNat
  range : 2 ^ 31 < rangeOf (encInterval y.unit) * 2 ^ n
  freqs : y.unit.freqs = u.freqs
  phase : y.unit.phase = u.phase

theorem encShift_ends {sh : Shift} {u : EncUnit} {n : Nat} {x : EncSide} (h : Renorming u (n + 1) x)
    (hc : renormCase (encInterval x.unit) = some sh) : Ends (Renorming u n) (encShift sh x) := by
  obtain ⟨iv', hs, h1, h2, h3, h4⟩ := shift_ok (iv := encInterval x.unit) h.ordered hc
  refine ends_andThen (encShiftBits_ends sh (u := x.unit) ⟨h.writer, rfl, rfl, rfl, rfl⟩) fun _ y hy => ?_
  obtain ⟨hw, hl, hh, hf, hp⟩ := hy
  have hiv : encInterval y.unit = encInterval x.unit := by simp [encInterval, hl, hh]
  rw [hiv, hs]
  refine ⟨⟨hw.count, hw.bits⟩, h3, ?_, hf.trans h.freqs, hp.trans h.phase⟩
  show 2 ^ 31 < rangeOf iv' * 2 ^ n
  rw [h4]
  calc 2 ^ 31 < rangeOf (encInterval x.unit) * 2 ^ (n + 1) := h.range
    _ = 2 * rangeOf (encInterval x.unit) * 2 ^ n := by ring

/-- EncRenorm with any sink: never broken, and where it completes the interval is legal (R183). -/
theorem encRenorm_ends {u : EncUnit} : ∀ (n m : Nat) {x : EncSide}, Renorming u n x → n ≤ m →
    Ends (fun y => WriterOk y.unit ∧ IntervalOk (encInterval y.unit) ∧ y.unit.freqs = u.freqs ∧ y.unit.phase = u.phase)
      (encRenorm m x) := by
  intro n
  induction n with
  | zero =>
    intro m x h _
    have hc := exit_of_range (iv := encInterval x.unit) h.ordered h.range
    cases m <;> simp only [encRenorm, hc] <;> exact ⟨h.writer, intervalOk_of_exit hc, h.freqs, h.phase⟩
  | succ n ih =>
    intro m x h hm
    obtain ⟨m', rfl⟩ : ∃ m', m = m' + 1 := ⟨m - 1, by omega⟩
    cases hc : renormCase (encInterval x.unit) with
    | none => simp only [encRenorm, hc]; exact ⟨h.writer, intervalOk_of_exit hc, h.freqs, h.phase⟩
    | some sh =>
      simp only [encRenorm, hc]
      exact ends_andThen (encShift_ends h hc) fun _ y hy => ih m' hy (by omega)

/-! ### Where a command can stop, with any sink -/

/-- The sink keeps every byte it holds (R58). -/
def SinkKeeps (x y : EncSide) : Prop := x.sink.received <+: y.sink.received

theorem emitWithPending_stops (b : Bool) (x : EncSide) : Stops (SinkKeeps x) IsIoError (emitWithPending b x) :=
  stops_andThen (stops_mono (wbit_stops b x) fun _ h => h.2) fun _ y hy =>
    stops_andThen (stops_mono (repeatBit_stops _ _ y) fun _ h => List.IsPrefix.trans hy h.2) fun _ _ hz => hz

theorem encShift_stops (sh : Shift) (x : EncSide) : Stops (SinkKeeps x) IsIoError (encShift sh x) := by
  refine stops_andThen (P := SinkKeeps x) ?_ fun _ y hy => stops_lift fun iv _ => hy
  cases sh with
  | e1 => exact emitWithPending_stops false x
  | e2 => exact emitWithPending_stops true x
  | e3 => exact List.prefix_refl _

theorem encRenorm_stops : ∀ (n : Nat) (x : EncSide), Stops (SinkKeeps x) IsIoError (encRenorm n x) := by
  intro n
  induction n with
  | zero =>
    intro x
    unfold encRenorm
    split
    · exact List.prefix_refl _
    · trivial
  | succ n ih =>
    intro x
    unfold encRenorm
    split
    · exact List.prefix_refl _
    · exact stops_andThen (encShift_stops _ x) fun _ y hy => stops_mono (ih y) fun _ hz => List.IsPrefix.trans hy hz

theorem encFinish_stops (x : EncSide) : Stops (SinkKeeps x) IsIoError (encFinish x) :=
  stops_andThen (emitWithPending_stops _ (beginFlush x)) fun _ y hy =>
    stops_andThen (stops_mono (writerFlush_stops y) fun _ h => List.IsPrefix.trans hy h.2) fun _ _ hz => hz

theorem encodeSymbol_stops (sym : Nat) (x : EncSide) : Stops (SinkKeeps x) IsIoError (encodeSymbol sym x) := by
  refine stops_lift fun u _ => stops_andThen (encRenorm_stops _ { x with unit := u }) fun _ y hy => ?_
  split
  · exact stops_mono (encFinish_stops y) fun _ hz => List.IsPrefix.trans hy hz
  · exact hy

end Sys2Proof.Machine
end

