-- ==== Sys2Proof/Laws/Decoder.lean ====
section
/-! SUPPORT. What the decoder does (43_decoder.md): with a source that gives bytes and then ends, each piece is its
bit-level counterpart of Safety; with any source, no piece breaks from a legal state and where it completes the state is
legal. -/
namespace Sys2Proof.Machine

/-! ### Selecting the symbol -/

/-- The count of a legal window is below the total (R204, R208). -/
theorem count_lt {low value high t : Nat} (h1 : low ≤ value) (h2 : value ≤ high) (ht : 0 < t) :
    ((value - low + 1) * t - 1) / (high - low + 1) < t := by
  rw [Nat.div_lt_iff_lt_mul (by omega)]
  have h3 : (value - low + 1) * t ≤ (high - low + 1) * t := Nat.mul_le_mul_right _ (by omega)
  have h4 : 0 < (value - low + 1) * t := Nat.mul_pos (by omega) ht
  rw [Nat.mul_comm t]
  omega

/-- The value lies in the part of the interval that its count selects (R207). -/
theorem value_in_part {range d t lc hc : Nat} (ht : 0 < t) (hr : 0 < range)
    (h1 : lc ≤ ((d + 1) * t - 1) / range) (h2 : ((d + 1) * t - 1) / range < hc) :
    range * lc / t ≤ d ∧ d + 1 ≤ range * hc / t := by
  have hpos : 0 < (d + 1) * t := Nat.mul_pos (by omega) ht
  constructor
  · rw [Nat.le_div_iff_mul_le hr] at h1
    have : range * lc < (d + 1) * t := by rw [Nat.mul_comm range]; omega
    have := Nat.div_lt_of_lt_mul (show range * lc < t * (d + 1) by rw [Nat.mul_comm t]; exact this)
    omega
  · rw [Nat.div_lt_iff_lt_mul hr] at h2
    rw [Nat.le_div_iff_mul_le ht, Nat.mul_comm range]
    omega

theorem scaledCount_ok {v : Code} {iv : Interval} {t : Nat} (h1 : iv.low.toNat ≤ v.toNat)
    (h2 : v.toNat ≤ iv.high.toNat) (ht : 0 < t) :
    scaledCount v iv t = .ok (((v.toNat - iv.low.toNat + 1) * t - 1) / rangeOf iv) := by
  have hr : intervalRange iv = .ok (rangeOf iv) := by simp only [intervalRange, minus_ok (h1.trans h2), rangeOf]
  have hp : 1 ≤ (v.toNat - iv.low.toNat + 1) * t := Nat.mul_pos (by omega) ht
  simp only [scaledCount, hr, minus_ok h1, minus_ok hp, divide_ok (show 0 < rangeOf iv by simp [rangeOf])]

/-- A legal DEC selects the symbol whose range holds the count, and the value stays inside its part (R203, R207, R208). -/
theorem selectSymbol_ok {u : DecUnit} (ht : TableOk u.freqs) (hv : ValueOk u) :
    ∃ sym, selectSymbol u = .ok sym ∧ sym ≤ 256 ∧
      tableAt u.freqs sym ≤ ((u.value.toNat - u.low.toNat + 1) * total u.freqs - 1) / rangeOf (decInterval u) ∧
        ((u.value.toNat - u.low.toNat + 1) * total u.freqs - 1) / rangeOf (decInterval u) < tableAt u.freqs (sym + 1) := by
  have h0 := ht.total_ge
  have hc := scaledCount_ok (v := u.value) (iv := decInterval u) hv.fromLow hv.toHigh (show 0 < total u.freqs by omega)
  obtain ⟨sym, hs, hle, h1, h2⟩ := ht.symbolFor (count_lt hv.fromLow hv.toHigh (show 0 < total u.freqs by omega))
  exact ⟨sym, by simp only [selectSymbol, hc]; exact hs, hle, h1, h2⟩

/-- Narrowing for the selected symbol from a legal DEC (R203): the table is updated, the interval is narrowed with the
range before the update, the value is inside it, and nothing else moves. -/
theorem decNarrow_ok {u : DecUnit} {sym : Nat} (ht : TableOk u.freqs) (hi : IntervalOk (decInterval u)) (hv : ValueOk u)
    (hs : sym ≤ 256)
    (h1 : tableAt u.freqs sym ≤ ((u.value.toNat - u.low.toNat + 1) * total u.freqs - 1) / rangeOf (decInterval u))
    (h2 : ((u.value.toNat - u.low.toNat + 1) * total u.freqs - 1) / rangeOf (decInterval u) <
      tableAt u.freqs (sym + 1)) :
    ∃ t' iv, tableUpdate u.freqs sym = .ok t' ∧ TableOk t' ∧
      decNarrow sym u = .ok (setDecInterval { u with freqs := t' } iv) ∧
        iv.low.toNat = u.low.toNat + rangeOf (decInterval u) * tableAt u.freqs sym / total u.freqs ∧
          iv.high.toNat = u.low.toNat + rangeOf (decInterval u) * tableAt u.freqs (sym + 1) / total u.freqs - 1 ∧
            iv.low.toNat + 65543 ≤ iv.high.toNat ∧ iv.low.toNat ≤ u.value.toNat ∧ u.value.toNat ≤ iv.high.toNat := by
  obtain ⟨t', hup, hok⟩ := ht.update' hs
  have h0 := ht.total_ge
  obtain ⟨iv, hn, hl, hh, _, _, hwide⟩ := narrow_ok hi (t := total u.freqs) (by omega) ht.total_le (ht.rising sym hs)
    (ht.le_total (by omega))
  obtain ⟨p1, p2⟩ := value_in_part (show 0 < total u.freqs by omega) (show 0 < rangeOf (decInterval u) by simp [rangeOf])
    h1 h2
  refine ⟨t', iv, hup, hok, by simp only [decNarrow, hup, hn], hl, hh, hwide, ?_, ?_⟩
  · rw [hl]; have := hv.fromLow; simp only [decInterval_low]; omega
  · rw [hh]; have := hv.fromLow; simp only [decInterval_low]; omega

/-! ### With a source that gives bytes and then ends -/

/-- From `x` to `y` the decoder's registers became those of the window `w`, and the source's coming bytes, `start` at `x`,
became `bytes`; table and phase are `x`'s. -/
structure Windowed (x y : DecSide) (start bytes : List Byte) (w : Window) : Prop where
  source : SourceGives y.source bytes
  low : y.unit.low.toNat = w.low
  high : y.unit.high.toNat = w.high
  value : y.unit.value.toNat = w.value
  bits : upcomingBits y.unit bytes = w.bits
  freqs : y.unit.freqs = x.unit.freqs
  phase : y.unit.phase = x.unit.phase
  taken : x.source.taken ++ start = y.source.taken ++ bytes

/-- One shift of a window that has a bit left. -/
def windowShift (sh : Shift) (w : Window) (b : Bool) (rest : List Bool) : Window where
  low := 2 * (w.low - shiftOffset sh)
  high := 2 * (w.high - shiftOffset sh) + 1
  value := 2 * (w.value - shiftOffset sh) + b.toNat
  bits := rest

/-- A decoder shift where its case applies and a bit is left is the bit-level one (R205). -/
theorem decShift_supplied {sh : Shift} {x y : DecSide} {start bytes : List Byte} {w : Window} (h : Windowed x y start bytes w)
    (hle : y.unit.low.toNat ≤ y.unit.high.toNat) (hv : ValueOk y.unit)
    (hc : renormCase (decInterval y.unit) = some sh) {b : Bool} {rest : List Bool} (hb : w.bits = b :: rest) :
    ∃ z bytes', decShift sh y = .done () z ∧ Windowed x z start bytes' (windowShift sh w b rest) ∧
      z.unit.low.toNat ≤ z.unit.high.toNat ∧ ValueOk z.unit ∧
        rangeOf (decInterval z.unit) = 2 * rangeOf (decInterval y.unit) := by
  obtain ⟨iv', hs, h1, h2, h3, h4⟩ := shift_ok (iv := decInterval y.unit) hle hc
  obtain ⟨c1, c2, _⟩ := case_bounds (iv := decInterval y.unit) hle hc
  simp only [decInterval_low, decInterval_high] at h1 h2 c1 c2
  let y1 : DecSide := { y with unit := setDecInterval y.unit iv' }
  have hu : upcomingBits y1.unit bytes = b :: rest := h.bits.trans hb
  obtain ⟨z, bytes', hz, hsup⟩ := rbit_supplies (x := y1) h.source hu
  have hzval : z.unit.value = y.unit.value := (congrArg DecUnit.value hsup.unit).trans rfl
  have hzlow : z.unit.low = iv'.low := (congrArg DecUnit.low hsup.unit).trans rfl
  have hzhigh : z.unit.high = iv'.high := (congrArg DecUnit.high hsup.unit).trans rfl
  have hbit := Bool.toNat_lt b
  have hv1 := hv.fromLow
  have hv2 := hv.toHigh
  obtain ⟨v', hv', hvn⟩ := shiftCode_ok (sh := sh) (v := z.unit.value) (bit := b.toNat)
    (by rw [hzval]; omega) (by rw [hzval]; omega)
  have hup : upcomingBits z.unit bytes' = rest := by
    have := hsup.upcoming
    rw [hu] at this
    simpa using this.symm
  refine ⟨setValue v' z, bytes', ?_, ?_, ?_, ?_, ?_⟩
  · simp only [decShift, hs, lift_ok]
    rw [show rbit { y with unit := setDecInterval y.unit iv' } = .done b z from hz, andThen_done, hv', lift_ok]
  · refine ⟨hsup.source, ?_, ?_, ?_, hup, (congrArg DecUnit.freqs hsup.unit).trans h.freqs,
      (congrArg DecUnit.phase hsup.unit).trans h.phase, h.taken.trans hsup.taken⟩
    · show z.unit.low.toNat = _
      rw [hzlow, h1, h.low]; rfl
    · show z.unit.high.toNat = _
      rw [hzhigh, h2, h.high]; rfl
    · show v'.toNat = _
      rw [hvn, hzval, h.value]; rfl
  · show z.unit.low.toNat ≤ z.unit.high.toNat
    rw [hzlow, hzhigh]; exact h3
  · refine ⟨?_, ?_⟩
    · show z.unit.low.toNat ≤ v'.toNat
      rw [hzlow, hvn, hzval]; omega
    · show v'.toNat ≤ z.unit.high.toNat
      rw [hzhigh, hvn, hzval]; omega
  · show rangeOf ⟨z.unit.low, z.unit.high⟩ = _
    rw [hzlow, hzhigh]; exact h4

/-- A decoder shift where its case applies and no bit is left raises UNEXPECTED_EOF (R205, R233). -/
theorem decShift_exhausted {sh : Shift} {x y : DecSide} {start bytes : List Byte} {w : Window} (h : Windowed x y start bytes w)
    (hle : y.unit.low.toNat ≤ y.unit.high.toNat) (hc : renormCase (decInterval y.unit) = some sh) (hb : w.bits = []) :
    ∃ z, decShift sh y = .raised .unexpectedEof z := by
  obtain ⟨iv', hs, _⟩ := shift_ok (iv := decInterval y.unit) hle hc
  obtain ⟨z, hz, _⟩ := rbit_exhausted (x := { y with unit := setDecInterval y.unit iv' }) h.source (h.bits.trans hb)
  exact ⟨z, by simp only [decShift, hs, lift_ok, hz, andThen_raised]⟩

/-- DecRenorm is the bit-level loop: it leaves a legal interval with the value inside (R203, R205, R207), or runs out of
bits (R233). `n` shifts are enough when the range times `2^n` is over HALF. -/
theorem decRenorm_supplied : ∀ (n m : Nat) {x y : DecSide} {start bytes : List Byte} {w : Window},
    Windowed x y start bytes w →
    y.unit.low.toNat ≤ y.unit.high.toNat → ValueOk y.unit → 2 ^ 31 < rangeOf (decInterval y.unit) * 2 ^ n → n ≤ m →
      match windowRenorm n w with
      | some w' => ∃ z bytes', decRenorm m y = .done () z ∧ Windowed x z start bytes' w' ∧ IntervalOk (decInterval z.unit) ∧
          ValueOk z.unit
      | none => ∃ z, decRenorm m y = .raised .unexpectedEof z := by
  intro n
  induction n with
  | zero =>
    intro m x y start bytes w h hle hv hr _
    have hc := exit_of_range (iv := decInterval y.unit) hle hr
    refine ⟨y, bytes, ?_, h, intervalOk_of_exit hc, hv⟩
    cases m <;> simp [decRenorm, hc]
  | succ n ih =>
    intro m x y start bytes w h hle hv hr hm
    obtain ⟨m', rfl⟩ : ∃ m', m = m' + 1 := ⟨m - 1, by omega⟩
    have hcase : renormCase (decInterval y.unit) = bitCase w.low w.high := by
      rw [renormCase_eq_bitCase, decInterval_low, decInterval_high, h.low, h.high]
    cases hc : renormCase (decInterval y.unit) with
    | none =>
      simp only [windowRenorm, ← hcase, hc]
      exact ⟨y, bytes, by simp [decRenorm, hc], h, intervalOk_of_exit hc, hv⟩
    | some sh =>
      simp only [windowRenorm, ← hcase, hc]
      cases hb : w.bits with
      | nil =>
        obtain ⟨z, hz⟩ := decShift_exhausted h hle hc hb
        exact ⟨z, by simp [decRenorm, hc, hz]⟩
      | cons b rest =>
        obtain ⟨z, bytes', hz, hwz, hle', hv', hr'⟩ := decShift_supplied h hle hv hc hb
        have hr2 : 2 ^ 31 < rangeOf (decInterval z.unit) * 2 ^ n := by
          rw [hr']
          calc 2 ^ 31 < rangeOf (decInterval y.unit) * 2 ^ (n + 1) := hr
            _ = 2 * rangeOf (decInterval y.unit) * 2 ^ n := by ring
        have := ih m' hwz hle' hv' hr2 (by omega)
        simp only [decRenorm, hc, hz, andThen_done]
        exact this

/-! ### With any source -/

/-- DEC inside the loop of R203: bounds in order, value between them, reader within its bounds, table and phase as in
`u`. -/
structure DecRenorming (u : DecUnit) (n : Nat) (y : DecSide) : Prop where
  ordered : y.unit.low.toNat ≤ y.unit.high.toNat
  value : ValueOk y.unit
  range : 2 ^ 31 < rangeOf (decInterval y.unit) * 2 ^ n
  reader : ReaderBounds y
  freqs : y.unit.freqs = u.freqs
  phase : y.unit.phase = u.phase

/-- What a completed RBit leaves, whatever the source answers. -/
theorem rbit_ends {x : DecSide} (h : ReaderBounds x) : Ends (fun y => ReaderFrame x y ∧ ReaderBounds y) (rbit x) := by
  have h1 := rbit_unbroken x
  have h2 := rbit_stops x
  have h3 := rbit_bounds h
  cases hr : rbit x with
  | done b y => rw [hr] at h2 h3; exact ⟨h2, h3⟩
  | raised e y => trivial
  | waiting y => trivial
  | broken f => rw [hr] at h1; exact h1

theorem decShift_ends {sh : Shift} {u : DecUnit} {n : Nat} {x : DecSide} (h : DecRenorming u (n + 1) x)
    (hc : renormCase (decInterval x.unit) = some sh) : Ends (DecRenorming u n) (decShift sh x) := by
  obtain ⟨iv', hs, h1, h2, h3, h4⟩ := shift_ok (iv := decInterval x.unit) h.ordered hc
  obtain ⟨c1, c2, _⟩ := case_bounds (iv := decInterval x.unit) h.ordered hc
  simp only [decInterval_low, decInterval_high] at h1 h2 c1 c2
  have hv1 := h.value.fromLow
  have hv2 := h.value.toHigh
  have hr : ReaderBounds { x with unit := setDecInterval x.unit iv' } :=
    ⟨⟨h.reader.1.count, h.reader.1.ended⟩, h.reader.2⟩
  simp only [decShift, hs, lift_ok]
  refine ends_andThen (rbit_ends hr) fun b z hz => ?_
  obtain ⟨⟨hunit, _⟩, hbounds⟩ := hz
  have hzval : z.unit.value = x.unit.value := (congrArg DecUnit.value hunit).trans rfl
  have hzlow : z.unit.low = iv'.low := (congrArg DecUnit.low hunit).trans rfl
  have hzhigh : z.unit.high = iv'.high := (congrArg DecUnit.high hunit).trans rfl
  have hbit := Bool.toNat_lt b
  obtain ⟨v', hv', hvn⟩ := shiftCode_ok (sh := sh) (v := z.unit.value) (bit := b.toNat)
    (by rw [hzval]; omega) (by rw [hzval]; omega)
  rw [hv', lift_ok]
  refine ⟨?_, ⟨?_, ?_⟩, ?_, ⟨⟨hbounds.1.count, hbounds.1.ended⟩, hbounds.2⟩,
    (congrArg DecUnit.freqs hunit).trans h.freqs, (congrArg DecUnit.phase hunit).trans h.phase⟩
  · show z.unit.low.toNat ≤ z.unit.high.toNat
    rw [hzlow, hzhigh]; exact h3
  · show z.unit.low.toNat ≤ v'.toNat
    rw [hzlow, hvn, hzval]; omega
  · show v'.toNat ≤ z.unit.high.toNat
    rw [hzhigh, hvn, hzval]; omega
  · show 2 ^ 31 < rangeOf ⟨z.unit.low, z.unit.high⟩ * 2 ^ n
    rw [hzlow, hzhigh, show rangeOf ⟨iv'.low, iv'.high⟩ = rangeOf iv' from rfl, h4]
    calc 2 ^ 31 < rangeOf (decInterval x.unit) * 2 ^ (n + 1) := h.range
      _ = 2 * rangeOf (decInterval x.unit) * 2 ^ n := by ring

/-- DecRenorm with any source: never broken, and where it completes the interval and the value are legal (R183, R207). -/
theorem decRenorm_ends {u : DecUnit} : ∀ (n m : Nat) {x : DecSide}, DecRenorming u n x → n ≤ m →
    Ends (fun y => IntervalOk (decInterval y.unit) ∧ ValueOk y.unit ∧ ReaderBounds y ∧ y.unit.freqs = u.freqs ∧
      y.unit.phase = u.phase) (decRenorm m x) := by
  intro n
  induction n with
  | zero =>
    intro m x h _
    have hc := exit_of_range (iv := decInterval x.unit) h.ordered h.range
    cases m <;> simp only [decRenorm, hc] <;> exact ⟨intervalOk_of_exit hc, h.value, h.reader, h.freqs, h.phase⟩
  | succ n ih =>
    intro m x h hm
    obtain ⟨m', rfl⟩ : ∃ m', m = m' + 1 := ⟨m - 1, by omega⟩
    cases hc : renormCase (decInterval x.unit) with
    | none => simp only [decRenorm, hc]; exact ⟨intervalOk_of_exit hc, h.value, h.reader, h.freqs, h.phase⟩
    | some sh =>
      simp only [decRenorm, hc]
      exact ends_andThen (decShift_ends h hc) fun _ y hy => ih m' hy (by omega)

/-! ### Where a command can stop, with any source -/

/-- The bytes taken from the source stay taken (R58). -/
def SourceKeeps (x y : DecSide) : Prop := x.source.taken <+: y.source.taken

theorem decShift_stops (sh : Shift) (x : DecSide) : Stops (SourceKeeps x) IsFatal (decShift sh x) :=
  stops_lift fun iv _ =>
    stops_andThen (stops_mono (rbit_stops { x with unit := setDecInterval x.unit iv }) fun _ h => h.2) fun _ _ hy =>
      stops_lift fun _ _ => hy

theorem decRenorm_stops : ∀ (n : Nat) (x : DecSide), Stops (SourceKeeps x) IsFatal (decRenorm n x) := by
  intro n
  induction n with
  | zero =>
    intro x
    unfold decRenorm
    split
    · exact List.prefix_refl _
    · trivial
  | succ n ih =>
    intro x
    unfold decRenorm
    split
    · exact List.prefix_refl _
    · exact stops_andThen (decShift_stops _ x) fun _ y hy => stops_mono (ih y) fun _ hz => List.IsPrefix.trans hy hz

theorem decodeSymbol_stops (x : DecSide) : Stops (SourceKeeps x) IsFatal (decodeSymbol x) :=
  stops_lift fun sym _ => stops_lift fun u _ =>
    stops_andThen (decRenorm_stops _ { x with unit := u }) fun _ y hy => by
      show x.source.taken <+: (finishDec sym y).source.taken
      rw [finishDec_source]; exact hy

theorem primeValue_stops (x : DecSide) : Stops (SourceKeeps x) IsFatal (primeValue x) :=
  stops_andThen (stops_mono (readBitsFrom_stops _ _ x) fun _ h => h.2) fun _ _ hy => stops_lift fun _ _ => hy

end Sys2Proof.Machine
end

