-- ==== Sys2Proof/Laws/Exec.lean ====
section
/-! SUPPORT. Said once: everything a command can do when it answers a next state (60_exceptions.md R230, R237, R238), for
the commands of each unit, and what a step can do. -/
namespace Sys2Proof.Machine

/-- The errors that reject a command whose word is legal (R235, R236). -/
def IsRejection (e : Status) : Prop := e = .badPhase ∨ e = .badOperand

/-- How an ENC command `i` that answers `t` from `s` ended: with a result, with IO_ERROR, waiting on the sink, rejected, or
with a free value read in Idle or Failed. In each case DEC's side is untouched and the sink keeps its bytes. -/
def EncEnded (i : Instr) (s t : State) : Prop :=
  (∃ d x, SinkKeeps (encSide s) x ∧ t = respond d (withEncSide s x)) ∨
    (∃ x, SinkKeeps (encSide s) x ∧ t = failEnc .ioError x.sink s) ∨
      (∃ x, SinkKeeps (encSide s) x ∧
        t = { withEncSide s x with waiting := some (.onSink i (promptSink (encSide s))) }) ∨
        (∃ e, IsRejection e ∧ t = reject e s) ∨ (∃ d, t = respond d { s with draws := s.draws + 1 })

/-- How a DEC command `i` that answers `t` from `s` ended. In each case ENC's side is untouched and the bytes taken from the
source stay taken. -/
def DecEnded (i : Instr) (s t : State) : Prop :=
  (∃ d x, SourceKeeps (decSide s) x ∧ t = respond d (withDecSide s x)) ∨
    (∃ e x, IsFatal e ∧ SourceKeeps (decSide s) x ∧ t = failDec e x.source s) ∨
      (∃ x, SourceKeeps (decSide s) x ∧
        t = { withDecSide s x with waiting := some (.onSource i (promptSource (decSide s))) }) ∨
        (∃ e, IsRejection e ∧ t = reject e s) ∨ (∃ d, t = respond d { s with draws := s.draws + 1 })

theorem endEnc_ended {i : Instr} {s t : State} {r : Run EncSide Operand} (hr : Stops (SinkKeeps (encSide s)) IsIoError r)
    (h : endEnc i s r = .next t) : EncEnded i s t := by
  obtain ⟨d, x, rfl, ht⟩ | ⟨e, x, rfl, ht⟩ | ⟨x, rfl, ht⟩ := endEnc_next h
  · exact .inl ⟨d, x, hr, ht⟩
  · obtain ⟨he, hk⟩ := hr
    cases he
    exact .inr (.inl ⟨x, hk, ht⟩)
  · exact .inr (.inr (.inl ⟨x, hr, ht⟩))

theorem endDec_ended {i : Instr} {s t : State} {r : Run DecSide Operand} (hr : Stops (SourceKeeps (decSide s)) IsFatal r)
    (h : endDec i s r = .next t) : DecEnded i s t := by
  obtain ⟨d, x, rfl, ht⟩ | ⟨e, x, rfl, ht⟩ | ⟨x, rfl, ht⟩ := endDec_next h
  · exact .inl ⟨d, x, hr, ht⟩
  · exact .inr (.inl ⟨e, x, hr.1, hr.2, ht⟩)
  · exact .inr (.inr (.inl ⟨x, hr, ht⟩))

theorem checkedEnc_ended {i : Instr} {p : Phase} {ok : Bool} {s t : State} {r : Run EncSide Operand}
    (hr : Stops (SinkKeeps (encSide s)) IsIoError r) (h : checked p ok s (endEnc i s r) = .next t) : EncEnded i s t := by
  obtain ⟨_, ht⟩ | ⟨_, _, ht⟩ | ⟨_, _, h'⟩ := checked_next h
  · exact .inr (.inr (.inr (.inl ⟨_, .inl rfl, ht⟩)))
  · exact .inr (.inr (.inr (.inl ⟨_, .inr rfl, ht⟩)))
  · exact endEnc_ended hr h'

theorem checkedDec_ended {i : Instr} {p : Phase} {ok : Bool} {s t : State} {r : Run DecSide Operand}
    (hr : Stops (SourceKeeps (decSide s)) IsFatal r) (h : checked p ok s (endDec i s r) = .next t) : DecEnded i s t := by
  obtain ⟨_, ht⟩ | ⟨_, _, ht⟩ | ⟨_, _, h'⟩ := checked_next h
  · exact .inr (.inr (.inr (.inl ⟨_, .inl rfl, ht⟩)))
  · exact .inr (.inr (.inr (.inl ⟨_, .inr rfl, ht⟩)))
  · exact endDec_ended hr h'

/-- A run followed by its fixed result keeps what the run keeps. -/
theorem stops_result {σ α : Type} {P : σ → Prop} {E : Status → Prop} {r : Run σ α} (d : α → Operand)
    (h : Stops P E r) : Stops P E (r.andThen fun a x => .done (d a) x) :=
  stops_andThen h fun _ _ hx => hx

theorem onEncTable_stops (f : Table → Except Fault (Operand × Table)) (x : EncSide) :
    Stops (SinkKeeps x) IsIoError (onEncTable f x) :=
  stops_lift fun _ _ => List.prefix_refl _

theorem onDecTable_stops (f : Table → Except Fault (Operand × Table)) (x : DecSide) :
    Stops (SourceKeeps x) IsFatal (onDecTable f x) :=
  stops_lift fun _ _ => List.prefix_refl _

theorem answerRead_cases (p : Phase) (sel : Nat) (v : Option Nat) (s : State) :
    answerRead p sel v s = reject .badOperand s ∨ (∃ d, answerRead p sel v s = respond d s) ∨
      ∃ d, answerRead p sel v s = respond d { s with draws := s.draws + 1 } := by
  unfold answerRead
  split
  · exact .inl rfl
  · split
    · exact .inr (.inr ⟨_, rfl⟩)
    · exact .inr (.inl ⟨_, rfl⟩)

/-- Everything an ENC command can do when it answers a next state. -/
theorem exec_enc_next {i : Instr} {s t : State} (hi : isEncCommand i = true) (h : exec i s = .next t) :
    EncEnded i s t := by
  cases i with
  | encInit =>
    injection h with h
    exact .inl ⟨0, ⟨freshEnc, s.sink⟩, List.prefix_refl _, h.symm⟩
  | encPreload sym => exact checkedEnc_ended (onEncTable_stops _ _) h
  | encCode sym => exact checkedEnc_ended (stops_result (fun _ => 0) (encodeSymbol_stops sym _)) h
  | encProb sym => exact checkedEnc_ended (onEncTable_stops _ _) h
  | encSymfor => exact checkedEnc_ended (onEncTable_stops _ _) h
  | encUpdate sym => exact checkedEnc_ended (onEncTable_stops _ _) h
  | encRescale => exact checkedEnc_ended (onEncTable_stops _ _) h
  | encBits n =>
    exact checkedEnc_ended
      (stops_result (fun _ => 0) (stops_mono (writeBits_stops s.din n _) fun _ hx => hx.2)) h
  | encBflush =>
    exact checkedEnc_ended (stops_result (fun _ => 0) (stops_mono (writerFlush_stops _) fun _ hx => hx.2)) h
  | encRdstate sel =>
    injection h with h
    obtain ha | ⟨d, ha⟩ | ⟨d, ha⟩ := answerRead_cases s.enc.phase sel (encRegister s.enc sel) s
    · exact .inr (.inr (.inr (.inl ⟨_, .inr rfl, h.symm.trans ha⟩)))
    · exact .inl ⟨d, encSide s, List.prefix_refl _, h.symm.trans ha⟩
    · exact .inr (.inr (.inr (.inr ⟨d, h.symm.trans ha⟩)))
  | decInit => cases hi
  | decPreload sym => cases hi
  | decCode => cases hi
  | decProb sym => cases hi
  | decSymfor => cases hi
  | decUpdate sym => cases hi
  | decRescale => cases hi
  | decBits n => cases hi
  | decRdstate sel => cases hi

/-- Everything a DEC command can do when it answers a next state. -/
theorem exec_dec_next {i : Instr} {s t : State} (hi : isEncCommand i = false) (h : exec i s = .next t) :
    DecEnded i s t := by
  cases i with
  | encInit => cases hi
  | encPreload sym => cases hi
  | encCode sym => cases hi
  | encProb sym => cases hi
  | encSymfor => cases hi
  | encUpdate sym => cases hi
  | encRescale => cases hi
  | encBits n => cases hi
  | encBflush => cases hi
  | encRdstate sel => cases hi
  | decInit => exact endDec_ended (stops_result (fun _ => 0) (primeValue_stops ⟨startDec s.dec, s.source⟩)) h
  | decPreload sym => exact checkedDec_ended (onDecTable_stops _ _) h
  | decCode => exact checkedDec_ended (stops_result (BitVec.ofNat 64) (decodeSymbol_stops _)) h
  | decProb sym => exact checkedDec_ended (onDecTable_stops _ _) h
  | decSymfor => exact checkedDec_ended (onDecTable_stops _ _) h
  | decUpdate sym => exact checkedDec_ended (onDecTable_stops _ _) h
  | decRescale => exact checkedDec_ended (onDecTable_stops _ _) h
  | decBits n =>
    exact checkedDec_ended
      (stops_andThen (stops_mono (readBitsFrom_stops n 0 (decSide s)) fun _ hx => hx.2) fun _ _ hx =>
        stops_lift fun _ _ => by exact hx) h
  | decRdstate sel =>
    injection h with h
    obtain ha | ⟨d, ha⟩ | ⟨d, ha⟩ := answerRead_cases s.dec.phase sel (decRegister s.dec sel) s
    · exact .inr (.inr (.inr (.inl ⟨_, .inr rfl, h.symm.trans ha⟩)))
    · exact .inl ⟨d, decSide s, List.prefix_refl _, h.symm.trans ha⟩
    · exact .inr (.inr (.inr (.inr ⟨d, h.symm.trans ha⟩)))

/-- Everything a step can do when it answers a next state: nothing (no command in progress and no event), a reset, the
command in progress going on, an illegal word's rejection, or a command's meaning. -/
theorem step_next {s t : State} (h : step s = .next t) :
    (t = s ∧ s.host = [] ∧ s.waiting = none) ∨
      (∃ rest, s.host = .reset :: rest ∧ t = resetBlock { s with host := rest }) ∨
      (∃ w, s.waiting = some w ∧ exec (waitingCommand w) (restart s) = .next t) ∨
      (∃ cmd din rest, s.host = .command cmd din :: rest ∧ s.waiting = none ∧
        ((∃ e, decode cmd = .error e ∧ t = reject .illegalCommand { s with din := din, host := rest }) ∨
          ∃ i, decode cmd = .ok i ∧ exec i { s with din := din, host := rest } = .next t)) := by
  unfold step takeEvent at h
  cases hh : s.host with
  | nil =>
    rw [hh] at h
    cases hw : s.waiting with
    | some w => rw [hw] at h; exact .inr (.inr (.inl ⟨w, rfl, h⟩))
    | none => rw [hw] at h; injection h with h; exact .inl ⟨h.symm, rfl, rfl⟩
  | cons e rest =>
    rw [hh] at h
    cases e with
    | reset => injection h with h; exact .inr (.inl ⟨rest, rfl, h.symm⟩)
    | command cmd din =>
      cases hw : s.waiting with
      | some w => rw [hw] at h; exact .inr (.inr (.inl ⟨w, rfl, h⟩))
      | none =>
        rw [hw] at h
        refine .inr (.inr (.inr ⟨cmd, din, rest, rfl, rfl, ?_⟩))
        simp only [runWord] at h
        cases hd : decode cmd with
        | ok i => rw [hd] at h; exact .inr ⟨i, rfl, h⟩
        | error e => rw [hd] at h; injection h with h; exact .inl ⟨e, rfl, h.symm⟩

/-- A command in progress goes on from where it runs again, unless the reset input comes first (R248, R260). -/
theorem step_resumes {s : State} {w : Waiting} (hw : s.waiting = some w) (hh : ∀ rest, s.host ≠ .reset :: rest) :
    step s = exec (waitingCommand w) (restart s) := by
  unfold step takeEvent
  cases hc : s.host with
  | nil => rw [hw]
  | cons e rest =>
    cases e with
    | reset => exact absurd hc (hh rest)
    | command cmd din => rw [hw]

end Sys2Proof.Machine
end

