-- ==== Sys2Proof/Laws/Cut.lean ====
section
/-! SUPPORT. A command whose device accepts some calls and then answers `io_error`, or not at once, to the next
(60_exceptions.md R232, R247, R248): it is cut short at that call. Said once for ENC by comparison with the same sink
accepting everything, and once for DEC by the bits that its reader knows of. -/
namespace Sys2Proof.Machine

variable {α β γ : Type}

/-! ### ENC -/

/-- ENC on the same sink, accepting everything. -/
def openSide (x : EncSide) : EncSide := { x with sink := openFrom x.sink }

/-- The sink `k'` of a command cut at call number `n` (from 0): `k` is the sink before, `whole` what the sink receives
where it accepts everything, `more` is 1 where the cutting call was answered, whose byte is the sink's too (R58). -/
structure CutSink (n : Nat) (more : Nat) (k : Sink) (whole : List Byte) (k' : Sink) : Prop where
  received : k'.received = whole.take (k.received.length + n + more)
  flushes : k'.flushes = k.flushes
  passedOn : k'.passedOn = k.passedOn

/-- The run `r` is cut at call number `n`, which was answered `a`. -/
def CutAt (n : Nat) (a : Option SinkAnswer) (k : Sink) (whole : List Byte) (r : Run EncSide α) : Prop :=
  match a with
  | none => ∃ y, r = .waiting y ∧ CutSink n 0 k whole y.sink
  | some .ioError => ∃ y, r = .raised .ioError y ∧ CutSink n 1 k whole y.sink
  | some .ok => True

/-- How a run on a sink that stops at call `n` with answer `a` goes, next to the run `r₀` on the same sink accepting
everything: to the same end where it makes no more than `n` calls, and cut at call `n` where it makes more. -/
def MeetsAt (n : Nat) (a : Option SinkAnswer) (x : EncSide) (r₀ r : Run EncSide α) : Prop :=
  match r₀ with
  | .done v y₀ =>
    openSide y₀ = y₀ ∧ x.sink.received <+: y₀.sink.received ∧ x.sink.flushes ≤ y₀.sink.flushes ∧
      (callsMade x.sink y₀.sink ≤ n →
        ∃ y, r = .done v y ∧ openSide y = y₀ ∧ SinkStopsAt y.sink (n - callsMade x.sink y₀.sink) a) ∧
      (n < callsMade x.sink y₀.sink → CutAt n a x.sink y₀.sink.received r)
  | .raised _ _ => False
  | .waiting _ => False
  | .broken _ => True

/-- A piece of pseudocode of ENC that is cut where its sink stops. -/
def Meets (P : EncSide → Run EncSide α) : Prop :=
  ∀ x n a, SinkStopsAt x.sink n a → MeetsAt n a x (P (openSide x)) (P x)

/-- A piece that never flushes the sink. -/
def NeverFlushes (P : EncSide → Run EncSide α) : Prop :=
  ∀ x v y, P x = .done v y → y.sink.flushes = x.sink.flushes ∧ y.sink.passedOn = x.sink.passedOn

theorem openSide_stops {y : EncSide} (h : openSide y = y) : SinkStopsAt y.sink 0 (some .ok) := by
  rw [← h]; exact .inr ⟨rfl, rfl⟩

/-- What is cut in a part is cut in the whole. -/
theorem CutAt.longer {n : Nat} {a : Option SinkAnswer} {k : Sink} {part whole : List Byte} {r : Run EncSide α}
    {K : α → EncSide → Run EncSide β} (hp : part <+: whole) (hl : k.received.length + n < part.length)
    (h : CutAt n a k part r) : CutAt n a k whole (r.andThen K) := by
  have ht : ∀ m, m ≤ 1 → part.take (k.received.length + n + m) = whole.take (k.received.length + n + m) := fun m hm => by
    obtain ⟨rest, rfl⟩ := hp
    rw [List.take_append_of_le_length (by omega)]
  unfold CutAt at *
  match a, h with
  | none, ⟨y, hr, hc⟩ => exact ⟨y, by rw [hr]; rfl, by rw [hc.received, ht 0 (by omega)], hc.flushes, hc.passedOn⟩
  | some .ioError, ⟨y, hr, hc⟩ =>
    exact ⟨y, by rw [hr]; rfl, by rw [hc.received, ht 1 (le_refl _)], hc.flushes, hc.passedOn⟩
  | some .ok, _ => trivial

theorem meets_done (v : α) (g : EncSide → EncSide) (hg : ∀ x, openSide (g x) = g (openSide x))
    (hs : ∀ x, (g x).sink = x.sink) : Meets fun x => .done v (g x) := by
  intro x n a h
  have h0 : callsMade x.sink (g (openSide x)).sink = 0 := by rw [hs]; simp [callsMade, openSide, openFrom]
  refine ⟨by rw [hg]; rfl, by rw [hs]; exact List.prefix_refl _, by rw [hs]; exact le_refl _, fun _ => ?_, fun hn => ?_⟩
  · exact ⟨g x, rfl, hg x, by rw [h0, hs]; exact h⟩
  · rw [h0] at hn; omega

/-- A piece followed by one that leaves the sink alone. -/
theorem meets_result {P : EncSide → Run EncSide α} (hp : Meets P) (v : α → β) (g : EncSide → EncSide)
    (hg : ∀ x, openSide (g x) = g (openSide x)) (hs : ∀ x, (g x).sink = x.sink) :
    Meets fun x => (P x).andThen fun a y => .done (v a) (g y) := by
  intro x n a h
  have hm := hp x n a h
  show MeetsAt n a x ((P (openSide x)).andThen _) ((P x).andThen _)
  cases hr : P (openSide x) with
  | done b y₀ =>
    rw [hr] at hm
    obtain ⟨ho, h1, h2, h3, h4⟩ := hm
    rw [andThen_done]
    refine ⟨by rw [hg, ho], by rw [hs]; exact h1, by rw [hs]; exact h2, fun hn => ?_, fun hn => ?_⟩
    · rw [hs] at hn ⊢
      obtain ⟨y, hy, hoy, hst⟩ := h3 hn
      exact ⟨g y, by rw [hy]; rfl, by rw [hg, hoy], by rw [hs]; exact hst⟩
    · rw [hs] at hn ⊢
      have := h4 hn
      unfold CutAt at this ⊢
      match a, this with
      | none, ⟨y, hy, hc⟩ => exact ⟨y, by rw [hy]; rfl, hc⟩
      | some .ioError, ⟨y, hy, hc⟩ => exact ⟨y, by rw [hy]; rfl, hc⟩
      | some .ok, _ => trivial
  | raised e y => rw [hr] at hm; exact hm.elim
  | waiting y => rw [hr] at hm; exact hm.elim
  | broken f => trivial

theorem meets_andThen {P : EncSide → Run EncSide α} {K : α → EncSide → Run EncSide β} (hp : Meets P)
    (hf : NeverFlushes P) (hk : ∀ a, Meets (K a)) : Meets fun x => (P x).andThen (K · ·) := by
  intro x n a h
  have hm := hp x n a h
  show MeetsAt n a x ((P (openSide x)).andThen _) ((P x).andThen _)
  cases hr : P (openSide x) with
  | done b y₀ =>
    rw [hr] at hm
    obtain ⟨ho, h1, h2, h3, h4⟩ := hm
    obtain ⟨hf1, hf2⟩ := hf _ _ _ hr
    have hf1 : y₀.sink.flushes = x.sink.flushes := hf1
    have hlen := h1.length_le
    have hself := hk b y₀ 0 (some .ok) (openSide_stops ho)
    rw [ho] at hself
    rw [andThen_done]
    cases hz : K b y₀ with
    | done c z₀ =>
      rw [hz] at hself
      obtain ⟨hoz, k1, k2, _, _⟩ := hself
      have hlen' := k1.length_le
      have hc1 : callsMade x.sink y₀.sink = y₀.sink.received.length - x.sink.received.length := by
        unfold callsMade; omega
      have hsum : callsMade x.sink z₀.sink = callsMade x.sink y₀.sink + callsMade y₀.sink z₀.sink := by
        unfold callsMade; omega
      refine ⟨hoz, h1.trans k1, by omega, fun hn => ?_, fun hn => ?_⟩
      · obtain ⟨y, hy, hoy, hst⟩ := h3 (by omega)
        have hm2 := hk b y _ a hst
        rw [hoy, hz] at hm2
        have hrec : y.sink.received = y₀.sink.received := by rw [← hoy]; rfl
        have hfl : y.sink.flushes = y₀.sink.flushes := by rw [← hoy]; rfl
        have hcm : callsMade y.sink z₀.sink = callsMade y₀.sink z₀.sink := by unfold callsMade; rw [hrec, hfl]
        obtain ⟨_, _, _, h5, _⟩ := hm2
        obtain ⟨z, hz', hoz', hst'⟩ := h5 (by omega)
        refine ⟨z, by rw [hy]; exact hz', hoz', ?_⟩
        rwa [hcm, show n - callsMade x.sink y₀.sink - callsMade y₀.sink z₀.sink = n - callsMade x.sink z₀.sink by omega]
          at hst'
      · by_cases hcut : n < callsMade x.sink y₀.sink
        · exact (h4 hcut).longer k1 (by omega)
        · obtain ⟨y, hy, hoy, hst⟩ := h3 (by omega)
          have hm2 := hk b y _ a hst
          rw [hoy, hz] at hm2
          have hrec : y.sink.received = y₀.sink.received := by rw [← hoy]; rfl
          have hfl : y.sink.flushes = y₀.sink.flushes := by rw [← hoy]; rfl
          have hpo : y.sink.passedOn = y₀.sink.passedOn := by rw [← hoy]; rfl
          have hcm : callsMade y.sink z₀.sink = callsMade y₀.sink z₀.sink := by unfold callsMade; rw [hrec, hfl]
          obtain ⟨_, _, _, _, h6⟩ := hm2
          have hc := h6 (by omega)
          have hx : ∀ m, y.sink.received.length + (n - callsMade x.sink y₀.sink) + m = x.sink.received.length + n + m :=
            fun m => by rw [hrec]; omega
          unfold CutAt at hc ⊢
          rw [hy]
          match a, hc with
          | none, ⟨z, hz', hcz⟩ =>
            exact ⟨z, hz', by rw [hcz.received, hx], by rw [hcz.flushes, hfl, hf1], by rw [hcz.passedOn, hpo, hf2]; rfl⟩
          | some .ioError, ⟨z, hz', hcz⟩ =>
            exact ⟨z, hz', by rw [hcz.received, hx], by rw [hcz.flushes, hfl, hf1], by rw [hcz.passedOn, hpo, hf2]; rfl⟩
          | some .ok, _ => trivial
    | raised e y => rw [hz] at hself; exact hself.elim
    | waiting y => rw [hz] at hself; exact hself.elim
    | broken f => trivial
  | raised e y => rw [hr] at hm; exact hm.elim
  | waiting y => rw [hr] at hm; exact hm.elim
  | broken f => trivial

theorem meets_before {P : EncSide → Run EncSide α} (hp : Meets P) (g : EncSide → EncSide)
    (hg : ∀ x, openSide (g x) = g (openSide x)) (hs : ∀ x, (g x).sink = x.sink) : Meets fun x => P (g x) := by
  intro x n a h
  have := hp (g x) n a (by rw [hs]; exact h)
  rw [hg] at this
  unfold MeetsAt at this ⊢
  rwa [hs] at this

/-- A piece that reads something off the unit first. -/
theorem meets_reads {P : γ → EncSide → Run EncSide α} (g : EncSide → γ) (hg : ∀ x, g (openSide x) = g x)
    (hp : ∀ c, Meets (P c)) : Meets fun x => P (g x) x := fun x n a h => by
  simp only [hg]; exact hp (g x) x n a h

theorem meets_broken (f : Fault) : Meets fun _ => (.broken f : Run EncSide α) := fun _ _ _ _ => trivial

theorem meets_lift {c : EncSide → Except Fault γ} {K : γ → EncSide → Run EncSide α} (hc : ∀ x, c (openSide x) = c x)
    (hk : ∀ v, Meets (K v)) : Meets fun x => Run.lift (c x) fun v => K v x :=
  meets_reads (P := fun r x => Run.lift r fun v => K v x) c hc fun r => by
    cases r with
    | ok v => exact hk v
    | error f => exact meets_broken f

theorem meets_ite {c : EncSide → Prop} [DecidablePred c] {P Q : EncSide → Run EncSide α} (hc : ∀ x, c (openSide x) ↔ c x)
    (hp : Meets P) (hq : Meets Q) : Meets fun x => if c x then P x else Q x :=
  meets_reads (P := fun b x => if b = true then P x else Q x) (fun x => decide (c x)) (fun x => decide_eq_decide.mpr (hc x))
    (fun b => by cases b <;> simp [hp, hq]) |> fun h x n a hx => by simpa using h x n a hx

/-! #### The sink's calls -/

theorem sinkStops_now {k : Sink} {a : Option SinkAnswer} (h : SinkStopsAt k 0 a) : (sinkAnswer k).1 = a := by
  obtain ⟨rest, h⟩ | ⟨h, ht⟩ := h
  · unfold sinkAnswer; rw [h]; cases a <;> rfl
  · unfold sinkAnswer; rw [h]; exact ht

theorem sinkStops_later {k : Sink} {n : Nat} {a : Option SinkAnswer} (h : SinkStopsAt k (n + 1) a) :
    (sinkAnswer k).1 = some .ok ∧ ∀ k', k'.answers = (sinkAnswer k).2.answers → k'.thereafter = (sinkAnswer k).2.thereafter →
      SinkStopsAt k' n a := by
  obtain ⟨rest, h⟩ | ⟨h, ht⟩ := h
  · rw [List.replicate_succ, List.cons_append] at h
    unfold sinkAnswer; rw [h]
    exact ⟨rfl, fun k' h1 _ => .inl ⟨rest, h1⟩⟩
  · rw [List.replicate_succ] at h
    unfold sinkAnswer; rw [h]
    exact ⟨rfl, fun k' h1 h2 => .inr ⟨h1, h2.trans ht⟩⟩

theorem openFrom_sinkAnswer (k : Sink) : sinkAnswer (openFrom k) = (some .ok, openFrom k) := rfl

theorem sendByte_meets (v : Byte) : Meets (sendByte v) := by
  intro x n a h
  have h0 : sendByte v (openSide x) = .done () ⟨emptyWriter x.unit, takeByte v (openFrom x.sink)⟩ := rfl
  rw [h0]
  have hc : callsMade x.sink (takeByte v (openFrom x.sink)) = 1 := by simp [callsMade, takeByte, openFrom]
  obtain ⟨k1, k2, k3, _⟩ := sinkAnswer_keeps x.sink
  refine ⟨rfl, List.prefix_append _ _, le_refl _, fun hn => ?_, fun hn => ?_⟩
  · rw [hc] at hn ⊢
    obtain ⟨m, rfl⟩ : ∃ m, n = m + 1 := ⟨n - 1, by omega⟩
    obtain ⟨h1, h2⟩ := sinkStops_later h
    refine ⟨⟨emptyWriter x.unit, takeByte v (sinkAnswer x.sink).2⟩, ?_, ?_, h2 _ rfl rfl⟩
    · unfold sendByte sinkWrite
      rw [← Prod.mk.eta (p := sinkAnswer x.sink), h1]
    · simp [openSide, openFrom, takeByte, k1, k2, k3]
  · rw [hc] at hn
    obtain rfl : n = 0 := by omega
    have h1 := sinkStops_now h
    unfold CutAt sendByte sinkWrite
    rw [← Prod.mk.eta (p := sinkAnswer x.sink), h1]
    match a with
    | none => exact ⟨_, rfl, by simp [takeByte, openFrom, k1], k3, k2⟩
    | some .ioError => exact ⟨_, rfl, by simp [takeByte, openFrom, k1], k3, k2⟩
    | some .ok => trivial

theorem flushSink_meets : Meets flushSink := by
  intro x n a h
  have h0 : flushSink (openSide x) =
      .done () { x with sink := { openFrom x.sink with passedOn := x.sink.received.length, flushes := x.sink.flushes + 1 } } := rfl
  rw [h0]
  have hc : callsMade x.sink { openFrom x.sink with passedOn := x.sink.received.length, flushes := x.sink.flushes + 1 } = 1 := by
    simp [callsMade, openFrom]
  obtain ⟨k1, k2, k3, _⟩ := sinkAnswer_keeps x.sink
  refine ⟨rfl, List.prefix_refl _, Nat.le_succ _, fun hn => ?_, fun hn => ?_⟩
  · rw [hc] at hn ⊢
    obtain ⟨m, rfl⟩ : ∃ m, n = m + 1 := ⟨n - 1, by omega⟩
    obtain ⟨h1, h2⟩ := sinkStops_later h
    refine ⟨{ x with sink := { (sinkAnswer x.sink).2 with
      passedOn := (sinkAnswer x.sink).2.received.length, flushes := (sinkAnswer x.sink).2.flushes + 1 } }, ?_, ?_, h2 _ rfl rfl⟩
    · unfold flushSink sinkFlush
      rw [← Prod.mk.eta (p := sinkAnswer x.sink), h1]
    · simp [openSide, openFrom, k1, k3]
  · rw [hc] at hn
    obtain rfl : n = 0 := by omega
    have h1 := sinkStops_now h
    unfold CutAt flushSink sinkFlush
    rw [← Prod.mk.eta (p := sinkAnswer x.sink), h1]
    match a with
    | none => exact ⟨_, rfl, by simp [openFrom, k1], k3, k2⟩
    | some .ioError => exact ⟨_, rfl, by simp [openFrom, k1, List.take_of_length_le], k3, k2⟩
    | some .ok => trivial

/-! #### Pieces that never flush -/

theorem flushless_done (v : α) (g : EncSide → EncSide) (hs : ∀ x, (g x).sink = x.sink) :
    NeverFlushes fun x => .done v (g x) := by
  intro x w y h
  injection h with _ h
  rw [← h, hs]; exact ⟨rfl, rfl⟩

theorem flushless_andThen {P : EncSide → Run EncSide α} {K : α → EncSide → Run EncSide β} (hp : NeverFlushes P)
    (hk : ∀ a, NeverFlushes (K a)) : NeverFlushes fun x => (P x).andThen (K · ·) := by
  intro x v z h
  cases hr : P x with
  | done a y =>
    simp only [hr, andThen_done] at h
    obtain ⟨h1, h2⟩ := hp _ _ _ hr
    obtain ⟨h3, h4⟩ := hk _ _ _ _ h
    exact ⟨h3.trans h1, h4.trans h2⟩
  | raised e y => simp only [hr, andThen_raised] at h; cases h
  | waiting y => simp only [hr, andThen_waiting] at h; cases h
  | broken f => simp only [hr, andThen_broken] at h; cases h

theorem flushless_reads {P : γ → EncSide → Run EncSide α} (g : EncSide → γ) (hp : ∀ c, NeverFlushes (P c)) :
    NeverFlushes fun x => P (g x) x := fun x => hp (g x) x

theorem flushless_broken (f : Fault) : NeverFlushes fun _ => (.broken f : Run EncSide α) := fun _ _ _ h => by cases h

theorem flushless_lift {c : EncSide → Except Fault γ} {K : γ → EncSide → Run EncSide α} (hk : ∀ v, NeverFlushes (K v)) :
    NeverFlushes fun x => Run.lift (c x) fun v => K v x :=
  flushless_reads (P := fun r x => Run.lift r fun v => K v x) c fun r => by
    cases r with
    | ok v => exact hk v
    | error f => exact flushless_broken f

theorem flushless_before {P : EncSide → Run EncSide α} (hp : NeverFlushes P) (g : EncSide → EncSide)
    (hs : ∀ x, (g x).sink = x.sink) : NeverFlushes fun x => P (g x) := fun x v y h => by
  have := hp (g x) v y h
  rwa [hs] at this

theorem sendByte_flushless (v : Byte) : NeverFlushes (sendByte v) := by
  intro x w y h
  obtain ⟨k1, k2, k3, _⟩ := sinkAnswer_keeps x.sink
  unfold sendByte sinkWrite at h
  revert h
  rw [← Prod.mk.eta (p := sinkAnswer x.sink)]
  cases (sinkAnswer x.sink).1 with
  | none => intro h; cases h
  | some a =>
    cases a with
    | ok => intro h; injection h with _ h; rw [← h]; exact ⟨k3, k2⟩
    | ioError => intro h; cases h

theorem wbit_flushless (b : Bool) : NeverFlushes (wbit b) :=
  flushless_lift fun u => by
    intro x
    split
    · exact flushless_before (sendByte_flushless u.wbuf) (fun x => { x with unit := u }) (fun _ => rfl) x
    · exact flushless_done () (fun x => { x with unit := u }) (fun _ => rfl) x

theorem writeBits_flushless (v : Operand) : ∀ n, NeverFlushes (writeBits v n)
  | 0 => flushless_done () (fun x => x) fun _ => rfl
  | n + 1 => flushless_andThen (wbit_flushless _) fun _ => writeBits_flushless v n

theorem repeatBit_flushless (b : Bool) : ∀ n, NeverFlushes (repeatBit b n)
  | 0 => flushless_done () (fun x => x) fun _ => rfl
  | n + 1 => flushless_andThen (wbit_flushless b) fun _ => repeatBit_flushless b n

theorem emitWithPending_flushless (b : Bool) : NeverFlushes (emitWithPending b) :=
  flushless_andThen (wbit_flushless b) fun _ =>
    flushless_reads (P := fun n y => (repeatBit (!b) n y).andThen fun _ z =>
      .done () { z with unit := { z.unit with pending := 0 } }) (fun y => y.unit.pending) fun n =>
      flushless_andThen (repeatBit_flushless (!b) n) fun _ =>
        flushless_done () (fun z => { z with unit := { z.unit with pending := 0 } }) fun _ => rfl

theorem encShift_flushless (sh : Shift) : NeverFlushes (encShift sh) := by
  have bits : NeverFlushes (encShiftBits sh) := by
    cases sh with
    | e1 => exact emitWithPending_flushless false
    | e2 => exact emitWithPending_flushless true
    | e3 => exact flushless_done () (fun x => { x with unit := { x.unit with pending := x.unit.pending + 1 } }) fun _ => rfl
  exact flushless_andThen bits fun _ =>
    flushless_lift (c := fun y => shiftInterval sh (encInterval y.unit)) fun iv =>
      flushless_done () (fun y => { y with unit := setEncInterval y.unit iv }) fun _ => rfl

theorem encRenorm_flushless : ∀ n, NeverFlushes (encRenorm n)
  | 0 => flushless_reads (P := fun c x => match c with
      | none => Run.done () x
      | some _ => .broken .endlessShifts) (fun x => renormCase (encInterval x.unit)) fun c => by
        cases c with
        | none => exact flushless_done () (fun x => x) fun _ => rfl
        | some sh => exact flushless_broken _
  | n + 1 => flushless_reads (P := fun c x => match c with
      | none => Run.done () x
      | some sh => (encShift sh x).andThen fun _ y => encRenorm n y) (fun x => renormCase (encInterval x.unit)) fun c => by
        cases c with
        | none => exact flushless_done () (fun x => x) fun _ => rfl
        | some sh => exact flushless_andThen (encShift_flushless sh) fun _ => encRenorm_flushless n

/-! #### The writer and the encoder -/

theorem wbit_meets (b : Bool) : Meets (wbit b) :=
  meets_lift (c := fun x => pushBit b x.unit) (fun _ => rfl) fun u =>
    meets_ite (c := fun _ => u.wcount.toNat = 8) (fun _ => Iff.rfl)
      (meets_before (sendByte_meets u.wbuf) (fun x => { x with unit := u }) (fun _ => rfl) fun _ => rfl)
      (meets_done () (fun x => { x with unit := u }) (fun _ => rfl) fun _ => rfl)

theorem writeBits_meets (v : Operand) : ∀ n, Meets (writeBits v n)
  | 0 => meets_done () (fun x => x) (fun _ => rfl) fun _ => rfl
  | n + 1 => meets_andThen (wbit_meets _) (wbit_flushless _) fun _ => writeBits_meets v n

theorem repeatBit_meets (b : Bool) : ∀ n, Meets (repeatBit b n)
  | 0 => meets_done () (fun x => x) (fun _ => rfl) fun _ => rfl
  | n + 1 => meets_andThen (wbit_meets b) (wbit_flushless b) fun _ => repeatBit_meets b n

theorem writerFlush_meets : Meets writerFlush :=
  meets_ite (c := fun x => 0 < x.unit.wcount.toNat) (fun _ => Iff.rfl)
    (meets_lift (c := fun x => paddedByte x.unit) (fun _ => rfl) fun v =>
      meets_andThen (sendByte_meets v) (sendByte_flushless v) fun _ => flushSink_meets)
    flushSink_meets

theorem emitWithPending_meets (b : Bool) : Meets (emitWithPending b) :=
  meets_andThen (wbit_meets b) (wbit_flushless b) fun _ =>
    meets_reads (P := fun n y => (repeatBit (!b) n y).andThen fun _ z =>
      .done () { z with unit := { z.unit with pending := 0 } }) (fun y => y.unit.pending) (fun _ => rfl) fun n =>
      meets_result (repeatBit_meets (!b) n) (fun _ => ()) (fun z => { z with unit := { z.unit with pending := 0 } })
        (fun _ => rfl) fun _ => rfl

theorem encShift_meets (sh : Shift) : Meets (encShift sh) := by
  have after : Meets fun y : EncSide => Run.lift (shiftInterval sh (encInterval y.unit)) fun iv =>
      .done () { y with unit := setEncInterval y.unit iv } :=
    meets_lift (c := fun y => shiftInterval sh (encInterval y.unit)) (fun _ => rfl) fun iv =>
      meets_done () (fun y => { y with unit := setEncInterval y.unit iv }) (fun _ => rfl) fun _ => rfl
  cases sh with
  | e1 => exact meets_andThen (emitWithPending_meets false) (emitWithPending_flushless false) fun _ => after
  | e2 => exact meets_andThen (emitWithPending_meets true) (emitWithPending_flushless true) fun _ => after
  | e3 =>
    exact meets_andThen
      (meets_done () (fun x => { x with unit := { x.unit with pending := x.unit.pending + 1 } }) (fun _ => rfl) fun _ => rfl)
      (flushless_done () (fun x => { x with unit := { x.unit with pending := x.unit.pending + 1 } }) fun _ => rfl)
      fun _ => after

theorem encRenorm_meets : ∀ n, Meets (encRenorm n)
  | 0 => meets_reads (P := fun c x => match c with
      | none => Run.done () x
      | some _ => .broken .endlessShifts) (fun x => renormCase (encInterval x.unit)) (fun _ => rfl) fun c => by
        cases c with
        | none => exact meets_done () (fun x => x) (fun _ => rfl) fun _ => rfl
        | some sh => exact meets_broken _
  | n + 1 => meets_reads (P := fun c x => match c with
      | none => Run.done () x
      | some sh => (encShift sh x).andThen fun _ y => encRenorm n y) (fun x => renormCase (encInterval x.unit))
      (fun _ => rfl) fun c => by
        cases c with
        | none => exact meets_done () (fun x => x) (fun _ => rfl) fun _ => rfl
        | some sh => exact meets_andThen (encShift_meets sh) (encShift_flushless sh) fun _ => encRenorm_meets n

theorem encFinish_meets : Meets encFinish :=
  meets_reads (P := fun b x => (emitWithPending b (beginFlush x)).andThen fun _ y =>
      (writerFlush y).andThen fun _ z => .done () (setEncPhase .done z))
    (fun x => !decide (x.unit.low.toNat < Config.quarter)) (fun _ => rfl) fun b =>
    meets_andThen (meets_before (emitWithPending_meets b) beginFlush (fun _ => rfl) fun _ => rfl)
      (flushless_before (emitWithPending_flushless b) beginFlush fun _ => rfl) fun _ =>
        meets_result writerFlush_meets (fun _ => ()) (setEncPhase .done) (fun _ => rfl) fun _ => rfl

theorem encodeSymbol_meets (sym : Nat) : Meets (encodeSymbol sym) :=
  meets_lift (c := fun x => encNarrow sym x.unit) (fun _ => rfl) fun u =>
    meets_andThen
      (meets_before (encRenorm_meets Config.shiftFuel) (fun x => { x with unit := u }) (fun _ => rfl) fun _ => rfl)
      (flushless_before (encRenorm_flushless Config.shiftFuel) (fun x => { x with unit := u }) fun _ => rfl) fun _ =>
        meets_ite (c := fun _ => sym = Config.eofSymbol) (fun _ => Iff.rfl) encFinish_meets
          (meets_done () (fun x => x) (fun _ => rfl) fun _ => rfl)

theorem onEncTable_meets (f : Table → Except Fault (Operand × Table)) : Meets (onEncTable f) :=
  meets_lift (c := fun x => f x.unit.freqs) (fun _ => rfl) fun r =>
    meets_done r.1 (fun x => { x with unit := { x.unit with freqs := r.2 } }) (fun _ => rfl) fun _ => rfl

/-! #### Commands -/

/-- How an ENC command ends that is cut at call number `n`, answered `a`; `whole` is what the sink would hold. -/
def CutCommand (i : Instr) (n : Nat) (a : Option SinkAnswer) (s : State) (whole : List Byte) : Prop :=
  match a with
  | none => ∃ y : EncSide, exec i s = .next { withEncSide s y with waiting := some (.onSink i (promptSink (encSide s))) } ∧
      CutSink n 0 s.sink whole y.sink
  | some .ioError => ∃ y : EncSide, exec i s = .next (failEnc .ioError y.sink s) ∧ CutSink n 1 s.sink whole y.sink
  | some .ok => True

theorem checkedEnc_cut {i : Instr} {s t₀ : State} {ok : Bool} {n : Nat} {a : Option SinkAnswer}
    {P : EncSide → Run EncSide Operand} (hp : Meets P)
    (h : ∀ k, exec i { s with sink := k } =
      checked s.enc.phase ok { s with sink := k } (endEnc i { s with sink := k } (P ⟨s.enc, k⟩)))
    (h₀ : exec i { s with sink := openFrom s.sink } = .next t₀) (hn : n < callsMade s.sink t₀.sink)
    (hs : SinkStopsAt s.sink n a) : CutCommand i n a s t₀.sink.received := by
  have hm := hp (encSide s) n a hs
  have h1 : exec i s = _ := h s.sink
  rw [h] at h₀
  have hopen : callsMade s.sink (openFrom s.sink) = 0 := by simp [callsMade, openFrom]
  obtain ⟨hph, rfl⟩ | ⟨hph, rfl, rfl⟩ | ⟨hph, rfl, hr⟩ := checked_next h₀
  · simp [hopen] at hn
  · simp [hopen] at hn
  · rw [hph, checked_active] at h1
    change MeetsAt n a (encSide s) (P ⟨s.enc, openFrom s.sink⟩) (P ⟨s.enc, s.sink⟩) at hm
    obtain ⟨v, x, hd, rfl⟩ | ⟨e, x, hd, rfl⟩ | ⟨x, hd, rfl⟩ := endEnc_next hr
    · rw [hd] at hm
      have hc := hm.2.2.2.2 hn
      unfold CutAt at hc
      unfold CutCommand
      match a, hc with
      | none, ⟨y, hy, hcut⟩ => rw [hy] at h1; exact ⟨y, h1, hcut⟩
      | some .ioError, ⟨y, hy, hcut⟩ => rw [hy] at h1; exact ⟨y, h1, hcut⟩
      | some .ok, _ => trivial
    · rw [hd] at hm; exact hm.elim
    · rw [hd] at hm; exact hm.elim

/-- Said once for every ENC command: what it does on a sink that stops at one of its calls (R232, R248). -/
theorem exec_sink_stops {i : Instr} {s t₀ : State} {n : Nat} {a : Option SinkAnswer} (hi : isEncCommand i = true)
    (h₀ : exec i { s with sink := openFrom s.sink } = .next t₀) (hn : n < callsMade s.sink t₀.sink)
    (hs : SinkStopsAt s.sink n a) : CutCommand i n a s t₀.sink.received := by
  have hopen : callsMade s.sink (openFrom s.sink) = 0 := by simp [callsMade, openFrom]
  cases i with
  | encInit => injection h₀ with h₀; rw [← h₀] at hn; simp [hopen] at hn
  | encPreload sym =>
    exact checkedEnc_cut (ok := symbolInRange sym) (onEncTable_meets (preloadTable sym s.din.toNat)) (fun _ => rfl) h₀ hn hs
  | encCode sym =>
    exact checkedEnc_cut (meets_result (encodeSymbol_meets sym) (fun _ => 0) (fun x => x) (fun _ => rfl) fun _ => rfl)
      (fun _ => rfl) h₀ hn hs
  | encProb sym => exact checkedEnc_cut (onEncTable_meets _) (fun _ => rfl) h₀ hn hs
  | encSymfor =>
    exact checkedEnc_cut (ok := scaledInRange s.enc.freqs s.din) (onEncTable_meets (symforTable s.din.toNat)) (fun _ => rfl)
      h₀ hn hs
  | encUpdate sym => exact checkedEnc_cut (onEncTable_meets _) (fun _ => rfl) h₀ hn hs
  | encRescale => exact checkedEnc_cut (onEncTable_meets _) (fun _ => rfl) h₀ hn hs
  | encBits m =>
    exact checkedEnc_cut (meets_result (writeBits_meets s.din m) (fun _ => 0) (fun x => x) (fun _ => rfl) fun _ => rfl)
      (fun _ => rfl) h₀ hn hs
  | encBflush =>
    exact checkedEnc_cut (meets_result writerFlush_meets (fun _ => 0) (fun x => x) (fun _ => rfl) fun _ => rfl)
      (fun _ => rfl) h₀ hn hs
  | encRdstate sel =>
    injection h₀ with h₀
    have hk : t₀.sink = openFrom s.sink := by
      obtain ha | ⟨d, ha⟩ | ⟨d, ha⟩ :=
        answerRead_cases s.enc.phase sel (encRegister s.enc sel) { s with sink := openFrom s.sink } <;>
      · exact congrArg State.sink (h₀.symm.trans ha)
    rw [hk, hopen] at hn
    exact absurd hn (Nat.not_lt_zero _)
  | decInit => cases hi
  | decPreload sym => cases hi
  | decCode => cases hi
  | decProb sym => cases hi
  | decSymfor => cases hi
  | decUpdate sym => cases hi
  | decRescale => cases hi
  | decBits m => cases hi
  | decRdstate sel => cases hi

/-! ### DEC -/

/-- The bits that the reader has buffered or that `bytes` hold. -/
def knownBits (u : DecUnit) (bytes : List Byte) : List Bool :=
  msbBits u.rbuf.toNat u.rcount.toNat ++ bytes.flatMap byteBits

/-- The run `r` is cut at a read that the source answered `a`, the bytes `whole` taken. -/
def CutRead (a : Option SourceAnswer) (whole : List Byte) (r : Run DecSide α) : Prop :=
  match a with
  | none => ∃ y, r = .waiting y ∧ y.source.taken = whole
  | some .ioError => ∃ y, r = .raised .ioError y ∧ y.source.taken = whole
  | some (.byte _) => True
  | some .endOfData => True

theorem CutRead.andThen {a : Option SourceAnswer} {whole : List Byte} {r : Run DecSide α} (h : CutRead a whole r)
    (K : α → DecSide → Run DecSide β) : CutRead a whole (r.andThen K) := by
  unfold CutRead at *
  match a, h with
  | none, ⟨y, hr, hy⟩ => exact ⟨y, by rw [hr]; rfl, hy⟩
  | some .ioError, ⟨y, hr, hy⟩ => exact ⟨y, by rw [hr]; rfl, hy⟩
  | some (.byte _), _ => trivial
  | some .endOfData, _ => trivial

/-- The reader's side `y` has read the bits `bits` since `x`, on a source that stops after the bytes that are left, `bytes`
at `x` and `bytes'` at `y`, with answer `a`. -/
structure ReadOn (a : Option SourceAnswer) (x y : DecSide) (bytes bytes' : List Byte) (bits : List Bool) : Prop where
  source : SourceStopsAt y.source bytes' a
  srcEnd : y.unit.srcEnd = false
  known : knownBits x.unit bytes = bits ++ knownBits y.unit bytes'
  unit : y.unit = { x.unit with rbuf := y.unit.rbuf, rcount := y.unit.rcount, padUsed := y.unit.padUsed,
                                srcEnd := y.unit.srcEnd }
  taken : x.source.taken ++ bytes = y.source.taken ++ bytes'

theorem sourceStops_now {src : Source} {a : Option SourceAnswer} (h : SourceStopsAt src [] a) :
    (sourceAnswer src).1 = a := by
  obtain ⟨rest, h⟩ | ⟨h, ht⟩ := h
  · unfold sourceAnswer; rw [h]; cases a <;> rfl
  · unfold sourceAnswer; rw [h]; exact ht

theorem sourceStops_later {src : Source} {b : Byte} {bytes : List Byte} {a : Option SourceAnswer}
    (h : SourceStopsAt src (b :: bytes) a) : (sourceAnswer src).1 = some (.byte b) ∧
      ∀ src', src'.answers = (sourceAnswer src).2.answers → src'.thereafter = (sourceAnswer src).2.thereafter →
        SourceStopsAt src' bytes a := by
  obtain ⟨rest, h⟩ | ⟨h, ht⟩ := h
  · rw [List.map_cons, List.cons_append] at h
    unfold sourceAnswer; rw [h]
    exact ⟨rfl, fun src' h1 _ => .inl ⟨rest, h1⟩⟩
  · rw [List.map_cons] at h
    unfold sourceAnswer; rw [h]
    exact ⟨rfl, fun src' h1 h2 => .inr ⟨h1, h2.trans ht⟩⟩

/-- RBit takes the next buffered bit, most significant first (R103). -/
theorem rbit_buffered {x : DecSide} (hc : 0 < x.unit.rcount.toNat) :
    rbit x = .done (x.unit.rbuf.getLsbD (x.unit.rcount.toNat - 1))
      { x with unit := { x.unit with rcount := x.unit.rcount - 1 } } ∧
    msbBits x.unit.rbuf.toNat x.unit.rcount.toNat = x.unit.rbuf.getLsbD (x.unit.rcount.toNat - 1) ::
      msbBits x.unit.rbuf.toNat (x.unit.rcount - 1).toNat := by
  have hlt := x.unit.rcount.isLt
  have hne : ¬ (x.unit.rcount = 0 ∧ x.unit.srcEnd = false) := by
    rintro ⟨h, _⟩
    rw [h] at hc
    exact absurd hc (by decide)
  have hsub : (x.unit.rcount - 1).toNat = x.unit.rcount.toNat - 1 := by
    rw [BitVec.toNat_sub]
    have h1 : (1 : BitCount).toNat = 1 := rfl
    rw [h1]
    omega
  obtain ⟨n, hn⟩ : ∃ n, x.unit.rcount.toNat = n + 1 := ⟨x.unit.rcount.toNat - 1, by omega⟩
  exact ⟨by rw [rbit, fillReader, if_neg hne, andThen_done, takeBit, if_pos hc], by rw [hsub, hn]; rfl⟩

/-- RBit on a source that stops: the next known bit, or cut if there is none (R103, R232, R248). -/
theorem rbit_known {a : Option SourceAnswer} {x : DecSide} {bytes : List Byte} (hs : SourceStopsAt x.source bytes a)
    (he : x.unit.srcEnd = false) :
    match knownBits x.unit bytes with
    | [] => CutRead a (x.source.taken ++ bytes) (rbit x)
    | b :: _ => ∃ y bytes', rbit x = .done b y ∧ ReadOn a x y bytes bytes' [b] := by
  by_cases hc : 0 < x.unit.rcount.toNat
  · obtain ⟨h1, h2⟩ := rbit_buffered hc
    rw [knownBits, h2, List.cons_append]
    exact ⟨_, bytes, h1, hs, he, by rw [knownBits, h2]; rfl, rfl, rfl⟩
  · have hz : x.unit.rcount.toNat = 0 := by omega
    have hz' : x.unit.rcount = 0 := BitVec.eq_of_toNat_eq (by simpa using hz)
    obtain ⟨k1, _⟩ := sourceAnswer_keeps x.source
    cases bytes with
    | nil =>
      rw [knownBits, hz]
      have h1 := sourceStops_now hs
      have hr : ∀ o src, sourceAnswer x.source = (o, src) → src.taken = x.source.taken := fun o src h => by
        rw [h] at k1; exact k1
      show CutRead a _ (rbit x)
      rw [List.append_nil]
      unfold CutRead rbit fillReader sourceRead
      rw [if_pos ⟨hz', he⟩, ← Prod.mk.eta (p := sourceAnswer x.source), h1]
      match a with
      | none => exact ⟨_, rfl, k1⟩
      | some .ioError => exact ⟨_, rfl, k1⟩
      | some (.byte _) => trivial
      | some .endOfData => trivial
    | cons b0 bs =>
      obtain ⟨h1, h2⟩ := sourceStops_later hs
      let x' : DecSide :=
        ⟨{ x.unit with rbuf := b0, rcount := 8 },
          { (sourceAnswer x.source).2 with taken := (sourceAnswer x.source).2.taken ++ [b0] }⟩
      have hx : rbit x = rbit x' := by
        have hn : ¬ (x'.unit.rcount = 0 ∧ x'.unit.srcEnd = false) := by simp [x']
        rw [rbit, rbit, fillReader, fillReader, if_pos ⟨hz', he⟩, if_neg hn]
        unfold sourceRead
        rw [← Prod.mk.eta (p := sourceAnswer x.source), h1]
      have h8 : (8 : BitCount).toNat = 8 := rfl
      obtain ⟨h3, h4⟩ := rbit_buffered (x := x') (show 0 < (8 : BitCount).toNat by decide)
      have hk : knownBits x.unit (b0 :: bs) = knownBits x'.unit bs := by
        simp [knownBits, x', hz, msbBits, byteBits]
      rw [hk, knownBits, h4, List.cons_append]
      refine ⟨_, bs, hx.trans h3, h2 _ rfl rfl, he, ?_, rfl, ?_⟩
      · rw [hk, knownBits, h4]; rfl
      · show _ = ((sourceAnswer x.source).2.taken ++ [b0]) ++ bs
        rw [k1]; simp

/-- ReadBits that asks for more bits than are known is cut (R104). -/
theorem readBitsFrom_cut {a : Option SourceAnswer} : ∀ (n v : Nat) {x : DecSide} {bytes : List Byte},
    SourceStopsAt x.source bytes a → x.unit.srcEnd = false → (knownBits x.unit bytes).length < n →
      CutRead a (x.source.taken ++ bytes) (readBitsFrom n v x)
  | 0, _, _, _, _, _, h => absurd h (Nat.not_lt_zero _)
  | n + 1, v, x, bytes, hs, he, h => by
    have hr := rbit_known hs he
    cases hk : knownBits x.unit bytes with
    | nil => rw [hk] at hr; exact hr.andThen _
    | cons b rest =>
      rw [hk] at hr h
      obtain ⟨y, bytes', hy, hon⟩ := hr
      have hrest : knownBits y.unit bytes' = rest := by
        have := hon.known
        rw [hk] at this
        simpa using this.symm
      rw [readBitsFrom, hy, andThen_done, hon.taken]
      exact readBitsFrom_cut n _ hon.source hon.srcEnd (by rw [hrest]; simpa using h)

/-- `dec.init` on a source that stops before its fourth byte. -/
theorem primeValue_cut {a : Option SourceAnswer} {x : DecSide} {bytes : List Byte} (hs : SourceStopsAt x.source bytes a)
    (h : bytes.length < 4) : CutRead a (x.source.taken ++ bytes) (primeValue ⟨startDec x.unit, x.source⟩) := by
  refine (readBitsFrom_cut Config.codeWidth 0 (x := ⟨startDec x.unit, x.source⟩) hs rfl ?_).andThen _
  have hl : ∀ l : List Byte, (l.flatMap byteBits).length = 8 * l.length := fun l => by
    induction l with
    | nil => rfl
    | cons b bs ih => rw [List.flatMap_cons, List.length_append, ih, List.length_cons]; simp [byteBits, msbBits]; omega
  have h0 : (knownBits (startDec x.unit) bytes).length = 8 * bytes.length := by
    rw [knownBits, List.length_append, hl]; simp [startDec, readerReset, msbBits]
  rw [h0, show Config.codeWidth = 32 from rfl]; omega

/-- DecRenorm whose shifts need more bits than are known is cut (R205). -/
theorem decRenorm_cut {a : Option SourceAnswer} : ∀ (n m : Nat) {y : DecSide} {bytes : List Byte},
    SourceStopsAt y.source bytes a → y.unit.srcEnd = false → y.unit.low.toNat ≤ y.unit.high.toNat → ValueOk y.unit → n ≤ m →
      windowRenorm n (knownWindow y.unit bytes) = none → CutRead a (y.source.taken ++ bytes) (decRenorm m y) := by
  intro n
  induction n with
  | zero => intro m y bytes _ _ _ _ _ h; cases h
  | succ n ih =>
    intro m y bytes hs he hle hv hm h
    obtain ⟨m', rfl⟩ : ∃ m', m = m' + 1 := ⟨m - 1, by omega⟩
    have hcase : renormCase (decInterval y.unit) = bitCase y.unit.low.toNat y.unit.high.toNat := renormCase_eq_bitCase _
    unfold windowRenorm at h
    rw [show bitCase (knownWindow y.unit bytes).low (knownWindow y.unit bytes).high = renormCase (decInterval y.unit) from
      hcase.symm] at h
    cases hc : renormCase (decInterval y.unit) with
    | none => rw [hc] at h; cases h
    | some sh =>
      rw [hc] at h
      obtain ⟨iv', hsh, h1, h2, h3, h4⟩ := shift_ok (iv := decInterval y.unit) hle hc
      obtain ⟨c1, c2, _⟩ := case_bounds (iv := decInterval y.unit) hle hc
      simp only [decInterval_low, decInterval_high] at h1 h2 c1 c2
      let y1 : DecSide := { y with unit := setDecInterval y.unit iv' }
      have hr := rbit_known (x := y1) (a := a) (bytes := bytes) hs he
      have hk : knownBits y1.unit bytes = (knownWindow y.unit bytes).bits := rfl
      have hstep : decShift sh y = (rbit y1).andThen fun b z =>
          Run.lift (shiftCode sh z.unit.value b.toNat) fun v => .done () (setValue v z) := by
        simp only [decShift, hsh, lift_ok]; rfl
      have hren : decRenorm (m' + 1) y = (decShift sh y).andThen fun _ z => decRenorm m' z := by simp [decRenorm, hc]
      rw [hren, hstep]
      cases hb : (knownWindow y.unit bytes).bits with
      | nil => rw [hk, hb] at hr; exact (hr.andThen _).andThen _
      | cons b rest =>
        rw [hk, hb] at hr
        rw [hb] at h
        obtain ⟨z, bytes', hz, hon⟩ := hr
        have hzval : z.unit.value = y.unit.value := (congrArg DecUnit.value hon.unit).trans rfl
        have hzlow : z.unit.low = iv'.low := (congrArg DecUnit.low hon.unit).trans rfl
        have hzhigh : z.unit.high = iv'.high := (congrArg DecUnit.high hon.unit).trans rfl
        have hbit := Bool.toNat_lt b
        have hv1 := hv.fromLow
        have hv2 := hv.toHigh
        obtain ⟨v', hv', hvn⟩ := shiftCode_ok (sh := sh) (v := z.unit.value) (bit := b.toNat)
          (by rw [hzval]; omega) (by rw [hzval]; omega)
        have hrest : knownBits z.unit bytes' = rest := by
          have := hon.known
          rw [hk, hb] at this
          simpa using this.symm
        rw [hz, andThen_done, hv', lift_ok, andThen_done, show y.source.taken ++ bytes = z.source.taken ++ bytes' from
          hon.taken]
        refine ih m' (y := setValue v' z) (bytes := bytes') hon.source hon.srcEnd ?_ ⟨?_, ?_⟩ (by omega) ?_
        · show z.unit.low.toNat ≤ z.unit.high.toNat
          rw [hzlow, hzhigh]; exact h3
        · show z.unit.low.toNat ≤ v'.toNat
          rw [hzlow, hvn, hzval]; omega
        · show v'.toNat ≤ z.unit.high.toNat
          rw [hzhigh, hvn, hzval]; omega
        · have hw : knownWindow (setValue v' z).unit bytes' =
              ⟨2 * ((knownWindow y.unit bytes).low - shiftOffset sh), 2 * ((knownWindow y.unit bytes).high - shiftOffset sh) + 1,
                2 * ((knownWindow y.unit bytes).value - shiftOffset sh) + b.toNat, rest⟩ := by
            show (⟨z.unit.low.toNat, z.unit.high.toNat, v'.toNat, knownBits z.unit bytes'⟩ : Window) = _
            rw [hrest, hzlow, hzhigh, hvn, hzval, h1, h2]; rfl
          rw [hw]; exact h

/-- How a DEC command ends that is cut at a read answered `a`. -/
def CutDecCommand (i : Instr) (a : Option SourceAnswer) (s : State) (whole : List Byte) : Prop :=
  match a with
  | none => ∃ y : DecSide, exec i s = .next { withDecSide s y with waiting := some (.onSource i (promptSource (decSide s))) } ∧
      y.source.taken = whole
  | some .ioError => ∃ y : DecSide, exec i s = .next (failDec .ioError y.source s) ∧ y.source.taken = whole
  | some (.byte _) => True
  | some .endOfData => True

/-- A DEC command whose body is cut is cut (R232, R248). -/
theorem exec_source_stops {i : Instr} {s : State} {a : Option SourceAnswer} {whole : List Byte} {r : Run DecSide Operand}
    (h : exec i s = endDec i s r) (hr : CutRead a whole r) : CutDecCommand i a s whole := by
  unfold CutRead at hr
  unfold CutDecCommand
  match a, hr with
  | none, ⟨y, hy, ht⟩ => exact ⟨y, by rw [h, hy]; rfl, ht⟩
  | some .ioError, ⟨y, hy, ht⟩ => exact ⟨y, by rw [h, hy]; rfl, ht⟩
  | some (.byte _), _ => trivial
  | some .endOfData, _ => trivial

end Sys2Proof.Machine
end

