-- ==== Sys2Proof/Laws/Late.lean ====
section
/-! SUPPORT. A late device (60_exceptions.md R248): a command that completes does the same with the first delay gone, and a
command that waits, run again with that delay over, passes the point where it waited and takes nothing back (log 7). -/
namespace Sys2Proof.Machine

variable {σ α β : Type}

/-- Which side of the machine a law is about: what it means that a delay is over, and that a stream keeps what it holds. -/
structure Lateness (σ : Type) where
  prompt : σ → σ
  Keeps : σ → σ → Prop
  refl : ∀ x, Keeps x x
  trans : ∀ {x y z}, Keeps x y → Keeps y z → Keeps x z

/-- A way to take delays out of a device's coming answers. -/
structure Dropper where
  drop : {α : Type} → List (Turn α) → List (Turn α)
  nil : ∀ {α : Type}, drop ([] : List (Turn α)) = []
  answer : ∀ {α : Type} (a : α) (rest : List (Turn α)), drop (.answer a :: rest) = .answer a :: drop rest

/-- Take out the first delay. -/
def dropFirst : Dropper := ⟨dropLate, rfl, fun _ _ => rfl⟩

/-- Take out every delay. -/
def dropAll : Dropper := ⟨fun l => (answersOf l).map .answer, rfl, fun _ _ => rfl⟩

/-- ENC's side with delays of the sink taken out. -/
def calmSink (d : Dropper) (x : EncSide) : EncSide := { x with sink := { x.sink with answers := d.drop x.sink.answers } }

/-- DEC's side with delays of the source taken out. -/
def calmSource (d : Dropper) (x : DecSide) : DecSide :=
  { x with source := { x.source with answers := d.drop x.source.answers } }

/-- ENC and its sink. -/
def encLate (d : Dropper) : Lateness EncSide where
  prompt := calmSink d
  Keeps := SinkKeeps
  refl _ := List.prefix_refl _
  trans h k := List.IsPrefix.trans h k

/-- DEC and its source. -/
def decLate (d : Dropper) : Lateness DecSide where
  prompt := calmSource d
  Keeps := SourceKeeps
  refl _ := List.prefix_refl _
  trans h k := List.IsPrefix.trans h k

variable {d : Dropper}

/-- From `x` on, the outcome `r` at `x` and the outcome `r'` with the first delay over belong together. -/
def Together (L : Lateness σ) (r r' : Run σ α) : Prop :=
  match r with
  | .done a y => r' = .done a (L.prompt y)
  | .raised e y => r' = .raised e (L.prompt y)
  | .waiting y => Stops (L.Keeps y) (fun _ => True) r'
  | .broken f => r' = .broken f

/-- A piece of pseudocode that keeps its stream and does not mind a delay. -/
structure Coheres (L : Lateness σ) (P : σ → Run σ α) : Prop where
  together : ∀ x, Together L (P x) (P (L.prompt x))
  keeps : ∀ x, Stops (L.Keeps x) (fun _ => True) (P x)

theorem stops_any {P : σ → Prop} {E : Status → Prop} {r : Run σ α} (h : Stops P E r) : Stops P (fun _ => True) r := by
  cases r with
  | done a x => exact h
  | raised e x => exact ⟨trivial, h.2⟩
  | waiting x => exact h
  | broken f => trivial

theorem coheres_done {L : Lateness σ} (a : α) : Coheres L fun x => .done a x :=
  ⟨fun _ => rfl, fun x => L.refl x⟩

theorem coheres_andThen {L : Lateness σ} {P : σ → Run σ α} {K : α → σ → Run σ β} (hp : Coheres L P)
    (hk : ∀ a, Coheres L (K a)) : Coheres L fun x => (P x).andThen (K · ·) := by
  have keeps : ∀ x, Stops (L.Keeps x) (fun _ => True) ((P x).andThen fun a y => K a y) := fun x =>
    stops_andThen (hp.keeps x) fun a y hy => stops_mono ((hk a).keeps y) fun _ hz => L.trans hy hz
  refine ⟨fun x => ?_, keeps⟩
  have h := hp.together x
  cases hr : P x with
  | done a y =>
    rw [hr] at h
    simp only [Together] at h
    rw [h, andThen_done, andThen_done]
    exact (hk a).together y
  | raised e y => rw [hr] at h; simp only [Together] at h; rw [h]; rfl
  | waiting y =>
    rw [hr] at h
    simp only [Together] at h
    exact stops_andThen h fun a z hz => stops_mono ((hk a).keeps z) fun _ hw => L.trans hz hw
  | broken f => rw [hr] at h; simp only [Together] at h; rw [h]; rfl

/-- What is done before `P` changes neither the stream nor its answers. -/
theorem coheres_before {L : Lateness σ} {P : σ → Run σ α} (g : σ → σ) (hg : ∀ x, g (L.prompt x) = L.prompt (g x))
    (hx : ∀ x y, L.Keeps (g x) y → L.Keeps x y) (hp : Coheres L P) : Coheres L fun x => P (g x) :=
  ⟨fun x => by simp only [hg]; exact hp.together (g x), fun x => stops_mono (hp.keeps (g x)) (hx x)⟩

theorem coheres_lift {L : Lateness σ} {c : σ → Except Fault γ} {K : γ → σ → Run σ α} (hc : ∀ x, c (L.prompt x) = c x)
    (hk : ∀ a, Coheres L (K a)) : Coheres L fun x => Run.lift (c x) fun a => K a x := by
  refine ⟨fun x => ?_, fun x => ?_⟩
  · simp only [hc]
    cases c x with
    | ok a => exact (hk a).together x
    | error f => rfl
  · cases c x with
    | ok a => exact (hk a).keeps x
    | error f => trivial

/-- A choice that the stream has no part in. -/
theorem coheres_ite {L : Lateness σ} {c : σ → Prop} [DecidablePred c] {P Q : σ → Run σ α}
    (hc : ∀ x, c (L.prompt x) ↔ c x) (hp : Coheres L P) (hq : Coheres L Q) :
    Coheres L fun x => if c x then P x else Q x := by
  refine ⟨fun x => ?_, fun x => ?_⟩
  · by_cases h : c x
    · simp only [if_pos h, if_pos ((hc x).mpr h)]; exact hp.together x
    · simp only [if_neg h, if_neg (fun k => h ((hc x).mp k))]; exact hq.together x
  · by_cases h : c x
    · simp only [if_pos h]; exact hp.keeps x
    · simp only [if_neg h]; exact hq.keeps x

/-- A piece that reads a number off the unit first. -/
theorem coheres_reads {L : Lateness σ} {γ : Type} {P : γ → σ → Run σ α} (g : σ → γ) (hg : ∀ x, g (L.prompt x) = g x)
    (hp : ∀ c, Coheres L (P c)) : Coheres L fun x => P (g x) x :=
  ⟨fun x => by simp only [hg]; exact (hp (g x)).together x, fun x => (hp (g x)).keeps x⟩

/-- A piece that ends by writing the unit. -/
theorem coheres_writes {L : Lateness σ} (g : σ → σ) (hg : ∀ x, g (L.prompt x) = L.prompt (g x))
    (hx : ∀ x, L.Keeps x (g x)) (a : α) : Coheres L fun x => .done a (g x) :=
  ⟨fun x => by simp only [hg]; rfl, fun x => hx x⟩

/-! ### The devices -/

/-- A device's answer with delays taken out: the same, or, where it was late, some answer. -/
theorem sinkAnswer_prompt (d : Dropper) (k : Sink) : ∀ a, (sinkAnswer k).1 = some a →
    sinkAnswer { k with answers := d.drop k.answers } =
      (some a, { (sinkAnswer k).2 with answers := d.drop (sinkAnswer k).2.answers }) := by
  intro a h
  unfold sinkAnswer at h ⊢
  cases hk : k.answers with
  | nil => rw [hk] at h; simp only at h; simp only [d.nil, h, hk]
  | cons u rest =>
    rw [hk] at h
    cases u with
    | answer b => simp only [Option.some.injEq] at h; subst h; simp only [d.answer]
    | late => simp at h

theorem sourceAnswer_prompt (d : Dropper) (k : Source) : ∀ a, (sourceAnswer k).1 = some a →
    sourceAnswer { k with answers := d.drop k.answers } =
      (some a, { (sourceAnswer k).2 with answers := d.drop (sourceAnswer k).2.answers }) := by
  intro a h
  unfold sourceAnswer at h ⊢
  cases hk : k.answers with
  | nil => rw [hk] at h; simp only at h; simp only [d.nil, h, hk]
  | cons u rest =>
    rw [hk] at h
    cases u with
    | answer b => simp only [Option.some.injEq] at h; subst h; simp only [d.answer]
    | late => simp at h

theorem sendByte_coheres (v : Byte) : Coheres (encLate d) (sendByte v) := by
  have keeps : ∀ x, Stops ((encLate d).Keeps x) (fun _ => True) (sendByte v x) := fun x =>
    stops_any (stops_mono (sendByte_stops v x) fun _ h => h.2)
  refine ⟨fun x => ?_, keeps⟩
  have hp := sinkAnswer_prompt d x.sink
  have hk := (sinkAnswer_keeps x.sink).1
  cases ha : sinkAnswer x.sink with
  | mk a k =>
    rw [ha] at hp hk
    cases a with
    | none =>
      have h1 : sendByte v x = .waiting { x with sink := k } := by simp only [sendByte, sinkWrite, ha]
      rw [h1]
      refine stops_mono (keeps (calmSink d x)) fun y hy => ?_
      show k.received <+: y.sink.received
      rw [show k.received = x.sink.received from hk]
      exact hy
    | some a =>
      have h2 := hp a rfl
      simp only at h2
      cases a with
      | ok => simp only [Together, sendByte, sinkWrite, ha, encLate, calmSink, h2, takeByte]
      | ioError => simp only [Together, sendByte, sinkWrite, ha, encLate, calmSink, h2, takeByte]

theorem flushSink_coheres : Coheres (encLate d) flushSink := by
  have keeps : ∀ x, Stops ((encLate d).Keeps x) (fun _ => True) (flushSink x) := fun x =>
    stops_any (stops_mono (flushSink_stops x) fun _ h => h.2)
  refine ⟨fun x => ?_, keeps⟩
  have hp := sinkAnswer_prompt d x.sink
  have hk := (sinkAnswer_keeps x.sink).1
  cases ha : sinkAnswer x.sink with
  | mk a k =>
    rw [ha] at hp hk
    cases a with
    | none =>
      have h1 : flushSink x = .waiting { x with sink := k } := by simp only [flushSink, sinkFlush, ha]
      rw [h1]
      refine stops_mono (keeps (calmSink d x)) fun y hy => ?_
      show k.received <+: y.sink.received
      rw [show k.received = x.sink.received from hk]
      exact hy
    | some a =>
      have h2 := hp a rfl
      simp only at h2
      cases a with
      | ok => simp only [Together, flushSink, sinkFlush, ha, encLate, calmSink, h2]
      | ioError => simp only [Together, flushSink, sinkFlush, ha, encLate, calmSink, h2]

theorem fillReader_coheres : Coheres (decLate d) fillReader := by
  have keeps : ∀ x, Stops ((decLate d).Keeps x) (fun _ => True) (fillReader x) := fun x =>
    stops_any (stops_mono (fillReader_stops x) fun _ h => h.2)
  refine ⟨fun x => ?_, keeps⟩
  by_cases hc : x.unit.rcount = 0 ∧ x.unit.srcEnd = false
  · have hp := sourceAnswer_prompt d x.source
    have hk := (sourceAnswer_keeps x.source).1
    cases ha : sourceAnswer x.source with
    | mk a k =>
      rw [ha] at hp hk
      cases a with
      | none =>
        have h1 : fillReader x = .waiting { x with source := k } := by
          simp only [fillReader, if_pos hc, sourceRead, ha]
        rw [h1]
        refine stops_mono (keeps (calmSource d x)) fun y hy => ?_
        show k.taken <+: y.source.taken
        rw [show k.taken = x.source.taken from hk]
        exact hy
      | some a =>
        have h2 := hp a rfl
        simp only at h2
        cases a <;> simp only [Together, fillReader, if_pos hc, sourceRead, ha, decLate, calmSource, h2]
  · have h1 : ∀ y : DecSide, y.unit = x.unit → fillReader y = .done () y := fun y hy => by
      rw [fillReader, hy, if_neg hc]
    rw [h1 x rfl, show fillReader ((decLate d).prompt x) = .done () (calmSource d x) from h1 _ rfl]
    rfl

/-! ### The encoder -/

theorem wbit_coheres (b : Bool) : Coheres (encLate d) (wbit b) :=
  coheres_lift (L := encLate d) (c := fun x => pushBit b x.unit) (fun _ => rfl) fun u =>
    coheres_ite (L := encLate d) (c := fun _ => u.wcount.toNat = 8) (fun _ => Iff.rfl)
      (coheres_before (L := encLate d) (fun x => { x with unit := u }) (fun _ => rfl) (fun _ _ h => h)
        (sendByte_coheres u.wbuf))
      (coheres_writes (L := encLate d) (fun x => { x with unit := u }) (fun _ => rfl) (fun _ => List.prefix_refl _) ())

theorem writeBits_coheres (v : Operand) : ∀ n, Coheres (encLate d) (writeBits v n)
  | 0 => coheres_done ()
  | n + 1 => coheres_andThen (wbit_coheres (v.getLsbD n)) fun _ => writeBits_coheres v n

theorem repeatBit_coheres (b : Bool) : ∀ n, Coheres (encLate d) (repeatBit b n)
  | 0 => coheres_done ()
  | n + 1 => coheres_andThen (wbit_coheres b) fun _ => repeatBit_coheres b n

theorem writerFlush_coheres : Coheres (encLate d) writerFlush :=
  coheres_ite (L := encLate d) (c := fun x => 0 < x.unit.wcount.toNat) (fun _ => Iff.rfl)
    (coheres_lift (L := encLate d) (c := fun x => paddedByte x.unit) (fun _ => rfl) fun v =>
      coheres_andThen (sendByte_coheres v) fun _ => flushSink_coheres)
    flushSink_coheres

theorem emitWithPending_coheres (b : Bool) : Coheres (encLate d) (emitWithPending b) :=
  coheres_andThen (wbit_coheres b) fun _ =>
    coheres_reads (L := encLate d) (fun y : EncSide => y.unit.pending) (fun _ => rfl)
      (P := fun n y => (repeatBit (!b) n y).andThen fun _ z =>
        .done () { z with unit := { z.unit with pending := 0 } }) fun n =>
      coheres_andThen (repeatBit_coheres (!b) n) fun _ =>
        coheres_writes (L := encLate d) (fun z => { z with unit := { z.unit with pending := 0 } }) (fun _ => rfl)
          (fun _ => List.prefix_refl _) ()

theorem encShift_coheres (sh : Shift) : Coheres (encLate d) (encShift sh) := by
  have bits : Coheres (encLate d) (encShiftBits sh) := by
    cases sh with
    | e1 => exact emitWithPending_coheres false
    | e2 => exact emitWithPending_coheres true
    | e3 =>
      exact coheres_writes (L := encLate d) (fun x => { x with unit := { x.unit with pending := x.unit.pending + 1 } })
        (fun _ => rfl) (fun _ => List.prefix_refl _) ()
  exact coheres_andThen bits fun _ =>
    coheres_lift (L := encLate d) (c := fun y => shiftInterval sh (encInterval y.unit)) (fun _ => rfl) fun iv =>
      coheres_writes (L := encLate d) (fun y => { y with unit := setEncInterval y.unit iv }) (fun _ => rfl)
        (fun _ => List.prefix_refl _) ()

theorem coheres_broken {L : Lateness σ} (f : Fault) : Coheres L fun _ => (.broken f : Run σ α) :=
  ⟨fun _ => rfl, fun _ => trivial⟩

/-- The loops of R178 and R203: look at the interval, then stop or shift. -/
theorem coheres_case {L : Lateness σ} (g : σ → Option Shift) (hg : ∀ x, g (L.prompt x) = g x) {P : σ → Run σ α}
    {Q : Shift → σ → Run σ α} (hp : Coheres L P) (hq : ∀ sh, Coheres L (Q sh)) : Coheres L fun x =>
      match g x with
      | none => P x
      | some sh => Q sh x :=
  coheres_reads (L := L) g hg (P := fun c x => match c with | none => P x | some sh => Q sh x) fun c => by
    cases c with
    | none => exact hp
    | some sh => exact hq sh

theorem encRenorm_coheres : ∀ n, Coheres (encLate d) (encRenorm n)
  | 0 => coheres_case (L := encLate d) (fun x => renormCase (encInterval x.unit)) (fun _ => rfl) (coheres_done ())
      fun _ => coheres_broken .endlessShifts
  | n + 1 => coheres_case (L := encLate d) (fun x => renormCase (encInterval x.unit)) (fun _ => rfl) (coheres_done ())
      fun sh => coheres_andThen (encShift_coheres sh) fun _ => encRenorm_coheres n

theorem encFinish_coheres : Coheres (encLate d) encFinish :=
  coheres_reads (L := encLate d) (fun x : EncSide => !decide (x.unit.low.toNat < Config.quarter)) (fun _ => rfl)
    (P := fun b x => (emitWithPending b (beginFlush x)).andThen fun _ y =>
      (writerFlush y).andThen fun _ z => .done () (setEncPhase .done z)) fun b =>
    coheres_andThen
      (coheres_before (L := encLate d) beginFlush (fun _ => rfl) (fun _ _ h => h) (emitWithPending_coheres b)) fun _ =>
        coheres_andThen writerFlush_coheres fun _ =>
          coheres_writes (L := encLate d) (setEncPhase .done) (fun _ => rfl) (fun _ => List.prefix_refl _) ()

theorem encodeSymbol_coheres (sym : Nat) : Coheres (encLate d) (encodeSymbol sym) :=
  coheres_lift (L := encLate d) (c := fun x => encNarrow sym x.unit) (fun _ => rfl) fun u =>
    coheres_andThen
      (coheres_before (L := encLate d) (fun x => { x with unit := u }) (fun _ => rfl) (fun _ _ h => h)
        (encRenorm_coheres Config.shiftFuel)) fun _ =>
      coheres_ite (L := encLate d) (c := fun _ => sym = Config.eofSymbol) (fun _ => Iff.rfl) encFinish_coheres
        (coheres_done ())

/-! ### The decoder -/

theorem takeBit_coheres : Coheres (decLate d) takeBit :=
  ⟨fun x => by
    unfold takeBit decLate calmSource
    simp only
    split
    · rfl
    · split <;> rfl,
    fun x => stops_any (stops_mono (takeBit_stops x) fun _ h => h.2)⟩

theorem rbit_coheres : Coheres (decLate d) rbit := coheres_andThen fillReader_coheres fun _ => takeBit_coheres

theorem readBitsFrom_coheres : ∀ n v, Coheres (decLate d) (readBitsFrom n v)
  | 0, v => coheres_done v
  | n + 1, v => coheres_andThen rbit_coheres fun b => readBitsFrom_coheres n (2 * v + b.toNat)

theorem primeValue_coheres : Coheres (decLate d) primeValue :=
  coheres_andThen (readBitsFrom_coheres Config.codeWidth 0) fun v =>
    coheres_lift (L := decLate d) (c := fun _ => narrowTo 32 v) (fun _ => rfl) fun c =>
      coheres_writes (L := decLate d) (setValue c) (fun _ => rfl) (fun _ => List.prefix_refl _) ()

theorem decShift_coheres (sh : Shift) : Coheres (decLate d) (decShift sh) :=
  coheres_lift (L := decLate d) (c := fun x => shiftInterval sh (decInterval x.unit)) (fun _ => rfl) fun iv =>
    coheres_andThen
      (coheres_before (L := decLate d) (fun x => { x with unit := setDecInterval x.unit iv }) (fun _ => rfl)
        (fun _ _ h => h) rbit_coheres) fun b =>
      coheres_lift (L := decLate d) (c := fun y => shiftCode sh y.unit.value b.toNat) (fun _ => rfl) fun v =>
        coheres_writes (L := decLate d) (setValue v) (fun _ => rfl) (fun _ => List.prefix_refl _) ()

theorem decRenorm_coheres : ∀ n, Coheres (decLate d) (decRenorm n)
  | 0 => coheres_case (L := decLate d) (fun x => renormCase (decInterval x.unit)) (fun _ => rfl) (coheres_done ())
      fun _ => coheres_broken .endlessShifts
  | n + 1 => coheres_case (L := decLate d) (fun x => renormCase (decInterval x.unit)) (fun _ => rfl) (coheres_done ())
      fun sh => coheres_andThen (decShift_coheres sh) fun _ => decRenorm_coheres n

theorem finishDec_prompt (d : Dropper) (sym : Nat) (x : DecSide) : finishDec sym (calmSource d x) = calmSource d (finishDec sym x) := by
  unfold finishDec; split <;> rfl

theorem decodeSymbol_coheres : Coheres (decLate d) decodeSymbol :=
  coheres_lift (L := decLate d) (c := fun x => selectSymbol x.unit) (fun _ => rfl) fun sym =>
    coheres_lift (L := decLate d) (c := fun x => decNarrow sym x.unit) (fun _ => rfl) fun u =>
      coheres_andThen
        (coheres_before (L := decLate d) (fun x => { x with unit := u }) (fun _ => rfl) (fun _ _ h => h)
          (decRenorm_coheres Config.shiftFuel)) fun _ =>
        coheres_writes (L := decLate d) (finishDec sym) (finishDec_prompt d sym)
          (fun x => by show x.source.taken <+: _; rw [finishDec_source]) sym

/-! ### Commands -/

/-- A command that does nothing with a device. -/
theorem onEncTable_coheres (f : Table → Except Fault (Operand × Table)) : Coheres (encLate d) (onEncTable f) :=
  coheres_lift (L := encLate d) (c := fun x => f x.unit.freqs) (fun _ => rfl) fun r =>
    coheres_writes (L := encLate d) (fun x => { x with unit := { x.unit with freqs := r.2 } }) (fun _ => rfl)
      (fun _ => List.prefix_refl _) r.1

theorem onDecTable_coheres (f : Table → Except Fault (Operand × Table)) : Coheres (decLate d) (onDecTable f) :=
  coheres_lift (L := decLate d) (c := fun x => f x.unit.freqs) (fun _ => rfl) fun r =>
    coheres_writes (L := decLate d) (fun x => { x with unit := { x.unit with freqs := r.2 } }) (fun _ => rfl)
      (fun _ => List.prefix_refl _) r.1

/-- The state in which delays of the device that command `i` calls are taken out. -/
def calmState (d : Dropper) (i : Instr) (s : State) : State :=
  if isEncCommand i = true then withEncSide s (calmSink d (encSide s)) else withDecSide s (calmSource d (decSide s))

theorem calmState_first (i : Instr) (s : State) : calmState dropFirst i s = promptState i s := rfl

/-- How a command's outcomes on `s` and on `s` with delays of its device taken out belong together. -/
def LateCommand (d : Dropper) (i : Instr) (s : State) : Prop :=
  ((∀ t, exec i s ≠ .next t) → exec i (calmState d i s) = exec i s) ∧
  ∀ t, exec i s = .next t →
    (t.waiting = none → exec i (calmState d i s) = .next (calmState d i t)) ∧
    ∀ w, t.waiting = some w → waitingCommand w = i ∧ restart t = promptState i s ∧
      ∀ u, exec i (calmState d i s) = .next u → t.sink.received <+: u.sink.received ∧ t.source.taken <+: u.source.taken

theorem checkedEnc_late {i : Instr} {s : State} {ok : Bool} {P : EncSide → Run EncSide Operand} (hw : s.waiting = none)
    (hi : isEncCommand i = true) (hp : Coheres (encLate d) P)
    (h : ∀ x : EncSide, x.unit = s.enc → exec i (withEncSide s x) =
      checked s.enc.phase ok (withEncSide s x) (endEnc i (withEncSide s x) (P x))) : LateCommand d i s := by
  have hself : withEncSide s (encSide s) = s := rfl
  have hps : ∀ t : State, calmState d i t = withEncSide t (calmSink d (encSide t)) := fun t => by
    simp only [calmState, hi, if_true]
  have hs := h (encSide s) rfl
  have hs' := h (calmSink d (encSide s)) rfl
  have htog := hp.together (encSide s)
  rw [hself] at hs
  refine ⟨fun hn => ?_, fun t ht => ?_⟩
  · cases hph : decide (s.enc.phase = .active) with
    | false => exact absurd (hs.trans (checked_badPhase (of_decide_eq_false hph))) (hn _)
    | true =>
      have hph := of_decide_eq_true hph
      cases ok with
      | false => exact absurd (hs.trans (by rw [hph, checked_badOperand])) (hn _)
      | true =>
        rw [hph, checked_active] at hs hs'
        rw [hps, hs', hs]
        cases hr : P (encSide s) with
        | done v x => rw [hr] at hs; exact absurd hs (hn _)
        | raised e x => rw [hr] at hs; exact absurd hs (hn _)
        | waiting x => rw [hr] at hs; exact absurd hs (hn _)
        | broken f => rw [hr] at htog; rw [show P (calmSink d (encSide s)) = _ from htog]; rfl
  rw [ht] at hs
  obtain ⟨hph, rfl⟩ | ⟨hph, rfl, rfl⟩ | ⟨hph, rfl, hr⟩ := checked_next hs.symm
  · refine ⟨fun _ => ?_, fun w hw' => by rw [reject_waiting, hw] at hw'; cases hw'⟩
    rw [hps, hs', checked_badPhase hph, hps]; rfl
  · refine ⟨fun _ => ?_, fun w hw' => by rw [reject_waiting, hw] at hw'; cases hw'⟩
    rw [hps, hs', hph, checked_badOperand, hps]; rfl
  · rw [hph, checked_active, ← hps] at hs'
    obtain ⟨v, x, hd, rfl⟩ | ⟨e, x, hd, rfl⟩ | ⟨x, hd, rfl⟩ := endEnc_next hr
    · rw [hd] at htog
      refine ⟨fun _ => ?_, fun w hw' => by simp [hw] at hw'⟩
      rw [hs', show P (calmSink d (encSide s)) = _ from htog, hps, hps]; rfl
    · rw [hd] at htog
      refine ⟨fun _ => ?_, fun w hw' => by simp [hw] at hw'⟩
      rw [hs', show P (calmSink d (encSide s)) = _ from htog, hps, hps]; rfl
    · rw [hd] at htog
      refine ⟨fun hw' => by simp at hw', fun w hw' => ?_⟩
      obtain rfl : Waiting.onSink i (promptSink (encSide s)) = w := by simpa using hw'
      refine ⟨rfl, ?_, fun u hu => ?_⟩
      · have hpr : promptState i s = withEncSide s (promptSink (encSide s)) := by simp only [promptState, hi, if_true]
        rw [hpr]
        show { withEncSide _ _ with waiting := none } = _
        rw [show withEncSide s (promptSink (encSide s)) =
          { withEncSide s (promptSink (encSide s)) with waiting := none } by simp only [withEncSide, hw]]
        rfl
      · rw [hs'] at hu
        obtain ⟨v, y, hy, rfl⟩ | ⟨e, y, hy, rfl⟩ | ⟨y, hy, rfl⟩ := endEnc_next hu
        · have := htog; simp only [Together] at this
          rw [show P ((encLate d).prompt (encSide s)) = _ from hy] at this
          rw [hps]; exact ⟨this, List.prefix_refl _⟩
        · have := htog; simp only [Together] at this
          rw [show P ((encLate d).prompt (encSide s)) = _ from hy] at this
          rw [hps]; exact ⟨this.2, List.prefix_refl _⟩
        · have := htog; simp only [Together] at this
          rw [show P ((encLate d).prompt (encSide s)) = _ from hy] at this
          rw [hps]; exact ⟨this, List.prefix_refl _⟩

theorem checkedDec_late {i : Instr} {s : State} {ok : Bool} {p : Phase} {P : DecSide → Run DecSide Operand}
    (hw : s.waiting = none) (hi : isEncCommand i = false) (hp : Coheres (decLate d) P)
    (h : ∀ x : DecSide, x.unit = s.dec → exec i (withDecSide s x) =
      checked p ok (withDecSide s x) (endDec i (withDecSide s x) (P x))) : LateCommand d i s := by
  have hself : withDecSide s (decSide s) = s := rfl
  have hps : ∀ t : State, calmState d i t = withDecSide t (calmSource d (decSide t)) := fun t => by
    simp only [calmState, hi, Bool.false_eq_true, if_false]
  have hs := h (decSide s) rfl
  have hs' := h (calmSource d (decSide s)) rfl
  have htog := hp.together (decSide s)
  rw [hself] at hs
  refine ⟨fun hn => ?_, fun t ht => ?_⟩
  · cases hph : decide (p = .active) with
    | false => exact absurd (hs.trans (checked_badPhase (of_decide_eq_false hph))) (hn _)
    | true =>
      have hph := of_decide_eq_true hph
      cases ok with
      | false => exact absurd (hs.trans (by rw [hph, checked_badOperand])) (hn _)
      | true =>
        rw [hph, checked_active] at hs hs'
        rw [hps, hs', hs]
        cases hr : P (decSide s) with
        | done v x => rw [hr] at hs; exact absurd hs (hn _)
        | raised e x => rw [hr] at hs; exact absurd hs (hn _)
        | waiting x => rw [hr] at hs; exact absurd hs (hn _)
        | broken f => rw [hr] at htog; rw [show P (calmSource d (decSide s)) = _ from htog]; rfl
  rw [ht] at hs
  obtain ⟨hph, rfl⟩ | ⟨hph, rfl, rfl⟩ | ⟨hph, rfl, hr⟩ := checked_next hs.symm
  · refine ⟨fun _ => ?_, fun w hw' => by rw [reject_waiting, hw] at hw'; cases hw'⟩
    rw [hps, hs', checked_badPhase hph, hps]; rfl
  · refine ⟨fun _ => ?_, fun w hw' => by rw [reject_waiting, hw] at hw'; cases hw'⟩
    rw [hps, hs', hph, checked_badOperand, hps]; rfl
  · rw [hph, checked_active, ← hps] at hs'
    obtain ⟨v, x, hd, rfl⟩ | ⟨e, x, hd, rfl⟩ | ⟨x, hd, rfl⟩ := endDec_next hr
    · rw [hd] at htog
      refine ⟨fun _ => ?_, fun w hw' => by simp [hw] at hw'⟩
      rw [hs', show P (calmSource d (decSide s)) = _ from htog, hps, hps]; rfl
    · rw [hd] at htog
      refine ⟨fun _ => ?_, fun w hw' => by simp [hw] at hw'⟩
      rw [hs', show P (calmSource d (decSide s)) = _ from htog, hps, hps]; rfl
    · rw [hd] at htog
      refine ⟨fun hw' => by simp at hw', fun w hw' => ?_⟩
      obtain rfl : Waiting.onSource i (promptSource (decSide s)) = w := by simpa using hw'
      refine ⟨rfl, ?_, fun u hu => ?_⟩
      · have hpr : promptState i s = withDecSide s (promptSource (decSide s)) := by
          simp only [promptState, hi, Bool.false_eq_true, if_false]
        rw [hpr]
        show { withDecSide _ _ with waiting := none } = _
        rw [show withDecSide s (promptSource (decSide s)) =
          { withDecSide s (promptSource (decSide s)) with waiting := none } by simp only [withDecSide, hw]]
        rfl
      · rw [hs'] at hu
        obtain ⟨v, y, hy, rfl⟩ | ⟨e, y, hy, rfl⟩ | ⟨y, hy, rfl⟩ := endDec_next hu
        · have := htog; simp only [Together] at this
          rw [show P ((decLate d).prompt (decSide s)) = _ from hy] at this
          rw [hps]; exact ⟨List.prefix_refl _, this⟩
        · have := htog; simp only [Together] at this
          rw [show P ((decLate d).prompt (decSide s)) = _ from hy] at this
          rw [hps]; exact ⟨List.prefix_refl _, this.2⟩
        · have := htog; simp only [Together] at this
          rw [show P ((decLate d).prompt (decSide s)) = _ from hy] at this
          rw [hps]; exact ⟨List.prefix_refl _, this⟩

/-- A command that answers at once and leaves its device alone. -/
theorem plain_late {i : Instr} {s : State} {f : State → State} (h : ∀ s, exec i s = .next (f s))
    (hw : s.waiting = none) (hf : (f s).waiting = s.waiting) (hp : f (calmState d i s) = calmState d i (f s)) :
    LateCommand d i s := by
  refine ⟨fun hn => absurd (h s) (hn _), fun t ht => ?_⟩
  rw [h s] at ht
  injection ht with ht
  subst ht
  exact ⟨fun _ => by rw [h, hp], fun w hw' => by rw [hf, hw] at hw'; cases hw'⟩

theorem answerRead_waiting (p : Phase) (sel : Nat) (v : Option Nat) (s : State) :
    (answerRead p sel v s).waiting = s.waiting := by
  obtain h | ⟨d, h⟩ | ⟨d, h⟩ := answerRead_cases p sel v s <;> rw [h] <;> rfl

/-- Said once for every command: what it does on a late device (R248). -/
theorem exec_late (d : Dropper) (i : Instr) {s : State} (hw : s.waiting = none) : LateCommand d i s := by
  cases i with
  | encInit => exact plain_late (f := fun s => respond 0 { s with enc := freshEnc }) (fun _ => rfl) hw rfl rfl
  | encPreload sym =>
    exact checkedEnc_late (ok := symbolInRange sym) hw rfl (onEncTable_coheres (preloadTable sym s.din.toNat)) fun x hx => by
      obtain ⟨u, k⟩ := x; subst hx; rfl
  | encCode sym =>
    exact checkedEnc_late (ok := symbolInRange sym) hw rfl
      (coheres_andThen (encodeSymbol_coheres sym) fun _ => coheres_done 0) fun x hx => by
      obtain ⟨u, k⟩ := x; subst hx; rfl
  | encProb sym =>
    exact checkedEnc_late (ok := symbolInRange sym) hw rfl (onEncTable_coheres (probTable sym)) fun x hx => by
      obtain ⟨u, k⟩ := x; subst hx; rfl
  | encSymfor =>
    exact checkedEnc_late (ok := scaledInRange s.enc.freqs s.din) hw rfl
      (onEncTable_coheres (symforTable s.din.toNat)) fun x hx => by
      obtain ⟨u, k⟩ := x; subst hx; rfl
  | encUpdate sym =>
    exact checkedEnc_late (ok := symbolInRange sym) hw rfl (onEncTable_coheres (updateTable sym)) fun x hx => by
      obtain ⟨u, k⟩ := x; subst hx; rfl
  | encRescale =>
    exact checkedEnc_late (ok := true) hw rfl (onEncTable_coheres rescaleTable) fun x hx => by
      obtain ⟨u, k⟩ := x; subst hx; rfl
  | encBits n =>
    exact checkedEnc_late (ok := countInRange n) hw rfl
      (coheres_andThen (writeBits_coheres s.din n) fun _ => coheres_done 0) fun x hx => by
      obtain ⟨u, k⟩ := x; subst hx; rfl
  | encBflush =>
    exact checkedEnc_late (ok := true) hw rfl (coheres_andThen writerFlush_coheres fun _ => coheres_done 0) fun x hx => by
      obtain ⟨u, k⟩ := x; subst hx; rfl
  | encRdstate sel =>
    refine plain_late (f := fun s => answerRead s.enc.phase sel (encRegister s.enc sel) s) (fun _ => rfl) hw
      (answerRead_waiting _ _ _ _) ?_
    simp only [calmState, isEncCommand, if_true, answerRead, withEncSide_enc, calmSink, encSide_unit]
    split
    · rfl
    · split <;> rfl
  | decInit =>
    exact checkedDec_late (p := .active) (ok := true) hw rfl
      (P := fun x => (primeValue ⟨startDec x.unit, x.source⟩).andThen fun _ y => .done 0 y)
      (coheres_andThen
        (coheres_before (L := decLate d) (fun x => ⟨startDec x.unit, x.source⟩) (fun _ => rfl) (fun _ _ h => h)
          primeValue_coheres) fun _ => coheres_done 0) fun x hx => by
      obtain ⟨u, k⟩ := x; subst hx; rw [checked_active]; rfl
  | decPreload sym =>
    exact checkedDec_late (p := s.dec.phase) (ok := symbolInRange sym) hw rfl
      (onDecTable_coheres (preloadTable sym s.din.toNat)) fun x hx => by
      obtain ⟨u, k⟩ := x; subst hx; rfl
  | decCode =>
    exact checkedDec_late (p := s.dec.phase) (ok := true) hw rfl
      (coheres_andThen decodeSymbol_coheres fun sym => coheres_done (BitVec.ofNat 64 sym)) fun x hx => by
      obtain ⟨u, k⟩ := x; subst hx; rfl
  | decProb sym =>
    exact checkedDec_late (p := s.dec.phase) (ok := symbolInRange sym) hw rfl (onDecTable_coheres (probTable sym))
      fun x hx => by obtain ⟨u, k⟩ := x; subst hx; rfl
  | decSymfor =>
    exact checkedDec_late (p := s.dec.phase) (ok := scaledInRange s.dec.freqs s.din) hw rfl
      (onDecTable_coheres (symforTable s.din.toNat)) fun x hx => by
      obtain ⟨u, k⟩ := x; subst hx; rfl
  | decUpdate sym =>
    exact checkedDec_late (p := s.dec.phase) (ok := symbolInRange sym) hw rfl (onDecTable_coheres (updateTable sym))
      fun x hx => by obtain ⟨u, k⟩ := x; subst hx; rfl
  | decRescale =>
    exact checkedDec_late (p := s.dec.phase) (ok := true) hw rfl (onDecTable_coheres rescaleTable) fun x hx => by
      obtain ⟨u, k⟩ := x; subst hx; rfl
  | decBits n =>
    exact checkedDec_late (p := s.dec.phase) (ok := countInRange n) hw rfl
      (coheres_andThen (readBitsFrom_coheres n 0) fun v =>
        coheres_lift (L := decLate d) (c := fun _ => narrowTo 64 v) (fun _ => rfl) fun d => coheres_done d) fun x hx => by
      obtain ⟨u, k⟩ := x; subst hx; rfl
  | decRdstate sel =>
    refine plain_late (f := fun s => answerRead s.dec.phase sel (decRegister s.dec sel) s) (fun _ => rfl) hw
      (answerRead_waiting _ _ _ _) ?_
    simp only [calmState, isEncCommand, Bool.false_eq_true, if_false, answerRead, withDecSide_dec, calmSource,
      decSide_unit]
    split
    · rfl
    · split <;> rfl

/-- What a command leaves in progress can go on without taking anything back (the invariant's clause `Resumable`). -/
theorem exec_resumable {i : Instr} {s t : State} (hw : s.waiting = none) (h : exec i s = .next t) : Resumable t := by
  intro w ht u hu
  obtain ⟨h1, h2, h3⟩ := ((exec_late dropFirst i hw).2 t h).2 w ht
  rw [h1, h2] at hu
  exact h3 u hu

/-! ### Runs with late devices -/

theorem dropAll_late {α : Type} (l : List (Turn α)) : dropAll.drop (dropLate l) = dropAll.drop l := by
  induction l with
  | nil => rfl
  | cons u rest ih =>
    cases u with
    | answer a => simp only [dropLate, dropAll.answer, ih]
    | late => rfl

theorem lateTurns_dropLate {α : Type} (l : List (Turn α)) : lateTurns (dropLate l) = lateTurns l - 1 := by
  induction l with
  | nil => rfl
  | cons u rest ih =>
    cases u with
    | answer a => simp only [dropLate, lateTurns, ih]
    | late => simp [dropLate, lateTurns]

theorem dropLate_of_none {α : Type} {l : List (Turn α)} (h : lateTurns l = 0) : dropLate l = l := by
  induction l with
  | nil => rfl
  | cons u rest ih =>
    cases u with
    | answer a => simp only [dropLate, ih h]
    | late => simp [lateTurns] at h

theorem dropAll_of_none {α : Type} {l : List (Turn α)} (h : lateTurns l = 0) : dropAll.drop l = l := by
  induction l with
  | nil => rfl
  | cons u rest ih =>
    cases u with
    | answer a => rw [dropAll.answer, ih h]
    | late => simp [lateTurns] at h

@[simp] theorem promptState_host (i : Instr) (s : State) : (promptState i s).host = s.host := by
  unfold promptState; split <;> rfl
@[simp] theorem promptState_waiting (i : Instr) (s : State) : (promptState i s).waiting = s.waiting := by
  unfold promptState; split <;> rfl

/-- How many delays the device that command `i` calls has still to come. -/
def lateCalls (i : Instr) (s : State) : Nat :=
  if isEncCommand i = true then lateTurns s.sink.answers else lateTurns s.source.answers

theorem calmState_prompt (i : Instr) (s : State) : calmState dropAll i (promptState i s) = calmState dropAll i s := by
  unfold calmState promptState
  split <;> simp [withEncSide, withDecSide, calmSink, calmSource, promptSink, promptSource, encSide, decSide, dropAll_late]

theorem calmState_of_none {i : Instr} {s : State} (h : lateCalls i s = 0) : calmState dropAll i s = s := by
  unfold lateCalls at h
  unfold calmState
  split
  · rename_i hi
    rw [if_pos hi] at h
    simp [withEncSide, calmSink, encSide, dropAll_of_none h]
  · rename_i hi
    rw [if_neg hi] at h
    simp [withDecSide, calmSource, decSide, dropAll_of_none h]

theorem lateCalls_prompt (i : Instr) (s : State) : lateCalls i (promptState i s) = lateCalls i s - 1 := by
  unfold lateCalls promptState
  split <;> simp [lateTurns_dropLate]

/-- Said once for a command on a device that is late any number of times: if it ends on the device without its delays, it
ends, after one more step per delay, in the same state but for the delays still to come (R248). -/
theorem awaitResponse_late {i : Instr} : ∀ (n : Nat) {s t₀ : State}, s.waiting = none → lateCalls i s ≤ n → s.host = [] →
    exec i (calmState dropAll i s) = .next t₀ → t₀.waiting = none →
      ∃ t' t, exec i s = .next t' ∧ awaitResponse n t' = .next t ∧ t.waiting = none ∧ calmState dropAll i t = t₀ := by
  intro n
  induction n with
  | zero =>
    intro s t₀ hw hl _ h ht
    rw [calmState_of_none (Nat.le_zero.mp hl)] at h
    have h' := ((exec_late dropAll i hw).2 t₀ h).1 ht
    rw [calmState_of_none (Nat.le_zero.mp hl), h] at h'
    injection h' with h'
    exact ⟨t₀, t₀, h, rfl, ht, h'.symm⟩
  | succ n ih =>
    intro s t₀ hw hl hh h ht
    by_cases hn : ∀ t, exec i s ≠ .next t
    · rw [(exec_late dropAll i hw).1 hn] at h
      exact absurd h (hn _)
    · obtain ⟨t', ht'⟩ := not_forall_not.mp hn
      obtain ⟨h1, h2⟩ := (exec_late dropAll i hw).2 t' ht'
      cases hw' : t'.waiting with
      | none =>
        rw [h1 hw'] at h
        injection h with h
        exact ⟨t', t', ht', by simp only [awaitResponse, hw'], hw', h⟩
      | some w =>
        obtain ⟨hc, hrs, _⟩ := h2 w hw'
        have hhost : t'.host = [] := by rw [← restart_host, hrs, promptState_host, hh]
        have hstep : step t' = exec i (promptState i s) := by
          rw [step_resumes hw' (by rw [hhost]; simp), hc, hrs]
        obtain ⟨t'', t, e1, e2, e3, e4⟩ := ih (s := promptState i s) (t₀ := t₀) (by rw [promptState_waiting, hw])
          (by rw [lateCalls_prompt]; omega) (by rw [promptState_host, hh]) (by rw [calmState_prompt]; exact h) ht
        exact ⟨t', t, ht', by simp only [awaitResponse, hw', hstep, e1, e2], e3, e4⟩

end Sys2Proof.Machine
end

