-- ==== Sys2Proof/Laws/PerInstr.lean ====
section
/-! SUPPORT. A law of every command, constructor by constructor: the encoder gives each well-formed command a word that its
row of spec/opcode_table.json matches (30_encoding.md R75, R78). -/
namespace Sys2Proof.Laws.EncodesRow

/-- The row's `match` and `mask` as spec/opcode_table.json lists them. -/
def row : Instr → Nat × Nat
  | .encInit => (0x00000001, 0xFFFFFFFF)
  | .encPreload _ => (0x00000002, 0xFFFE00FF)
  | .encCode _ => (0x00000003, 0xFFFE00FF)
  | .encProb _ => (0x00000004, 0xFFFE00FF)
  | .encSymfor => (0x00000005, 0xFFFFFFFF)
  | .encUpdate _ => (0x00000006, 0xFFFE00FF)
  | .encRescale => (0x00000007, 0xFFFFFFFF)
  | .encBits _ => (0x00000008, 0xFF01FFFF)
  | .encBflush => (0x00000009, 0xFFFFFFFF)
  | .encRdstate _ => (0x0000000A, 0xFFFE00FF)
  | .decInit => (0x00000011, 0xFFFFFFFF)
  | .decPreload _ => (0x00000012, 0xFFFE00FF)
  | .decCode => (0x00000013, 0xFFFFFFFF)
  | .decProb _ => (0x00000014, 0xFFFE00FF)
  | .decSymfor => (0x00000015, 0xFFFFFFFF)
  | .decUpdate _ => (0x00000016, 0xFFFE00FF)
  | .decRescale => (0x00000017, 0xFFFFFFFF)
  | .decBits _ => (0x00000018, 0xFF01FFFF)
  | .decRdstate _ => (0x0000001A, 0xFFFE00FF)

/-- The word of a well-formed command, masked with its row's mask, is its row's match. -/
def Statement (i : Instr) : Prop :=
  i.wellFormed = true → encode i &&& BitVec.ofNat 32 (row i).2 = BitVec.ofNat 32 (row i).1

/-- A SYM field lies outside the mask of a row that uses it. -/
theorem symWord (u : Fin 2) (fn : Fin 16) : ∀ sym : Fin 512,
    commandWord u fn sym 0 &&& BitVec.ofNat 32 0xFFFE00FF = BitVec.ofNat 32 (u * 16 + fn) := by
  revert u fn
  decide +kernel

/-- An N field lies outside the mask of a row that uses it. -/
theorem countWord (u : Fin 2) (fn : Fin 16) : ∀ n : Fin 128,
    commandWord u fn 0 n &&& BitVec.ofNat 32 0xFF01FFFF = BitVec.ofNat 32 (u * 16 + fn) := by
  revert u fn
  decide +kernel

theorem fits {sym : Nat} (h : symFits sym = true) : sym < 512 := by simpa [symFits] using h
theorem fitsCount {n : Nat} (h : countFits n = true) : n < 128 := by simpa [countFits] using h

theorem encInit : Statement .encInit := fun _ => by decide
theorem encPreload (sym : Nat) : Statement (.encPreload sym) := fun h => symWord 0 2 ⟨sym, fits h⟩
theorem encCode (sym : Nat) : Statement (.encCode sym) := fun h => symWord 0 3 ⟨sym, fits h⟩
theorem encProb (sym : Nat) : Statement (.encProb sym) := fun h => symWord 0 4 ⟨sym, fits h⟩
theorem encSymfor : Statement .encSymfor := fun _ => by decide
theorem encUpdate (sym : Nat) : Statement (.encUpdate sym) := fun h => symWord 0 6 ⟨sym, fits h⟩
theorem encRescale : Statement .encRescale := fun _ => by decide
theorem encBits (n : Nat) : Statement (.encBits n) := fun h => countWord 0 8 ⟨n, fitsCount h⟩
theorem encBflush : Statement .encBflush := fun _ => by decide
theorem encRdstate (sel : Nat) : Statement (.encRdstate sel) := fun h => symWord 0 10 ⟨sel, fits h⟩
theorem decInit : Statement .decInit := fun _ => by decide
theorem decPreload (sym : Nat) : Statement (.decPreload sym) := fun h => symWord 1 2 ⟨sym, fits h⟩
theorem decCode : Statement .decCode := fun _ => by decide
theorem decProb (sym : Nat) : Statement (.decProb sym) := fun h => symWord 1 4 ⟨sym, fits h⟩
theorem decSymfor : Statement .decSymfor := fun _ => by decide
theorem decUpdate (sym : Nat) : Statement (.decUpdate sym) := fun h => symWord 1 6 ⟨sym, fits h⟩
theorem decRescale : Statement .decRescale := fun _ => by decide
theorem decBits (n : Nat) : Statement (.decBits n) := fun h => countWord 1 8 ⟨n, fitsCount h⟩
theorem decRdstate (sel : Nat) : Statement (.decRdstate sel) := fun h => symWord 1 10 ⟨sel, fits h⟩

end Sys2Proof.Laws.EncodesRow
end

