-- ==== Sys2Proof/Laws/RoundTrip.lean ====
section
/-! SUPPORT. Why a decoder finds the symbols that an encoder coded (43_decoder.md R210 to R212), on plain numbers and bits:
the bits still to be emitted, with the pending bits taken out, are a number inside the encoder's interval, and each shift
of the encoder is the decoder's shift of that number. -/
namespace Sys2Proof.Machine

/-- The part of the total that one symbol has (R133). -/
structure Part where
  lc : Nat
  hc : Nat
  t : Nat

/-- A part that R172 allows. -/
structure Part.Ok (p : Part) : Prop where
  rising : p.lc < p.hc
  within : p.hc ≤ p.t
  total : p.t ≤ 16382

/-- Coding one part: narrow and shift (R178). -/
def coderPart (p : Part) (c : Coder) : Coder := coderRenorm 15 (coderNarrow p.lc p.hc p.t c)

/-- Coding parts one after another. -/
def coderParts : List Part → Coder → Coder
  | [], c => c
  | p :: ps, c => coderParts ps (coderPart p c)

/-- Narrow a window to a part (R203). -/
def windowNarrow (p : Part) (w : Window) : Window :=
  { w with
    low := w.low + (w.high - w.low + 1) * p.lc / p.t
    high := w.low + (w.high - w.low + 1) * p.hc / p.t - 1 }

/-- From window `w` the decoder finds the parts `ps` one after another and is left with `v`. -/
def FindsParts : List Part → Window → Window → Prop
  | [], w, v => w = v
  | p :: ps, w, v =>
    w.low ≤ w.value ∧ w.value ≤ w.high ∧ p.lc ≤ windowCount w p.t ∧ windowCount w p.t < p.hc ∧
      ∃ w', windowRenorm 15 (windowNarrow p w) = some w' ∧ FindsParts ps w' v

/-- `future` is what an encoder with `pending` bits will emit; `seen` is what a decoder that made the same E3 shifts has in
its window and before it: `future` without the pending bits. -/
def Sees (pending : Nat) (future seen : List Bool) : Prop :=
  ∃ b rest, future = b :: (List.replicate pending (!b) ++ rest) ∧ seen = b :: rest

/-- The decoder's window over the bits `seen`. -/
def windowOver (low high : Nat) (seen : List Bool) : Window := ⟨low, high, bitsValue (seen.take 32), seen.drop 32⟩

theorem bitsValue_cons (b : Bool) (l : List Bool) : bitsValue (b :: l) = b.toNat * 2 ^ l.length + bitsValue l := by
  induction l using List.reverseRecOn with
  | nil => simp [bitsValue]
  | append_singleton l a ih =>
    rw [← List.cons_append, bitsValue_append_one, bitsValue_append_one, ih, List.length_append, List.length_singleton,
      pow_succ]
    ring

/-- One more bit at the end of a prefix. -/
theorem bitsValue_take_succ {l : List Bool} {n : Nat} (h : n < l.length) :
    bitsValue (l.take (n + 1)) = 2 * bitsValue (l.take n) + (l[n]).toNat := by
  rw [List.take_succ_eq_append_getElem h, bitsValue_append_one]

theorem sees_zero {future seen : List Bool} (h : Sees 0 future seen) : future = seen := by
  obtain ⟨b, rest, h1, h2⟩ := h
  rw [h1, h2]; rfl

/-- A window over `b :: l` takes its next bit from `l` (one shift of R205). -/
theorem window_cons {b : Bool} {l : List Bool} (h : 32 ≤ l.length) :
    bitsValue ((b :: l).take 32) = b.toNat * 2 ^ 31 + bitsValue (l.take 31) ∧
      (b :: l).drop 32 = l[31] :: l.drop 32 ∧
        bitsValue (l.take 32) = 2 * bitsValue (l.take 31) + (l[31]).toNat ∧ bitsValue (l.take 31) < 2 ^ 31 := by
  have hlen : (l.take 31).length = 31 := by rw [List.length_take]; omega
  refine ⟨?_, ?_, bitsValue_take_succ (by omega), ?_⟩
  · rw [List.take_succ_cons, bitsValue_cons, hlen]
  · rw [List.drop_succ_cons, List.drop_eq_getElem_cons (by omega)]
  · have := bitsValue_lt (l.take 31); rwa [hlen] at this

/-- Where each shift applies (R174 to R176). -/
theorem bitCase_bounds {low high : Nat} {sh : Shift} (h : bitCase low high = some sh) :
    (sh = .e1 ∧ high < Config.half) ∨ (sh = .e2 ∧ Config.half ≤ low) ∨
      (sh = .e3 ∧ Config.quarter ≤ low ∧ high < Config.threeQuarters) := by
  unfold bitCase at h
  generalize Config.half = x at *
  generalize Config.quarter = y at *
  generalize Config.threeQuarters = z at *
  split at h
  · injection h with h; exact .inl ⟨h.symm, ‹_›⟩
  · split at h
    · injection h with h; exact .inr (.inl ⟨h.symm, ‹_›⟩)
    · split at h
      · injection h with h; exact .inr (.inr ⟨h.symm, ‹_›⟩)
      · cases h

/-- A window whose first two bits stand before 30 or more others. -/
theorem two_then {b c : Bool} {l : List Bool} (h : 30 ≤ l.length) :
    bitsValue ((b :: c :: l).take 32) = b.toNat * 2 ^ 31 + (c.toNat * 2 ^ 30 + bitsValue (l.take 30)) := by
  have hlen : (l.take 30).length = 30 := by rw [List.length_take]; omega
  have hlen' : (c :: l.take 30).length = 31 := by rw [List.length_cons, hlen]
  rw [List.take_succ_cons, List.take_succ_cons, bitsValue_cons, hlen', bitsValue_cons, hlen]

/-- One bit taken out of the number of an E3 shift leaves the other (R175). -/
theorem quarter_out (b : Bool) (g : Nat) :
    Config.quarter ≤ b.toNat * 2 ^ 31 + ((!b).toNat * 2 ^ 30 + g) ∧
      b.toNat * 2 ^ 31 + ((!b).toNat * 2 ^ 30 + g) - Config.quarter = b.toNat * 2 ^ 30 + g := by
  have hQ : Config.quarter = 2 ^ 30 := rfl
  rw [hQ]
  cases b
  · simp only [Bool.toNat_false, Bool.not_false, Bool.toNat_true]; omega
  · simp only [Bool.toNat_false, Bool.not_true, Bool.toNat_true]; omega

/-- The value after an E3 shift. -/
theorem moved_value (x g r : Nat) : 2 * (x * 2 ^ 30 + g) + r = x * 2 ^ 31 + (2 * g + r) := by ring

theorem coderShift_e1 (c : Coder) : coderShift .e1 c =
    ⟨2 * c.low, 2 * c.high + 1, 0, c.bits ++ false :: List.replicate c.pending true⟩ := by
  simp only [coderShift, coderMove, coderEmit, shiftOffset, Nat.sub_zero, Bool.not_false]

theorem coderShift_e2 (c : Coder) : coderShift .e2 c = ⟨2 * (c.low - Config.half), 2 * (c.high - Config.half) + 1, 0,
    c.bits ++ true :: List.replicate c.pending false⟩ := by
  simp only [coderShift, coderMove, coderEmit, shiftOffset, Bool.not_true]

theorem coderShift_e3 (c : Coder) : coderShift .e3 c =
    ⟨2 * (c.low - Config.quarter), 2 * (c.high - Config.quarter) + 1, c.pending + 1, c.bits⟩ := by
  simp only [coderShift, coderMove, shiftOffset]

theorem windowRenorm_shift {sh : Shift} {low high : Nat} (hc : bitCase low high = some sh) (n v : Nat) (b : Bool)
    (l : List Bool) : windowRenorm (n + 1) ⟨low, high, v, b :: l⟩ = windowRenorm n
      ⟨2 * (low - shiftOffset sh), 2 * (high - shiftOffset sh) + 1, 2 * (v - shiftOffset sh) + b.toNat, l⟩ := by
  simp only [windowRenorm, hc]

/-- What one shift says of the encoder's and the decoder's views (R174 to R176, R205): the views before it, from those
after it. -/
def ShiftSees (c d : Coder) (future seen : List Bool) : Prop :=
  ∃ future' seen', d.bits ++ future = c.bits ++ future' ∧ Sees c.pending future' seen' ∧
    32 ≤ seen'.length ∧ c.low ≤ bitsValue (seen'.take 32) ∧ bitsValue (seen'.take 32) ≤ c.high ∧
      ∀ n, windowRenorm (n + 1) (windowOver c.low c.high seen') = windowRenorm n (windowOver d.low d.high seen)

theorem low_bits (y b H : Nat) (h : b < 2) {low high : Nat} (h1 : 2 * (low - H) ≤ 2 * y + b)
    (h2 : 2 * y + b ≤ 2 * (high - H) + 1) (hlow : H ≤ low) (hle : low ≤ high) : low ≤ H + y ∧ H + y ≤ high := by omega

theorem shift_sees_e1 {c : Coder} (hc : bitCase c.low c.high = some .e1) {seen : List Bool} (hlen : 32 ≤ seen.length)
    (h1 : 2 * c.low ≤ bitsValue (seen.take 32)) (h2 : bitsValue (seen.take 32) ≤ 2 * c.high + 1) :
    ShiftSees c ⟨2 * c.low, 2 * c.high + 1, 0, c.bits ++ false :: List.replicate c.pending true⟩ seen seen := by
  have hbit := Bool.toNat_lt (seen[31]'hlen)
  obtain ⟨w1, w2, w3, _⟩ := window_cons (b := false) hlen
  rw [Bool.toNat_false, Nat.zero_mul, Nat.zero_add] at w1
  rw [w3] at h1 h2
  refine ⟨false :: (List.replicate c.pending true ++ seen), false :: seen, ?_, ⟨false, seen, rfl, rfl⟩, ?_, ?_, ?_,
    fun n => ?_⟩
  · rw [List.append_assoc, List.cons_append]
  · rw [List.length_cons]; exact Nat.le_succ_of_le hlen
  · rw [w1]; omega
  · rw [w1]; omega
  · unfold windowOver
    rw [w1, w2, w3, windowRenorm_shift hc]
    simp only [shiftOffset, Nat.sub_zero]

theorem shift_sees_e2 {c : Coder} (hle : c.low ≤ c.high) (hc : bitCase c.low c.high = some .e2) {seen : List Bool}
    (hlen : 32 ≤ seen.length) (h1 : 2 * (c.low - Config.half) ≤ bitsValue (seen.take 32))
    (h2 : bitsValue (seen.take 32) ≤ 2 * (c.high - Config.half) + 1) : ShiftSees c
      ⟨2 * (c.low - Config.half), 2 * (c.high - Config.half) + 1, 0, c.bits ++ true :: List.replicate c.pending false⟩
      seen seen := by
  have hb : Config.half ≤ c.low := by simpa using bitCase_bounds hc
  have hH : 2 ^ 31 = Config.half := rfl
  obtain ⟨w1, w2, w3, _⟩ := window_cons (b := true) hlen
  rw [Bool.toNat_true, Nat.one_mul, hH] at w1
  rw [w3] at h1 h2
  have hin := low_bits (bitsValue (seen.take 31)) (seen[31]'hlen).toNat Config.half (Bool.toNat_lt (seen[31]'hlen))
    (low := c.low) (high := c.high) h1 h2 hb hle
  refine ⟨true :: (List.replicate c.pending false ++ seen), true :: seen, ?_, ⟨true, seen, rfl, rfl⟩, ?_, ?_, ?_,
    fun n => ?_⟩
  · rw [List.append_assoc, List.cons_append]
  · rw [List.length_cons]; exact Nat.le_succ_of_le hlen
  · rw [w1]; exact hin.1
  · rw [w1]; exact hin.2
  · unfold windowOver
    rw [w1, w2, w3, windowRenorm_shift hc]
    simp only [shiftOffset, Nat.add_sub_cancel_left]

theorem shift_sees_e3 {c : Coder} (hle : c.low ≤ c.high) (hc : bitCase c.low c.high = some .e3) {b : Bool}
    {rest : List Bool} (hlen : 31 ≤ rest.length)
    (h1 : 2 * (c.low - Config.quarter) ≤ bitsValue ((b :: rest).take 32))
    (h2 : bitsValue ((b :: rest).take 32) ≤ 2 * (c.high - Config.quarter) + 1) : ShiftSees c
      ⟨2 * (c.low - Config.quarter), 2 * (c.high - Config.quarter) + 1, c.pending + 1, c.bits⟩
      (b :: (List.replicate (c.pending + 1) (!b) ++ rest)) (b :: rest) := by
  have hb : Config.quarter ≤ c.low ∧ c.high < Config.threeQuarters := by simpa using bitCase_bounds hc
  have w0 : bitsValue ((b :: rest).take 32) = 2 * (b.toNat * 2 ^ 30 + bitsValue (rest.take 30)) + (rest[30]'hlen).toNat := by
    rw [moved_value, List.take_succ_cons, bitsValue_cons, List.length_take, Nat.min_eq_left hlen,
      bitsValue_take_succ hlen]
  have w2 : (b :: (!b) :: rest).drop 32 = (rest[30]'hlen) :: (b :: rest).drop 32 := by
    rw [List.drop_succ_cons, List.drop_succ_cons, List.drop_succ_cons, List.drop_eq_getElem_cons hlen]
  have w1 := two_then (b := b) (c := !b) (l := rest) (Nat.le_of_succ_le hlen)
  have key := quarter_out b (bitsValue (rest.take 30))
  rw [← w1] at key
  rw [w0] at h1 h2
  have hin := low_bits (b.toNat * 2 ^ 30 + bitsValue (rest.take 30)) (rest[30]'hlen).toNat Config.quarter
    (Bool.toNat_lt (rest[30]'hlen)) (low := c.low) (high := c.high) h1 h2 hb.1 hle
  have hw : Config.quarter + (b.toNat * 2 ^ 30 + bitsValue (rest.take 30)) = bitsValue ((b :: (!b) :: rest).take 32) := by
    rw [← key.2, Nat.add_sub_cancel' key.1]
  rw [hw] at hin
  refine ⟨_, b :: (!b) :: rest, rfl, ⟨b, (!b) :: rest, ?_, rfl⟩, ?_, hin.1, hin.2, fun n => ?_⟩
  · rw [List.replicate_succ', List.append_assoc, List.singleton_append]
  · rw [List.length_cons, List.length_cons]; exact Nat.le_succ_of_le (Nat.succ_le_succ hlen)
  · unfold windowOver
    rw [w2, windowRenorm_shift hc, w0]
    simp only [shiftOffset, key.2]

/-- One shift: what the encoder sees after it, it saw before it, and the decoder's window moves along (R174 to R176,
R205). -/
theorem shift_sees {sh : Shift} {c : Coder} (hle : c.low ≤ c.high) (hc : bitCase c.low c.high = some sh)
    {future seen : List Bool} (hs : Sees (coderShift sh c).pending future seen)
    (hlen : 32 ≤ seen.length) (h1 : (coderShift sh c).low ≤ bitsValue (seen.take 32))
    (h2 : bitsValue (seen.take 32) ≤ (coderShift sh c).high) : ShiftSees c (coderShift sh c) future seen := by
  cases sh with
  | e1 =>
    rw [coderShift_e1] at *
    rw [sees_zero hs]
    exact shift_sees_e1 hc hlen h1 h2
  | e2 =>
    rw [coderShift_e2] at *
    rw [sees_zero hs]
    exact shift_sees_e2 hle hc hlen h1 h2
  | e3 =>
    rw [coderShift_e3] at *
    obtain ⟨b, rest, rfl, rfl⟩ := hs
    rw [List.length_cons] at hlen
    exact shift_sees_e3 hle hc (Nat.le_of_succ_le_succ hlen) h1 h2

/-- What a shift does to the bounds. -/
theorem shift_coder {sh : Shift} {c : Coder} (hle : c.low ≤ c.high) (hb : c.high < 2 ^ 32)
    (hc : bitCase c.low c.high = some sh) : (coderShift sh c).low ≤ (coderShift sh c).high ∧
      (coderShift sh c).high < 2 ^ 32 ∧
        (coderShift sh c).high - (coderShift sh c).low + 1 = 2 * (c.high - c.low + 1) ∧ c.high - c.low + 1 ≤ 2 ^ 31 := by
  have hH : Config.half = 2 ^ 31 := rfl
  have hQ : Config.quarter = 2 ^ 30 := rfl
  have hT : Config.threeQuarters = 3 * 2 ^ 30 := rfl
  obtain ⟨rfl, h⟩ | ⟨rfl, h⟩ | ⟨rfl, h⟩ := bitCase_bounds hc <;>
    simp only [coderShift, coderMove, coderEmit, shiftOffset] <;> omega

/-- The whole loop of R178 and R203. -/
theorem renorm_sees : ∀ (n : Nat) {c : Coder}, c.low ≤ c.high → c.high < 2 ^ 32 → ∀ {future seen : List Bool},
    Sees (coderRenorm n c).pending future seen → 32 ≤ seen.length →
      (coderRenorm n c).low ≤ bitsValue (seen.take 32) → bitsValue (seen.take 32) ≤ (coderRenorm n c).high →
        ∃ future' seen', (coderRenorm n c).bits ++ future = c.bits ++ future' ∧ Sees c.pending future' seen' ∧
          32 ≤ seen'.length ∧ c.low ≤ bitsValue (seen'.take 32) ∧ bitsValue (seen'.take 32) ≤ c.high ∧
            windowRenorm n (windowOver c.low c.high seen') =
              some (windowOver (coderRenorm n c).low (coderRenorm n c).high seen) := by
  intro n
  induction n with
  | zero =>
    intro c _ _ future seen hs hl h1 h2
    exact ⟨future, seen, rfl, hs, hl, h1, h2, rfl⟩
  | succ n ih =>
    intro c hle hhigh future seen hs hl h1 h2
    cases hc : bitCase c.low c.high with
    | none =>
      simp only [coderRenorm, hc] at hs h1 h2 ⊢
      exact ⟨future, seen, rfl, hs, hl, h1, h2, by simp only [windowRenorm, windowOver, hc]⟩
    | some sh =>
      simp only [coderRenorm, hc] at hs h1 h2 ⊢
      have hnext := shift_coder hle hhigh hc
      obtain ⟨f1, s1, e1, hs1, hl1, a1, b1, r1⟩ := ih hnext.1 hnext.2.1 hs hl h1 h2
      obtain ⟨f0, s0, e0, hs0, hl0, a0, b0, r0⟩ := shift_sees hle hc hs1 hl1 a1 b1
      exact ⟨f0, s0, e1.trans e0, hs0, hl0, a0, b0, (r0 n).trans r1⟩

/-- A value in the part of an interval that a symbol has gives a count in the symbol's range (R204). -/
theorem count_in_part {range d t lc hc : Nat} (ht : 0 < t) (hr : 0 < range) (h1 : range * lc / t ≤ d)
    (h2 : d + 1 ≤ range * hc / t) : lc ≤ ((d + 1) * t - 1) / range ∧ ((d + 1) * t - 1) / range < hc := by
  have e1 : range * lc < (d + 1) * t := by
    by_contra hn
    have : d + 1 ≤ range * lc / t := (Nat.le_div_iff_mul_le ht).mpr (by omega)
    omega
  have e2 : (d + 1) * t ≤ range * hc := (Nat.le_div_iff_mul_le ht).mp h2
  constructor
  · rw [Nat.le_div_iff_mul_le hr, Nat.mul_comm lc]; omega
  · rw [Nat.div_lt_iff_lt_mul hr, Nat.mul_comm hc]
    have : 0 < (d + 1) * t := by positivity
    omega

/-- An encoder's interval between two symbols, on plain numbers (R183). -/
structure CoderOk (c : Coder) : Prop where
  exit : bitCase c.low c.high = none
  ordered : c.low ≤ c.high
  bounded : c.high < 2 ^ 32

theorem CoderOk.cases {c : Coder} (h : CoderOk c) :
    c.low < 2 ^ 31 ∧ 2 ^ 31 ≤ c.high ∧ (c.low < 2 ^ 30 ∨ 3 * 2 ^ 30 ≤ c.high) := by
  have hc := h.exit
  unfold bitCase at hc
  have hH : Config.half = 2 ^ 31 := rfl
  have hQ : Config.quarter = 2 ^ 30 := rfl
  have hT : Config.threeQuarters = 3 * 2 ^ 30 := rfl
  split at hc
  · cases hc
  · split at hc
    · cases hc
    · split at hc
      · cases hc
      · omega

theorem narrow_coder {c : Coder} (h : CoderOk c) {p : Part} (hp : p.Ok) :
    c.low ≤ (coderNarrow p.lc p.hc p.t c).low ∧ (coderNarrow p.lc p.hc p.t c).high ≤ c.high ∧
      (coderNarrow p.lc p.hc p.t c).low + 65543 ≤ (coderNarrow p.lc p.hc p.t c).high := by
  have hc := h.cases
  have ht : 0 < p.t := by have := hp.rising; have := hp.within; omega
  have hQ : Config.quarter = 2 ^ 30 := rfl
  have := narrow_bounds (range := c.high - c.low + 1) (by omega) ht hp.total hp.rising hp.within
  simp only [coderNarrow]
  generalize (c.high - c.low + 1) * p.lc / p.t = a at *
  generalize (c.high - c.low + 1) * p.hc / p.t = b at *
  omega

/-- After enough shifts no case applies (R182). -/
theorem renorm_coder : ∀ (n : Nat) {c : Coder}, c.low ≤ c.high → c.high < 2 ^ 32 →
    2 ^ 31 < (c.high - c.low + 1) * 2 ^ n → CoderOk (coderRenorm n c) := by
  intro n
  induction n with
  | zero =>
    intro c hle hb hr
    refine ⟨?_, hle, hb⟩
    cases hc : bitCase c.low c.high with
    | none => exact hc
    | some sh => have := (shift_coder hle hb hc).2.2.2; rw [Nat.pow_zero, Nat.mul_one] at hr; omega
  | succ n ih =>
    intro c hle hb hr
    simp only [coderRenorm]
    cases hc : bitCase c.low c.high with
    | none => exact ⟨hc, hle, hb⟩
    | some sh =>
      obtain ⟨h1, h2, h3, _⟩ := shift_coder hle hb hc
      refine ih h1 h2 ?_
      rw [h3]
      calc 2 ^ 31 < (c.high - c.low + 1) * 2 ^ (n + 1) := hr
        _ = 2 * (c.high - c.low + 1) * 2 ^ n := by ring

theorem coderPart_ok {c : Coder} (h : CoderOk c) {p : Part} (hp : p.Ok) : CoderOk (coderPart p c) := by
  have hn := narrow_coder h hp
  have hb := h.bounded
  exact renorm_coder 15 (by omega) (by omega) (by omega)

/-- The EOF flush: whatever 30 bits or more follow the flush's, the number lies in the final interval (R179, R212). -/
theorem finish_sees {c : Coder} (h : CoderOk c) {tail : List Bool} (hl : 30 ≤ tail.length) :
    ∃ future seen, (coderFinish c).bits ++ tail = c.bits ++ future ∧ Sees c.pending future seen ∧ 32 ≤ seen.length ∧
      c.low ≤ bitsValue (seen.take 32) ∧ bitsValue (seen.take 32) ≤ c.high ∧ seen.drop 32 = tail.drop 30 := by
  have hc := h.cases
  have hQ : Config.quarter = 2 ^ 30 := rfl
  let b : Bool := !decide (c.low < Config.quarter)
  have hlen : (tail.take 30).length = 30 := by rw [List.length_take]; omega
  have hg : bitsValue (tail.take 30) < 2 ^ 30 := by have := bitsValue_lt (tail.take 30); rwa [hlen] at this
  have w := two_then (b := b) (c := !b) hl
  refine ⟨b :: (List.replicate c.pending (!b) ++ (!b) :: tail), b :: (!b) :: tail, ?_, ⟨b, (!b) :: tail, rfl, rfl⟩,
    by simp; omega, ?_, ?_, rfl⟩
  · simp [coderFinish, coderEmit, List.replicate_succ', b]
  · rw [w]
    by_cases hq : c.low < Config.quarter <;> simp [b, hq] <;> omega
  · rw [w]
    by_cases hq : c.low < Config.quarter <;> simp [b, hq] <;> omega

/-- A decoder finds the parts that an encoder coded, whatever 30 bits or more follow the flush (R210, R211, R212). -/
theorem parts_found : ∀ (ps : List Part) {c : Coder}, CoderOk c → (∀ p ∈ ps, p.Ok) → ∀ {tail : List Bool},
    30 ≤ tail.length →
      ∃ future seen, (coderFinish (coderParts ps c)).bits ++ tail = c.bits ++ future ∧ Sees c.pending future seen ∧
        32 ≤ seen.length ∧ c.low ≤ bitsValue (seen.take 32) ∧ bitsValue (seen.take 32) ≤ c.high ∧
          ∃ v, FindsParts ps (windowOver c.low c.high seen) v ∧ v.low = (coderParts ps c).low ∧
            v.high = (coderParts ps c).high ∧ v.bits = tail.drop 30 := by
  intro ps
  induction ps with
  | nil =>
    intro c h _ tail hl
    obtain ⟨future, seen, h1, h2, h3, h4, h5, h6⟩ := finish_sees h hl
    exact ⟨future, seen, h1, h2, h3, h4, h5, _, rfl, rfl, rfl, h6⟩
  | cons p ps ih =>
    intro c h hps tail hl
    have hp := hps p (by simp)
    obtain ⟨f1, s1, e1, hs1, hl1, a1, b1, v, hv⟩ := ih (coderPart_ok h hp) (fun q hq => hps q (by simp [hq])) hl
    have hn := narrow_coder h hp
    have hb := h.bounded
    obtain ⟨f0, s0, e0, hs0, hl0, a0, b0, r0⟩ := renorm_sees 15 (c := coderNarrow p.lc p.hc p.t c) (by omega) (by omega)
      hs1 hl1 a1 b1
    have ht : 0 < p.t := by have := hp.rising; have := hp.within; omega
    have hlow : (coderNarrow p.lc p.hc p.t c).low = c.low + (c.high - c.low + 1) * p.lc / p.t := rfl
    have hhigh : (coderNarrow p.lc p.hc p.t c).high = c.low + (c.high - c.low + 1) * p.hc / p.t - 1 := rfl
    have hcount := count_in_part (range := c.high - c.low + 1) (d := bitsValue (s0.take 32) - c.low) ht (by omega)
      (lc := p.lc) (hc := p.hc) (by omega) (by omega)
    exact ⟨f0, s0, e1.trans e0, hs0, hl0, by omega, by omega, v,
      ⟨by show c.low ≤ bitsValue (s0.take 32); omega, by show bitsValue (s0.take 32) ≤ c.high; omega, hcount.1, hcount.2,
        _, r0, hv.1⟩, hv.2⟩

end Sys2Proof.Machine
end

