-- ==== Sys2Proof/Laws/Shrink.lean ====
section
/-! SUPPORT. Why `decode(B)` ends (43_decoder.md R214): narrowing to a symbol other than EOF shrinks the range, and after 89
of them in a row the range is below what R183 leaves where no shift is made. -/
namespace Sys2Proof.Machine

/-- The most that narrowing to a data symbol leaves of a range, whatever the legal table. -/
def shrink (range : Nat) : Nat := range * 16126 / 16382 + 1

theorem shrink_mono {a b : Nat} (h : a ≤ b) : shrink a ≤ shrink b :=
  Nat.succ_le_succ (Nat.div_le_div_right (Nat.mul_le_mul_right _ h))

/-- After 89 of them a range of at most `2^32` is below QUARTER + 2. -/
theorem shrink_89 : shrink^[89] (2 ^ 32) < Config.quarter + 2 := by decide +kernel

theorem div_sub_div_le {a b t : Nat} (h : b ≤ a) : a / t - b / t ≤ (a - b) / t + 1 := by
  rcases Nat.eq_zero_or_pos t with rfl | ht
  · simp
  · have h1 := Nat.div_add_mod a t
    have h2 := Nat.div_add_mod b t
    have h3 := Nat.mod_lt a ht
    have h4 := Nat.mod_lt b ht
    have h5 := Nat.div_add_mod (a - b) t
    have h6 := Nat.mod_lt (a - b) ht
    generalize a / t = x, b / t = y, (a - b) / t = z at *
    by_contra hc
    have h7 : z + 2 + y ≤ x := by omega
    have h8 := Nat.mul_le_mul_left t h7
    rw [Nat.mul_add, Nat.mul_add] at h8
    omega

theorem TableOk.entry_le {t : Table} (h : TableOk t) : ∀ i, i ≤ 257 → i ≤ tableAt t i := by
  intro i
  induction i with
  | zero => intro _; exact Nat.zero_le _
  | succ i ih => intro hi; have := ih (by omega); have := h.rising i (by omega); omega

theorem TableOk.above {t : Table} (h : TableOk t) {sym : Nat} :
    ∀ k, sym + k ≤ 257 → tableAt t sym + k ≤ tableAt t (sym + k) := by
  intro k
  induction k with
  | zero => intro _; exact le_refl _
  | succ k ih => intro hk; have := ih (by omega); have := h.rising (sym + k) (by omega); rw [← Nat.add_assoc sym k 1]; omega

/-- Every symbol leaves a count of at least 1 to each of the 256 others (R132). -/
theorem TableOk.count_le {t : Table} (h : TableOk t) {sym : Nat} (hs : sym ≤ 256) :
    tableAt t (sym + 1) - tableAt t sym + 256 ≤ total t := by
  have h1 := h.entry_le sym (by omega)
  have h2 := h.above (sym := sym + 1) (256 - sym) (by omega)
  rw [show sym + 1 + (256 - sym) = 257 by omega] at h2
  have h3 : tableAt t 257 = total t := rfl
  have h4 := h.rising sym hs
  omega

/-- Narrowing to any symbol leaves at most `shrink` of the range (R214). -/
theorem TableOk.narrowed_le {t : Table} (h : TableOk t) {sym : Nat} (hs : sym ≤ 256) (range : Nat) :
    range * tableAt t (sym + 1) / total t - range * tableAt t sym / total t ≤ shrink range := by
  have h1 := h.count_le hs
  have h2 := h.total_le
  have h3 := h.total_ge
  refine (div_sub_div_le (Nat.mul_le_mul_left _ (h.rising sym hs).le)).trans (Nat.succ_le_succ ?_)
  rw [← Nat.mul_sub, Nat.le_div_iff_mul_le (by decide)]
  generalize hc : tableAt t (sym + 1) - tableAt t sym = c at *
  have hkey : c * 16382 ≤ 16126 * total t := by omega
  have h4 : range * c / total t * total t ≤ range * c := Nat.div_mul_le_self _ _
  refine Nat.le_of_mul_le_mul_right ?_ (show 0 < total t by omega)
  calc range * c / total t * 16382 * total t = range * c / total t * total t * 16382 := by ring
    _ ≤ range * c * 16382 := Nat.mul_le_mul_right _ h4
    _ = range * (c * 16382) := by ring
    _ ≤ range * (16126 * total t) := Nat.mul_le_mul_left _ hkey
    _ = range * 16126 * total t := by ring

end Sys2Proof.Machine
end

