-- ==== Sys2Proof/Tests/Slice0.lean ====
section
/-! SUPPORT. Tests of single steps against the words and values that spec/95_test_vectors.md lists, and witnesses: for each
statement with hypotheses, a concrete state and operands that meet all of them. -/
namespace Sys2Proof.Tests
open Sys2Proof.Machine

-- One proof after another: each test evaluated by the kernel waits for the declarations before it, and so many waiting
-- at once would take a thread each.
set_option Elab.async false

/-! ### Well-formedness: an ill-formed term for each check (R80) -/

theorem test_symbol_field_refuses_512 : (Instr.encCode 512).wellFormed = false := by decide
theorem test_symbol_field_takes_511 : (Instr.encCode 511).wellFormed = true := by decide
theorem test_preload_symbol_refused : (Instr.encPreload 512).wellFormed = false ∧ (Instr.decPreload 512).wellFormed = false := by
  decide
theorem test_prob_symbol_refused : (Instr.encProb 512).wellFormed = false ∧ (Instr.decProb 512).wellFormed = false := by decide
theorem test_update_symbol_refused : (Instr.encUpdate 512).wellFormed = false ∧ (Instr.decUpdate 512).wellFormed = false := by
  decide
theorem test_selector_refused : (Instr.encRdstate 512).wellFormed = false ∧ (Instr.decRdstate 512).wellFormed = false := by
  decide
theorem test_count_field_refuses_128 : (Instr.encBits 128).wellFormed = false ∧ (Instr.decBits 128).wellFormed = false := by
  decide
theorem test_count_field_takes_127 : (Instr.encBits 127).wellFormed = true := by decide

/-! ### Decoding: words written out from R71 and R74 as RES1, N, SYM, RES0, U, FN -/

theorem test_word_enc_init : decode 0b00000000_0000000_000000000_000_0_0001#32 = .ok .encInit := by decide
theorem test_word_enc_preload : decode 0b00000000_0000000_001100001_000_0_0010#32 = .ok (.encPreload 97) := by decide
theorem test_word_enc_code : decode 0b00000000_0000000_001000001_000_0_0011#32 = .ok (.encCode 65) := by decide
theorem test_word_enc_code_eof : decode 0b00000000_0000000_100000000_000_0_0011#32 = .ok (.encCode 256) := by decide
theorem test_word_enc_prob : decode 0b00000000_0000000_100101100_000_0_0100#32 = .ok (.encProb 300) := by decide
theorem test_word_enc_symfor : decode 0b00000000_0000000_000000000_000_0_0101#32 = .ok .encSymfor := by decide
theorem test_word_enc_update : decode 0b00000000_0000000_000000001_000_0_0110#32 = .ok (.encUpdate 1) := by decide
theorem test_word_enc_rescale : decode 0b00000000_0000000_000000000_000_0_0111#32 = .ok .encRescale := by decide
theorem test_word_enc_bits : decode 0b00000000_0000011_000000000_000_0_1000#32 = .ok (.encBits 3) := by decide
theorem test_word_enc_bits_64 : decode 0b00000000_1000000_000000000_000_0_1000#32 = .ok (.encBits 64) := by decide
theorem test_word_enc_bflush : decode 0b00000000_0000000_000000000_000_0_1001#32 = .ok .encBflush := by decide
theorem test_word_enc_rdstate : decode 0b00000000_0000000_100000101_000_0_1010#32 = .ok (.encRdstate 261) := by decide
theorem test_word_dec_init : decode 0b00000000_0000000_000000000_000_1_0001#32 = .ok .decInit := by decide
theorem test_word_dec_preload : decode 0b00000000_0000000_001100010_000_1_0010#32 = .ok (.decPreload 98) := by decide
theorem test_word_dec_code : decode 0b00000000_0000000_000000000_000_1_0011#32 = .ok .decCode := by decide
theorem test_word_dec_prob : decode 0b00000000_0000000_001000001_000_1_0100#32 = .ok (.decProb 65) := by decide
theorem test_word_dec_symfor : decode 0b00000000_0000000_000000000_000_1_0101#32 = .ok .decSymfor := by decide
theorem test_word_dec_update : decode 0b00000000_0000000_100000000_000_1_0110#32 = .ok (.decUpdate 256) := by decide
theorem test_word_dec_rescale : decode 0b00000000_0000000_000000000_000_1_0111#32 = .ok .decRescale := by decide
theorem test_word_dec_bits : decode 0b00000000_0001000_000000000_000_1_1000#32 = .ok (.decBits 8) := by decide
theorem test_word_dec_rdstate : decode 0b00000000_0000000_100001000_000_1_1010#32 = .ok (.decRdstate 264) := by decide

/-- V-E-12 to V-E-15: reserved function codes. -/
theorem test_reserved_functions : decode 0x00000000#32 = .error .reservedFunction ∧
    decode 0x00000019#32 = .error .reservedFunction ∧ decode 0x0000000B#32 = .error .reservedFunction ∧
    decode 0x0000001F#32 = .error .reservedFunction := by decide
/-- V-E-16 to V-E-18: reserved bits. -/
theorem test_reserved_bits : decode 0x01000001#32 = .error .reservedBits ∧ decode 0x00000021#32 = .error .reservedBits ∧
    decode 0x00000080#32 = .error .reservedBits := by decide
/-- V-E-19, V-E-22 to V-E-24: SYM in a command that uses none. -/
theorem test_unused_sym : decode 0x00000101#32 = .error .unusedSym ∧ decode 0x00000113#32 = .error .unusedSym ∧
    decode 0x00004113#32 = .error .unusedSym ∧ decode 0x00000105#32 = .error .unusedSym := by decide
/-- V-E-20, V-E-21, V-E-25: N in a command that uses none. -/
theorem test_unused_count : decode 0x00020001#32 = .error .unusedCount ∧ decode 0x00020003#32 = .error .unusedCount ∧
    decode 0x00FE000A#32 = .error .unusedCount := by decide
/-- V-E-7: the encoder writes the word that the table lists for `enc.bits 3`. -/
theorem test_encode_enc_bits : encode (.encBits 3) = 0x00060008#32 := by decide
/-- V-E-11. -/
theorem test_encode_dec_rdstate : encode (.decRdstate 264) = 0x0001081A#32 := by decide
theorem test_decode_table_word : decodeTableWord 32 0x00004103 = some (.encCode 65) := by decide

/-! ### Small states -/

/-- ENC right after `enc.init`. -/
def encReady : State := { State.reset with enc := freshEnc }

/-- DEC as V-BIT-8 leaves it, one byte left in the source. -/
def decBitsStart : State :=
  { State.reset with
    dec := { startDec State.reset.dec with value := 0xA55AFF00, rbuf := 0x00 }
    source := { taken := [0xA5, 0x5A, 0xFF, 0x00], answers := [.answer (.byte 0x12)], thereafter := some .endOfData } }

/-- DEC as V-DEC-1 leaves it. -/
def decReady : State :=
  { State.reset with
    dec := { startDec State.reset.dec with value := 0x41BD8000, rbuf := 0x80, srcEnd := true, padUsed := 8 }
    source := { taken := [65, 189, 128], answers := [], thereafter := some .endOfData } }

/-- One step on a presented word; `p` looks at the state after. -/
def ran (w : CmdWord) (din : Operand) (s : State) (p : State → Bool) : Bool :=
  match step { s with host := [.command w din] } with
  | .next t => p t
  | .fault _ => false
  | .refused _ => false

/-! ### One step per command -/

/-- V-R-2. -/
theorem test_enc_init : ran 0x00000001 0 State.reset (fun t =>
    t.enc.low = 0 && t.enc.high = 0xFFFFFFFF && t.enc.phase = .active && total t.enc.freqs = 257 && t.status = 0) = true := by
  decide +kernel
/-- V-ENC-1. -/
theorem test_enc_code : ran 0x00004103 0 encReady (fun t =>
    t.enc.low = 0x5FA05F80 && t.enc.high = 0xDF20DEFF && t.enc.pending = 0 && t.enc.wcount = 7 && t.enc.wbuf = 0x20 &&
      total t.enc.freqs = 258) = true := by decide +kernel
/-- V-ENC-2. -/
theorem test_enc_code_eof : ran 0x00010003 0 encReady (fun t =>
    t.enc.low = 0x00FF0000 && t.sink.received = [255, 64] && t.sink.flushes = 1 && t.enc.phase = .done) = true := by
  decide +kernel
/-- V-MOD-8's numbers on ENC would take 16125 updates; three give `freqs[66] = 69` (R141's example). -/
theorem test_enc_preload : ran 0x00004102 3 encReady (fun t =>
    tableAt t.enc.freqs 65 = 65 && tableAt t.enc.freqs 66 = 69 && total t.enc.freqs = 260) = true := by decide +kernel
/-- V-MOD-3 on ENC (R142's example). -/
theorem test_enc_prob : ran 0x00004104 0 encReady (fun t =>
    t.dout = 0x0000010100420041 && tableAt t.enc.freqs 66 = 67 && t.enc.low = 0) = true := by decide +kernel
/-- V-X-7. -/
theorem test_enc_symfor : ran 0x00000005 256 encReady (fun t =>
    t.dout = 0x0100010101010100 && total t.enc.freqs = 258) = true := by decide +kernel
theorem test_enc_symfor_out_of_range : ran 0x00000005 257 encReady (fun t =>
    t.status = 5 && total t.enc.freqs = 257) = true := by decide +kernel
/-- V-MOD-1 on ENC. -/
theorem test_enc_update : ran 0x00000006 0 encReady (fun t =>
    tableAt t.enc.freqs 0 = 0 && tableAt t.enc.freqs 1 = 2 && tableAt t.enc.freqs 2 = 3 && total t.enc.freqs = 258) = true := by
  decide +kernel
/-- V-MOD-7 on ENC. -/
theorem test_enc_rescale : ran 0x00000007 0 encReady (fun t => t.enc.freqs = freshTable && t.status = 0) = true := by
  decide +kernel
/-- V-BIT-2, from V-BIT-1's writer. -/
theorem test_enc_bits : ran 0x000E0008 0x55 { encReady with enc := { freshEnc with wbuf := 5, wcount := 3 } } (fun t =>
    t.sink.received = [181] && t.enc.wcount = 2 && t.enc.wbuf = 1) = true := by decide +kernel
/-- V-BIT-6. -/
theorem test_enc_bits_65 : ran 0x00820008 1 encReady (fun t => t.status = 5 && t.enc.wcount = 0) = true := by decide +kernel
/-- V-BIT-3. -/
theorem test_enc_bflush : ran 0x00000009 0 { encReady with enc := { freshEnc with wbuf := 1, wcount := 2 } } (fun t =>
    t.sink.received = [64] && t.enc.wcount = 0 && t.sink.flushes = 1) = true := by decide +kernel
/-- V-RD-6. -/
theorem test_enc_rdstate : ran 0x0001050A 0 State.reset (fun t => t.dout = 0 && t.status = 0) = true := by decide +kernel
/-- V-RD-10. -/
theorem test_enc_rdstate_264 : ran 0x0001080A 0 State.reset (fun t => t.status = 5) = true := by decide +kernel
/-- V-DEC-1. -/
theorem test_dec_init : ran 0x00000011 0 { State.reset with source := sourceOf [65, 189, 128] } (fun t =>
    t.dec.value = 0x41BD8000 && t.dec.srcEnd && t.dec.padUsed = 8 && t.dec.rbuf = 0x80 && t.dec.rcount = 0) = true := by
  decide +kernel
/-- V-DEC-2. -/
theorem test_dec_code : ran 0x00000013 0 decReady (fun t =>
    t.dout = 0x41 && t.dec.low = 0x5FA05F80 && t.dec.high = 0xDF20DEFF && t.dec.value = 0xDEC00000 &&
      t.dec.padUsed = 15) = true := by decide +kernel
/-- V-DEC-7: the first shift needs a bit that the budget no longer has. -/
theorem test_dec_code_unexpected_eof : ran 0x00000013 0
    { State.reset with dec := { startDec State.reset.dec with value := 0, srcEnd := true, padUsed := 32 } } (fun t =>
      t.status = 2 && t.dout = 0 && t.dec.phase = .failed) = true := by decide +kernel
/-- V-MOD-11. -/
theorem test_dec_preload_zero : ran 0x00000012 0 decReady (fun t => t.dec.freqs = freshTable && t.status = 0) = true := by
  decide +kernel
/-- V-MOD-12. -/
theorem test_dec_preload_257 : ran 0x00010112 1 decReady (fun t => t.status = 5) = true := by decide +kernel
/-- V-MOD-3. -/
theorem test_dec_prob : ran 0x00004114 0 decReady (fun t =>
    t.dout = 0x0000010100420041 && tableAt t.dec.freqs 66 = 67 && total t.dec.freqs = 258) = true := by decide +kernel
/-- V-MOD-5b. -/
theorem test_dec_symfor : ran 0x00000015 65 decReady (fun t => t.dout = 0x0041010100420041) = true := by decide +kernel
/-- V-MOD-2. -/
theorem test_dec_update : ran 0x00010016 0 decReady (fun t =>
    tableAt t.dec.freqs 255 = 255 && tableAt t.dec.freqs 256 = 256 && tableAt t.dec.freqs 257 = 258) = true := by
  decide +kernel
/-- V-MOD-6: `c[7] = 4`, every other count 1, becomes 2. -/
theorem test_dec_rescale : ran 0x00000017 0
    { decReady with dec := { decReady.dec with
        freqs := tableOfList ((List.range 258).map fun i => if 7 < i then i + 3 else i) (by simp) } } (fun t =>
      countOf t.dec.freqs 7 = 2 && countOf t.dec.freqs 8 = 1 && total t.dec.freqs = 258) = true := by decide +kernel
/-- V-BIT-9. -/
theorem test_dec_bits : ran 0x00100018 0 decBitsStart (fun t =>
    t.dout = 0x12 && t.source.taken.length = 5 && t.dec.rcount = 0 && !t.dec.srcEnd) = true := by decide +kernel
/-- V-X-2: the phase is checked before the operand. -/
theorem test_dec_bits_idle : ran 0x00820018 0 State.reset (fun t => t.status = 4) = true := by decide +kernel
/-- V-RD-4. -/
theorem test_dec_rdstate : ran 0x0001041A 0 decReady (fun t => t.dout = 0x41BD8000 && t.dec = decReady.dec) = true := by
  decide +kernel
/-- V-RD-8 and V-RD-9: in Idle a defined selector answers OK, selector 266 does not. -/
theorem test_dec_rdstate_idle : ran 0x0001091A 0 State.reset (fun t => t.status = 0) = true ∧
    ran 0x00010A1A 0 State.reset (fun t => t.status = 5) = true := by decide +kernel
/-- V-X-3: the word is checked before the phase. -/
theorem test_illegal_word : ran 0x00000000 0 State.reset (fun t => t.status = 3 && t.enc = State.reset.enc) = true := by
  decide +kernel
/-- R58, R232: a failing write is IO_ERROR, and its byte is the sink's all the same (V-X-4 lists an empty sink there; the
rules win over the vectors). -/
theorem test_sink_error : ran 0x00100008 0x41
    { encReady with sink := { openSink with answers := [.answer .ioError] } } (fun t =>
      t.status = 1 && t.sink.received = [0x41] && t.enc.phase = .failed) = true := by decide +kernel
/-- V-X-5: the sink fails only its flush. -/
theorem test_sink_flush_error : ran 0x00010003 0
    { encReady with sink := { openSink with answers := [.answer .ok, .answer .ok, .answer .ioError] } } (fun t =>
      t.status = 1 && t.sink.received = [255, 64] && t.enc.phase = .failed) = true := by decide +kernel
/-- V-X-6. -/
theorem test_source_error : ran 0x00000011 0
    { State.reset with source := { sourceOf [] with answers := [.answer (.byte 1), .answer .ioError, .answer (.byte 3)] } } (fun t =>
      t.status = 1 && t.source.taken = [1] && t.dec.phase = .failed) = true := by decide +kernel
/-- A source that gives 7, and the byte 8 after a delay, then `end`. -/
def lateSource : Source := { sourceOf [] with answers := [.answer (.byte 7), .late, .answer (.byte 8)] }

/-- DEC's side at reset, with a source that gives 7 and 8 and then `end`. -/
def promptStart : DecSide := ⟨State.reset.dec, sourceOf [7, 8]⟩

/-- R248: a call not answered at once leaves the command waiting, the byte before it taken. -/
theorem test_late_source_waits : ran 0x00000011 0 { State.reset with source := lateSource } (fun t =>
    t.waiting = some (.onSource .decInit promptStart) && t.source.taken = [7]) = true := by decide +kernel
/-- R248: the device answers, and the command ends: 7 and 8 are taken, and 16 padding bits. -/
theorem test_late_source_answers :
    (match step { State.reset with waiting := some (.onSource .decInit promptStart), source := { lateSource with taken := [7] } } with
    | .next t => t.waiting = none && t.source.taken = [7, 8] && t.dec.value = 0x07080000 && t.dec.padUsed = 16 &&
        t.dec.phase = .active
    | .fault _ => false
    | .refused _ => false) = true := by decide +kernel
/-- R248: on a source that never answers the command is stuck. -/
theorem test_silent_source_waits_again :
    (match step { State.reset with waiting := some (.onSource .decInit ⟨State.reset.dec, { sourceOf [] with thereafter := none }⟩) } with
    | .next t => t.waiting = some (.onSource .decInit ⟨State.reset.dec, { sourceOf [] with thereafter := none }⟩)
    | .fault _ => false
    | .refused _ => false) = true := by decide +kernel
/-- R261: the reset input during a command that waits on a slow sink. -/
theorem test_reset_while_blocked :
    (match step { encReady with
        host := [.reset], waiting := some (.onSink .encBflush (encSide encReady)),
        sink := { openSink with answers := [.answer .ok] } } with
    | .next t => decide (t.waiting = none ∧ t.enc.phase = .idle ∧ t.status = 0 ∧ t.sink.answers = [.answer .ok])
    | .fault _ => false
    | .refused _ => false) = true := by decide
theorem test_with_fetch_word : (match step (State.reset.withFetchWord 32 0x00000001) with
    | .next t => decide (t.enc.phase = .active)
    | .fault _ => false
    | .refused _ => false) = true := by decide +kernel

/-! ### The assembler -/

/-- R106's example line. -/
theorem test_assemble_bits : assembleLine ['e', 'n', 'c', '.', 'b', 'i', 't', 's', ' ', '3', ',', ' ', '0', 'b', '1', '0', '1']
    = .ok [.command 0x00060008 5] := by decide +kernel
theorem test_assemble_comment : assembleLine [';', ' ', 'x'] = .ok [] := by decide
/-- R81: `enc.byte` refuses 256. -/
theorem test_assemble_byte_256 : assembleLine ['e', 'n', 'c', '.', 'b', 'y', 't', 'e', ' ', '2', '5', '6'] =
    .error .operandTooLarge := by decide
/-- R80: a character in quotes, with SYM = 0x41 (V-E-3). -/
theorem test_assemble_char : assembleLine ['e', 'n', 'c', '.', 'c', 'o', 'd', 'e', ' ', '\'', 'A', '\''] =
    .ok [.command 0x00004103 0] := by decide +kernel

/-! ### Witnesses: the hypotheses of the statements can be met

Facts about the small states first. -/

theorem encReady_writer : WriterOk encReady.enc := ⟨by decide, by decide⟩
theorem encReady_sink : SinkReady encReady.sink := ⟨by simp [encReady, State.reset], rfl⟩
theorem encReady_interval : IntervalOk (encInterval encReady.enc) := ⟨by decide, by decide, by decide⟩
theorem encReady_table : TableOk encReady.enc.freqs := freshTable_ok
theorem decReady_table : TableOk decReady.dec.freqs := freshTable_ok
theorem decReady_interval : IntervalOk (decInterval decReady.dec) := ⟨by decide, by decide, by decide⟩
theorem decReady_value : ValueOk decReady.dec := ⟨by decide, by decide⟩
theorem decReady_source : SourceGives decReady.source [] := ⟨rfl, rfl⟩
theorem decBitsStart_source : SourceGives decBitsStart.source [0x12] := ⟨rfl, rfl⟩

/-- Two units between two commands, tables and intervals equal, DIN in symbol 65's range. -/
def bothReady : State := { decReady with enc := freshEnc, din := 65 }

theorem witness_DecodeOfEncode : (Instr.encCode 511).wellFormed = true ∧ (Instr.decBits 127).wellFormed = true := by decide
theorem witness_DecodedWordIsItsEncoding : decode 0x00FE0018#32 = .ok (.decBits 127) := by decide
theorem witness_IllegalWordsExactly :
    decode 0x00000000#32 = .error .reservedFunction ∧
      ({ State.reset with host := [.command 0x00000000#32 7] } : State).host = [.command 0x00000000#32 7] ∧
      ({ State.reset with host := [.command 0x00000000#32 7] } : State).waiting = none := by decide
/-- An operand text of each form (a number in each base, and a character), a string, and an accepted line. -/
theorem witness_AssemblerEmitsCommands :
    OperandText ['6', '5'] 65 ∧ OperandText ['0', 'x', '4', '1'] 65 ∧ OperandText ['0', 'b', '1'] 1 ∧
    OperandText ['\'', 'A', '\''] 65 ∧ (∀ c ∈ ['a', ' ', ';'], c.toNat < 256 ∧ c ≠ '"') ∧
    assembleLine ['e', 'n', 'c', '.', 'e', 'o', 'f'] = .ok [.command 0x00010003 0] :=
  ⟨.inl (by decide +kernel), .inl (by decide +kernel), .inl (by decide +kernel), .inr ⟨'A', rfl, by decide, rfl⟩, by simp,
    by decide +kernel⟩
/-- The clauses at the ends of their ranges: SYM 511 and 512, N 127 and 128, DIN 2^64 - 1 and 2^64. -/
theorem witness_AssemblerEmitsCommands_ranges :
    assembleLine (asmLine (encDot ++ ['c', 'o', 'd', 'e']) [['5', '1', '1']]) = .ok [.command (encode (.encCode 511)) 0] ∧
    assembleLine (asmLine (encDot ++ ['c', 'o', 'd', 'e']) [['5', '1', '2']]) = .error .operandTooLarge ∧
    assembleLine (asmLine (decDot ++ ['b', 'i', 't', 's']) [['1', '2', '7']] ++ [';', 'x']) =
      .ok [.command (encode (.decBits 127)) 0] ∧
    assembleLine (asmLine (decDot ++ ['b', 'i', 't', 's']) [['1', '2', '8']]) = .error .operandTooLarge ∧
    assembleLine (asmLine (decDot ++ ['s', 'y', 'm', 'f', 'o', 'r']) ['0' :: 'x' :: List.replicate 16 'f']) =
      .ok [.command (encode .decSymfor) 0xFFFFFFFFFFFFFFFF] ∧
    assembleLine (asmLine (decDot ++ ['s', 'y', 'm', 'f', 'o', 'r']) ['0' :: 'x' :: '1' :: List.replicate 16 '0']) =
      .error .operandTooLarge ∧
    assembleLine (asmLine (encDot ++ ['w', 'b', 'i', 't']) [['2']]) = .error .operandTooLarge ∧
    assembleLine (asmLine (encDot ++ ['s', 't', 'r', 'i', 'n', 'g']) [['"', 'a', '"']]) =
      .ok [.command (encode .encInit) 0, .command (encode (.encCode 97)) 0, .command (encode (.encCode 256)) 0] := by
  decide +kernel
theorem witness_StepRunsDecodedCommand :
    decode 0x00000001#32 = .ok .encInit ∧ (State.reset.withFetchWord 32 1).host = [.command 0x00000001#32 0] ∧
      (State.reset.withFetchWord 32 1).waiting = none := by decide
theorem witness_StepHoldsStateWithoutEvent_idle : State.reset.host = [] ∧ State.reset.waiting = none := ⟨rfl, rfl⟩

/-- ENC with three bits buffered and a sink that never answers, and the state in which `enc.bflush` waits on it. -/
def silentSink : State :=
  { encReady with enc := { freshEnc with wbuf := 5, wcount := 3 }, sink := { openSink with thereafter := none } }
def silentWait : State := { silentSink with waiting := some (.onSink .encBflush (encSide silentSink)) }

theorem witness_StepHoldsStateWithoutEvent_enc : silentSink.waiting = none ∧ isEncCommand .encBflush = true ∧
    exec .encBflush silentSink = .next silentWait ∧ silentWait.waiting ≠ none ∧ Turn.late ∉ silentSink.sink.answers ∧
    ∀ rest, silentWait.host ≠ .reset :: rest :=
  ⟨rfl, rfl, rfl, by simp [silentWait], by simp [silentSink, openSink], by simp [silentWait, silentSink, encReady, State.reset]⟩

/-- DEC at reset with a source that never answers, and the state in which `dec.init` waits on it. -/
def silentSource : State := { State.reset with source := { sourceOf [] with thereafter := none } }
def silentSourceWait : State :=
  { silentSource with
    dec := startDec State.reset.dec
    waiting := some (.onSource .decInit (decSide silentSource)) }

theorem witness_StepHoldsStateWithoutEvent_dec : silentSource.waiting = none ∧ isEncCommand .decInit = false ∧
    exec .decInit silentSource = .next silentSourceWait ∧ silentSourceWait.waiting ≠ none ∧
    Turn.late ∉ silentSource.source.answers ∧ ∀ rest, silentSourceWait.host ≠ .reset :: rest :=
  ⟨rfl, rfl, rfl, by simp [silentSourceWait], by simp [silentSource, sourceOf],
    by simp [silentSourceWait, silentSource, State.reset]⟩
theorem witness_ResetInputResetsBothUnits : ({ silentWait with host := [.reset] } : State).host = [.reset] := rfl
theorem silentWait_resumable : Resumable silentWait := by
  intro w hw t ht
  obtain rfl : Waiting.onSink .encBflush (encSide silentSink) = w := Option.some.inj hw
  obtain rfl : silentWait = t := by
    have h : exec .encBflush (restart silentWait) = .next silentWait := rfl
    rw [show exec (waitingCommand (.onSink .encBflush (encSide silentSink))) (restart silentWait) = .next silentWait from h] at ht
    injection ht
  exact ⟨List.prefix_refl _, List.prefix_refl _⟩
/-- An Active unit, mid-stream, meets the invariant (not only reset). -/
theorem witness_StepKeepsInvariant : Inv bothReady where
  response := ⟨by decide, by decide⟩
  enc := ⟨by decide, fun _ => encReady_table, fun _ => encReady_interval, fun _ => encReady_writer⟩
  dec := ⟨by decide, by decide, fun _ => decReady_table, fun _ => decReady_interval, fun _ => decReady_value,
    fun _ => ⟨by decide, by decide⟩⟩
  resumable _ hw := nomatch hw
/-- So does a state in which a command waits on its device. -/
theorem witness_StepKeepsInvariant_waiting : Inv silentWait where
  response := ⟨by decide, by decide⟩
  enc := ⟨by decide, fun _ => freshTable_ok, fun _ => encReady_interval, fun _ => ⟨by decide, by decide⟩⟩
  dec := ⟨by decide, by decide, fun h => by simp [holdsStream, restart, silentWait, silentSink, encReady, State.reset, withEncSide] at h,
    fun h => by simp [holdsStream, restart, silentWait, silentSink, encReady, State.reset, withEncSide] at h,
    fun h => by simp [holdsStream, restart, silentWait, silentSink, encReady, State.reset, withEncSide] at h,
    fun h => by simp [holdsStream, restart, silentWait, silentSink, encReady, State.reset, withEncSide] at h⟩
  resumable := silentWait_resumable
theorem witness_BadPhaseExactly_rejects :
    legalInEveryPhase (.encCode 65) = false ∧ addressedPhase (.encCode 65) State.reset ≠ .active := by decide
theorem witness_BadPhaseExactly_converse : State.reset.waiting = none ∧
    exec (.encCode 65) State.reset = .next { State.reset with status := 4 } ∧
    ({ State.reset with status := 4 } : State).waiting = none ∧ ({ State.reset with status := 4 } : State).status = 4 :=
  ⟨rfl, rfl, rfl, rfl⟩
theorem witness_BadOperandExactly_active : addressedPhase (.encCode 257) encReady = .active ∧
    operandBad (.encCode 257) encReady := ⟨by decide, by show (256 : Nat) < 257; decide⟩
theorem witness_BadOperandExactly_anyPhase : legalInEveryPhase (.decRdstate 266) = true ∧
    operandBad (.decRdstate 266) State.reset := ⟨rfl, by show (265 : Nat) < 266; decide⟩
theorem witness_BadOperandExactly_converse : State.reset.waiting = none ∧
    exec (.decRdstate 266) State.reset = .next { State.reset with status := 5 } ∧
    ({ State.reset with status := 5 } : State).waiting = none := ⟨rfl, rfl, rfl⟩
theorem witness_ResponseOfEveryCommand : State.reset.waiting = none ∧
    exec .encInit State.reset = .next encReady ∧ encReady.waiting = none := ⟨rfl, rfl, rfl⟩

/-- ENC with a sink that fails, and the state that `enc.bflush` leaves. -/
def failingSink : State := { encReady with sink := { openSink with answers := [.answer .ioError] } }
def failedEnc : State :=
  { failingSink with enc := unspecifiedEnc 0 .failed, sink := openSink, status := 1, draws := 1 }

theorem witness_FatalErrorFailsItsUnit : failingSink.waiting = none ∧ exec .encBflush failingSink = .next failedEnc ∧
    failedEnc.waiting = none ∧ failedEnc.status = 1 := ⟨rfl, rfl, rfl, rfl⟩
theorem witness_FatalErrorsComeFromDeviceCommands : failingSink.waiting = none ∧
    exec .encBflush failingSink = .next failedEnc ∧ failedEnc.waiting = none ∧ failedEnc.status = 1 := ⟨rfl, rfl, rfl, rfl⟩
/-- The second clause: `dec.bits 21` past the budget (V-BIT-12) ends with UNEXPECTED_EOF. -/
theorem witness_FatalErrorsComeFromDeviceCommands_eof :
    ran 0x002A0018 0 { decReady with dec := { decReady.dec with padUsed := 12 } } (fun t =>
      t.status = 2 && t.waiting = none) = true := by decide +kernel
/-- A sink that accepts one byte and fails the second write, once; `enc.bits 16` makes two. -/
def failingSecond : State := { encReady with sink := { openSink with answers := [.answer .ok, .answer .ioError] } }

theorem witness_SinkErrorFailsEncoder : isEncCommand (.encBits 16) = true ∧ failingSecond.waiting = none ∧
    (match exec (.encBits 16) { failingSecond with sink := openFrom failingSecond.sink } with
    | .next t₀ => decide (1 < callsMade failingSecond.sink t₀.sink)
    | .fault _ => false
    | .refused _ => false) = true ∧ SinkStopsAt failingSecond.sink 1 (some .ioError) :=
  ⟨rfl, rfl, by decide +kernel, .inl ⟨[], rfl⟩⟩
/-- A sink whose standing answer is `io_error`: every call of `enc.code 256` meets it, the flush of an empty writer too. -/
def failingSinkForEver : State := { encReady with sink := { openSink with thereafter := some .ioError } }

theorem witness_SinkErrorFailsEncoder_standing : failingSinkForEver.enc.phase = .active ∧
    WriterOk failingSinkForEver.enc ∧ SinkStopsAt failingSinkForEver.sink 0 (some .ioError) ∧ (8 : Nat) ≤ 64 ∧
    8 ≤ failingSinkForEver.enc.wcount.toNat + 8 ∧ TableOk failingSinkForEver.enc.freqs ∧
    IntervalOk (encInterval failingSinkForEver.enc) ∧
    (match exec .encBflush { failingSinkForEver with sink := openFrom failingSinkForEver.sink } with
    | .next t₀ => decide (0 < callsMade failingSinkForEver.sink t₀.sink)
    | .fault _ => false
    | .refused _ => false) = true :=
  ⟨rfl, encReady_writer, .inr ⟨rfl, rfl⟩, by decide, by decide, encReady_table, encReady_interval, by decide +kernel⟩
/-- A data symbol that completes a byte: `enc.code 65` with one bit buffered emits seven more (V-ENC-1). -/
theorem witness_SinkErrorFailsEncoder_symbol :
    8 ≤ ({ freshEnc with wcount := 1 } : EncUnit).wcount.toNat
      + (coderSymbol 65 freshTable (coderOf { freshEnc with wcount := 1 })).bits.length ∧
    WriterOk { freshEnc with wcount := 1 } := ⟨by decide +kernel, by decide, by decide⟩
/-- Three bytes and then an error, once; and an error from the start on, standing. -/
theorem witness_SourceErrorFailsDecoder_init :
    (([1, 2, 3] : List Byte).length < 4 ∧
      SourceStopsAt ⟨[], [.answer (.byte 1), .answer (.byte 2), .answer (.byte 3), .answer .ioError], some .endOfData⟩ [1, 2, 3]
        (some .ioError)) ∧
    SourceStopsAt { sourceOf [] with thereafter := some .ioError } [] (some .ioError) :=
  ⟨⟨by decide, .inl ⟨[], rfl⟩⟩, .inr ⟨rfl, rfl⟩⟩

/-- DEC after priming with `41 BD 80 00` (V-DEC-1's stream and a zero byte), no bit buffered. -/
def primedDec : DecUnit := { startDec State.reset.dec with value := 0x41BD8000 }

/-- DEC so, on a source that gives no byte more and answers `a` from now on. -/
def decPrimed (a : Option SourceAnswer) : State :=
  { State.reset with dec := primedDec, source := { sourceOf [] with thereafter := a } }

theorem decPrimed_stops (a : Option SourceAnswer) : SourceStopsAt (decPrimed a).source [] a := .inr ⟨rfl, rfl⟩
/-- What the clauses of `dec.bits` ask, at both ends of the range of `n`, and of `dec.code`: symbol 65 is selected, and its
first shift finds no bit (V-DEC-2 makes seven). -/
theorem primedDec_clauses : primedDec.phase = .active ∧ primedDec.srcEnd = false ∧
    (primedDec.rcount.toNat + 8 * ([] : List Byte).length < 1 ∧ (64 : Nat) ≤ 64) ∧
    TableOk primedDec.freqs ∧ IntervalOk (decInterval primedDec) ∧ ValueOk primedDec ∧ (65 : Nat) ≤ 256 ∧
    tableAt primedDec.freqs 65 ≤ windowCount (knownWindow primedDec []) (total primedDec.freqs) ∧
    windowCount (knownWindow primedDec []) (total primedDec.freqs) < tableAt primedDec.freqs (65 + 1) ∧
    windowSymbol 65 primedDec.freqs (knownWindow primedDec []) = none :=
  ⟨rfl, rfl, by decide, freshTable_ok, ⟨by decide, by decide, by decide⟩, ⟨by decide, by decide⟩, by decide,
    by decide +kernel, by decide +kernel, by decide +kernel⟩
theorem witness_SourceErrorFailsDecoder : SourceStopsAt (decPrimed (some .ioError)).source [] (some .ioError) ∧
    (decPrimed (some .ioError)).dec = primedDec := ⟨decPrimed_stops _, rfl⟩
/-- `enc.bits 16` on a sink that answers the first write at once and the second late. -/
theorem witness_UnansweredCallLeavesCommandWaiting_sink :
    isEncCommand (.encBits 16) = true ∧ encReady.waiting = none ∧
    SinkStopsAt ⟨[], 0, 0, [.answer .ok, .late], some .ok⟩ 1 none ∧ SinkStopsAt silentSink.sink 0 none ∧
    (match exec (.encBits 16) { encReady with sink := openSink } with
    | .next t₀ => decide (1 < callsMade ⟨[], 0, 0, [.answer .ok, .late], some .ok⟩ t₀.sink)
    | .fault _ => false
    | .refused _ => false) = true :=
  ⟨rfl, rfl, .inl ⟨[], rfl⟩, .inr ⟨rfl, rfl⟩, by decide +kernel⟩
/-- A source that never answers, and one that answers late, on each clause. -/
theorem witness_UnansweredCallLeavesCommandWaiting_source : (decPrimed none).waiting = none ∧
    SourceStopsAt (decPrimed none).source [] none ∧ (decPrimed none).dec = primedDec ∧
    SourceStopsAt lateSource [7] none ∧ ([7] : List Byte).length < 4 :=
  ⟨rfl, decPrimed_stops _, rfl, .inl ⟨[.answer (.byte 8)], rfl⟩, by decide⟩
theorem witness_UnansweredCallLeavesCommandWaiting_resumes : silentSink.waiting = none ∧
    exec .encBflush silentSink = .next silentWait ∧ silentWait.waiting ≠ none ∧ ∀ rest, silentWait.host ≠ .reset :: rest :=
  ⟨rfl, rfl, witness_StepHoldsStateWithoutEvent_enc.2.2.2.1, witness_StepHoldsStateWithoutEvent_enc.2.2.2.2.2⟩
theorem witness_EncPhaseTransitions : State.reset.waiting = none ∧ exec .encInit State.reset = .next encReady ∧
    encReady.waiting = none ∧ exec .encInit failedEnc ≠ .next failedEnc := ⟨rfl, rfl, rfl, by
      intro h; injection h with h; exact absurd (congrArg (fun s => s.enc.phase) h) (by simp [respond, freshEnc, failedEnc, unspecifiedEnc])⟩
/-- Each transition of ENC that is not INIT's: Done after `enc.code 256`, Failed after an error, and none else. -/
theorem witness_EncPhaseTransitions_other :
    ran 0x00010003 0 encReady (fun t => t.status = 0 && t.waiting = none && t.enc.phase = .done) = true ∧
    ran 0x00000009 0 failingSink (fun t => t.status = 1 && t.waiting = none && t.enc.phase = .failed) = true ∧
    ran 0x00004103 0 encReady (fun t => t.waiting = none && t.enc.phase = .active) = true := by decide +kernel
/-- Each transition of DEC: INIT's two, Done after EOF (V-DEC-4), Failed (V-DEC-7), and none else (V-DEC-2). -/
theorem witness_DecPhaseTransitions :
    ran 0x00000011 0 State.reset (fun t => t.status = 0 && t.waiting = none && t.dec.phase = .active) = true ∧
    ran 0x00000011 0 { State.reset with source := { sourceOf [] with answers := [.answer .ioError] } } (fun t =>
      t.status = 1 && t.waiting = none && t.dec.phase = .failed) = true ∧
    ran 0x00000013 0 { decReady with dec := { decReady.dec with value := 0xFF400000 } } (fun t =>
      t.dout = 256 && t.waiting = none && t.dec.phase = .done) = true ∧
    ran 0x00000013 0 { decReady with dec := { decReady.dec with value := 0, padUsed := 32 } } (fun t =>
      t.status = 2 && t.waiting = none && t.dec.phase = .failed) = true ∧
    ran 0x00000013 0 decReady (fun t => t.dout = 65 && t.waiting = none && t.dec.phase = .active) = true := by
  decide +kernel
theorem witness_UnitsAreIndependent : exec .encInit State.reset = .next encReady ∧ isEncCommand .encInit = true ∧
    exec .decRescale State.reset = .next { State.reset with status := 4 } ∧ isEncCommand .decRescale = false :=
  ⟨rfl, rfl, rfl, rfl⟩
theorem witness_StreamsOnlyGrow : Resumable State.reset ∧ step State.reset = .next State.reset := ⟨fun _ h => (nomatch h), rfl⟩
/-- In a waiting state too. -/
theorem witness_StreamsOnlyGrow_waiting : Resumable silentWait ∧ step silentWait = .next silentWait :=
  ⟨silentWait_resumable, rfl⟩
theorem witness_UnusedDinIsIgnored : usesDin .encInit = false ∧ exec .encInit State.reset = .next encReady := ⟨rfl, rfl⟩
/-- The fault clause: an Active ENC whose table holds only zeros (no run reaches it) faults on `enc.code 0`. -/
theorem witness_UnusedDinIsIgnored_fault : usesDin (.encCode 0) = false ∧
    (match exec (.encCode 0) { encReady with enc := { freshEnc with freqs := zeroTable } } with
    | .fault f => decide (f = .divideByZero)
    | .next _ => false
    | .refused _ => false) = true := by decide +kernel
theorem witness_CommandDependsOnItsSideOnly_enc : isEncCommand .encInit = true ∧
    ({ State.reset with dout := 9 } : State).enc = State.reset.enc ∧
    ({ State.reset with dout := 9 } : State).waiting = none ∧ exec .encInit State.reset = .next encReady :=
  ⟨rfl, rfl, rfl, rfl⟩
theorem witness_CommandDependsOnItsSideOnly_dec : isEncCommand .decRescale = false ∧
    encReady.dec = State.reset.dec ∧ encReady.source = State.reset.source ∧ encReady.waiting = none ∧
    exec .decRescale State.reset = .next { State.reset with status := 4 } := ⟨rfl, rfl, rfl, rfl, rfl⟩
/-- Both ends of the range of `n`. -/
theorem witness_EncBitsAppendsBits : encReady.enc.phase = .active ∧ (0 : Nat) ≤ 64 ∧ (64 : Nat) ≤ 64 ∧
    WriterOk encReady.enc ∧ SinkReady encReady.sink := ⟨rfl, by decide, by decide, encReady_writer, encReady_sink⟩
theorem witness_EncBitsAppendsBits_badPhase : State.reset.enc.phase ≠ .active := by decide
theorem witness_EncBitsAppendsBits_badOperand : encReady.enc.phase = .active ∧ 64 < 65 := by decide
/-- With bits in the writer; `witness_EncBitsAppendsBits` is the state with none. -/
theorem witness_EncBflushPadsAndFlushes :
    ({ encReady with enc := { freshEnc with wbuf := 0x7F, wcount := 7 } } : State).enc.phase = .active ∧
    WriterOk ({ encReady with enc := { freshEnc with wbuf := 0x7F, wcount := 7 } } : State).enc ∧
    SinkReady ({ encReady with enc := { freshEnc with wbuf := 0x7F, wcount := 7 } } : State).sink :=
  ⟨rfl, ⟨by decide, by decide⟩, encReady_sink⟩
theorem witness_EncBflushPadsAndFlushes_badPhase : State.reset.enc.phase ≠ .active := by decide
/-- One byte and 32 padding bits: 40 bits are there, and all 40 may be asked for. -/
theorem witness_DecBitsReadsBits : decBitsStart.dec.phase = .active ∧ (40 : Nat) ≤ 64 ∧
    SourceGives decBitsStart.source [0x12] ∧ 40 ≤ (upcomingBits decBitsStart.dec [0x12]).length :=
  ⟨rfl, by decide, decBitsStart_source, by decide⟩
/-- One bit more than there is. -/
theorem witness_DecBitsPastBudgetIsUnexpectedEof : decBitsStart.dec.phase = .active ∧ (41 : Nat) ≤ 64 ∧
    SourceGives decBitsStart.source [0x12] ∧ (upcomingBits decBitsStart.dec [0x12]).length < 41 :=
  ⟨rfl, by decide, decBitsStart_source, by decide⟩
theorem witness_EncBitsByteCount : encReady.enc.phase = .active ∧ (64 : Nat) ≤ 64 ∧ WriterOk encReady.enc ∧
    SinkReady encReady.sink := ⟨rfl, by decide, encReady_writer, encReady_sink⟩
/-- The writer's side, and a fresh reader on what it sent for one three-bit call (`101` and five pad bits). -/
theorem witness_ReaderReturnsWhatWriterWrote : (∀ p ∈ [((5 : Operand), 3)], p.2 ≤ 64) ∧ encReady.enc.wbuf = 0 ∧
    encReady.enc.wcount = 0 ∧ SinkReady encReady.sink ∧
    (⟨readerReset State.reset.dec, sourceOf [0xA0]⟩ : DecSide).unit = readerReset State.reset.dec ∧
    SourceGives (sourceOf [0xA0]) [0xA0] := ⟨by decide, rfl, rfl, encReady_sink, rfl, rfl, rfl⟩
theorem witness_TableStaysLegal : TableOk freshTable ∧ 256 ≤ 256 := ⟨freshTable_ok, le_refl _⟩
theorem witness_UpdateIncrementsEntriesAbove : TableOk freshTable ∧ (0 : Nat) ≤ 256 ∧ total freshTable + 1 < Config.maxFreq :=
  ⟨freshTable_ok, by decide, by decide +kernel⟩

/-- The table of V-MOD-8: symbol 65 has count 16126, every other symbol 1. -/
def fullTable : Table := tableOfList ((List.range 258).map fun i => if 65 < i then i + 16125 else i) (by simp)

theorem fullTable_at {i : Nat} (h : i ≤ 257) : tableAt fullTable i = if 65 < i then i + 16125 else i := by
  rw [fullTable, tableAt_tableOfList (by omega)] <;> simp
  split <;> omega

/-- The second clause: the next update reaches MAX_FREQ. -/
theorem witness_UpdateIncrementsEntriesAbove_rescales : TableOk fullTable ∧ (65 : Nat) ≤ 256 ∧
    total fullTable + 1 = Config.maxFreq := by
  have ht : total fullTable = 16382 := fullTable_at (le_refl _)
  refine ⟨⟨fullTable_at (by omega), fun sym hs => ?_, by rw [ht]; decide⟩, by decide, by rw [ht]; decide⟩
  rw [fullTable_at (by omega), fullTable_at (by omega)]
  split <;> split <;> omega
theorem witness_RescaleHalvesCounts : ∀ sym, sym ≤ 256 → tableAt freshTable sym ≤ tableAt freshTable (sym + 1) :=
  fun _ hs => (freshTable_ok.rising _ hs).le

/-- The table inside V-MOD-8b's update: total 16383. -/
def reachedTable : Table := tableOfList ((List.range 258).map fun i => if 65 < i then i + 16126 else i) (by simp)

theorem reachedTable_at {i : Nat} (h : i ≤ 257) : tableAt reachedTable i = if 65 < i then i + 16126 else i := by
  rw [reachedTable, tableAt_tableOfList (by omega)] <;> simp
  split <;> omega

theorem witness_RescaleShrinksTable : tableAt reachedTable 0 = 0 ∧
    (∀ sym, sym ≤ 256 → tableAt reachedTable sym < tableAt reachedTable (sym + 1)) ∧ total reachedTable = 16383 := by
  refine ⟨reachedTable_at (by omega), fun sym hs => ?_, reachedTable_at (le_refl _)⟩
  rw [reachedTable_at (by omega), reachedTable_at (by omega)]
  split <;> split <;> omega
/-- Both ends of the range of `v` on a fresh table. -/
theorem witness_SymbolForFindsLeastSymbol : TableOk freshTable ∧ 0 < total freshTable ∧ 256 < total freshTable :=
  ⟨freshTable_ok, by decide +kernel, by decide +kernel⟩
theorem witness_PreloadReplaysUpdates : TableOk freshTable ∧ (256 : Nat) ≤ 256 := ⟨freshTable_ok, le_refl _⟩
theorem witness_PreloadSeedsTable : (encReady.enc.phase = .active ∧ 256 ≤ 256 ∧ TableOk encReady.enc.freqs) ∧
    (decReady.dec.phase = .active ∧ 256 ≤ 256 ∧ TableOk decReady.dec.freqs) ∧ State.reset.enc.phase ≠ .active ∧
    State.reset.dec.phase ≠ .active ∧ 256 < 257 :=
  ⟨⟨rfl, le_refl _, encReady_table⟩, ⟨rfl, le_refl _, decReady_table⟩, by decide, by decide, by decide⟩
theorem witness_ProbAnswersRangeBeforeUpdate : (encReady.enc.phase = .active ∧ 256 ≤ 256 ∧ TableOk encReady.enc.freqs) ∧
    (decReady.dec.phase = .active ∧ 256 ≤ 256 ∧ TableOk decReady.dec.freqs) ∧ State.reset.enc.phase ≠ .active ∧
    State.reset.dec.phase ≠ .active ∧ 256 < 257 := witness_PreloadSeedsTable
/-- DIN at 256, the last value in range, and at 257, the first out of it. -/
theorem witness_SymforAnswersSymbolAndRange :
    (encReady.enc.phase = .active ∧ ({ encReady with din := 256 } : State).din.toNat < total encReady.enc.freqs ∧
      total encReady.enc.freqs ≤ ({ encReady with din := 257 } : State).din.toNat ∧ TableOk encReady.enc.freqs) ∧
    (decReady.dec.phase = .active ∧ ({ decReady with din := 256 } : State).din.toNat < total decReady.dec.freqs ∧
      total decReady.dec.freqs ≤ ({ decReady with din := 257 } : State).din.toNat ∧ TableOk decReady.dec.freqs) ∧
    State.reset.enc.phase ≠ .active ∧ State.reset.dec.phase ≠ .active :=
  ⟨⟨rfl, by decide +kernel, by decide +kernel, encReady_table⟩, ⟨rfl, by decide +kernel, by decide +kernel, decReady_table⟩,
    by decide, by decide⟩
theorem witness_UpdateCommandUpdatesTable : (encReady.enc.phase = .active ∧ 256 ≤ 256 ∧ TableOk encReady.enc.freqs) ∧
    (decReady.dec.phase = .active ∧ 256 ≤ 256 ∧ TableOk decReady.dec.freqs) ∧ State.reset.enc.phase ≠ .active ∧
    State.reset.dec.phase ≠ .active ∧ 256 < 257 := witness_PreloadSeedsTable
theorem witness_RescaleCommandRescalesTable : (encReady.enc.phase = .active ∧ TableOk encReady.enc.freqs ∧
      encReady.enc.freqs = freshTable) ∧ (decReady.dec.phase = .active ∧ TableOk decReady.dec.freqs ∧
      decReady.dec.freqs = freshTable) ∧ State.reset.enc.phase ≠ .active ∧ State.reset.dec.phase ≠ .active :=
  ⟨⟨rfl, encReady_table, rfl⟩, ⟨rfl, decReady_table, rfl⟩, by decide, by decide⟩
theorem witness_ProbAndSymforMakeSameUpdate : bothReady.enc.phase = .active ∧ bothReady.dec.phase = .active ∧
    TableOk bothReady.enc.freqs ∧ bothReady.dec.freqs = bothReady.enc.freqs ∧ 65 ≤ 256 ∧
    tableAt bothReady.enc.freqs 65 ≤ bothReady.din.toNat ∧ bothReady.din.toNat < tableAt bothReady.enc.freqs 66 :=
  ⟨rfl, rfl, encReady_table, rfl, by decide, by decide +kernel, by decide +kernel⟩
/-- The widest interval with the largest total, and the narrowest that R183 leaves. -/
theorem witness_NarrowComputesBounds :
    (⟨0, 0xFFFFFFFF⟩ : Interval).low.toNat ≤ (⟨0, 0xFFFFFFFF⟩ : Interval).high.toNat ∧
    Config.quarter + 2 ≤ (⟨0x3FFFFFFF, 0x80000000⟩ : Interval).high.toNat - (⟨0x3FFFFFFF, 0x80000000⟩ : Interval).low.toNat + 1 ∧
    257 ≤ 16382 ∧ 16382 ≤ 16382 ∧ 16381 < 16382 := by decide
/-- An interval for each case, at the bounds of R173, and one that no case takes. -/
theorem witness_RenormCaseSelectsShift : renormCase ⟨0x7FFFFFFE, 0x7FFFFFFF⟩ = some .e1 ∧
    renormCase ⟨0x80000000, 0x80000001⟩ = some .e2 ∧ renormCase ⟨0x40000000, 0xBFFFFFFF⟩ = some .e3 ∧
    renormCase ⟨0x3FFFFFFF, 0x80000000⟩ = none := by decide

/-- ENC with the interval `[low, high]`, three bits buffered and two pending. -/
def encAt (low high : Code) : EncSide :=
  ⟨{ freshEnc with low := low, high := high, pending := 2, wbuf := 5, wcount := 3 }, openSink⟩

theorem encAt_writer (low high : Code) : WriterOk (encAt low high).unit where
  count := by show (3 : Nat) < 8; decide
  bits := by show (5 : Nat) < 2 ^ 3; decide
theorem openSink_ready : SinkReady openSink := ⟨by simp [openSink], rfl⟩

theorem witness_EncoderShifts : (∀ low high, WriterOk (encAt low high).unit ∧ SinkReady (encAt low high).sink) ∧
    ((encAt 0 0x7FFFFFFF).unit.low.toNat ≤ (encAt 0 0x7FFFFFFF).unit.high.toNat ∧
      (encAt 0 0x7FFFFFFF).unit.high.toNat < Config.half) ∧
    ((encAt 0x80000000 0xFFFFFFFF).unit.low.toNat ≤ (encAt 0x80000000 0xFFFFFFFF).unit.high.toNat ∧
      Config.half ≤ (encAt 0x80000000 0xFFFFFFFF).unit.low.toNat) ∧
    ((encAt 0x40000000 0xBFFFFFFF).unit.low.toNat ≤ (encAt 0x40000000 0xBFFFFFFF).unit.high.toNat ∧
      Config.quarter ≤ (encAt 0x40000000 0xBFFFFFFF).unit.low.toNat ∧
      (encAt 0x40000000 0xBFFFFFFF).unit.high.toNat < Config.threeQuarters) :=
  ⟨fun _ _ => ⟨encAt_writer _ _, openSink_ready⟩, by decide, by decide, by decide⟩
theorem witness_ShiftOrderDoesNotMatter :
    ((encAt 0x40000000 0x7FFFFFFF).unit.low.toNat ≤ (encAt 0x40000000 0x7FFFFFFF).unit.high.toNat ∧
      Config.quarter ≤ (encAt 0x40000000 0x7FFFFFFF).unit.low.toNat ∧
      (encAt 0x40000000 0x7FFFFFFF).unit.high.toNat < Config.half) ∧
    ((encAt 0x80000000 0xBFFFFFFF).unit.low.toNat ≤ (encAt 0x80000000 0xBFFFFFFF).unit.high.toNat ∧
      Config.half ≤ (encAt 0x80000000 0xBFFFFFFF).unit.low.toNat ∧
      (encAt 0x80000000 0xBFFFFFFF).unit.high.toNat < Config.threeQuarters) ∧
    ∀ low high, WriterOk (encAt low high).unit ∧ SinkReady (encAt low high).sink :=
  ⟨by decide, by decide, fun _ _ => ⟨encAt_writer _ _, openSink_ready⟩⟩
theorem witness_SymbolShiftsAtMostFifteenTimes : renormCase ⟨0x40000000, 0xBFFFFFFF⟩ = some .e3 ∧
    (0x40000000#32).toNat ≤ (0xBFFFFFFF#32).toNat ∧ TableOk (encSide encReady).unit.freqs ∧
    IntervalOk (encInterval (encSide encReady).unit) ∧ WriterOk (encSide encReady).unit ∧
    SinkReady (encSide encReady).sink ∧ 256 ≤ 256 :=
  ⟨by decide, by decide, encReady_table, encReady_interval, encReady_writer, encReady_sink, le_refl _⟩
/-- The first and the last data symbol. -/
theorem witness_EncCodeRefinesSymbolCoding : encReady.enc.phase = .active ∧ 0 < 256 ∧ 255 < 256 ∧
    TableOk encReady.enc.freqs ∧ IntervalOk (encInterval encReady.enc) ∧ WriterOk encReady.enc ∧ SinkReady encReady.sink :=
  ⟨rfl, by decide, by decide, encReady_table, encReady_interval, encReady_writer, encReady_sink⟩
theorem witness_EncCodeEofFinishesStream : encReady.enc.phase = .active ∧ TableOk encReady.enc.freqs ∧
    IntervalOk (encInterval encReady.enc) ∧ WriterOk encReady.enc ∧ SinkReady encReady.sink :=
  ⟨rfl, encReady_table, encReady_interval, encReady_writer, encReady_sink⟩
/-- Also the empty source (P7), and one longer than the window. -/
theorem witness_DecInitPrimesValue : SourceGives State.reset.source [] ∧ SourceGives (sourceOf [95, 133, 65, 104, 1]) [95, 133, 65, 104, 1] :=
  ⟨⟨rfl, rfl⟩, ⟨rfl, rfl⟩⟩
theorem witness_PrimingNeverRunsOutOfBits : State.reset.waiting = none ∧
    ran 0x00000011 0 State.reset (fun t => t.status = 0 && t.waiting = none) = true := ⟨rfl, by decide +kernel⟩
/-- With enough bits: 24 padding bits left. -/
theorem witness_DecCodeRefinesSymbolDecoding : decReady.dec.phase = .active ∧ TableOk decReady.dec.freqs ∧
    IntervalOk (decInterval decReady.dec) ∧ ValueOk decReady.dec ∧ SourceGives decReady.source [] ∧
    (windowSymbol 65 decReady.dec.freqs (windowOf decReady.dec [])).isSome = true :=
  ⟨rfl, decReady_table, decReady_interval, decReady_value, decReady_source, by decide +kernel⟩

/-- DEC after priming on an empty source (V-DEC-7): no bit is left. -/
def decEmpty : State :=
  { State.reset with dec := { startDec State.reset.dec with value := 0, srcEnd := true, padUsed := 32 } }

theorem witness_DecCodeRefinesSymbolDecoding_exhausted : decEmpty.dec.phase = .active ∧ TableOk decEmpty.dec.freqs ∧
    IntervalOk (decInterval decEmpty.dec) ∧ ValueOk decEmpty.dec ∧ SourceGives decEmpty.source [] ∧
    windowSymbol 0 decEmpty.dec.freqs (windowOf decEmpty.dec []) = none :=
  ⟨rfl, freshTable_ok, ⟨by decide, by decide, by decide⟩, ⟨by decide, by decide⟩, ⟨rfl, rfl⟩, by decide +kernel⟩
theorem witness_DecCodeCompletesWithFifteenBits : decReady.dec.phase = .active ∧ TableOk decReady.dec.freqs ∧
    IntervalOk (decInterval decReady.dec) ∧ ValueOk decReady.dec ∧ SourceGives decReady.source [] ∧
    15 ≤ (upcomingBits decReady.dec []).length :=
  ⟨rfl, decReady_table, decReady_interval, decReady_value, decReady_source, by decide⟩
/-- Equal units before; both commands answer OK and DEC returns the symbol (V-ENC-1, V-DEC-2). -/
theorem witness_UnitsStayInLockstep : bothReady.waiting = none ∧ bothReady.enc.phase = .active ∧
    bothReady.dec.phase = .active ∧ bothReady.dec.freqs = bothReady.enc.freqs ∧ bothReady.dec.low = bothReady.enc.low ∧
    bothReady.dec.high = bothReady.enc.high ∧
    ran 0x00004103 0 bothReady (fun t => t.waiting = none && t.status = 0) = true ∧
    ran 0x00000013 0 bothReady (fun u => u.waiting = none && u.status = 0 && u.dout = 65) = true :=
  ⟨rfl, rfl, rfl, rfl, rfl, rfl, by decide +kernel, by decide +kernel⟩
/-- A slow sink, and a source that holds the stream of the empty sequence (S1), the second byte late, and more after it. -/
theorem witness_DecodeOfEncodedStream : (∀ p ∈ [(256, (2 : Operand))], p.1 ≤ 256) ∧ State.reset.waiting = none ∧
    SinkAnswersOk ⟨[], 0, 0, [.late, .answer .ok, .late], some .ok⟩ ∧ SinkAnswersOk State.reset.sink ∧
    SourceHolds ⟨[], [.answer (.byte 255), .late, .answer (.byte 64), .answer (.byte 9)], some (.byte 3)⟩ [255, 64] ∧
    SourceHolds (sourceOf [255, 64]) [255, 64] :=
  ⟨by decide, rfl, ⟨by simp [answersOf], rfl⟩, ⟨by simp [answersOf, State.reset], rfl⟩,
    ⟨⟨[.byte 9], by simp [answersOf]⟩, ⟨_, rfl, by simp⟩⟩, ⟨⟨[], by simp [answersOf, sourceOf]⟩, ⟨_, rfl, by simp⟩⟩⟩
/-- The empty stream and a longer one. -/
theorem witness_DecodeAlwaysEnds : (∀ p ∈ [(256, (2 : Operand))], p.1 ≤ 256) ∧ State.reset.waiting = none ∧
    SourceGives State.reset.source [] ∧ SourceGives (sourceOf [255, 64]) [255, 64] :=
  ⟨by decide, rfl, ⟨rfl, rfl⟩, ⟨rfl, rfl⟩⟩
theorem witness_RdstateReadsRegister : holdsStream encReady.enc.phase ∧
    holdsStream ({ encReady with enc := { freshEnc with phase := .done } } : State).enc.phase ∧
    holdsStream decReady.dec.phase := ⟨.inl rfl, .inr rfl, .inl rfl⟩
theorem witness_RdstateInIdleAndFailed : (State.reset.enc.phase = .idle ∧ failedEnc.enc.phase = .failed ∧ 263 ≤ 263) ∧
    (State.reset.dec.phase = .idle ∧ 265 ≤ 265) := ⟨⟨rfl, rfl, by decide⟩, rfl, by decide⟩

end Sys2Proof.Tests
end

section
/-! # The state's own statements (10_state.md)

The invariant as a step lemma: each piece of pseudocode ends in a legal unit, each command answers a legal state, and so
does each step. Then the independence of the two units. -/
namespace Sys2Proof.Machine

/-! ### The table commands on a legal table (R132, R135) -/

theorem TableOk.preload {sym : Nat} (hs : sym ≤ 256) : ∀ (n : Nat) {t : Table}, TableOk t →
    ∃ t', tablePreload sym n t = .ok t' ∧ TableOk t' := by
  intro n
  induction n with
  | zero => intro t h; exact ⟨t, rfl, h⟩
  | succ n ih =>
    intro t h
    obtain ⟨t₁, hup, hok⟩ := h.update' hs
    simpa only [tablePreload, hup] using ih hok

/-- The table command `f` does not fault on `t`, and leaves a legal table. -/
def KeepsTable (f : Table → Except Fault (Operand × Table)) (t : Table) : Prop :=
  ∃ d t', f t = .ok (d, t') ∧ TableOk t'

theorem preloadTable_keeps {t : Table} (h : TableOk t) {sym : Nat} (hs : sym ≤ 256) (n : Nat) :
    KeepsTable (preloadTable sym n) t := by
  obtain ⟨t', hp, hok⟩ := TableOk.preload hs n h
  exact ⟨_, t', by rw [preloadTable, hp], hok⟩

theorem probTable_keeps {t : Table} (h : TableOk t) {sym : Nat} (hs : sym ≤ 256) : KeepsTable (probTable sym) t := by
  obtain ⟨t', hup, hok⟩ := h.update' hs
  exact ⟨_, t', by rw [probTable, hup], hok⟩

theorem symforTable_keeps {t : Table} (h : TableOk t) {v : Nat} (hv : v < total t) : KeepsTable (symforTable v) t := by
  obtain ⟨sym, hsym, hs, _⟩ := h.symbolFor hv
  obtain ⟨t', hup, hok⟩ := h.update' hs
  exact ⟨_, t', by simp only [symforTable, hsym, hup]; rfl, hok⟩

theorem updateTable_keeps {t : Table} (h : TableOk t) {sym : Nat} (hs : sym ≤ 256) : KeepsTable (updateTable sym) t := by
  obtain ⟨t', hup, hok⟩ := h.update' hs
  exact ⟨_, t', by rw [updateTable, hup], hok⟩

theorem rescaleTable_keeps {t : Table} (h : TableOk t) : KeepsTable rescaleTable t := by
  obtain ⟨t', hr, _, hok⟩ := h.rescale
  exact ⟨_, t', by rw [rescaleTable, hr], hok⟩

/-! ### ENC's pseudocode ends in a legal unit -/

/-- A unit outside a stream has no data register to be legal (R237, R261). -/
theorem encOk_unspecified (d : Nat) {p : Phase} (hf : p ≠ .flushing) (hn : ¬holdsStream p) :
    EncOk (unspecifiedEnc d p) :=
  ⟨hf, fun h => absurd h hn, fun h => absurd h hn, fun h => absurd h hn⟩

/-- The full interval of both units after INIT (R170, R200). -/
theorem fullInterval_ok : IntervalOk ⟨0, BitVec.ofNat 32 Config.maxCode⟩ := ⟨by decide, by decide, by decide⟩

theorem freshEnc_ok : EncOk freshEnc :=
  ⟨by decide, fun _ => freshTable_ok, fun _ => fullInterval_ok, fun _ => ⟨by decide, by decide⟩⟩

theorem onEncTable_ends {f : Table → Except Fault (Operand × Table)} {x : EncSide} (h : EncOk x.unit)
    (hf : KeepsTable f x.unit.freqs) : Ends (fun y => EncOk y.unit) (onEncTable f x) := by
  obtain ⟨d, t', hr, hok⟩ := hf
  simp only [onEncTable, hr, lift_ok]
  exact ⟨h.phase, fun _ => hok, h.interval, fun hs => ⟨(h.writer hs).count, (h.writer hs).bits⟩⟩

/-- Writing bits moves nothing of a legal ENC but its writer. -/
theorem EncOk.of_writerKeeps {u : EncUnit} (h : EncOk u) {y : EncSide} (hy : WriterKeeps u y) : EncOk y.unit := by
  obtain ⟨hw, hl, hh, hf, hp⟩ := hy
  have hiv : encInterval y.unit = encInterval u := by simp only [encInterval, hl, hh]
  exact ⟨by rw [hp]; exact h.phase, by rw [hp, hf]; exact h.table, by rw [hp, hiv]; exact h.interval, fun _ => hw⟩

/-- The EOF flush ends Done, with the table and the interval it started from (R179). -/
theorem encFinish_ends {x : EncSide} (ht : TableOk x.unit.freqs) (hi : IntervalOk (encInterval x.unit))
    (hw : WriterOk x.unit) : Ends (fun y => EncOk y.unit) (encFinish x) := by
  have hstart : WriterKeeps (beginFlush x).unit (beginFlush x) := ⟨⟨hw.count, hw.bits⟩, rfl, rfl, rfl, rfl⟩
  refine ends_andThen (emitWithPending_ends _ hstart) fun _ y hy => ends_andThen (writerFlush_ends hy) fun _ z hz => ?_
  obtain ⟨hzw, hl, hh, hf, _⟩ := hz
  have hiv : encInterval z.unit = encInterval x.unit := by simp only [encInterval, hl, hh]; rfl
  refine ⟨by simp, fun _ => ?_, fun _ => ?_, fun _ => ⟨hzw.count, hzw.bits⟩⟩
  · show TableOk z.unit.freqs
    rw [hf]; exact ht
  · show IntervalOk (encInterval z.unit)
    rw [hiv]; exact hi

/-- Coding a symbol from a legal Active ENC never breaks and ends in a legal one, Done after EOF (R178, R182, R183). -/
theorem encodeSymbol_ends {sym : Nat} {x : EncSide} (h : EncOk x.unit) (hp : x.unit.phase = .active) (hs : sym ≤ 256) :
    Ends (fun y => EncOk y.unit) (encodeSymbol sym x) := by
  have hst : holdsStream x.unit.phase := .inl hp
  obtain ⟨t', iv, _, hok, hn, hwide, _⟩ := encNarrow_ok (h.table hst) (h.interval hst) hs
  have hstart : Renorming (setEncInterval { x.unit with freqs := t' } iv) 15
      { x with unit := setEncInterval { x.unit with freqs := t' } iv } :=
    ⟨⟨(h.writer hst).count, (h.writer hst).bits⟩, by simp only [setEncInterval_low, setEncInterval_high]; omega,
      range_of_narrowed hwide, rfl, rfl⟩
  simp only [encodeSymbol, hn, lift_ok]
  refine ends_andThen (encRenorm_ends 15 _ hstart (by decide)) fun _ y hy => ?_
  obtain ⟨hw, hi, hf, hph⟩ := hy
  have ht : TableOk y.unit.freqs := by rw [hf]; exact hok
  split
  · exact encFinish_ends ht hi hw
  · exact ⟨by rw [hph]; exact h.phase, fun _ => ht, fun _ => hi, fun _ => hw⟩

/-! ### DEC's pseudocode ends in a legal unit -/

theorem decOk_unspecified (d : Nat) {p : Phase} (hf : p ≠ .flushing) (hn : ¬holdsStream p) :
    DecOk (unspecifiedDec d p) :=
  ⟨hf, unspecifiedDec_padUsed d p, fun h => absurd h hn, fun h => absurd h hn, fun h => absurd h hn,
    fun h => absurd h hn⟩

theorem onDecTable_ends {f : Table → Except Fault (Operand × Table)} {x : DecSide} (h : DecOk x.unit)
    (hf : KeepsTable f x.unit.freqs) : Ends (fun y => DecOk y.unit) (onDecTable f x) := by
  obtain ⟨d, t', hr, hok⟩ := hf
  simp only [onDecTable, hr, lift_ok]
  exact ⟨h.phase, h.pad, fun _ => hok, h.interval, fun hs => ⟨(h.value hs).fromLow, (h.value hs).toHigh⟩,
    fun hs => ⟨(h.reader hs).count, (h.reader hs).ended⟩⟩

theorem DecOk.readerBounds {x : DecSide} (h : DecOk x.unit) (hs : holdsStream x.unit.phase) : ReaderBounds x :=
  ⟨h.reader hs, h.pad⟩

/-- ReadBits(n) and what follows it: the result has `n` bits, and only the reader moved (R104). -/
theorem readBits_ends {β : Type} {n : Nat} {x : DecSide} {Q : DecSide → Prop} {K : Nat → DecSide → Run DecSide β}
    (h : ReaderBounds x) (hk : ∀ v y, v < 2 ^ n → ReaderFrame x y → ReaderBounds y → Ends Q (K v y)) :
    Ends Q ((readBits n x).andThen K) := by
  have hv := readBitsFrom_value n 0 0 x (by decide)
  have hf := readBitsFrom_stops n 0 x
  have hb := readBitsFrom_bounds n 0 h
  unfold readBits
  cases hr : readBitsFrom n 0 x with
  | done v y =>
    rw [hr] at hv hf hb
    exact hk v y (by simpa using hv) hf hb
  | raised e y => trivial
  | waiting y => trivial
  | broken f => rw [hr] at hv; exact hv

/-- Reading bits moves nothing of a legal DEC but its reader. -/
theorem DecOk.of_readerFrame {x y : DecSide} (h : DecOk x.unit) (hf : ReaderFrame x y) (hb : ReaderBounds y) :
    DecOk y.unit := by
  obtain ⟨hunit, _⟩ := hf
  obtain ⟨hr, hpad⟩ := hb
  rw [hunit] at hr hpad ⊢
  exact ⟨h.phase, hpad, h.table, h.interval, fun hs => ⟨(h.value hs).fromLow, (h.value hs).toHigh⟩, fun _ => hr⟩

/-- Priming a fresh DEC never breaks: every value lies in the full interval (R200, R201). -/
theorem primeValue_ends (u : DecUnit) (src : Source) :
    Ends (fun y => DecOk y.unit) (primeValue ⟨startDec u, src⟩) := by
  have hstart : ReaderBounds ⟨startDec u, src⟩ := ⟨⟨by simp, fun _ => by simp⟩, by simp⟩
  refine readBits_ends hstart fun v y hv hf hb => ?_
  rw [narrowTo_ok (show v < 2 ^ 32 from hv), lift_ok]
  obtain ⟨hunit, _⟩ := hf
  obtain ⟨hr, hpad⟩ := hb
  rw [setValue, hunit]
  rw [hunit] at hr hpad
  refine ⟨by simp, hpad, fun _ => freshTable_ok, fun _ => fullInterval_ok, fun _ => ⟨?_, ?_⟩,
    fun _ => ⟨hr.count, hr.ended⟩⟩
  · exact Nat.zero_le _
  · exact Nat.le_pred_of_lt (BitVec.ofNat 32 v).isLt

theorem finishDec_ok {sym : Nat} {x : DecSide} (h : DecOk x.unit) (hs : holdsStream x.unit.phase) :
    DecOk (finishDec sym x).unit := by
  unfold finishDec
  split
  · exact ⟨by simp, h.pad, fun _ => h.table hs, fun _ => h.interval hs,
      fun _ => ⟨(h.value hs).fromLow, (h.value hs).toHigh⟩, fun _ => ⟨(h.reader hs).count, (h.reader hs).ended⟩⟩
  · exact h

/-- Decoding a symbol from a legal Active DEC never breaks and ends in a legal one (R203, R207, R208). -/
theorem decodeSymbol_ends {x : DecSide} (h : DecOk x.unit) (hp : x.unit.phase = .active) :
    Ends (fun y => DecOk y.unit) (decodeSymbol x) := by
  have hst : holdsStream x.unit.phase := .inl hp
  obtain ⟨sym, hsel, hs, h1, h2⟩ := selectSymbol_ok (h.table hst) (h.value hst)
  obtain ⟨t', iv, _, hok, hn, _, _, hwide, hv1, hv2⟩ :=
    decNarrow_ok (h.table hst) (h.interval hst) (h.value hst) hs h1 h2
  have hstart : DecRenorming (setDecInterval { x.unit with freqs := t' } iv) 15
      { x with unit := setDecInterval { x.unit with freqs := t' } iv } :=
    ⟨by simp only [setDecInterval_low, setDecInterval_high]; omega, ⟨hv1, hv2⟩, range_of_narrowed hwide,
      ⟨⟨(h.reader hst).count, (h.reader hst).ended⟩, h.pad⟩, rfl, rfl⟩
  simp only [decodeSymbol, hsel, hn, lift_ok]
  refine ends_andThen (decRenorm_ends 15 _ hstart (by decide)) fun _ y hy => ?_
  obtain ⟨hi, hv, ⟨hr, hpad⟩, hf, hph⟩ := hy
  have hph' : y.unit.phase = x.unit.phase := hph
  have hy : DecOk y.unit :=
    ⟨by rw [hph']; exact h.phase, hpad, fun _ => by rw [hf]; exact hok, fun _ => hi, fun _ => hv, fun _ => hr⟩
  exact finishDec_ok hy (by rw [hph']; exact hst)

/-! ### A command answers a legal state -/

theorem responseOk_respond (d : Operand) (s : State) : ResponseOk (respond d s) :=
  ⟨Nat.zero_le _, fun h => absurd rfl h⟩

/-- An error's response: a code of the table, and DOUT 0 (R73, R231). -/
theorem responseOk_error {t : State} (e : Status) (hs : t.status = statusCode e) (hd : t.dout = 0) : ResponseOk t :=
  ⟨by rw [hs]; cases e <;> decide, fun _ => hd⟩

/-- The invariant but for its clause `Resumable`, which no command needs in order to run. -/
structure Legal (s : State) : Prop where
  response : ResponseOk s
  enc : EncOk (restart s).enc
  dec : DecOk (restart s).dec

/-- A legal state in which no command is in progress. -/
structure Ready (s : State) : Prop where
  waiting : s.waiting = none
  response : ResponseOk s
  enc : EncOk s.enc
  dec : DecOk s.dec

theorem Ready.legal {s : State} (h : Ready s) : Legal s := by
  have hr := restart_none h.waiting
  exact ⟨h.response, by rw [hr]; exact h.enc, by rw [hr]; exact h.dec⟩

theorem reject_ready {s : State} (h : Ready s) (e : Status) : Ready (reject e s) :=
  ⟨h.waiting, responseOk_error e rfl rfl, h.enc, h.dec⟩

/-- The outcome is a next state (no fault, no refusal), and a legal one. -/
def AnswersLegal (o : Host.Outcome State Fault Refusal) : Prop := ∃ t, o = .next t ∧ Legal t

theorem checked_legal {s : State} (h : Ready s) {p : Phase} {ok : Bool} {run : Host.Outcome State Fault Refusal}
    (hrun : p = .active → ok = true → AnswersLegal run) : AnswersLegal (checked p ok s run) := by
  unfold checked
  split
  · split
    · exact hrun ‹_› ‹_›
    · exact ⟨_, rfl, (reject_ready h .badOperand).legal⟩
  · exact ⟨_, rfl, (reject_ready h .badPhase).legal⟩

/-- An ENC command whose run is not broken and completes in a legal unit answers a legal state: where it fails, ENC is
Failed; where it waits, what is legal is the state it started from (log 7). -/
theorem endEnc_legal {s : State} (h : Ready s) (i : Instr) {r : Run EncSide Operand}
    (hr : Ends (fun x => EncOk x.unit) r) : AnswersLegal (endEnc i s r) := by
  cases r with
  | done d x => exact ⟨_, rfl, Ready.legal ⟨h.waiting, responseOk_respond _ _, hr, h.dec⟩⟩
  | raised e x =>
    exact ⟨_, rfl, Ready.legal
      ⟨h.waiting, responseOk_error e rfl rfl, encOk_unspecified _ (by decide) (by simp [holdsStream]), h.dec⟩⟩
  | waiting x => exact ⟨_, rfl, ⟨h.response.code, h.response.result⟩, h.enc, h.dec⟩
  | broken f => exact hr.elim

/-- The same for a DEC command. -/
theorem endDec_legal {s : State} (h : Ready s) (i : Instr) {r : Run DecSide Operand}
    (hr : Ends (fun x => DecOk x.unit) r) : AnswersLegal (endDec i s r) := by
  cases r with
  | done d x => exact ⟨_, rfl, Ready.legal ⟨h.waiting, responseOk_respond _ _, h.enc, hr⟩⟩
  | raised e x =>
    exact ⟨_, rfl, Ready.legal
      ⟨h.waiting, responseOk_error e rfl rfl, h.enc, decOk_unspecified _ (by decide) (by simp [holdsStream])⟩⟩
  | waiting x => exact ⟨_, rfl, ⟨h.response.code, h.response.result⟩, h.enc, h.dec⟩
  | broken f => exact hr.elim

theorem answerRead_ready {s : State} (h : Ready s) (p : Phase) (sel : Nat) (v : Option Nat) :
    Ready (answerRead p sel v s) := by
  obtain ha | ⟨d, ha⟩ | ⟨d, ha⟩ := answerRead_cases p sel v s <;> rw [ha]
  · exact reject_ready h .badOperand
  · exact ⟨h.waiting, responseOk_respond _ _, h.enc, h.dec⟩
  · exact ⟨h.waiting, responseOk_respond _ _, h.enc, h.dec⟩

/-- A table command of ENC: checked, then run on a legal table. -/
theorem encTable_legal {s : State} (h : Ready s) (i : Instr) {ok : Bool} {f : Table → Except Fault (Operand × Table)}
    (hf : ok = true → TableOk s.enc.freqs → KeepsTable f s.enc.freqs) :
    AnswersLegal (checked s.enc.phase ok s (endEnc i s (onEncTable f (encSide s)))) :=
  checked_legal h fun hp hok => endEnc_legal h i (onEncTable_ends h.enc (hf hok (h.enc.table (.inl hp))))

/-- A table command of DEC: checked, then run on a legal table. -/
theorem decTable_legal {s : State} (h : Ready s) (i : Instr) {ok : Bool} {f : Table → Except Fault (Operand × Table)}
    (hf : ok = true → TableOk s.dec.freqs → KeepsTable f s.dec.freqs) :
    AnswersLegal (checked s.dec.phase ok s (endDec i s (onDecTable f (decSide s)))) :=
  checked_legal h fun hp hok => endDec_legal h i (onDecTable_ends h.dec (hf hok (h.dec.table (.inl hp))))

theorem le_of_symbolInRange {sym : Nat} (h : symbolInRange sym = true) : sym ≤ 256 := of_decide_eq_true h

theorem lt_of_scaledInRange {t : Table} {v : Operand} (h : scaledInRange t v = true) : v.toNat < total t :=
  of_decide_eq_true h

/-- Every command answers a legal state from a legal one in which no command is in progress. -/
theorem exec_legal {s : State} (h : Ready s) (i : Instr) : AnswersLegal (exec i s) := by
  cases i with
  | encInit => exact ⟨_, rfl, Ready.legal ⟨h.waiting, responseOk_respond _ _, freshEnc_ok, h.dec⟩⟩
  | encPreload sym => exact encTable_legal h _ fun hok ht => preloadTable_keeps ht (le_of_symbolInRange hok) _
  | encCode sym =>
    exact checked_legal h fun hp hok => endEnc_legal h _ <|
      ends_andThen (encodeSymbol_ends h.enc hp (le_of_symbolInRange hok)) fun _ _ hx => hx
  | encProb sym => exact encTable_legal h _ fun hok ht => probTable_keeps ht (le_of_symbolInRange hok)
  | encSymfor => exact encTable_legal h _ fun hok ht => symforTable_keeps ht (lt_of_scaledInRange hok)
  | encUpdate sym => exact encTable_legal h _ fun hok ht => updateTable_keeps ht (le_of_symbolInRange hok)
  | encRescale => exact encTable_legal h _ fun _ ht => rescaleTable_keeps ht
  | encBits n =>
    exact checked_legal h fun hp _ => endEnc_legal h _ <|
      ends_andThen (writeBits_ends _ n ⟨h.enc.writer (.inl hp), rfl, rfl, rfl, rfl⟩) fun _ _ hx =>
        h.enc.of_writerKeeps hx
  | encBflush =>
    exact checked_legal h fun hp _ => endEnc_legal h _ <|
      ends_andThen (writerFlush_ends ⟨h.enc.writer (.inl hp), rfl, rfl, rfl, rfl⟩) fun _ _ hx => h.enc.of_writerKeeps hx
  | encRdstate sel => exact ⟨_, rfl, (answerRead_ready h _ _ _).legal⟩
  | decInit => exact endDec_legal h _ (ends_andThen (primeValue_ends _ _) fun _ _ hx => hx)
  | decPreload sym => exact decTable_legal h _ fun hok ht => preloadTable_keeps ht (le_of_symbolInRange hok) _
  | decCode =>
    exact checked_legal h fun hp _ => endDec_legal h _ <| ends_andThen (decodeSymbol_ends h.dec hp) fun _ _ hx => hx
  | decProb sym => exact decTable_legal h _ fun hok ht => probTable_keeps ht (le_of_symbolInRange hok)
  | decSymfor => exact decTable_legal h _ fun hok ht => symforTable_keeps ht (lt_of_scaledInRange hok)
  | decUpdate sym => exact decTable_legal h _ fun hok ht => updateTable_keeps ht (le_of_symbolInRange hok)
  | decRescale => exact decTable_legal h _ fun _ ht => rescaleTable_keeps ht
  | decBits n =>
    refine checked_legal h fun hp hok => endDec_legal h _ <|
      readBits_ends (h.dec.readerBounds (x := decSide s) (.inl hp)) fun v y hv hf hb => ?_
    have hn : n ≤ 64 := of_decide_eq_true hok
    have hv64 : v < 2 ^ 64 := hv.trans_le (Nat.pow_le_pow_right (by decide) hn)
    rw [narrowTo_ok hv64, lift_ok]
    exact DecOk.of_readerFrame (x := decSide s) h.dec hf hb
  | decRdstate sel => exact ⟨_, rfl, (answerRead_ready h _ _ _).legal⟩

/-! ### The step keeps the invariant -/

/-- What a command leaves from a legal state meets the whole invariant: it can go on where it waits (R58). -/
theorem exec_inv {s : State} (h : Ready s) (i : Instr) : ∃ t, exec i s = .next t ∧ Inv t := by
  obtain ⟨t, ht, hl⟩ := exec_legal h i
  exact ⟨t, ht, hl.response, hl.enc, hl.dec, exec_resumable h.waiting ht⟩

theorem Ready.inv {s : State} (h : Ready s) : Inv s :=
  ⟨h.response, h.legal.enc, h.legal.dec, fun w hw => by rw [h.waiting] at hw; cases hw⟩

theorem Inv.ready_restart {s : State} (h : Inv s) : Ready (restart s) :=
  ⟨restart_waiting s, ⟨by rw [restart_status]; exact h.response.code,
    by rw [restart_status, restart_dout]; exact h.response.result⟩, h.enc, h.dec⟩

theorem resetBlock_ready (s : State) : Ready (resetBlock s) :=
  ⟨rfl, responseOk_error .ok rfl rfl, encOk_unspecified _ (by decide) (by simp [holdsStream]),
    decOk_unspecified _ (by decide) (by simp [holdsStream])⟩

theorem step_reset {s : State} {rest : List HostEvent} (hh : s.host = .reset :: rest) :
    step s = .next (resetBlock { s with host := rest }) := by
  simp only [step, takeEvent, hh]

/-- A word presented to the block: its command runs, or it is rejected (R78, R234). -/
theorem runWord_inv {s : State} (h : Ready s) (cmd : CmdWord) : ∃ t, runWord cmd s = .next t ∧ Inv t := by
  unfold runWord
  split
  · exact exec_inv h _
  · exact ⟨_, rfl, (reject_ready h .illegalCommand).inv⟩

/-- Settles O11: by the arrival the step takes; a command runs from a state with none in progress, which is `restart s`
where one waited (log 7). -/
theorem stepKeepsInvariant : Obligations.StepKeepsInvariant := by
  intro s h
  have hready := h.ready_restart
  cases hw : s.waiting with
  | some w =>
    by_cases hreset : ∃ rest, s.host = .reset :: rest
    · obtain ⟨rest, hh⟩ := hreset
      exact ⟨_, step_reset hh, (resetBlock_ready _).inv⟩
    · rw [step_resumes hw fun rest hh => hreset ⟨rest, hh⟩]
      exact exec_inv hready _
  | none =>
    rw [restart_none hw] at hready
    obtain ⟨_, hresp, henc, hdec⟩ := hready
    cases hh : s.host with
    | nil => exact ⟨s, by simp only [step, takeEvent, hh, hw], h⟩
    | cons e rest =>
      cases e with
      | reset => exact ⟨_, step_reset hh, (resetBlock_ready _).inv⟩
      | command cmd din =>
        have hstep : step s = runWord cmd { s with din := din, host := rest } := by
          simp only [step, takeEvent, hh, hw]
        rw [hstep]
        exact runWord_inv (s := { s with din := din, host := rest }) ⟨hw, ⟨hresp.code, hresp.result⟩, henc, hdec⟩ cmd

/-! ### The units are independent -/

/-- Settles O22: each way a command of one unit can end writes that unit, its stream and the response only. -/
theorem unitsAreIndependent : Obligations.UnitsAreIndependent := by
  intro i s t h
  cases hi : isEncCommand i with
  | true =>
    have hframe : t.host = s.host ∧ t.din = s.din ∧ t.dec = s.dec ∧ t.source = s.source := by
      obtain ⟨d, x, _, rfl⟩ | ⟨x, _, rfl⟩ | ⟨x, _, rfl⟩ | ⟨e, _, rfl⟩ | ⟨d, rfl⟩ := exec_enc_next hi h <;>
        exact ⟨rfl, rfl, rfl, rfl⟩
    obtain ⟨hhost, hdin, hdec, hsource⟩ := hframe
    exact ⟨hhost, hdin, fun _ => ⟨hdec, hsource⟩, nofun⟩
  | false =>
    have hframe : t.host = s.host ∧ t.din = s.din ∧ t.enc = s.enc ∧ t.sink = s.sink := by
      obtain ⟨d, x, _, rfl⟩ | ⟨e, x, _, _, rfl⟩ | ⟨x, _, rfl⟩ | ⟨e, _, rfl⟩ | ⟨d, rfl⟩ := exec_dec_next hi h <;>
        exact ⟨rfl, rfl, rfl, rfl⟩
    obtain ⟨hhost, hdin, henc, hsink⟩ := hframe
    exact ⟨hhost, hdin, nofun, fun _ => ⟨henc, hsink⟩⟩

end Sys2Proof.Machine
end

section
/-! # The memories (20_memory.md)

What the sink has received and what was taken from the source only grows (R58, R244). -/
namespace Sys2Proof.Machine

/-- What both streams held in `s` they hold in `t`, in the same order from the start (R58). -/
def StreamsKept (s t : State) : Prop := s.sink.received <+: t.sink.received ∧ s.source.taken <+: t.source.taken

theorem streamsKept_of_same {s t : State} (hsink : t.sink = s.sink) (hsource : t.source = s.source) :
    StreamsKept s t :=
  ⟨hsink ▸ List.prefix_refl _, hsource ▸ List.prefix_refl _⟩

/-- Each way an ENC command ends leaves the sink of its run, which keeps its bytes, or the sink it started with. -/
theorem EncEnded.sinkKept {i : Instr} {s t : State} (h : EncEnded i s t) : s.sink.received <+: t.sink.received := by
  obtain ⟨_, _, hkeeps, rfl⟩ | ⟨_, hkeeps, rfl⟩ | ⟨_, hkeeps, rfl⟩ | ⟨_, _, rfl⟩ | ⟨_, rfl⟩ := h
  · exact hkeeps
  · exact hkeeps
  · exact hkeeps
  · exact List.prefix_refl _
  · exact List.prefix_refl _

/-- Each way a DEC command ends leaves the source of its run, which keeps the bytes taken, or the source it started
with. -/
theorem DecEnded.sourceKept {i : Instr} {s t : State} (h : DecEnded i s t) : s.source.taken <+: t.source.taken := by
  obtain ⟨_, _, hkeeps, rfl⟩ | ⟨_, _, _, hkeeps, rfl⟩ | ⟨_, hkeeps, rfl⟩ | ⟨_, _, rfl⟩ | ⟨_, rfl⟩ := h
  · exact hkeeps
  · exact hkeeps
  · exact hkeeps
  · exact List.prefix_refl _
  · exact List.prefix_refl _

/-- A command keeps its own unit's stream, and leaves the other unit's alone (R20, R58). -/
theorem exec_streamsKept {i : Instr} {s t : State} (h : exec i s = .next t) : StreamsKept s t := by
  obtain ⟨_, _, hother, hother'⟩ := unitsAreIndependent i s t h
  cases hi : isEncCommand i with
  | true => exact ⟨(exec_enc_next hi h).sinkKept, (hother hi).2 ▸ List.prefix_refl _⟩
  | false => exact ⟨(hother' hi).2 ▸ List.prefix_refl _, (exec_dec_next hi h).sourceKept⟩

/-- Settles O23: by what the step is about. Nothing, a reset and an illegal word leave both devices alone; a new command
keeps both streams; and a command that goes on runs again from the state it started in, so that what it had moved when it
began to wait is kept by the premise. -/
theorem streamsOnlyGrow : Obligations.StreamsOnlyGrow := by
  intro s t hresumable h
  obtain ⟨rfl, _⟩ | ⟨_, _, rfl⟩ | ⟨w, hw, hrun⟩ | ⟨cmd, din, rest, _, _, hcmd⟩ := step_next h
  · exact streamsKept_of_same rfl rfl
  · exact streamsKept_of_same rfl rfl
  · exact hresumable w hw t hrun
  · obtain ⟨_, _, rfl⟩ | ⟨_, _, hrun⟩ := hcmd
    · exact streamsKept_of_same rfl rfl
    · exact exec_streamsKept (s := { s with din := din, host := rest }) hrun

end Sys2Proof.Machine
end

section
/-! # Command encoding (30_encoding.md)

The encoder and the decoder are inverse because both are one relation between a command and its fields, `IsRow`: the
command's row of the opcode map, with the fields it does not use 0. Then the words that are no command. -/
namespace Sys2Proof.Machine

/-! ### The fields of a word (R71) -/

theorem field_lt (w : CmdWord) (lo len : Nat) : field w lo len < 2 ^ len := Nat.mod_lt _ (by positivity)

/-- What a field of CMD holds, in the two ways the statements say it: as a slice of the word and as a number (R15). -/
theorem extractLsb'_eq_iff (w : CmdWord) (lo len : Nat) (v : BitVec len) :
    w.extractLsb' lo len = v ↔ field w lo len = v.toNat := by
  rw [BitVec.toNat_eq, BitVec.extractLsb'_toNat, Nat.shiftRight_eq_div_pow]; rfl

theorem le_extractLsb'_iff (w : CmdWord) (lo len : Nat) (v : BitVec len) :
    v ≤ w.extractLsb' lo len ↔ v.toNat ≤ field w lo len := by
  rw [BitVec.le_def, BitVec.extractLsb'_toNat, Nat.shiftRight_eq_div_pow]; rfl

/-- U is bit 4 of the word (R71). -/
theorem fieldU_eq_toNat (w : CmdWord) : fieldU w = (w.getLsbD 4).toNat := by
  rw [fieldU, field, BitVec.getLsbD, Nat.testBit_eq_decide_div_mod_eq]
  have : w.toNat / 2 ^ 4 % 2 < 2 := Nat.mod_lt _ (by decide)
  interval_cases w.toNat / 2 ^ 4 % 2 <;> simp

/-- Operands that fit the fields of a command word (R71). -/
structure FieldsFit (u fn sym n : Nat) : Prop where
  u : u < 2
  fn : fn < 16
  sym : sym < 512
  n : n < 128

theorem fieldsFit_of_word (w : CmdWord) : FieldsFit (fieldU w) (fieldFn w) (fieldSym w) (fieldN w) :=
  ⟨field_lt w 4 1, field_lt w 0 4, field_lt w 8 9, field_lt w 17 7⟩

theorem toNat_commandWord {u fn sym n : Nat} (h : FieldsFit u fn sym n) :
    (commandWord u fn sym n).toNat = n * 2 ^ 17 + sym * 2 ^ 8 + u * 2 ^ 4 + fn := by
  obtain ⟨hu, hfn, hsym, hn⟩ := h
  exact toNat_ofNat_of_lt (by omega)

/-- The six fields of the word that `commandWord` lays out. -/
theorem fields_commandWord {u fn sym n : Nat} (h : FieldsFit u fn sym n) :
    fieldRes1 (commandWord u fn sym n) = 0 ∧ fieldN (commandWord u fn sym n) = n ∧
      fieldSym (commandWord u fn sym n) = sym ∧ fieldRes0 (commandWord u fn sym n) = 0 ∧
      fieldU (commandWord u fn sym n) = u ∧ fieldFn (commandWord u fn sym n) = fn := by
  have hw := toNat_commandWord h
  obtain ⟨hu, hfn, hsym, hn⟩ := h
  simp only [fieldRes1, fieldN, fieldSym, fieldRes0, fieldU, fieldFn, field, hw]
  omega

/-- A word with its reserved bits 0 is laid out from its own fields. -/
theorem commandWord_fields {w : CmdWord} (h1 : fieldRes1 w = 0) (h0 : fieldRes0 w = 0) :
    commandWord (fieldU w) (fieldFn w) (fieldSym w) (fieldN w) = w := by
  apply BitVec.eq_of_toNat_eq
  rw [toNat_commandWord (fieldsFit_of_word w)]
  have hw := w.isLt
  simp only [fieldRes1, fieldN, fieldSym, fieldRes0, fieldU, fieldFn, field] at *
  omega

/-! ### A command's row of the opcode map (R74, R75) -/

/-- `i` is the command of the fields `u`, `fn`, `sym`, `n`, and each field it does not use is 0. -/
def IsRow (u fn sym n : Nat) (i : Instr) : Prop :=
  opcodeMap u fn sym n = some i ∧ (usesSym u fn = true ∨ sym = 0) ∧ (usesCount fn = true ∨ n = 0)

/-- The decoder accepts a word exactly if its reserved bits are 0 and its fields are a row of the map (R78). -/
theorem decode_eq_ok_iff (w : CmdWord) (i : Instr) :
    decode w = .ok i ↔
      fieldRes1 w = 0 ∧ fieldRes0 w = 0 ∧ IsRow (fieldU w) (fieldFn w) (fieldSym w) (fieldN w) i := by
  unfold decode IsRow
  split
  · rename_i hres
    simp only [reduceCtorEq, false_iff]
    tauto
  · rename_i hres
    push Not at hres
    split
    · rename_i hnone
      simp [hnone]
    · rename_i j hsome
      simp only [hsome, Option.some.injEq]
      cases usesSym (fieldU w) (fieldFn w) <;> cases usesCount (fieldFn w) <;> grind

/-- The encoder lays out a command's row: the map has 19 rows, and a field that a row does not use is 0. -/
theorem IsRow.encode_eq {u fn sym n : Nat} {i : Instr} (h : IsRow u fn sym n i) :
    encode i = commandWord u fn sym n := by
  obtain ⟨hmap, hsym, hn⟩ := h
  unfold opcodeMap at hmap
  split at hmap <;> cases hmap <;> simp_all [usesSym, usesCount, encode]

/-- A command whose operand comes from a field is well-formed. -/
theorem IsRow.wellFormed {u fn sym n : Nat} {i : Instr} (h : IsRow u fn sym n i) (hfit : FieldsFit u fn sym n) :
    i.wellFormed = true := by
  obtain ⟨hmap, -, -⟩ := h
  obtain ⟨-, -, hsym, hn⟩ := hfit
  unfold opcodeMap at hmap
  split at hmap <;> cases hmap <;> simp [Instr.wellFormed, symFits, countFits, hsym, hn]

/-- `i` has a row whose fields fit. -/
def HasRow (i : Instr) : Prop := ∃ u fn sym n, FieldsFit u fn sym n ∧ IsRow u fn sym n i

theorem hasRow_plain (u : Fin 2) (fn : Fin 16) {i : Instr} (hmap : opcodeMap u fn 0 0 = some i) : HasRow i :=
  ⟨u, fn, 0, 0, ⟨u.isLt, fn.isLt, by decide, by decide⟩, hmap, .inr rfl, .inr rfl⟩

theorem hasRow_sym (u : Fin 2) (fn : Fin 16) {sym : Nat} {i : Instr} (hfit : symFits sym = true)
    (hmap : opcodeMap u fn sym 0 = some i) (huses : usesSym u fn = true) : HasRow i :=
  ⟨u, fn, sym, 0, ⟨u.isLt, fn.isLt, of_decide_eq_true hfit, by decide⟩, hmap, .inl huses, .inr rfl⟩

theorem hasRow_count (u : Fin 2) (fn : Fin 16) {n : Nat} {i : Instr} (hfit : countFits n = true)
    (hmap : opcodeMap u fn 0 n = some i) (huses : usesCount fn = true) : HasRow i :=
  ⟨u, fn, 0, n, ⟨u.isLt, fn.isLt, by decide, of_decide_eq_true hfit⟩, hmap, .inr rfl, .inl huses⟩

/-- Every well-formed command has its row. -/
theorem hasRow_of_wellFormed {i : Instr} (h : i.wellFormed = true) : HasRow i := by
  cases i with
  | encInit => exact hasRow_plain 0 0x1 rfl
  | encPreload sym => exact hasRow_sym 0 0x2 h rfl rfl
  | encCode sym => exact hasRow_sym 0 0x3 h rfl rfl
  | encProb sym => exact hasRow_sym 0 0x4 h rfl rfl
  | encSymfor => exact hasRow_plain 0 0x5 rfl
  | encUpdate sym => exact hasRow_sym 0 0x6 h rfl rfl
  | encRescale => exact hasRow_plain 0 0x7 rfl
  | encBits n => exact hasRow_count 0 0x8 h rfl rfl
  | encBflush => exact hasRow_plain 0 0x9 rfl
  | encRdstate sel => exact hasRow_sym 0 0xA h rfl rfl
  | decInit => exact hasRow_plain 1 0x1 rfl
  | decPreload sym => exact hasRow_sym 1 0x2 h rfl rfl
  | decCode => exact hasRow_plain 1 0x3 rfl
  | decProb sym => exact hasRow_sym 1 0x4 h rfl rfl
  | decSymfor => exact hasRow_plain 1 0x5 rfl
  | decUpdate sym => exact hasRow_sym 1 0x6 h rfl rfl
  | decRescale => exact hasRow_plain 1 0x7 rfl
  | decBits n => exact hasRow_count 1 0x8 h rfl rfl
  | decRdstate sel => exact hasRow_sym 1 0xA h rfl rfl

/-- Settles O1: the command's row gives its word, and that word's fields are the row again. -/
theorem decodeOfEncode : Obligations.DecodeOfEncode := by
  intro i hwf
  obtain ⟨u, fn, sym, n, hfit, hrow⟩ := hasRow_of_wellFormed hwf
  obtain ⟨hres1, hN, hSym, hres0, hU, hFn⟩ := fields_commandWord hfit
  rw [hrow.encode_eq, decode_eq_ok_iff, hN, hSym, hU, hFn]
  exact ⟨hres1, hres0, hrow⟩

/-- Settles O2: an accepted word is laid out from its own fields, which are its command's row. -/
theorem decodedWordIsItsEncoding : Obligations.DecodedWordIsItsEncoding := by
  intro w i h
  obtain ⟨hres1, hres0, hrow⟩ := (decode_eq_ok_iff w i).mp h
  exact ⟨hrow.wellFormed (fieldsFit_of_word w), hrow.encode_eq.trans (commandWord_fields hres1 hres0)⟩

/-- Settles O4: nineteen words, one per row of the map. -/
theorem tableWordsDecode : Obligations.TableWordsDecode := by
  unfold Obligations.TableWordsDecode
  decide

/-! ### The words that are no command (R77) -/

/-- The reserved codes of the opcode map. -/
theorem opcodeMap_eq_none_iff {u fn : Nat} (hu : u < 2) (hfn : fn < 16) (sym n : Nat) :
    opcodeMap u fn sym n = none ↔ fn = 0x0 ∨ 0xB ≤ fn ∨ (fn = 0x9 ∧ u = 1) := by
  interval_cases u <;> interval_cases fn <;> simp [opcodeMap]

/-- The words the decoder rejects, on their fields. -/
theorem decode_error_iff (w : CmdWord) :
    (∃ e, decode w = .error e) ↔
      (fieldFn w = 0x0 ∨ 0xB ≤ fieldFn w ∨ (fieldFn w = 0x9 ∧ fieldU w = 1)) ∨ fieldRes1 w ≠ 0 ∨ fieldRes0 w ≠ 0 ∨
        (fieldSym w ≠ 0 ∧ usesSym (fieldU w) (fieldFn w) = false) ∨
        (fieldN w ≠ 0 ∧ usesCount (fieldFn w) = false) := by
  obtain ⟨hU, hFn, -, -⟩ := fieldsFit_of_word w
  rw [← opcodeMap_eq_none_iff hU hFn (fieldSym w) (fieldN w)]
  cases hd : decode w with
  | ok i =>
    obtain ⟨hres1, hres0, hmap, hsym, hn⟩ := (decode_eq_ok_iff w i).mp hd
    grind
  | error e =>
    cases hmap : opcodeMap (fieldU w) (fieldFn w) (fieldSym w) (fieldN w) with
    | none => simp
    | some i =>
      have hnot := (decode_eq_ok_iff w i).not.mp (by simp [hd])
      grind [IsRow]

/-- With no command in progress a step presents the host's next word, its DIN latched (R70). -/
theorem step_command {w : CmdWord} {din : Operand} {rest : List HostEvent} {s : State}
    (hh : s.host = .command w din :: rest) (hw : s.waiting = none) :
    step s = runWord w { s with din := din, host := rest } := by
  simp only [step, takeEvent, hh, hw]

/-- Settles O3: the decoder's answer on the fields, each field said on the bits of the word. -/
theorem illegalWordsExactly : Obligations.IllegalWordsExactly := by
  refine ⟨fun w => ?_, fun w e din rest s hd hh hw => ?_⟩
  · rw [decode_error_iff]
    simp only [ne_eq, extractLsb'_eq_iff, le_extractLsb'_iff, fieldU_eq_toNat, fieldRes1, fieldRes0, fieldSym, fieldN,
      fieldFn, usesSym, usesCount]
    cases w.getLsbD 4
    · grind
    · grind
  · rw [step_command hh hw, runWord, hd]
    rfl

/-- Settles O6: the word presented decodes, and its command runs. -/
theorem stepRunsDecodedCommand : Obligations.StepRunsDecodedCommand := by
  intro w i din rest s hd hh hw
  rw [step_command hh hw, runWord, hd]

end Sys2Proof.Machine
end

section
/-! # Operands (30_encoding.md)

An operand out of range is BAD_OPERAND, and nothing else is (R76); DIN where a command does not use it changes nothing
(R75). -/
namespace Sys2Proof.Machine

/-! ### BAD_OPERAND (R76, R236) -/

/-- A command that ran on ENC's side answers no error's response with nothing else changed: a result answers OK, a fatal
error draws a free value, and a wait leaves a command in progress. -/
theorem endEnc_ne_reject {i : Instr} {s : State} (r : Run EncSide Operand) {e : Status} (hw : s.waiting = none)
    (he : statusCode e ≠ 0) : endEnc i s r ≠ .next (reject e s) := by
  intro h
  obtain ⟨d, x, _, ht⟩ | ⟨e', x, _, ht⟩ | ⟨x, _, ht⟩ := endEnc_next h
  · exact he (congrArg State.status ht)
  · exact absurd (congrArg State.draws ht) (by simp)
  · have hwait := congrArg State.waiting ht
    simp [hw] at hwait

/-- The same of a command that ran on DEC's side. -/
theorem endDec_ne_reject {i : Instr} {s : State} (r : Run DecSide Operand) {e : Status} (hw : s.waiting = none)
    (he : statusCode e ≠ 0) : endDec i s r ≠ .next (reject e s) := by
  intro h
  obtain ⟨d, x, _, ht⟩ | ⟨e', x, _, ht⟩ | ⟨x, _, ht⟩ := endDec_next h
  · exact he (congrArg State.status ht)
  · exact absurd (congrArg State.draws ht) (by simp)
  · have hwait := congrArg State.waiting ht
    simp [hw] at hwait

/-- `o` is a command's meaning from `s` behind the checks of phase `p` and of its operand, bad exactly if `bad`;
past the checks it answers no rejection. -/
def ChecksOperand (p : Phase) (bad : Prop) (s : State) (o : Host.Outcome State Fault Refusal) : Prop :=
  ∃ ok run, o = checked p ok s run ∧ (bad ↔ ok = false) ∧
    (s.waiting = none → ∀ e, statusCode e ≠ 0 → run ≠ .next (reject e s))

theorem checksOperand_enc {i : Instr} {s : State} {p : Phase} {ok : Bool} {bad : Prop}
    {r : Run EncSide Operand} (hbad : bad ↔ ok = false) :
    ChecksOperand p bad s (checked p ok s (endEnc i s r)) :=
  ⟨ok, _, rfl, hbad, fun hw _ he => endEnc_ne_reject r hw he⟩

theorem checksOperand_dec {i : Instr} {s : State} {p : Phase} {ok : Bool} {bad : Prop}
    {r : Run DecSide Operand} (hbad : bad ↔ ok = false) :
    ChecksOperand p bad s (checked p ok s (endDec i s r)) :=
  ⟨ok, _, rfl, hbad, fun hw _ he => endDec_ne_reject r hw he⟩

theorem symbolBad_iff (sym : Nat) : 256 < sym ↔ symbolInRange sym = false := by simp [symbolInRange]
theorem countBad_iff (n : Nat) : 64 < n ↔ countInRange n = false := by simp [countInRange]
theorem scaledBad_iff (t : Table) (v : Operand) : total t ≤ v.toNat ↔ scaledInRange t v = false := by
  simp [scaledInRange]
theorem noOperandBad_iff : False ↔ true = false := by decide

/-- The commands that are legal in the phase Active only check their operand after their phase (R239). -/
theorem exec_checksOperand {i : Instr} (hi : legalInEveryPhase i = false) (s : State) :
    ChecksOperand (addressedPhase i s) (operandBad i s) s (exec i s) := by
  cases i with
  | encInit => cases hi
  | encPreload sym => exact checksOperand_enc (symbolBad_iff sym)
  | encCode sym => exact checksOperand_enc (symbolBad_iff sym)
  | encProb sym => exact checksOperand_enc (symbolBad_iff sym)
  | encSymfor => exact checksOperand_enc (scaledBad_iff s.enc.freqs s.din)
  | encUpdate sym => exact checksOperand_enc (symbolBad_iff sym)
  | encRescale => exact checksOperand_enc noOperandBad_iff
  | encBits n => exact checksOperand_enc (countBad_iff n)
  | encBflush => exact checksOperand_enc noOperandBad_iff
  | encRdstate sel => cases hi
  | decInit => cases hi
  | decPreload sym => exact checksOperand_dec (symbolBad_iff sym)
  | decCode => exact checksOperand_dec noOperandBad_iff
  | decProb sym => exact checksOperand_dec (symbolBad_iff sym)
  | decSymfor => exact checksOperand_dec (scaledBad_iff s.dec.freqs s.din)
  | decUpdate sym => exact checksOperand_dec (symbolBad_iff sym)
  | decRescale => exact checksOperand_dec noOperandBad_iff
  | decBits n => exact checksOperand_dec (countBad_iff n)
  | decRdstate sel => cases hi

/-- ENC has no register past selector 263 (R35). -/
theorem encRegister_eq_none_iff (u : EncUnit) (sel : Nat) : encRegister u sel = none ↔ 263 < sel := by
  unfold encRegister
  split_ifs <;> simp <;> omega

/-- DEC has no register past selector 265 (R35). -/
theorem decRegister_eq_none_iff (u : DecUnit) (sel : Nat) : decRegister u sel = none ↔ 265 < sel := by
  unfold decRegister
  split_ifs <;> simp <;> omega

/-- A read rejects a reserved selector, and no other. -/
theorem answerRead_eq_badOperand_iff (p : Phase) (sel : Nat) (v : Option Nat) (s : State) :
    answerRead p sel v s = reject .badOperand s ↔ v = none := by
  have hok : ∀ d s', respond d s' ≠ reject .badOperand s := fun _ _ h =>
    absurd (congrArg State.status h) (by simp; decide)
  unfold answerRead
  split
  · simp
  · split <;> simp [hok]

theorem execEncRdstate_eq_badOperand_iff (sel : Nat) (s : State) :
    exec (.encRdstate sel) s = .next (reject .badOperand s) ↔ operandBad (.encRdstate sel) s := by
  simp only [exec, execEncRdstate, Host.Outcome.next.injEq, answerRead_eq_badOperand_iff, encRegister_eq_none_iff,
    operandBad]

theorem execDecRdstate_eq_badOperand_iff (sel : Nat) (s : State) :
    exec (.decRdstate sel) s = .next (reject .badOperand s) ↔ operandBad (.decRdstate sel) s := by
  simp only [exec, execDecRdstate, Host.Outcome.next.injEq, answerRead_eq_badOperand_iff, decRegister_eq_none_iff,
    operandBad]

theorem legalInEveryPhase_cases {i : Instr} (hi : legalInEveryPhase i = true) :
    i = .encInit ∨ (∃ sel, i = .encRdstate sel) ∨ i = .decInit ∨ ∃ sel, i = .decRdstate sel := by
  cases i <;> simp_all [legalInEveryPhase]

/-- An operand out of range is rejected, in every state, once the phase allows the command (R76, R239). -/
theorem exec_badOperand {i : Instr} {s : State} (hphase : legalInEveryPhase i = true ∨ addressedPhase i s = .active)
    (hbad : operandBad i s) : exec i s = .next (reject .badOperand s) := by
  cases hi : legalInEveryPhase i with
  | false =>
    obtain ⟨ok, run, hexec, hok, _⟩ := exec_checksOperand hi s
    rw [hexec, hok.mp hbad, hphase.resolve_left (by simp [hi]), checked_badOperand]
  | true =>
    obtain rfl | ⟨sel, rfl⟩ | rfl | ⟨sel, rfl⟩ := legalInEveryPhase_cases hi
    · exact hbad.elim
    · exact (execEncRdstate_eq_badOperand_iff sel s).mpr hbad
    · exact hbad.elim
    · exact (execDecRdstate_eq_badOperand_iff sel s).mpr hbad

/-- Only an operand out of range is answered so (R236). -/
theorem operandBad_of_exec {i : Instr} {s : State} (hw : s.waiting = none)
    (h : exec i s = .next (reject .badOperand s)) :
    operandBad i s ∧ (legalInEveryPhase i = true ∨ addressedPhase i s = .active) := by
  cases hi : legalInEveryPhase i with
  | false =>
    obtain ⟨ok, run, hexec, hok, hrun⟩ := exec_checksOperand hi s
    obtain ⟨_, ht⟩ | ⟨hp, hfalse, _⟩ | ⟨_, _, hran⟩ := checked_next (hexec ▸ h)
    · exact absurd (congrArg State.status ht) (by simp; decide)
    · exact ⟨hok.mpr hfalse, .inr hp⟩
    · exact absurd hran (hrun hw .badOperand (by decide))
  | true =>
    refine ⟨?_, .inl rfl⟩
    obtain rfl | ⟨sel, rfl⟩ | rfl | ⟨sel, rfl⟩ := legalInEveryPhase_cases hi
    · injection h with h
      exact absurd (congrArg State.status h) (by simp; decide)
    · exact (execEncRdstate_eq_badOperand_iff sel s).mp h
    · exact absurd h (endDec_ne_reject _ hw (by decide))
    · exact (execDecRdstate_eq_badOperand_iff sel s).mp h

theorem statusCode_injective : Function.Injective statusCode := by
  intro a b h
  revert h
  cases a <;> cases b <;> decide

theorem not_isRejection_ok : ¬IsRejection .ok := by simp [IsRejection]
theorem IsFatal.not_isRejection {e : Status} (h : IsFatal e) : ¬IsRejection e := by
  obtain rfl | rfl := h <;> simp [IsRejection]

/-- The code of a rejection is no other response's. -/
theorem statusCode_ne_of_isRejection {a e : Status} (ha : ¬IsRejection a) (he : IsRejection e) :
    statusCode a ≠ statusCode e :=
  fun h => ha (statusCode_injective h ▸ he)

/-- A command that ended with a rejection's STATUS changed nothing but the response (R238). -/
theorem EncEnded.eq_reject {i : Instr} {s t : State} {e : Status} (h : EncEnded i s t) (hw : t.waiting = none)
    (ht : t.status = statusCode e) (he : IsRejection e) : t = reject e s := by
  obtain ⟨d, x, _, rfl⟩ | ⟨x, _, rfl⟩ | ⟨x, _, rfl⟩ | ⟨e', _, rfl⟩ | ⟨d, rfl⟩ := h
  · exact absurd ht (statusCode_ne_of_isRejection not_isRejection_ok he)
  · exact absurd ht (statusCode_ne_of_isRejection (IsFatal.not_isRejection (.inl rfl)) he)
  · cases hw
  · rw [statusCode_injective ht]
  · exact absurd ht (statusCode_ne_of_isRejection not_isRejection_ok he)

theorem DecEnded.eq_reject {i : Instr} {s t : State} {e : Status} (h : DecEnded i s t) (hw : t.waiting = none)
    (ht : t.status = statusCode e) (he : IsRejection e) : t = reject e s := by
  obtain ⟨d, x, _, rfl⟩ | ⟨e', x, hfatal, _, rfl⟩ | ⟨x, _, rfl⟩ | ⟨e', _, rfl⟩ | ⟨d, rfl⟩ := h
  · exact absurd ht (statusCode_ne_of_isRejection not_isRejection_ok he)
  · exact absurd ht (statusCode_ne_of_isRejection hfatal.not_isRejection he)
  · cases hw
  · rw [statusCode_injective ht]
  · exact absurd ht (statusCode_ne_of_isRejection not_isRejection_ok he)

theorem exec_eq_reject {i : Instr} {s t : State} {e : Status} (h : exec i s = .next t) (hw : t.waiting = none)
    (ht : t.status = statusCode e) (he : IsRejection e) : t = reject e s := by
  cases hi : isEncCommand i with
  | true => exact (exec_enc_next hi h).eq_reject hw ht he
  | false => exact (exec_dec_next hi h).eq_reject hw ht he

/-- Settles O13: the operand check stands right after the phase check, and a STATUS of 5 is its rejection. -/
theorem badOperandExactly : Obligations.BadOperandExactly := by
  refine fun i s => ⟨exec_badOperand, fun hw t h htw ht => operandBad_of_exec hw ?_⟩
  rw [h, exec_eq_reject (e := .badOperand) h htw ht (.inr rfl)]

/-! ### DIN where it is not used (R75) -/

/-- The state with another DIN. -/
def withDin (d : Operand) (s : State) : State := { s with din := d }

/-- `o'` is the outcome `o` but for DIN. -/
def SameButDin (d : Operand) : Host.Outcome State Fault Refusal → Host.Outcome State Fault Refusal → Prop
  | .next t, o' => o' = .next (withDin d t)
  | .fault f, o' => o' = .fault f
  | .refused r, o' => o' = .refused r

theorem endEnc_withDin (i : Instr) (s : State) (d : Operand) (r : Run EncSide Operand) :
    SameButDin d (endEnc i s r) (endEnc i (withDin d s) r) := by
  cases r <;> rfl

theorem endDec_withDin (i : Instr) (s : State) (d : Operand) (r : Run DecSide Operand) :
    SameButDin d (endDec i s r) (endDec i (withDin d s) r) := by
  cases r <;> rfl

theorem checked_withDin {p : Phase} {ok : Bool} {s : State} {d : Operand} {o o' : Host.Outcome State Fault Refusal}
    (h : SameButDin d o o') : SameButDin d (checked p ok s o) (checked p ok (withDin d s) o') := by
  unfold checked
  split_ifs
  · exact h
  · rfl
  · rfl

theorem answerRead_withDin (p : Phase) (sel : Nat) (v : Option Nat) (s : State) (d : Operand) :
    answerRead p sel v (withDin d s) = withDin d (answerRead p sel v s) := by
  unfold answerRead
  split
  · rfl
  · split_ifs <;> rfl

/-- A command that does not use DIN does the same whatever DIN is: what runs on its side does not name it. -/
theorem exec_withDin {i : Instr} (hi : usesDin i = false) (s : State) (d : Operand) :
    SameButDin d (exec i s) (exec i (withDin d s)) := by
  cases i with
  | encInit => rfl
  | encPreload sym => cases hi
  | encCode sym => exact checked_withDin (endEnc_withDin _ s d _)
  | encProb sym => exact checked_withDin (endEnc_withDin _ s d _)
  | encSymfor => cases hi
  | encUpdate sym => exact checked_withDin (endEnc_withDin _ s d _)
  | encRescale => exact checked_withDin (endEnc_withDin _ s d _)
  | encBits n => cases hi
  | encBflush => exact checked_withDin (endEnc_withDin _ s d _)
  | encRdstate sel => exact congrArg _ (answerRead_withDin _ sel _ s d)
  | decInit => exact endDec_withDin _ s d _
  | decPreload sym => cases hi
  | decCode => exact checked_withDin (endDec_withDin _ s d _)
  | decProb sym => exact checked_withDin (endDec_withDin _ s d _)
  | decSymfor => cases hi
  | decUpdate sym => exact checked_withDin (endDec_withDin _ s d _)
  | decRescale => exact checked_withDin (endDec_withDin _ s d _)
  | decBits n => exact checked_withDin (endDec_withDin _ s d _)
  | decRdstate sel => exact congrArg _ (answerRead_withDin _ sel _ s d)

/-- Settles O24: by the two ways to stop that the statement names. -/
theorem unusedDinIsIgnored : Obligations.UnusedDinIsIgnored := by
  intro i s d hi
  have h := exec_withDin hi s d
  refine ⟨fun t ht => ?_, fun f hf => ?_⟩
  · rw [ht] at h; exact h
  · rw [hf] at h; exact h

end Sys2Proof.Machine
end

section
/-! # The assembler (30_encoding.md R80, R81)

A line's tokens are found word by word: what ends a word lets the rest be read by itself (`EndsWord`). With that, a line
of a mnemonic and its operands becomes one call of `emitCommand`, and each row of R80's tables is one arm of it. -/
namespace Sys2Proof.Machine

/-! ### Tokens -/

/-- A character that neither ends a word nor begins a quote or a comment (log 13). -/
def isWordChar (c : Char) : Bool :=
  c ≠ '"' && c ≠ '\'' && c ≠ ';' && c ≠ ',' && !isBlank c

@[simp] theorem flushWord_nil (ts : List Token) : flushWord [] ts = ts := rfl

theorem flushWord_reverse {w : List Char} (hw : w ≠ []) : flushWord w.reverse = (.word w :: ·) := by
  funext ts
  unfold flushWord
  split
  · simp_all
  · simp

theorem lex_wordChar {c : Char} (hc : isWordChar c = true) (acc rest : List Char) :
    lex none acc (c :: rest) = lex none (c :: acc) rest := by
  simp only [isWordChar, Bool.and_eq_true, decide_eq_true_eq, Bool.not_eq_true'] at hc
  obtain ⟨⟨⟨⟨h1, h2⟩, h3⟩, h4⟩, h5⟩ := hc
  rw [lex.eq_def]
  simp [h1, h2, h3, h4, h5]

theorem lex_wordChars {w : List Char} (hw : ∀ c ∈ w, isWordChar c = true) (acc rest : List Char) :
    lex none acc (w ++ rest) = lex none (w.reverse ++ acc) rest := by
  induction w generalizing acc with
  | nil => rfl
  | cons c w ih =>
    rw [List.cons_append, lex_wordChar (hw c (by simp)), ih fun d hd => hw d (by simp [hd])]
    simp

/-- What follows an open word ends it: it is read as it would be by itself. -/
def EndsWord (rest : List Char) : Prop :=
  ∀ acc, lex none acc rest = (lex none [] rest).map (flushWord acc)

/-- The end of a line, alone or with a comment before it (R80). -/
def IsLineEnd (tail : List Char) : Prop := tail = [] ∨ ∃ comment, tail = ';' :: comment

theorem lex_lineEnd {tail : List Char} (h : IsLineEnd tail) (acc : List Char) :
    lex none acc tail = .ok (flushWord acc []) := by
  obtain rfl | ⟨comment, rfl⟩ := h
  · rw [lex.eq_def]
  · rw [lex.eq_def]
    rfl

theorem endsWord_lineEnd {tail : List Char} (h : IsLineEnd tail) : EndsWord tail := by
  intro acc
  rw [lex_lineEnd h, lex_lineEnd h]
  rfl

theorem lex_blank (acc rest : List Char) : lex none acc (' ' :: rest) = (lex none [] rest).map (flushWord acc) := by
  rw [lex.eq_def]
  rfl

theorem lex_comma (acc rest : List Char) :
    lex none acc (',' :: rest) = (lex none [] rest).map fun ts => flushWord acc (.comma :: ts) := by
  rw [lex.eq_def]
  rfl

theorem endsWord_blank (rest : List Char) : EndsWord (' ' :: rest) := by
  intro acc
  rw [lex_blank, lex_blank]
  exact (Functor.map_map _ _ (lex none [] rest)).symm

theorem endsWord_comma (rest : List Char) : EndsWord (',' :: rest) := by
  intro acc
  rw [lex_comma, lex_comma]
  exact (Functor.map_map _ _ (lex none [] rest)).symm

/-- A word is one token. -/
theorem lex_word {w rest : List Char} (hne : w ≠ []) (hw : ∀ c ∈ w, isWordChar c = true) (hrest : EndsWord rest) :
    lex none [] (w ++ rest) = (lex none [] rest).map (.word w :: ·) := by
  rw [lex_wordChars hw, List.append_nil, hrest, flushWord_reverse hne]

/-- A character in single quotes is one token. -/
theorem lex_charValue {c : Char} (hc : c.toNat < 256) (rest : List Char) :
    lex none [] ('\'' :: c :: '\'' :: rest) = (lex none [] rest).map (.charValue c.toNat :: ·) := by
  rw [lex.eq_def]
  simp [hc]

/-- A string in double quotes is one token. -/
theorem lex_text {cs : List Char} (hcs : ∀ c ∈ cs, c ≠ '"') (t rest : List Char) :
    lex (some t) [] (cs ++ '"' :: rest) = (lex none [] rest).map (.text (t.reverse ++ cs) :: ·) := by
  induction cs generalizing t with
  | nil => rw [List.nil_append, lex.eq_def]; simp
  | cons c cs ih =>
    rw [List.cons_append, lex.eq_def]
    simp only [hcs c (by simp), if_false]
    rw [ih fun d hd => hcs d (by simp [hd])]
    simp

/-! ### Numbers (R80) -/

theorem isWordChar_of_digitValue {c : Char} {d : Nat} (h : digitValue c = some d) : isWordChar c = true := by
  by_contra hc
  have hcase : c = '"' ∨ c = '\'' ∨ c = ';' ∨ c = ',' ∨ c = ' ' ∨ c = '\t' ∨ c = '\r' := by
    simp only [isWordChar, isBlank] at hc
    by_contra hnone
    push Not at hnone
    simp [hnone] at hc
  obtain rfl | rfl | rfl | rfl | rfl | rfl | rfl := hcase <;> cases h

theorem wordChars_of_digitsFrom {b : Nat} {cs : List Char} {n v : Nat} (h : digitsFrom b n cs = .ok v) :
    ∀ c ∈ cs, isWordChar c = true := by
  induction cs generalizing n with
  | nil => simp
  | cons c cs ih =>
    rw [digitsFrom] at h
    split at h
    · cases h
    · rename_i d hd
      split at h
      · exact List.forall_mem_cons.mpr ⟨isWordChar_of_digitValue hd, ih h⟩
      · cases h

theorem wordChars_of_digits {b : Nat} {cs : List Char} {v : Nat} (h : digits b cs = .ok v) :
    cs ≠ [] ∧ ∀ c ∈ cs, isWordChar c = true := by
  unfold digits at h
  split at h
  · cases h
  · exact ⟨by simp, wordChars_of_digitsFrom h⟩

/-- A number is a word. -/
theorem wordChars_of_numberOf {cs : List Char} {v : Nat} (h : numberOf cs = .ok v) :
    cs ≠ [] ∧ ∀ c ∈ cs, isWordChar c = true := by
  unfold numberOf at h
  split at h
  · simpa [show isWordChar '0' = true from rfl, show isWordChar 'x' = true from rfl] using (wordChars_of_digits h).2
  · simpa [show isWordChar '0' = true from rfl, show isWordChar 'b' = true from rfl] using (wordChars_of_digits h).2
  · exact wordChars_of_digits h

theorem digitValue_digitChar {d : Nat} (h : d < 16) : digitValue d.digitChar = some d := by
  interval_cases d <;> decide

theorem digitsFrom_append {b : Nat} {xs ys : List Char} {n m : Nat} (h : digitsFrom b n xs = .ok m) :
    digitsFrom b n (xs ++ ys) = digitsFrom b m ys := by
  induction xs generalizing n with
  | nil => cases h; rfl
  | cons c xs ih =>
    rw [digitsFrom] at h
    rw [List.cons_append, digitsFrom]
    split at h
    · cases h
    · split at h
      · simp_all
      · cases h

/-- The digits of `n` in base `b` are read as `n`: one more digit is one more step of the reader. -/
theorem digitsFrom_toDigits {b : Nat} (hb : 1 < b) (hb16 : b ≤ 16) (n : Nat) :
    digitsFrom b 0 (Nat.toDigits b n) = .ok n := by
  induction n using Nat.strongRecOn with
  | _ n ih =>
    have digit : ∀ m d, d < b → digitsFrom b m [d.digitChar] = .ok (m * b + d) := fun m d hd => by
      simp [digitsFrom, digitValue_digitChar (hd.trans_le hb16), hd]
    obtain hlt | hle := Nat.lt_or_ge n b
    · rw [Nat.toDigits_of_lt_base hlt, digit 0 n hlt]
      simp
    · rw [Nat.toDigits_of_base_le hb hle, digitsFrom_append (ih (n / b) (Nat.div_lt_self (by omega) hb)),
        digit _ _ (Nat.mod_lt _ (by omega)), Nat.div_add_mod']

theorem digits_toDigits {b : Nat} (hb : 1 < b) (hb16 : b ≤ 16) (n : Nat) : digits b (Nat.toDigits b n) = .ok n := by
  rw [← digitsFrom_toDigits hb hb16 n]
  unfold digits
  split
  · exact absurd ‹_› Nat.toDigits_ne_nil
  · rename_i h; rw [h]

/-- A number with no letter in it is decimal. -/
theorem numberOf_decimal (n : Nat) : numberOf (Nat.toDigits 10 n) = .ok n := by
  have hdigit : ∀ c ∈ Nat.toDigits 10 n, c.isDigit = true :=
    fun c => Nat.isDigit_of_mem_toDigits (by decide) (by decide)
  unfold numberOf
  split
  · rename_i h; exact absurd (hdigit 'x' (by simp [h])) (by decide)
  · rename_i h; exact absurd (hdigit 'b' (by simp [h])) (by decide)
  · exact digits_toDigits (by decide) (by decide) n

/-- Every number has its text in each of the three bases. -/
theorem numberOf_toDigits (n : Nat) : numberOf (Nat.toDigits 10 n) = .ok n ∧
    numberOf ('0' :: 'x' :: Nat.toDigits 16 n) = .ok n ∧ numberOf ('0' :: 'b' :: Nat.toDigits 2 n) = .ok n :=
  ⟨numberOf_decimal n, digits_toDigits (by decide) (by decide) n, digits_toDigits (by decide) (by decide) n⟩

/-! ### Lines -/

/-- An operand is one token of its value, whatever ends it. -/
theorem lex_operand {a : List Char} {m : Nat} (h : OperandText a m) : ∃ t, tokenValue t = .ok m ∧
    ∀ rest, EndsWord rest → lex none [] (a ++ rest) = (lex none [] rest).map (t :: ·) := by
  obtain hnum | ⟨c, rfl, hc, rfl⟩ := h
  · obtain ⟨hne, hword⟩ := wordChars_of_numberOf hnum
    exact ⟨.word a, hnum, fun rest hrest => lex_word hne hword hrest⟩
  · exact ⟨.charValue c.toNat, rfl, fun rest _ => lex_charValue hc rest⟩

/-- The operands after the first one, as `asmLine` writes them. -/
def moreOperands (ops : List (List Char)) : List Char := ops.flatMap fun b => ',' :: ' ' :: b

theorem endsWord_moreOperands (ops : List (List Char)) {tail : List Char} (h : IsLineEnd tail) :
    EndsWord (moreOperands ops ++ tail) := by
  cases ops with
  | nil => exact endsWord_lineEnd h
  | cons b ops => exact endsWord_comma _

/-- An operand and those after it are tokens of their values. -/
theorem lex_operands {a : List Char} {m : Nat} {ops : List (List Char)} {vals : List Nat} {tail : List Char}
    (ha : OperandText a m) (hops : List.Forall₂ OperandText ops vals) (htail : IsLineEnd tail) :
    ∃ t ts, lex none [] (a ++ (moreOperands ops ++ tail)) = .ok (t :: ts) ∧ operandsOf (t :: ts) = .ok (m :: vals) := by
  induction hops generalizing a m with
  | nil =>
    obtain ⟨t, hval, hlex⟩ := lex_operand ha
    refine ⟨t, [], ?_, ?_⟩
    · rw [hlex _ (endsWord_moreOperands [] htail), show moreOperands [] ++ tail = tail from rfl, lex_lineEnd htail]
      rfl
    · simp [operandsOf, hval, Except.map]
  | @cons b n ops vals hb _ ih =>
    obtain ⟨t, hval, hlex⟩ := lex_operand ha
    obtain ⟨u, us, hlex', hvals⟩ := ih hb
    have hmore : moreOperands (b :: ops) ++ tail = ',' :: ' ' :: (b ++ (moreOperands ops ++ tail)) := by
      simp [moreOperands]
    refine ⟨t, .comma :: u :: us, ?_, ?_⟩
    · rw [hlex _ (endsWord_moreOperands _ htail), hmore, lex_comma, lex_blank, hlex']
      rfl
    · simp [operandsOf, hval, hvals, Except.map]

/-- A line is its mnemonic and its operands' values. -/
theorem lex_asmLine {w : List Char} {ops : List (List Char)} {vals : List Nat} {tail : List Char} (hne : w ≠ [])
    (hw : ∀ c ∈ w, isWordChar c = true) (hops : List.Forall₂ OperandText ops vals) (htail : IsLineEnd tail) :
    ∃ ts, lex none [] (asmLine w ops ++ tail) = .ok (.word w :: ts) ∧ operandsOf ts = .ok vals := by
  cases hops with
  | nil =>
    refine ⟨[], ?_, rfl⟩
    rw [asmLine, lex_word hne hw (endsWord_lineEnd htail), lex_lineEnd htail]
    rfl
  | @cons a m ops vals ha hops =>
    obtain ⟨t, ts, hlex, hvals⟩ := lex_operands ha hops htail
    refine ⟨t :: ts, ?_, hvals⟩
    have hline : asmLine w (a :: ops) ++ tail = w ++ ' ' :: (a ++ (moreOperands ops ++ tail)) := by
      simp [asmLine, moreOperands]
    rw [hline, lex_word hne hw (endsWord_blank _), lex_blank, hlex]
    rfl

/-- A line of ENC is its row of R80's tables, with its operands' values. -/
theorem assembleLine_enc {name : List Char} {ops : List (List Char)} {vals : List Nat} {tail : List Char}
    (hname : ∀ c ∈ name, isWordChar c = true) (hops : List.Forall₂ OperandText ops vals) (htail : IsLineEnd tail) :
    assembleLine (asmLine (encDot ++ name) ops ++ tail) = emitCommand false name vals := by
  have hw : ∀ c ∈ encDot ++ name, isWordChar c = true := List.forall_mem_append.mpr ⟨List.all_eq_true.mp rfl, hname⟩
  obtain ⟨ts, hlex, hvals⟩ := lex_asmLine (by simp [encDot]) hw hops htail
  rw [assembleLine, hlex]
  simp only [encDot, List.cons_append, List.nil_append]
  rw [assembleTokens, hvals]
  rintro cs rfl
  cases hvals

/-- A line of DEC is its row of R80's tables, with its operands' values. -/
theorem assembleLine_dec {name : List Char} {ops : List (List Char)} {vals : List Nat} {tail : List Char}
    (hname : ∀ c ∈ name, isWordChar c = true) (hops : List.Forall₂ OperandText ops vals) (htail : IsLineEnd tail) :
    assembleLine (asmLine (decDot ++ name) ops ++ tail) = emitCommand true name vals := by
  have hw : ∀ c ∈ decDot ++ name, isWordChar c = true := List.forall_mem_append.mpr ⟨List.all_eq_true.mp rfl, hname⟩
  obtain ⟨ts, hlex, hvals⟩ := lex_asmLine (by simp [decDot]) hw hops htail
  rw [assembleLine, hlex]
  simp only [decDot, List.cons_append, List.nil_append, assembleTokens, hvals]

/-! ### Rows (R80, R81) -/

/-- The answer of a row: the one command `i` with DIN `din` if its operands fit, else a refusal. -/
def Emits (i : Instr) (din : Nat) (fits : Prop) (r : Except AsmError (List HostEvent)) : Prop :=
  (fits → r = .ok [.command (encode i) (BitVec.ofNat 64 din)]) ∧ (¬fits → r = .error .operandTooLarge)

theorem emit_emits {i : Instr} {din : Nat} {fits : Prop} (hfits : fits ↔ i.wellFormed = true ∧ din < 2 ^ 64) :
    Emits i din fits (emit i din) := by
  unfold emit
  constructor
  · intro h
    rw [if_pos (hfits.mp h)]
  · intro h
    rw [if_neg (hfits.not.mp h)]

theorem assemblesTo_enc {name : List Char} {ops : List (List Char)} {vals : List Nat} {i : Instr} {din : Nat}
    {fits : Prop} (hname : name.all isWordChar = true) (hops : List.Forall₂ OperandText ops vals)
    (h : Emits i din fits (emitCommand false name vals)) : AssemblesTo (asmLine (encDot ++ name) ops) i din fits := by
  intro tail htail
  rw [assembleLine_enc (List.all_eq_true.mp hname) hops htail]
  exact h

theorem assemblesTo_dec {name : List Char} {ops : List (List Char)} {vals : List Nat} {i : Instr} {din : Nat}
    {fits : Prop} (hname : name.all isWordChar = true) (hops : List.Forall₂ OperandText ops vals)
    (h : Emits i din fits (emitCommand true name vals)) : AssemblesTo (asmLine (decDot ++ name) ops) i din fits := by
  intro tail htail
  rw [assembleLine_dec (List.all_eq_true.mp hname) hops htail]
  exact h

theorem symFits_iff (sym : Nat) : symFits sym = true ↔ sym ≤ 511 := by simp [symFits]; omega
theorem countFits_iff (n : Nat) : countFits n = true ↔ n ≤ 127 := by simp [countFits]; omega
theorem dinFits_iff (din : Nat) : din < 2 ^ 64 ↔ din ≤ 2 ^ 64 - 1 := by omega

/-- A command with no operand. -/
theorem emit_plain {i : Instr} (h : i.wellFormed = true) : Emits i 0 True (emit i 0) :=
  emit_emits (by simp [h])

/-- A command with an operand in its word and none in DIN. -/
theorem emit_field {i : Instr} {fits : Prop} (h : i.wellFormed = true ↔ fits) : Emits i 0 fits (emit i 0) :=
  emit_emits (by simp [h])

/-- A command with its operand in DIN only. -/
theorem emit_din {i : Instr} (din : Nat) (h : i.wellFormed = true) : Emits i din (din ≤ 2 ^ 64 - 1) (emit i din) :=
  emit_emits (by simp only [h, true_and, dinFits_iff])

/-- A command with an operand in its word and one in DIN. -/
theorem emit_field_din {i : Instr} {fits : Prop} (din : Nat) (h : i.wellFormed = true ↔ fits) :
    Emits i din (fits ∧ din ≤ 2 ^ 64 - 1) (emit i din) :=
  emit_emits (by rw [h, dinFits_iff])

/-- A pseudo-instruction that checks its operand's range before its command, which then has a word (R81). -/
theorem emit_checked {i : Instr} {din : Nat} {fits : Prop} [Decidable fits]
    (h : fits → i.wellFormed = true ∧ din < 2 ^ 64) :
    Emits i din fits (if fits then emit i din else .error .operandTooLarge) := by
  constructor
  · intro hfits
    rw [if_pos hfits, emit, if_pos (h hfits)]
  · intro hfits
    rw [if_neg hfits]

/-- `enc.byte` (R81). -/
theorem emit_byte (m : Nat) : Emits (.encCode m) 0 (m ≤ 255) (emitCommand false ['b', 'y', 't', 'e'] [m]) :=
  emit_checked fun h => ⟨(symFits_iff m).mpr (by omega), by decide⟩

/-- `enc.wbit` (R81). -/
theorem emit_wbit (m : Nat) : Emits (.encBits 1) m (m ≤ 1) (emitCommand false ['w', 'b', 'i', 't'] [m]) :=
  emit_checked fun h => ⟨rfl, by omega⟩

/-! ### Strings (R81) -/

theorem emitText_eq {cs : List Char} (h : ∀ c ∈ cs, c.toNat < 256) :
    emitText cs = .ok (cs.map (fun c => .command (encode (.encCode c.toNat)) 0)
      ++ [.command (encode (.encCode 256)) 0]) := by
  induction cs with
  | nil => rfl
  | cons c cs ih =>
    have hc := h c (by simp)
    have hemit : emit (.encCode c.toNat) 0 = .ok [.command (encode (.encCode c.toNat)) 0] :=
      (emit_field (i := .encCode c.toNat) (symFits_iff c.toNat)).1 (by omega)
    simp [emitText, hc, hemit, ih fun d hd => h d (by simp [hd])]

/-- A string is `enc.init`, its characters and the end of the stream. -/
theorem assembleLine_string {cs : List Char} (h : ∀ c ∈ cs, c.toNat < 256 ∧ c ≠ '"') :
    assembleLine (asmLine (encDot ++ ['s', 't', 'r', 'i', 'n', 'g']) ['"' :: cs ++ ['"']]) =
      .ok (.command (encode .encInit) 0 :: cs.map (fun c => .command (encode (.encCode c.toNat)) 0)
        ++ [.command (encode (.encCode 256)) 0]) := by
  have hline : asmLine (encDot ++ ['s', 't', 'r', 'i', 'n', 'g']) ['"' :: cs ++ ['"']] =
      (encDot ++ ['s', 't', 'r', 'i', 'n', 'g']) ++ ' ' :: '"' :: (cs ++ '"' :: []) := by simp [asmLine]
  have hlex : lex none [] ('"' :: (cs ++ '"' :: [])) = .ok [.text cs] := by
    rw [lex.eq_def]
    simp [lex_text (fun c hc => (h c hc).2), lex_lineEnd (.inl rfl), Except.map]
  rw [assembleLine, hline, lex_word (by simp [encDot]) (List.all_eq_true.mp rfl) (endsWord_blank _), lex_blank, hlex]
  simp [Except.map, assembleTokens, encDot, emitText_eq fun c hc => (h c hc).1]

/-! ### Nothing but commands -/

/-- An event that presents a well-formed command's word. -/
def IsCommand (e : HostEvent) : Prop := ∃ (i : Instr) (din : Operand), i.wellFormed = true ∧ e = .command (encode i) din

/-- Where `r` is accepted, it is commands only. -/
def OnlyCommands (r : Except AsmError (List HostEvent)) : Prop := ∀ events, r = .ok events → ∀ e ∈ events, IsCommand e

theorem onlyCommands_error (err : AsmError) : OnlyCommands (.error err) := nofun

theorem emit_onlyCommands (i : Instr) (din : Nat) : OnlyCommands (emit i din) := by
  unfold emit
  split
  · rename_i h
    rintro _ ⟨⟩ e he
    exact ⟨i, _, h.1, by simpa using he⟩
  · exact onlyCommands_error _

theorem holds_dite {α : Type} {P : α → Prop} {p : Prop} {_ : Decidable p} {r : p → α} {r' : ¬p → α}
    (h : ∀ hp, P (r hp)) (h' : ∀ hp, P (r' hp)) : P (dite p r r') := by
  split
  · exact h _
  · exact h' _

/-- A mnemonic with its operands is one command's word or is refused. The mnemonics are a tree of tests of one character
each, too large to split as one match: each test is taken in turn, the two lists opened where the next test needs it. -/
theorem emitCommand_cases {P : Except AsmError (List HostEvent) → Prop} (hemit : ∀ i din, P (emit i din))
    (herror : ∀ err, P (.error err)) (isDec : Bool) (name : List Char) (ops : List Nat) :
    P (emitCommand isDec name ops) := by
  unfold emitCommand emitCommand.match_1
  repeat' first
    | exact herror _
    | exact hemit _ _
    | refine holds_dite (P := P) ?_ fun _ => ?_
    | rintro rfl
    | intro _
    | cases ‹List Char›
    | cases ‹List Nat›

theorem emitCommand_onlyCommands (isDec : Bool) (name : List Char) (ops : List Nat) :
    OnlyCommands (emitCommand isDec name ops) :=
  emitCommand_cases emit_onlyCommands onlyCommands_error isDec name ops

theorem emitText_onlyCommands (cs : List Char) : OnlyCommands (emitText cs) := by
  induction cs with
  | nil => exact emit_onlyCommands _ _
  | cons c cs ih =>
    unfold emitText
    split
    · split
      · rename_i a b ha hb
        rintro _ ⟨⟩
        exact List.forall_mem_append.mpr ⟨emit_onlyCommands _ _ a ha, ih b hb⟩
      · exact onlyCommands_error _
      · exact onlyCommands_error _
    · exact onlyCommands_error _

theorem assembleTokens_onlyCommands (ts : List Token) : OnlyCommands (assembleTokens ts) := by
  unfold assembleTokens
  split
  · rintro _ ⟨⟩
    simp
  · rename_i cs
    cases hcs : emitText cs with
    | error err => exact onlyCommands_error err
    | ok es =>
      rintro _ ⟨⟩
      exact List.forall_mem_cons.mpr ⟨⟨.encInit, 0, rfl, rfl⟩, emitText_onlyCommands cs es hcs⟩
  · split
    · exact emitCommand_onlyCommands _ _ _
    · exact onlyCommands_error _
  · split
    · exact emitCommand_onlyCommands _ _ _
    · exact onlyCommands_error _
  · exact onlyCommands_error _

theorem assembleLine_onlyCommands (line : List Char) : OnlyCommands (assembleLine line) := by
  unfold assembleLine
  split
  · exact assembleTokens_onlyCommands _
  · exact onlyCommands_error _

/-- Settles O5: each row is one arm of `emitCommand`, after the tokens of its line; then strings, the texts of a number,
and what any line can give. -/
theorem assemblerEmitsCommands : Obligations.AssemblerEmitsCommands := by
  refine ⟨fun a b m n ha hb => ?_, fun cs => assembleLine_string, numberOf_toDigits, assembleLine_onlyCommands⟩
  have hm : List.Forall₂ OperandText [a] [m] := .cons ha .nil
  have hmn : List.Forall₂ OperandText [a, b] [m, n] := .cons ha (.cons hb .nil)
  have hsym := symFits_iff m
  have hcount := countFits_iff m
  exact ⟨assemblesTo_enc rfl .nil (emit_plain rfl), -- init
    assemblesTo_dec rfl .nil (emit_plain rfl),
    assemblesTo_enc rfl hmn (emit_field_din n hsym), -- preload
    assemblesTo_dec rfl hmn (emit_field_din n hsym),
    assemblesTo_enc rfl hm (emit_field hsym), -- code
    assemblesTo_dec rfl .nil (emit_plain rfl),
    assemblesTo_enc rfl hm (emit_field hsym), -- prob
    assemblesTo_dec rfl hm (emit_field hsym),
    assemblesTo_enc rfl hm (emit_din m rfl), -- symfor
    assemblesTo_dec rfl hm (emit_din m rfl),
    assemblesTo_enc rfl hm (emit_field hsym), -- update
    assemblesTo_dec rfl hm (emit_field hsym),
    assemblesTo_enc rfl .nil (emit_plain rfl), -- rescale
    assemblesTo_dec rfl .nil (emit_plain rfl),
    assemblesTo_enc rfl hmn (emit_field_din n hcount), -- bits
    assemblesTo_dec rfl hm (emit_field hcount),
    assemblesTo_enc rfl .nil (emit_plain rfl), -- bflush
    assemblesTo_enc rfl hm (emit_field hsym), -- rdstate
    assemblesTo_dec rfl hm (emit_field hsym),
    assemblesTo_enc rfl .nil (emit_plain rfl), -- eof
    assemblesTo_enc rfl hm (emit_byte m),
    assemblesTo_enc rfl hm (emit_wbit m),
    assemblesTo_dec rfl .nil (emit_plain rfl)⟩ -- rbit

end Sys2Proof.Machine
end

section
/-! # Bit input and output (40_bit_io.md)

The three commands run the writer and the reader of Laws/BitIo, so each is said here as the bits that its run writes
(`Wrote`) or supplies (`Supplied`). How many bytes the sink has then is the length of those bits. A reader gives back
what a writer wrote because the bits still to come to it are the writer's bits (R109). -/
namespace Sys2Proof.Machine

/-! ### How many bits -/

theorem flatMap_byteBits_length (bytes : List Byte) : (bytes.flatMap byteBits).length = 8 * bytes.length := by
  simp [List.length_flatMap, byteBits, Nat.mul_comm]

theorem writtenBits_length (x : EncSide) :
    (writtenBits x).length = 8 * x.sink.received.length + x.unit.wcount.toNat := by
  rw [writtenBits, List.length_append, flatMap_byteBits_length, msbBits_length]

/-- Each full eight bits written are one byte at the sink, and the writer holds the rest (R111). -/
theorem Wrote.count {x y : EncSide} {bits : List Bool} (h : Wrote x y bits) :
    y.sink.received.length = x.sink.received.length + (x.unit.wcount.toNat + bits.length) / 8 ∧
      y.unit.wcount.toNat = (x.unit.wcount.toNat + bits.length) % 8 := by
  have hlen := congrArg List.length h.written
  rw [List.length_append, writtenBits_length, writtenBits_length] at hlen
  have hcount := h.writer.count
  omega

/-! ### Outside Active -/

/-- A command that is not legal in every phase is rejected outside Active (R235). -/
theorem exec_badPhase {i : Instr} {s : State} (hi : legalInEveryPhase i = false) (hp : addressedPhase i s ≠ .active) :
    exec i s = .next (reject .badPhase s) := by
  obtain ⟨ok, run, hexec, _⟩ := exec_checksOperand hi s
  rw [hexec, checked_badPhase hp]

/-! ### enc.bits (R106) -/

/-- `enc.bits n` on a sink that answers writes the `n` low bits of DIN. -/
theorem exec_encBits_ready {s : State} {n : Nat} (hp : s.enc.phase = .active) (hn : n ≤ 64) (hw : WriterOk s.enc)
    (hr : SinkReady s.sink) : ∃ y, exec (.encBits n) s = .next (respond 0 (withEncSide s y)) ∧
      Wrote (encSide s) y (msbBits s.din.toNat n) := by
  obtain ⟨y, hy, hwrote⟩ := writeBits_ready s.din n (x := encSide s) hr hw
  have hok : countInRange n = true := by simpa [countInRange] using hn
  refine ⟨y, ?_, hwrote⟩
  simp only [exec, execEncBits, hp, hok, checked_active, hy, andThen_done, endEnc_done]

/-- Settles O26: what its run wrote, and the checks before it. -/
theorem encBitsAppendsBits : Obligations.EncBitsAppendsBits := by
  refine ⟨fun s n hp hn hw hr => ?_, fun s n hp => exec_badPhase rfl hp,
    fun s n hp hn => exec_badOperand (.inr hp) hn⟩
  obtain ⟨y, hexec, hwrote⟩ := exec_encBits_ready hp hn hw hr
  exact ⟨_, hexec, hwrote.written, hwrote.writer, hwrote.unit, hwrote.ready, hwrote.received, hwrote.flushes,
    hwrote.passedOn, rfl⟩

/-- Settles O30: the length of what its run wrote. -/
theorem encBitsByteCount : Obligations.EncBitsByteCount := by
  intro s n hp hn hw hr
  obtain ⟨y, hexec, hwrote⟩ := exec_encBits_ready hp hn hw hr
  have hcount := hwrote.count
  rw [msbBits_length] at hcount
  exact ⟨_, hexec, hcount⟩

/-! ### enc.bflush (R107) -/

/-- From `x` to `y` the writer was padded and emptied and the sink flushed: a byte more exactly when a bit was buffered
(R102). -/
structure Flushed (x y : EncSide) : Prop where
  ready : SinkReady y.sink
  received : x.sink.received <+: y.sink.received
  padded : y.sink.received.flatMap byteBits =
    writtenBits x ++ List.replicate ((8 - x.unit.wcount.toNat) % 8) false
  count : y.sink.received.length = x.sink.received.length + (if x.unit.wcount.toNat = 0 then 0 else 1)
  unit : y.unit = emptyWriter x.unit
  flushes : y.sink.flushes = x.sink.flushes + 1
  passedOn : y.sink.passedOn = y.sink.received.length

/-- What `writerFlush_ready` leaves open, the pad and the byte count, follows from the sink holding whole bytes. -/
theorem writerFlush_flushed {x : EncSide} (hr : SinkReady x.sink) (hw : WriterOk x.unit) :
    ∃ y, writerFlush x = .done () y ∧ Flushed x y := by
  obtain ⟨y, pad, hy, hready, hpad, hbits, hunit, hok, hflushes, hpassed, hprefix⟩ := writerFlush_ready hr hw
  have hlen := congrArg List.length hbits
  rw [List.length_append, List.length_replicate, writtenBits_length, flatMap_byteBits_length] at hlen
  have hcount := hw.count
  have hpad' : pad = (8 - x.unit.wcount.toNat) % 8 := by omega
  have hempty : y.unit.wbuf = 0 := by
    have hbuf := hok.bits
    rw [show y.unit.wcount = 0 by rw [hunit]] at hbuf
    exact BitVec.eq_of_toNat_eq (Nat.lt_one_iff.mp hbuf)
  refine ⟨y, hy, hready, hprefix, hpad' ▸ hbits, ?_, by rw [hunit, hempty]; rfl, hflushes, hpassed⟩
  split <;> omega

/-- Settles O27: the flush, and the phase check before it. -/
theorem encBflushPadsAndFlushes : Obligations.EncBflushPadsAndFlushes := by
  refine ⟨fun s hp hw hr => ?_, fun s hp => exec_badPhase rfl hp⟩
  obtain ⟨y, hy, hflushed⟩ := writerFlush_flushed (x := encSide s) hr hw
  have hexec : exec .encBflush s = .next (respond 0 (withEncSide s y)) := by
    simp only [exec, execEncBflush, hp, checked_active, hy, andThen_done, endEnc_done]
  exact ⟨_, hexec, hflushed.padded, hflushed.unit, hflushed.ready, hflushed.received, hflushed.count, hflushed.flushes,
    hflushed.passedOn, rfl⟩

/-! ### dec.bits (R108) -/

/-- ReadBits from the start of its value: the number of the next bits (R104). -/
theorem readBits_supplies {x : DecSide} {bytes : List Byte} (hs : SourceGives x.source bytes) {bits rest : List Bool}
    (hu : upcomingBits x.unit bytes = bits ++ rest) :
    ∃ y left, readBits bits.length x = .done (bitsValue bits) y ∧ Supplied x y bytes left bits ∧
      upcomingBits y.unit left = rest := by
  obtain ⟨y, left, hy, hsup⟩ := (readBitsFrom_supplies bits.length [] hs).1 (by simp [hu])
  rw [hu, List.take_left] at hy hsup
  exact ⟨y, left, hy, hsup, List.append_cancel_left (hsup.upcoming.symm.trans hu)⟩

/-- Settles O28: the bits to come are the next `n` and the rest, and the reader supplies the next `n`. -/
theorem decBitsReadsBits : Obligations.DecBitsReadsBits := by
  intro s n bytes hp hn hs havail
  obtain ⟨y, left, hy, hsup, hrest⟩ := readBits_supplies (x := decSide s) hs (List.take_append_drop n _).symm
  rw [decSide_unit, List.length_take_of_le havail] at hy
  have hfits : bitsValue ((upcomingBits s.dec bytes).take n) < 2 ^ 64 :=
    (bitsValue_lt _).trans_le (Nat.pow_le_pow_right (by decide) ((List.length_take_le _ _).trans hn))
  have hok : countInRange n = true := by simpa [countInRange] using hn
  have hexec : exec (.decBits n) s =
      .next (respond (BitVec.ofNat 64 (bitsValue ((upcomingBits s.dec bytes).take n))) (withDecSide s y)) := by
    simp only [exec, execDecBits, hp, hok, checked_active, hy, andThen_done, narrowTo_ok hfits, lift_ok, endDec_done]
  exact ⟨_, left, hexec, toNat_ofNat_of_lt hfits, hsup.source, hrest, hsup.taken.symm, hsup.unit, rfl⟩

/-! ### What a writer wrote, a reader reads (R109) -/

/-- The bits of WriteBits calls one after another (R101). -/
def callBits (ws : List (Operand × Nat)) : List Bool := ws.flatMap fun p => msbBits p.1.toNat p.2

theorem callBits_cons (p : Operand × Nat) (ws : List (Operand × Nat)) :
    callBits (p :: ws) = msbBits p.1.toNat p.2 ++ callBits ws := rfl

theorem callBits_length (ws : List (Operand × Nat)) : (callBits ws).length = (ws.map Prod.snd).sum := by
  simp [callBits, List.length_flatMap]

theorem writeAll_ready (ws : List (Operand × Nat)) : ∀ {x : EncSide}, SinkReady x.sink → WriterOk x.unit →
    ∃ y, writeAll ws x = .done () y ∧ Wrote x y (callBits ws) := by
  induction ws with
  | nil => exact fun hr hw => ⟨_, rfl, Wrote.refl hr hw⟩
  | cons p ws ih =>
    intro x hr hw
    obtain ⟨y, hy, hxy⟩ := writeBits_ready p.1 p.2 hr hw
    obtain ⟨z, hz, hyz⟩ := ih hxy.ready hxy.writer
    exact ⟨z, by simp only [writeAll, hy, andThen_done, hz], callBits_cons p ws ▸ hxy.trans hyz⟩

/-- A reader to which the bits of the calls come next reads their values (R104). -/
theorem readAll_supplies (ws : List (Operand × Nat)) : ∀ {x : DecSide} {bytes : List Byte} {rest : List Bool},
    SourceGives x.source bytes → upcomingBits x.unit bytes = callBits ws ++ rest →
      ∃ y left, readAll (ws.map Prod.snd) x = .done (ws.map fun p => p.1.toNat % 2 ^ p.2) y ∧
        SourceGives y.source left ∧ upcomingBits y.unit left = rest := by
  induction ws with
  | nil => exact fun hs hu => ⟨_, _, rfl, hs, hu⟩
  | cons p ws ih =>
    intro x bytes rest hs hu
    rw [callBits_cons, List.append_assoc] at hu
    obtain ⟨y, left, hy, hsup, hrest⟩ := readBits_supplies hs hu
    rw [msbBits_length, bitsValue_msbBits] at hy
    obtain ⟨z, left', hz, hs', hrest'⟩ := ih hsup.source hrest
    exact ⟨z, left', by simp only [List.map_cons, readAll, hy, andThen_done, hz], hs', hrest'⟩

/-- What the calls and a WFlush send: their bits, then zeros up to the next byte (R101, R102). -/
theorem writeAll_writerFlush_sent (ws : List (Operand × Nat)) {x : EncSide} (hbuf : x.unit.wbuf = 0)
    (hcount : x.unit.wcount = 0) (hr : SinkReady x.sink) :
    ∃ y sent, ((writeAll ws x).andThen fun _ z => writerFlush z) = .done () y ∧
      y.sink.received = x.sink.received ++ sent ∧
      sent.flatMap byteBits = callBits ws ++ List.replicate ((8 - (ws.map Prod.snd).sum % 8) % 8) false := by
  have hempty : WriterOk x.unit := ⟨by simp [hcount], by simp [hbuf]⟩
  obtain ⟨m, hm, hxm⟩ := writeAll_ready ws hr hempty
  obtain ⟨y, hy, hflushed⟩ := writerFlush_flushed hxm.ready hxm.writer
  obtain ⟨sent, hsent⟩ := hxm.received.trans hflushed.received
  have hrem : m.unit.wcount.toNat = (ws.map Prod.snd).sum % 8 := by
    simpa [hcount, callBits_length] using hxm.count.2
  refine ⟨y, sent, by rw [hm, andThen_done, hy], hsent.symm, ?_⟩
  have hstart : writtenBits x = x.sink.received.flatMap byteBits := by simp [writtenBits, hcount, msbBits]
  have hbits := hflushed.padded
  rw [← hsent, hxm.written, hstart, hrem, List.flatMap_append, List.append_assoc] at hbits
  exact List.append_cancel_left hbits

/-- To a fresh reader come the source's bytes and the padding budget (R105). -/
theorem upcomingBits_readerReset (u : DecUnit) (bytes : List Byte) :
    upcomingBits (readerReset u) bytes = bytes.flatMap byteBits ++ List.replicate Config.extraBits false := rfl

theorem bitsValue_replicate_false (n : Nat) : bitsValue (List.replicate n false) = 0 := by
  induction n with
  | zero => rfl
  | succ n ih => rw [List.replicate_succ', bitsValue_append_one, ih]; rfl

/-- From a reader to which only zeros come, any number of them reads as 0. -/
theorem readBits_zeros {x : DecSide} {bytes : List Byte} (hs : SourceGives x.source bytes) {n k : Nat}
    (hu : upcomingBits x.unit bytes = List.replicate n false) (hk : k ≤ n) : ∃ y, readBits k x = .done 0 y := by
  have hsplit : List.replicate n false = List.replicate k false ++ List.replicate (n - k) false := by
    rw [List.replicate_append_replicate, Nat.add_sub_cancel' hk]
  obtain ⟨y, _, hy, _⟩ := readBits_supplies hs (hu.trans hsplit)
  rw [List.length_replicate, bitsValue_replicate_false] at hy
  exact ⟨y, hy⟩

/-- Settles O31: the bits to come to the reader are those the calls wrote, then the pad's zeros and the budget's. -/
theorem readerReturnsWhatWriterWrote : Obligations.ReaderReturnsWhatWriterWrote := by
  intro ws x _ hbuf hcount hr
  obtain ⟨y, sent, hy, hsent, hbits⟩ := writeAll_writerFlush_sent ws hbuf hcount hr
  refine ⟨y, sent, hy, hsent, fun u z hz hs => ?_⟩
  have hup := upcomingBits_readerReset u sent
  rw [← hz, hbits, List.append_assoc, List.replicate_append_replicate] at hup
  obtain ⟨z', left, hread, hs', hrest⟩ := readAll_supplies ws hs hup
  exact ⟨z', left, hread, hs', hrest, fun k hk => readBits_zeros hs' hrest hk⟩

end Sys2Proof.Machine
end

section
/-! # The frequency model's statements (41_frequency_model.md)

The primitives on a legal table first; then what each table command makes of a table, in DOUT and in entries; then the
commands, each the same on both units. -/
namespace Sys2Proof.Machine

/-! ### Update and Rescale (R132 to R137) -/

/-- Settles O32: the laws of a legal table, gathered. -/
theorem tableStaysLegal : Obligations.TableStaysLegal := by
  refine ⟨freshTable_ok, fun t ht => ⟨ht.total_ge, ht.total_le, fun i hi => (ht.le_total hi).trans ht.total_le,
    fun sym hs => ht.update' hs, ?_⟩⟩
  obtain ⟨r, hr, _, hok⟩ := ht.rescale
  exact ⟨r, hr, hok⟩

/-- Settles O33: the table after the increments has one more in total, which decides whether Update rescales it. -/
theorem updateIncrementsEntriesAbove : Obligations.UpdateIncrementsEntriesAbove := by
  intro t sym ht hs
  obtain ⟨m, r, hat, hres, hup, _⟩ := ht.update hs
  have hbump : ∀ i, i ≤ 257 → tableAt m i = tableAt t i + (if sym < i then 1 else 0) := fun i hi => by
    rw [hat i hi]; split <;> rfl
  have htotal : total m = total t + 1 := (hbump 257 le_rfl).trans (by rw [if_pos (by omega)]; rfl)
  refine ⟨r, hup, fun hlt => ?_, fun heq => ⟨m, hbump, ?_⟩⟩
  · rw [if_neg (by omega)] at hres
    exact hres ▸ hbump
  · rwa [if_pos (by omega)] at hres

/-- Settles O34: the law of Rescale. -/
theorem rescaleHalvesCounts : Obligations.RescaleHalvesCounts := by
  intro t hmono
  obtain ⟨r, hr, hres⟩ := rescale_ok hmono
  exact ⟨r, hr, hres.zero, hres.succ⟩

theorem Rescaled.countOf_eq {t r : Table} (h : Rescaled t r) {sym : Nat} (hs : sym ≤ 256) :
    countOf r sym = halvedCount (countOf t sym) := by
  rw [countOf, h.succ sym hs, Nat.add_sub_cancel_left]

/-- Settles O35: a positive count does not grow when halved, and the rounding up adds at most 1 for each of the 257
counts to twice the new total. -/
theorem rescaleShrinksTable : Obligations.RescaleShrinksTable := by
  intro t hzero hrise
  obtain ⟨r, hr, hres⟩ := rescale_ok fun sym hs => (hrise sym hs).le
  refine ⟨r, hr, fun sym hs => ?_, fun htotal => ?_⟩
  · rw [hres.countOf_eq hs]
    exact ⟨halvedCount_pos _, halvedCount_le_of_pos (Nat.sub_pos_of_lt (hrise sym hs))⟩
  · have hhalf : 2 * total r ≤ total t + 257 := ((rescaled_bounds hzero hrise hres).2 257 le_rfl).2
    omega

/-- A table whose counts are all 1 is left as it is by Rescale (R145). -/
theorem Rescaled.eq_freshTable {r : Table} (h : Rescaled freshTable r) : r = freshTable := by
  have hentry : ∀ i, i ≤ 257 → tableAt r i = i := by
    intro i
    induction i with
    | zero => exact fun _ => h.zero
    | succ i ih =>
      intro hi
      have hcount : countOf freshTable i = 1 := by
        rw [countOf, tableAt_freshTable hi, tableAt_freshTable (by omega), Nat.add_sub_cancel_left]
      rw [h.succ i (by omega), ih (by omega), hcount]
      rfl
  exact table_ext fun i hi => (hentry i hi).trans (tableAt_freshTable hi).symm

/-! ### SymbolFor (R139) -/

/-- Settles O36: in a legal table every smaller symbol's range lies below the one that holds the value. -/
theorem symbolForFindsLeastSymbol : Obligations.SymbolForFindsLeastSymbol := by
  intro t v ht hv
  obtain ⟨sym, hfor, hs, hlow, hhigh⟩ := ht.symbolFor hv
  refine ⟨sym, hfor, hs, hlow, hhigh, fun s hlt => ?_⟩
  have hbelow := ht.mono (show s + 1 ≤ sym by omega) (by omega)
  omega

/-- The ranges of a legal table do not overlap (R138). -/
theorem TableOk.symbol_unique {t : Table} (h : TableOk t) {a b v : Nat} (ha : a ≤ 256) (hb : b ≤ 256)
    (halow : tableAt t a ≤ v) (hahigh : v < tableAt t (a + 1)) (hblow : tableAt t b ≤ v)
    (hbhigh : v < tableAt t (b + 1)) : a = b := by
  obtain hab | hab | hab := Nat.lt_trichotomy a b
  · have := h.mono (show a + 1 ≤ b from hab) (by omega); omega
  · exact hab
  · have := h.mono (show b + 1 ≤ a from hab) (by omega); omega

/-- SymbolFor answers the symbol in whose range the value lies (R139). -/
theorem TableOk.symbolFor_eq {t : Table} (h : TableOk t) {sym v : Nat} (hs : sym ≤ 256) (hlow : tableAt t sym ≤ v)
    (hhigh : v < tableAt t (sym + 1)) : Machine.symbolFor t v = .ok sym := by
  obtain ⟨sym', hfor, hs', hlow', hhigh'⟩ := h.symbolFor (hhigh.trans_le (h.le_total (by omega)))
  rw [hfor, h.symbol_unique hs' hs hlow' hhigh' hlow hhigh]

/-! ### Preload (R140) -/

/-- A count split in two is one Preload after the other (R148). -/
theorem tablePreload_add {sym n : Nat} {t r : Table} (h : tablePreload sym n t = .ok r) (m : Nat) :
    tablePreload sym (n + m) t = tablePreload sym m r := by
  induction n generalizing t with
  | zero => cases h; rw [Nat.zero_add]
  | succ n ih =>
    rw [Nat.succ_add]
    cases hup : tableUpdate t sym with
    | ok t' => simp only [tablePreload, hup] at h ⊢; exact ih h
    | error f => simp [tablePreload, hup] at h

theorem tablePreload_one (sym : Nat) (t : Table) : tablePreload sym 1 t = tableUpdate t sym := by
  cases hup : tableUpdate t sym <;> simp only [tablePreload, hup]

/-- Settles O37: Preload keeps a legal table, and one count more is a split with 1. -/
theorem preloadReplaysUpdates : Obligations.PreloadReplaysUpdates := by
  intro t sym ht hs n
  obtain ⟨r, hr, hok⟩ := TableOk.preload hs n ht
  exact ⟨r, hr, hok, (tablePreload_add hr 1).trans (tablePreload_one sym r), tablePreload_add hr⟩

/-! ### What a table command makes of a table, where its primitive completes -/

theorem preloadTable_ok {sym n : Nat} {t r : Table} (h : tablePreload sym n t = .ok r) :
    preloadTable sym n t = .ok (0, r) := by rw [preloadTable, h]

theorem updateTable_ok {sym : Nat} {t r : Table} (h : tableUpdate t sym = .ok r) :
    updateTable sym t = .ok (0, r) := by rw [updateTable, h]

theorem rescaleTable_ok {t r : Table} (h : tableRescale t = .ok r) : rescaleTable t = .ok (0, r) := by
  rw [rescaleTable, h]

theorem probTable_ok {sym : Nat} {t r : Table} (h : tableUpdate t sym = .ok r) :
    probTable sym t = .ok (packRange (tableAt t sym) (tableAt t (sym + 1)) (total t), r) := by rw [probTable, h]

theorem symforTable_ok {sym v : Nat} {t r : Table} (hfor : symbolFor t v = .ok sym) (h : tableUpdate t sym = .ok r) :
    symforTable v t = .ok (packSymbolRange sym (tableAt t sym) (tableAt t (sym + 1)) (total t), r) := by
  simp only [symforTable, hfor, h]

/-! ### The fields of DOUT (R73) -/

theorem toNat_extractLsb'_ofNat {v : Nat} (hv : v < 2 ^ 64) (lo len : Nat) :
    ((BitVec.ofNat 64 v).extractLsb' lo len).toNat = v / 2 ^ lo % 2 ^ len := by
  rw [BitVec.extractLsb'_toNat, toNat_ofNat_of_lt hv, Nat.shiftRight_eq_div_pow]

/-- The lower three fields of DOUT hold the symbol's range and the total. -/
structure HoldsRange (d : Operand) (t : Table) (sym : Nat) : Prop where
  low : (d.extractLsb' 0 16).toNat = tableAt t sym
  high : (d.extractLsb' 16 16).toNat = tableAt t (sym + 1)
  total : (d.extractLsb' 32 16).toNat = Machine.total t

/-- PROB's DOUT. -/
theorem packRange_fields (t : Table) (sym : Nat) :
    HoldsRange (packRange (tableAt t sym) (tableAt t (sym + 1)) (total t)) t sym ∧
      (packRange (tableAt t sym) (tableAt t (sym + 1)) (total t)).extractLsb' 48 16 = 0 := by
  have hlow := tableAt_lt t sym
  have hhigh := tableAt_lt t (sym + 1)
  have htotal : total t < 2 ^ 16 := tableAt_lt t 257
  have hfield := toNat_extractLsb'_ofNat
    (show total t * 2 ^ 32 + tableAt t (sym + 1) * 2 ^ 16 + tableAt t sym < 2 ^ 64 by omega)
  refine ⟨⟨(hfield 0 16).trans ?_, (hfield 16 16).trans ?_, (hfield 32 16).trans ?_⟩,
    BitVec.eq_of_toNat_eq ((hfield 48 16).trans ?_)⟩
  · omega
  · omega
  · omega
  · change _ = 0; omega

/-- SYMFOR's DOUT; the symbol is of 9 bits. -/
theorem packSymbolRange_fields (t : Table) {sym : Nat} (hs : sym ≤ 256) :
    HoldsRange (packSymbolRange sym (tableAt t sym) (tableAt t (sym + 1)) (total t)) t sym ∧
      ((packSymbolRange sym (tableAt t sym) (tableAt t (sym + 1)) (total t)).extractLsb' 48 9).toNat = sym ∧
        (packSymbolRange sym (tableAt t sym) (tableAt t (sym + 1)) (total t)).extractLsb' 57 7 = 0 := by
  have hlow := tableAt_lt t sym
  have hhigh := tableAt_lt t (sym + 1)
  have htotal : total t < 2 ^ 16 := tableAt_lt t 257
  have hfield := toNat_extractLsb'_ofNat
    (show sym * 2 ^ 48 + total t * 2 ^ 32 + tableAt t (sym + 1) * 2 ^ 16 + tableAt t sym < 2 ^ 64 by omega)
  refine ⟨⟨(hfield 0 16).trans ?_, (hfield 16 16).trans ?_, (hfield 32 16).trans ?_⟩, (hfield 48 9).trans ?_,
    BitVec.eq_of_toNat_eq ((hfield 57 7).trans ?_)⟩
  · omega
  · omega
  · omega
  · omega
  · change _ = 0; omega

/-- PROB of a legal table: the update, and the range before it in DOUT (R142). -/
theorem TableOk.probTable_completes {t : Table} (h : TableOk t) {sym : Nat} (hs : sym ≤ 256) :
    ∃ r d, tableUpdate t sym = .ok r ∧ probTable sym t = .ok (d, r) ∧ HoldsRange d t sym ∧
      d.extractLsb' 48 16 = 0 := by
  obtain ⟨r, hr, _⟩ := h.update' hs
  exact ⟨r, _, hr, probTable_ok hr, packRange_fields t sym⟩

/-- SYMFOR of a legal table: the update of the symbol that holds `v`, and its range before it in DOUT (R143). -/
theorem TableOk.symforTable_completes {t : Table} (h : TableOk t) {v : Nat} (hv : v < total t) :
    ∃ sym r d, sym ≤ 256 ∧ tableAt t sym ≤ v ∧ v < tableAt t (sym + 1) ∧ tableUpdate t sym = .ok r ∧
      symforTable v t = .ok (d, r) ∧ HoldsRange d t sym ∧ (d.extractLsb' 48 9).toNat = sym ∧
        d.extractLsb' 57 7 = 0 := by
  obtain ⟨sym, hfor, hs, hlow, hhigh⟩ := h.symbolFor hv
  obtain ⟨r, hr, _⟩ := h.update' hs
  exact ⟨sym, r, _, hs, hlow, hhigh, hr, symforTable_ok hfor hr, packSymbolRange_fields t hs⟩

/-! ### Table commands on a unit -/

theorem symbolInRange_of_le {sym : Nat} (h : sym ≤ 256) : symbolInRange sym = true := decide_eq_true h

theorem scaledInRange_of_lt {t : Table} {v : Operand} (h : v.toNat < total t) : scaledInRange t v = true :=
  decide_eq_true h

/-- A table command of ENC past its checks: only the table, STATUS and DOUT change. -/
theorem checked_onEncTable {i : Instr} {s : State} {ok : Bool} {f : Table → Except Fault (Operand × Table)}
    {d : Operand} {r : Table} (hp : s.enc.phase = .active) (hok : ok = true) (hf : f s.enc.freqs = .ok (d, r)) :
    checked s.enc.phase ok s (endEnc i s (onEncTable f (encSide s))) =
      .next { s with enc := { s.enc with freqs := r }, status := 0, dout := d } := by
  rw [hp, hok, checked_active, onEncTable, encSide_unit, hf, lift_ok, endEnc_done]
  rfl

/-- A table command of DEC past its checks. -/
theorem checked_onDecTable {i : Instr} {s : State} {ok : Bool} {f : Table → Except Fault (Operand × Table)}
    {d : Operand} {r : Table} (hp : s.dec.phase = .active) (hok : ok = true) (hf : f s.dec.freqs = .ok (d, r)) :
    checked s.dec.phase ok s (endDec i s (onDecTable f (decSide s))) =
      .next { s with dec := { s.dec with freqs := r }, status := 0, dout := d } := by
  rw [hp, hok, checked_active, onDecTable, decSide_unit, hf, lift_ok, endDec_done]
  rfl

/-- Settles O38: Preload completes on a legal table, for both units alike. -/
theorem preloadSeedsTable : Obligations.PreloadSeedsTable := by
  refine ⟨fun s sym => ⟨fun hp => exec_badPhase rfl hp, fun hp hbad => exec_badOperand (.inr hp) hbad,
      fun hp hs ht => ?_⟩,
    fun s sym => ⟨fun hp => exec_badPhase rfl hp, fun hp hbad => exec_badOperand (.inr hp) hbad, fun hp hs ht => ?_⟩⟩
  · obtain ⟨r, hr, hok⟩ := TableOk.preload hs s.din.toNat ht
    exact ⟨r, hr, hok, checked_onEncTable hp (symbolInRange_of_le hs) (preloadTable_ok hr)⟩
  · obtain ⟨r, hr, hok⟩ := TableOk.preload hs s.din.toNat ht
    exact ⟨r, hr, hok, checked_onDecTable hp (symbolInRange_of_le hs) (preloadTable_ok hr)⟩

/-- Settles O39: DOUT packs the entries of the table before the update. -/
theorem probAnswersRangeBeforeUpdate : Obligations.ProbAnswersRangeBeforeUpdate := by
  refine ⟨fun s sym => ⟨fun hp => exec_badPhase rfl hp, fun hp hbad => exec_badOperand (.inr hp) hbad,
      fun hp hs ht => ?_⟩,
    fun s sym => ⟨fun hp => exec_badPhase rfl hp, fun hp hbad => exec_badOperand (.inr hp) hbad, fun hp hs ht => ?_⟩⟩
  · obtain ⟨r, d, hr, hprob, ⟨hlow, hhigh, htotal⟩, hupper⟩ := ht.probTable_completes hs
    exact ⟨r, d, hr, checked_onEncTable hp (symbolInRange_of_le hs) hprob, hlow, hhigh, htotal, hupper⟩
  · obtain ⟨r, d, hr, hprob, ⟨hlow, hhigh, htotal⟩, hupper⟩ := ht.probTable_completes hs
    exact ⟨r, d, hr, checked_onDecTable hp (symbolInRange_of_le hs) hprob, hlow, hhigh, htotal, hupper⟩

/-- Settles O40: the symbol that SymbolFor finds, packed with its entries before the update. -/
theorem symforAnswersSymbolAndRange : Obligations.SymforAnswersSymbolAndRange := by
  refine ⟨fun s => ⟨fun hp => exec_badPhase rfl hp, fun hp hbad => exec_badOperand (.inr hp) hbad,
      fun hp hv ht => ?_⟩,
    fun s => ⟨fun hp => exec_badPhase rfl hp, fun hp hbad => exec_badOperand (.inr hp) hbad, fun hp hv ht => ?_⟩⟩
  · obtain ⟨sym, r, d, hs, hbelow, habove, hr, hfor, ⟨hlow, hhigh, htotal⟩, hsym, hupper⟩ := ht.symforTable_completes hv
    exact ⟨sym, r, d, hs, hbelow, habove, hr, checked_onEncTable hp (scaledInRange_of_lt hv) hfor, hlow, hhigh, htotal,
      hsym, hupper⟩
  · obtain ⟨sym, r, d, hs, hbelow, habove, hr, hfor, ⟨hlow, hhigh, htotal⟩, hsym, hupper⟩ := ht.symforTable_completes hv
    exact ⟨sym, r, d, hs, hbelow, habove, hr, checked_onDecTable hp (scaledInRange_of_lt hv) hfor, hlow, hhigh, htotal,
      hsym, hupper⟩

/-- Settles O41: Update completes on a legal table. -/
theorem updateCommandUpdatesTable : Obligations.UpdateCommandUpdatesTable := by
  refine ⟨fun s sym => ⟨fun hp => exec_badPhase rfl hp, fun hp hbad => exec_badOperand (.inr hp) hbad,
      fun hp hs ht => ?_⟩,
    fun s sym => ⟨fun hp => exec_badPhase rfl hp, fun hp hbad => exec_badOperand (.inr hp) hbad, fun hp hs ht => ?_⟩⟩
  · obtain ⟨r, hr, hok⟩ := ht.update' hs
    exact ⟨r, hr, hok, checked_onEncTable hp (symbolInRange_of_le hs) (updateTable_ok hr)⟩
  · obtain ⟨r, hr, hok⟩ := ht.update' hs
    exact ⟨r, hr, hok, checked_onDecTable hp (symbolInRange_of_le hs) (updateTable_ok hr)⟩

/-- Settles O42: Rescale completes on a legal table, and is the identity on the fresh one. -/
theorem rescaleCommandRescalesTable : Obligations.RescaleCommandRescalesTable := by
  refine ⟨fun s => ⟨fun hp => exec_badPhase rfl hp, fun hp ht => ?_⟩,
    fun s => ⟨fun hp => exec_badPhase rfl hp, fun hp ht => ?_⟩⟩
  · obtain ⟨r, hr, hres, hok⟩ := ht.rescale
    exact ⟨r, hr, hok, fun hfresh => (hfresh ▸ hres).eq_freshTable, checked_onEncTable hp rfl (rescaleTable_ok hr)⟩
  · obtain ⟨r, hr, hres, hok⟩ := ht.rescale
    exact ⟨r, hr, hok, fun hfresh => (hfresh ▸ hres).eq_freshTable, checked_onDecTable hp rfl (rescaleTable_ok hr)⟩

/-- Settles O43: SYMFOR finds PROB's symbol, since ranges do not overlap, so both units make the same Update. -/
theorem probAndSymforMakeSameUpdate : Obligations.ProbAndSymforMakeSameUpdate := by
  intro s sym henc hdec ht heq hs hlow hhigh
  obtain ⟨r, hr, _⟩ := ht.update' hs
  have hfor := ht.symbolFor_eq hs hlow hhigh
  have hv : s.din.toNat < total s.enc.freqs := hhigh.trans_le (ht.le_total (by omega))
  rw [← heq] at hfor hv
  have hdecUp : tableUpdate s.dec.freqs sym = .ok r := heq ▸ hr
  exact ⟨_, _, checked_onEncTable henc (symbolInRange_of_le hs) (probTable_ok hr),
    checked_onDecTable hdec (scaledInRange_of_lt hv) (symforTable_ok hfor hdecUp), rfl⟩

end Sys2Proof.Machine
end

section
/-! # The encoder's statements (42_encoder.md)

Narrowing and the cases on plain numbers; a shift on ENC as a list of bits written and registers set, so that two shifts in
a row are one list; then `enc.init` and `enc.code`, by the bit-level coding of Laws/Encoder; then what every command does to
ENC's phase, and what it depends on. -/
namespace Sys2Proof.Machine

/-! ### Narrowing (R171, R172) -/

/-- A symbol's part of the range is at least one `t`-th of it. -/
theorem div_add_part_le {range lc hc : Nat} (t : Nat) (hlt : lc < hc) :
    range * lc / t + range / t ≤ range * hc / t :=
  calc range * lc / t + range / t ≤ (range * lc + range) / t := Nat.div_add_div_le_add_div
    _ = range * (lc + 1) / t := by rw [Nat.mul_succ]
    _ ≤ range * hc / t := Nat.div_le_div_right (Nat.mul_le_mul_left _ hlt)

/-- Narrow completes where its bounds stay in order and inside the registers (R171). -/
theorem narrowInterval_ok {iv : Interval} {lc hc t : Nat} (hle : iv.low.toNat ≤ iv.high.toNat) (ht : 0 < t)
    (hlt : rangeOf iv * lc / t < rangeOf iv * hc / t) (hin : rangeOf iv * hc / t ≤ rangeOf iv) :
    ∃ r, narrowInterval iv lc hc t = .ok r ∧ r.low.toNat = iv.low.toNat + rangeOf iv * lc / t ∧
      r.high.toNat = iv.low.toNat + rangeOf iv * hc / t - 1 := by
  have hbound := iv.high.isLt
  have hrange : intervalRange iv = .ok (rangeOf iv) := by simp only [intervalRange, minus_ok hle, rangeOf]
  have hdef : rangeOf iv = iv.high.toNat - iv.low.toNat + 1 := rfl
  have hpos := Nat.zero_lt_of_lt hlt
  have hlow : iv.low.toNat + rangeOf iv * lc / t < 2 ^ 32 := by omega
  have hhigh : iv.low.toNat + rangeOf iv * hc / t - 1 < 2 ^ 32 := by omega
  refine ⟨⟨BitVec.ofNat 32 _, BitVec.ofNat 32 _⟩, ?_, toNat_ofNat_of_lt hlow, toNat_ofNat_of_lt hhigh⟩
  have hone : 1 ≤ iv.low.toNat + rangeOf iv * hc / t := by omega
  simp only [narrowInterval, hrange, narrowedHigh, narrowedLow, divide_ok ht, minus_ok hone, narrowTo_ok hlow,
    narrowTo_ok hhigh]

/-- Settles O44: a range of QUARTER + 2 holds 65544 of every legal total, and each part at least one of its total. -/
theorem narrowComputesBounds : Obligations.NarrowComputesBounds := by
  intro iv lc hc t hle hrange hmin hmax hlt hhc
  have ht : 0 < t := by omega
  change Config.quarter + 2 ≤ rangeOf iv at hrange
  have hgap := div_add_part_le (range := rangeOf iv) t hlt
  have hin := (narrow_bounds hrange ht hmax hlt hhc).2
  have hpart : 65544 ≤ rangeOf iv / t := by
    rw [Nat.le_div_iff_mul_le ht]
    rw [quarter_eq] at hrange
    omega
  obtain ⟨r, hr, hlow, hhigh⟩ := narrowInterval_ok (lc := lc) hle ht (by omega) hin
  have hdef : rangeOf iv = iv.high.toNat - iv.low.toNat + 1 := rfl
  refine ⟨r, hr, hlow, ?_, hlow ▸ Nat.le_add_right _ _, ?_, ?_, ?_, hpart⟩
  · rw [← hdef]; omega
  · omega
  · omega
  · rw [← hdef]; omega

/-! ### The case of an interval (R173) -/

/-- Settles O45: the three tests in their order; an interval that passes none is one between two commands. -/
theorem renormCaseSelectsShift : Obligations.RenormCaseSelectsShift := by
  intro iv
  by_cases he1 : iv.high.toNat < Config.half
  · simp [renormCase, he1]
  by_cases he2 : Config.half ≤ iv.low.toNat
  · simp [renormCase, he1, he2]
  by_cases he3 : Config.quarter ≤ iv.low.toNat ∧ iv.high.toNat < Config.threeQuarters
  · simp [renormCase, he1, he2, he3]
  · have hnone : renormCase iv = none := by simp only [renormCase, he1, he2, he3, if_false]
    have hrange : Config.quarter + 2 ≤ iv.high.toNat - iv.low.toNat + 1 := (intervalOk_of_exit hnone).range_ge
    simpa [hnone, he1, he2, he3] using hrange

/-! ### One shift on ENC (R174 to R177)

A shift writes a list of bits and then sets the interval and the pending count. Writing does not look at what it sets, so
two shifts in a row write one list and then set them once. -/

/-- ENC's side with its interval and its pending count set. -/
def setCoding (iv : Interval) (n : Nat) (x : EncSide) : EncSide :=
  { x with unit := setEncInterval { x.unit with pending := n } iv }

@[simp] theorem setCoding_interval (iv : Interval) (n : Nat) (x : EncSide) :
    encInterval (setCoding iv n x).unit = iv := rfl
@[simp] theorem setCoding_pending (iv : Interval) (n : Nat) (x : EncSide) : (setCoding iv n x).unit.pending = n := rfl
@[simp] theorem setCoding_sink (iv : Interval) (n : Nat) (x : EncSide) : (setCoding iv n x).sink = x.sink := rfl
@[simp] theorem setCoding_wbuf (iv : Interval) (n : Nat) (x : EncSide) : (setCoding iv n x).unit.wbuf = x.unit.wbuf := rfl
@[simp] theorem setCoding_wcount (iv : Interval) (n : Nat) (x : EncSide) :
    (setCoding iv n x).unit.wcount = x.unit.wcount := rfl
@[simp] theorem setCoding_setCoding (iv jv : Interval) (n m : Nat) (x : EncSide) :
    setCoding iv n (setCoding jv m x) = setCoding iv n x := rfl

/-- WBit of each bit of a list in turn. -/
def writeList : List Bool → EncSide → Run EncSide Unit
  | [], x => .done () x
  | b :: bs, x => (wbit b x).andThen fun _ y => writeList bs y

theorem writeList_append (bs cs : List Bool) (x : EncSide) :
    writeList (bs ++ cs) x = (writeList bs x).andThen fun _ y => writeList cs y := by
  induction bs generalizing x with
  | nil => rfl
  | cons b bs ih => simp only [List.cons_append, writeList, ih, andThen_assoc]

theorem repeatBit_eq_writeList (b : Bool) (n : Nat) (x : EncSide) :
    repeatBit b n x = writeList (List.replicate n b) x := by
  induction n generalizing x with
  | zero => rfl
  | succ n ih => simp only [repeatBit, List.replicate_succ, writeList, ih]

theorem writeList_ready (bs : List Bool) : ∀ {x : EncSide}, SinkReady x.sink → WriterOk x.unit →
    ∃ y, writeList bs x = .done () y ∧ Wrote x y bs := by
  induction bs with
  | nil => exact fun hr hw => ⟨_, rfl, Wrote.refl hr hw⟩
  | cons b bs ih =>
    intro x hr hw
    obtain ⟨y, hy, hxy⟩ := wbit_ready hr hw b
    obtain ⟨z, hz, hyz⟩ := ih hxy.ready hxy.writer
    exact ⟨z, by rw [writeList, hy, andThen_done, hz], hxy.trans hyz⟩

theorem sendByte_setCoding {v : Byte} {x y : EncSide} (h : sendByte v x = .done () y) (iv : Interval) (n : Nat) :
    sendByte v (setCoding iv n x) = .done () (setCoding iv n y) := by
  unfold sendByte at h ⊢
  rw [show (setCoding iv n x).sink = x.sink from rfl]
  split at h
  · cases h
  · cases h; rfl
  · cases h

theorem wbit_setCoding {b : Bool} {x y : EncSide} (h : wbit b x = .done () y) (iv : Interval) (n : Nat) :
    wbit b (setCoding iv n x) = .done () (setCoding iv n y) := by
  unfold wbit pushBit at h ⊢
  rw [show (setCoding iv n x).unit.wcount = x.unit.wcount from rfl]
  cases hc : narrowTo 4 (x.unit.wcount.toNat + 1) with
  | error f => rw [hc] at h; cases h
  | ok c =>
    simp only [hc, lift_ok] at h ⊢
    split at h
    · rw [if_pos ‹_›]; exact sendByte_setCoding h iv n
    · rw [if_neg ‹_›]; cases h; rfl

/-- Writing neither reads nor changes the interval and the pending count. -/
theorem writeList_setCoding (bs : List Bool) {x y : EncSide} (h : writeList bs x = .done () y) (iv : Interval) (n : Nat) :
    writeList bs (setCoding iv n x) = .done () (setCoding iv n y) := by
  induction bs generalizing x with
  | nil => cases h; rfl
  | cons b bs ih =>
    rw [writeList] at h ⊢
    cases hm : wbit b x with
    | done a m =>
      rw [hm] at h
      rw [wbit_setCoding hm, andThen_done, ih h]
    | raised e m => rw [hm] at h; cases h
    | waiting m => rw [hm] at h; cases h
    | broken f => rw [hm] at h; cases h

/-- The bits a shift writes when `n` bits are pending (R174 to R177). -/
def shiftBits : Shift → Nat → List Bool
  | .e1, n => false :: List.replicate n true
  | .e2, n => true :: List.replicate n false
  | .e3, _ => []

/-- The pending count after a shift (R174 to R176). -/
def shiftPending : Shift → Nat → Nat
  | .e1, _ => 0
  | .e2, _ => 0
  | .e3, n => n + 1

/-- The interval has room for the shift: no bound falls below the offset or leaves its register (R174 to R176). -/
structure ShiftFits (sh : Shift) (iv : Interval) : Prop where
  ordered : iv.low.toNat ≤ iv.high.toNat
  offset : shiftOffset sh ≤ iv.low.toNat
  width : 2 * (iv.high.toNat - shiftOffset sh) + 1 < 2 ^ 32

/-- The interval after a shift that fits. -/
def shifted (sh : Shift) (iv : Interval) : Interval where
  low := BitVec.ofNat 32 (2 * (iv.low.toNat - shiftOffset sh))
  high := BitVec.ofNat 32 (2 * (iv.high.toNat - shiftOffset sh) + 1)

theorem ShiftFits.shifted_low {sh : Shift} {iv : Interval} (h : ShiftFits sh iv) :
    (shifted sh iv).low.toNat = 2 * (iv.low.toNat - shiftOffset sh) :=
  toNat_ofNat_of_lt (by have := h.ordered; have := h.width; omega)

theorem ShiftFits.shifted_high {sh : Shift} {iv : Interval} (h : ShiftFits sh iv) :
    (shifted sh iv).high.toNat = 2 * (iv.high.toNat - shiftOffset sh) + 1 :=
  toNat_ofNat_of_lt h.width

theorem ShiftFits.shiftInterval_ok {sh : Shift} {iv : Interval} (h : ShiftFits sh iv) :
    shiftInterval sh iv = .ok (shifted sh iv) := by
  obtain ⟨hle, hoff, hwidth⟩ := h
  have hlow : 2 * (iv.low.toNat - shiftOffset sh) + 0 < 2 ^ 32 := by omega
  simp only [shiftInterval, shiftCode, minus_ok hoff, minus_ok (hoff.trans hle), narrowTo_ok hlow, narrowTo_ok hwidth]
  rfl

/-- EmitWithPending writes its bits, then clears the count (R177). -/
theorem emitWithPending_eq {b : Bool} {x y : EncSide} (hr : SinkReady x.sink) (hw : WriterOk x.unit)
    (hy : writeList (b :: List.replicate x.unit.pending (!b)) x = .done () y) :
    emitWithPending b x = .done () { y with unit := { y.unit with pending := 0 } } := by
  obtain ⟨m, hm, hwrote⟩ := wbit_ready hr hw b
  have hpending : m.unit.pending = x.unit.pending := by rw [hwrote.unit]
  rw [writeList, hm, andThen_done] at hy
  rw [emitWithPending, hm, andThen_done, hpending, repeatBit_eq_writeList, hy, andThen_done]

/-- A shift that fits writes its bits, then sets the interval and the pending count. -/
theorem encShift_eq {sh : Shift} {x y : EncSide} (hfits : ShiftFits sh (encInterval x.unit)) (hr : SinkReady x.sink)
    (hw : WriterOk x.unit) (hy : writeList (shiftBits sh x.unit.pending) x = .done () y) :
    encShift sh x =
      .done () (setCoding (shifted sh (encInterval x.unit)) (shiftPending sh x.unit.pending) y) := by
  have hkept : encInterval y.unit = encInterval x.unit := by
    obtain ⟨y', hy', hwrote⟩ := writeList_ready (shiftBits sh x.unit.pending) hr hw
    cases hy.symm.trans hy'
    rw [hwrote.unit]; rfl
  have hbits : encShiftBits sh x =
      .done () { y with unit := { y.unit with pending := shiftPending sh x.unit.pending } } := by
    cases sh with
    | e1 => exact emitWithPending_eq hr hw hy
    | e2 => exact emitWithPending_eq hr hw hy
    | e3 => cases hy; rfl
  rw [encShift, hbits, andThen_done]
  change Run.lift (shiftInterval sh (encInterval y.unit)) _ = _
  rw [hkept, hfits.shiftInterval_ok, lift_ok]
  rfl

/-- What a shift that fits does to the registers, the pending count and the bits written. -/
theorem encShift_shifts {sh : Shift} {x : EncSide} (hfits : ShiftFits sh (encInterval x.unit)) (hr : SinkReady x.sink)
    (hw : WriterOk x.unit) :
    ∃ y, encShift sh x = .done () y ∧ y.unit.low.toNat = 2 * (x.unit.low.toNat - shiftOffset sh) ∧
      y.unit.high.toNat = 2 * (x.unit.high.toNat - shiftOffset sh) + 1 ∧
        y.unit.pending = shiftPending sh x.unit.pending ∧
          writtenBits y = writtenBits x ++ shiftBits sh x.unit.pending := by
  obtain ⟨y, hy, hwrote⟩ := writeList_ready (shiftBits sh x.unit.pending) hr hw
  exact ⟨_, encShift_eq hfits hr hw hy, hfits.shifted_low, hfits.shifted_high, rfl, hwrote.written⟩

theorem shiftFits_e1 {iv : Interval} (hle : iv.low.toNat ≤ iv.high.toNat) (h : iv.high.toNat < Config.half) :
    ShiftFits .e1 iv :=
  ⟨hle, Nat.zero_le _, by rw [half_eq] at h; simp only [shiftOffset]; omega⟩

theorem shiftFits_e2 {iv : Interval} (hle : iv.low.toNat ≤ iv.high.toNat) (h : Config.half ≤ iv.low.toNat) :
    ShiftFits .e2 iv :=
  ⟨hle, h, by have := iv.high.isLt; simp only [shiftOffset, half_eq]; omega⟩

theorem shiftFits_e3 {iv : Interval} (hle : iv.low.toNat ≤ iv.high.toNat) (hlow : Config.quarter ≤ iv.low.toNat)
    (hhigh : iv.high.toNat < Config.threeQuarters) : ShiftFits .e3 iv :=
  ⟨hle, hlow, by rw [threeQuarters_eq] at hhigh; simp only [shiftOffset, quarter_eq]; omega⟩

/-- Settles O46: each case's condition lets its shift fit; E3 writes nothing. -/
theorem encoderShifts : Obligations.EncoderShifts := by
  intro x hle hw hr
  refine ⟨fun h => encShift_shifts (shiftFits_e1 hle h) hr hw, fun h => encShift_shifts (shiftFits_e2 hle h) hr hw,
    fun hlow hhigh => ?_⟩
  have hfits : ShiftFits .e3 (encInterval x.unit) := shiftFits_e3 hle hlow hhigh
  exact ⟨_, encShift_eq hfits hr hw rfl, hfits.shifted_low, hfits.shifted_high, rfl, setCoding_sink _ _ _,
    setCoding_wbuf _ _ _, setCoding_wcount _ _ _⟩

/-! ### Two shifts in a row (R181) -/

/-- Two shifts that fit write their bits in turn, then set the interval and the pending count once. -/
theorem encShift_twice {a b : Shift} {x y : EncSide} (ha : ShiftFits a (encInterval x.unit))
    (hb : ShiftFits b (shifted a (encInterval x.unit))) (hr : SinkReady x.sink) (hw : WriterOk x.unit)
    (hy : writeList (shiftBits a x.unit.pending ++ shiftBits b (shiftPending a x.unit.pending)) x = .done () y) :
    ((encShift a x).andThen fun _ z => encShift b z) =
      .done () (setCoding (shifted b (shifted a (encInterval x.unit)))
        (shiftPending b (shiftPending a x.unit.pending)) y) := by
  obtain ⟨m, hm, hwrote⟩ := writeList_ready (shiftBits a x.unit.pending) hr hw
  rw [writeList_append, hm, andThen_done] at hy
  have hnext := writeList_setCoding _ hy (shifted a (encInterval x.unit)) (shiftPending a x.unit.pending)
  rw [encShift_eq ha hr hw hm, andThen_done]
  have hsecond := encShift_eq (x := setCoding (shifted a (encInterval x.unit)) (shiftPending a x.unit.pending) m) hb
    hwrote.ready ⟨hwrote.writer.count, hwrote.writer.bits⟩ hnext
  rwa [setCoding_interval, setCoding_pending, setCoding_setCoding] at hsecond

/-- Two intervals with the same bounds are the same. -/
theorem interval_ext {iv jv : Interval} (hlow : iv.low.toNat = jv.low.toNat) (hhigh : iv.high.toNat = jv.high.toNat) :
    iv = jv := by
  cases iv; cases jv
  simp only [Interval.mk.injEq]
  exact ⟨BitVec.eq_of_toNat_eq hlow, BitVec.eq_of_toNat_eq hhigh⟩

theorem ShiftFits.shifted_ordered {sh : Shift} {iv : Interval} (h : ShiftFits sh iv) :
    (shifted sh iv).low.toNat ≤ (shifted sh iv).high.toNat := by
  have hle := h.ordered
  rw [h.shifted_low, h.shifted_high]
  omega

/-- Two shifts move the bounds by twice the first offset and the second one. -/
theorem shifted_twice_eq {a b c d : Shift} {iv : Interval} (ha : ShiftFits a iv) (hb : ShiftFits b (shifted a iv))
    (hc : ShiftFits c iv) (hd : ShiftFits d (shifted c iv))
    (hoffset : 2 * shiftOffset a + shiftOffset b = 2 * shiftOffset c + shiftOffset d) :
    shifted b (shifted a iv) = shifted d (shifted c iv) := by
  apply interval_ext
  · rw [hb.shifted_low, ha.shifted_low, hd.shifted_low, hc.shifted_low]
    omega
  · have hle := ha.ordered
    have hoffa := ha.offset
    have hoffc := hc.offset
    rw [hb.shifted_high, ha.shifted_high, hd.shifted_high, hc.shifted_high]
    omega

/-- Two orders of shifts end alike when they write the same bits, leave as many pending and move the bounds as far. -/
theorem encShift_twice_agree {a b c d : Shift} {x : EncSide} (hr : SinkReady x.sink) (hw : WriterOk x.unit)
    (ha : ShiftFits a (encInterval x.unit)) (hb : ShiftFits b (shifted a (encInterval x.unit)))
    (hc : ShiftFits c (encInterval x.unit)) (hd : ShiftFits d (shifted c (encInterval x.unit)))
    (hbits : shiftBits a x.unit.pending ++ shiftBits b (shiftPending a x.unit.pending) =
      shiftBits c x.unit.pending ++ shiftBits d (shiftPending c x.unit.pending))
    (hpending : shiftPending b (shiftPending a x.unit.pending) = shiftPending d (shiftPending c x.unit.pending))
    (hoffset : 2 * shiftOffset a + shiftOffset b = 2 * shiftOffset c + shiftOffset d) :
    ∃ y, ((encShift a x).andThen fun _ z => encShift b z) = .done () y ∧
      ((encShift c x).andThen fun _ z => encShift d z) = .done () y := by
  obtain ⟨y, hy, -⟩ :=
    writeList_ready (shiftBits a x.unit.pending ++ shiftBits b (shiftPending a x.unit.pending)) hr hw
  refine ⟨_, encShift_twice ha hb hr hw hy, ?_⟩
  rw [hbits] at hy
  rw [shifted_twice_eq ha hb hc hd hoffset, hpending, encShift_twice hc hd hr hw hy]

/-- Settles O47: the pending bit of E3 is the one bit that the second shift of the other order writes. -/
theorem shiftOrderDoesNotMatter : Obligations.ShiftOrderDoesNotMatter := by
  intro x hle hw hr
  refine ⟨fun hlow hhigh => ?_, fun hlow hhigh => ?_⟩
  · have h1 : ShiftFits .e1 (encInterval x.unit) := shiftFits_e1 hle hhigh
    have h3 : ShiftFits .e3 (encInterval x.unit) := shiftFits_e3 hle hlow (hhigh.trans (by decide))
    have h12 : ShiftFits .e2 (shifted .e1 (encInterval x.unit)) := shiftFits_e2 h1.shifted_ordered (by
      rw [h1.shifted_low]; exact Nat.mul_le_mul_left 2 hlow)
    have h31 : ShiftFits .e1 (shifted .e3 (encInterval x.unit)) := shiftFits_e1 h3.shifted_ordered (by
      rw [h3.shifted_high]; simp only [shiftOffset, encInterval_high, half_eq, quarter_eq] at *; omega)
    exact encShift_twice_agree hr hw h1 h12 h3 h31 (by simp [shiftBits, shiftPending, List.replicate_succ']) rfl rfl
  · have h2 : ShiftFits .e2 (encInterval x.unit) := shiftFits_e2 hle hlow
    have h3 : ShiftFits .e3 (encInterval x.unit) := shiftFits_e3 hle (hlow.trans' (by decide)) hhigh
    have h21 : ShiftFits .e1 (shifted .e2 (encInterval x.unit)) := shiftFits_e1 h2.shifted_ordered (by
      rw [h2.shifted_high]; simp only [shiftOffset, encInterval_high, half_eq, threeQuarters_eq] at *; omega)
    have h32 : ShiftFits .e2 (shifted .e3 (encInterval x.unit)) := shiftFits_e2 h3.shifted_ordered (by
      rw [h3.shifted_low]; simp only [shiftOffset, encInterval_low, half_eq, quarter_eq] at *; omega)
    exact encShift_twice_agree hr hw h2 h21 h3 h32 (by simp [shiftBits, shiftPending, List.replicate_succ']) rfl rfl

/-! ### enc.init (R170) -/

/-- Settles O49: `freshEnc`, whose table holds `i` at `i`. -/
theorem encInitStartsStream : Obligations.EncInitStartsStream := by
  intro s
  exact ⟨_, rfl, fun _ hi => tableAt_freshTable hi, rfl, rfl, rfl, rfl, rfl, rfl, rfl⟩

/-! ### Coding a symbol (R178, R182) -/

/-- ENC's side with another table. -/
def withTable (t : Table) (x : EncSide) : EncSide := { x with unit := { x.unit with freqs := t } }

/-- Narrowing for a symbol and the loop, with a bound of 15 shifts or more, on a sink that answers ok: the coding of the
symbol on plain numbers, which leaves the updated table and a legal interval (R178, R182, R183). -/
theorem encRenorm_coded {x : EncSide} {sym n : Nat} (ht : TableOk x.unit.freqs) (hi : IntervalOk (encInterval x.unit))
    (hw : WriterOk x.unit) (hr : SinkReady x.sink) (hs : sym ≤ 256) (hn : 15 ≤ n) :
    ∃ t' u y, tableUpdate x.unit.freqs sym = .ok t' ∧ encNarrow sym x.unit = .ok u ∧
      encRenorm n { x with unit := u } = .done () y ∧
        Coded (withTable t' x) y (coderSymbol sym x.unit.freqs (coderOf x.unit)) ∧ IntervalOk (encInterval y.unit) := by
  obtain ⟨t', iv, hup, -, hnarrow, hwide, hcoder⟩ := encNarrow_ok ht hi hs
  have hstart : Coded (withTable t' x) { x with unit := setEncInterval { x.unit with freqs := t' } iv }
      ⟨iv.low.toNat, iv.high.toNat, x.unit.pending, []⟩ :=
    ⟨hr, ⟨hw.count, hw.bits⟩, rfl, rfl, rfl, (List.append_nil _).symm, rfl, rfl, rfl, rfl, List.prefix_refl _⟩
  obtain ⟨y, hy, hcoded, hexit⟩ := encRenorm_ready 15 n hstart
    (by simp only [setEncInterval_low, setEncInterval_high]; omega) (range_of_narrowed hwide) hn
  exact ⟨t', _, y, hup, hnarrow, hy, by rwa [coderSymbol, hcoder], hexit⟩

/-- Settles O48: the bounds of a case, then the loop with 15 as its bound. -/
theorem symbolShiftsAtMostFifteenTimes : Obligations.SymbolShiftsAtMostFifteenTimes := by
  refine ⟨fun iv sh hle hc => ?_, fun x sym ht hi hw hr hs => ?_⟩
  · obtain ⟨r, hr, -, -, hordered, hdouble⟩ := shift_ok hle hc
    exact ⟨(case_bounds hle hc).2.2, r, hr, hordered, hdouble⟩
  · obtain ⟨-, u, y, -, hnarrow, hy, -⟩ := encRenorm_coded ht hi hw hr hs le_rfl
    exact ⟨u, y, hnarrow, hy⟩

/-- Up to the EOF flush, `enc.code sym` codes the symbol (R178). -/
theorem encodeSymbol_coded {x : EncSide} {sym : Nat} (ht : TableOk x.unit.freqs) (hi : IntervalOk (encInterval x.unit))
    (hw : WriterOk x.unit) (hr : SinkReady x.sink) (hs : sym ≤ 256) :
    ∃ t' y, tableUpdate x.unit.freqs sym = .ok t' ∧
      encodeSymbol sym x = (if sym = Config.eofSymbol then encFinish y else .done () y) ∧
        Coded (withTable t' x) y (coderSymbol sym x.unit.freqs (coderOf x.unit)) ∧ IntervalOk (encInterval y.unit) := by
  obtain ⟨t', u, y, hup, hnarrow, hy, hcoded, hexit⟩ := encRenorm_coded ht hi hw hr hs (n := Config.shiftFuel) (by decide)
  exact ⟨t', y, hup, by rw [encodeSymbol, hnarrow, lift_ok, hy, andThen_done], hcoded, hexit⟩

/-- `enc.code sym` past its checks, where coding the symbol completes. -/
theorem exec_encCode_done {s : State} {sym : Nat} {y : EncSide} (hp : s.enc.phase = .active) (hs : sym ≤ 256)
    (hy : encodeSymbol sym (encSide s) = .done () y) :
    exec (.encCode sym) s = .next (respond 0 (withEncSide s y)) := by
  simp only [exec, execEncCode, hp, symbolInRange_of_le hs, checked_active, hy, andThen_done, endEnc_done]

/-- Settles O50: the loop's end is a legal interval, in which no case applies. -/
theorem encCodeRefinesSymbolCoding : Obligations.EncCodeRefinesSymbolCoding := by
  intro s sym hp hs ht hi hw hr
  obtain ⟨t', y, hup, hcode, hcoded, hexit⟩ := encodeSymbol_coded (x := encSide s) ht hi hw hr hs.le
  rw [if_neg (show sym ≠ Config.eofSymbol from hs.ne)] at hcode
  have hnone : bitCase y.unit.low.toNat y.unit.high.toNat = none :=
    (renormCase_eq_bitCase _).symm.trans (exit_of_intervalOk hexit)
  rw [hcoded.low, hcoded.high] at hnone
  exact ⟨_, exec_encCode_done hp hs.le hcode, hnone, hcoded.low, hcoded.high, hcoded.pending, hcoded.written,
    hup.trans (congrArg _ hcoded.freqs.symm), hcoded.writer, hcoded.phase.trans hp, hcoded.ready, hcoded.received,
    hcoded.flushes, hcoded.passedOn, rfl⟩

/-! ### The EOF flush (R179) -/

theorem coderFinish_bits_length (c : Coder) : (coderFinish c).bits.length = c.bits.length + c.pending + 2 := by
  simp [coderFinish, coderEmit]; omega

/-- ENC as EncFinish starts its final bit: one more pending bit, in phase Flushing (R179). -/
theorem Coded.beginFlush {x y : EncSide} {c : Coder} (h : Coded x y c) :
    Coded (setEncPhase .flushing x) (beginFlush y) { c with pending := c.pending + 1 } :=
  ⟨h.ready, ⟨h.writer.count, h.writer.bits⟩, h.low, h.high, congrArg (· + 1) h.pending, h.written, h.freqs, rfl,
    h.flushes, h.passedOn, h.received⟩

/-- EncFinish on a sink that answers ok: the final bit with the pending bits and one more, then the writer flushed, in
phase Done. -/
theorem encFinish_ready {x y : EncSide} {c : Coder} (h : Coded x y c) :
    ∃ m z, encFinish y = .done () (setEncPhase .done z) ∧ Coded (setEncPhase .flushing x) m (coderFinish c) ∧
      Flushed m z := by
  obtain ⟨m, hm, hcoded⟩ := emitWithPending_ready (!decide (y.unit.low.toNat < Config.quarter)) h.beginFlush
  obtain ⟨z, hz, hflushed⟩ := writerFlush_flushed hcoded.ready hcoded.writer
  rw [h.low] at hm hcoded
  exact ⟨m, z, by rw [encFinish, h.low, hm, andThen_done, hz, andThen_done], hcoded, hflushed⟩

/-- Settles O51: the symbol's coding, then the flush of its bits. -/
theorem encCodeEofFinishesStream : Obligations.EncCodeEofFinishesStream := by
  intro s hp ht hi hw hr
  obtain ⟨t', y, hup, hcode, hcoded, -⟩ := encodeSymbol_coded (x := encSide s) ht hi hw hr (le_refl 256)
  obtain ⟨m, ⟨u, k⟩, hfinish, hbits, hflushed⟩ := encFinish_ready hcoded
  obtain ⟨hready, hreceived, hpadded, -, rfl, hflushes, hpassed⟩ := hflushed
  rw [if_pos (show 256 = Config.eofSymbol from rfl), hfinish] at hcode
  exact ⟨_, (8 - m.unit.wcount.toNat) % 8, exec_encCode_done hp le_rfl hcode, Nat.mod_lt _ (by decide), hbits.low,
    hbits.high, hbits.pending, rfl, rfl, hpadded.trans (congrArg (· ++ _) hbits.written), coderFinish_bits_length _,
    hup.trans (congrArg _ hbits.freqs.symm), rfl, hready, hbits.received.trans hreceived,
    hflushes.trans (congrArg (· + 1) hbits.flushes), hpassed, rfl⟩

/-! ### Phases (R180) -/

section Completes
variable {σ α β : Type} {P Q : σ → Prop}

/-- Where a run completes, the side satisfies `P`. -/
def Completes (P : σ → Prop) (r : Run σ α) : Prop := ∀ a x, r = .done a x → P x

theorem completes_done {a : α} {x : σ} (h : P x) : Completes P (.done a x) := fun _ _ hr => by cases hr; exact h

theorem completes_andThen {r : Run σ α} {k : α → σ → Run σ β} (hr : Completes P r)
    (hk : ∀ a x, P x → Completes Q (k a x)) : Completes Q (r.andThen k) := by
  cases r with
  | done a x => exact hk a x (hr a x rfl)
  | raised e x => exact nofun
  | waiting x => exact nofun
  | broken f => exact nofun

theorem completes_lift {γ : Type} {c : Except Fault γ} {k : γ → Run σ α} (hk : ∀ v, c = .ok v → Completes P (k v)) :
    Completes P (Run.lift c k) := by
  cases c with
  | ok v => exact hk v rfl
  | error f => exact nofun

theorem completes_of_stops {E : Status → Prop} {r : Run σ α} (h : Stops P E r) : Completes P r := fun a x hr => by
  rw [hr] at h; exact h

end Completes

/-- ENC is in phase `p`. -/
def InPhase (p : Phase) (x : EncSide) : Prop := x.unit.phase = p

theorem WriterFrame.inPhase {x y : EncSide} {p : Phase} (h : WriterFrame x y) (hx : InPhase p x) : InPhase p y := by
  rw [InPhase, h.1]; exact hx

/-- A writer's operation leaves the phase. -/
theorem completes_inPhase {α : Type} {p : Phase} {x : EncSide} {r : Run EncSide α} (hx : InPhase p x)
    (h : Stops (WriterFrame x) IsIoError r) : Completes (InPhase p) r :=
  completes_of_stops (stops_mono h fun _ hy => hy.inPhase hx)

theorem emitWithPending_inPhase {p : Phase} (b : Bool) {x : EncSide} (hx : InPhase p x) :
    Completes (InPhase p) (emitWithPending b x) :=
  completes_andThen (completes_inPhase hx (wbit_stops b x)) fun _ y hy =>
    completes_andThen (completes_inPhase hy (repeatBit_stops _ _ y)) fun _ _ hz => completes_done hz

theorem encShift_inPhase {p : Phase} (sh : Shift) {x : EncSide} (hx : InPhase p x) :
    Completes (InPhase p) (encShift sh x) := by
  have hbits : Completes (InPhase p) (encShiftBits sh x) := by
    cases sh with
    | e1 => exact emitWithPending_inPhase false hx
    | e2 => exact emitWithPending_inPhase true hx
    | e3 => exact completes_done hx
  exact completes_andThen hbits fun _ _ hy => completes_lift fun _ _ => completes_done hy

theorem encRenorm_inPhase {p : Phase} : ∀ (n : Nat) {x : EncSide}, InPhase p x →
    Completes (InPhase p) (encRenorm n x) := by
  intro n
  induction n with
  | zero =>
    intro x hx
    unfold encRenorm
    split
    · exact completes_done hx
    · exact nofun
  | succ n ih =>
    intro x hx
    unfold encRenorm
    split
    · exact completes_done hx
    · exact completes_andThen (encShift_inPhase _ hx) fun _ _ hy => ih hy

theorem encFinish_inPhase (x : EncSide) : Completes (InPhase .done) (encFinish x) :=
  completes_andThen (P := fun _ => True) (fun _ _ _ => trivial) fun _ _ _ =>
    completes_andThen (P := fun _ => True) (fun _ _ _ => trivial) fun _ _ _ => completes_done rfl

theorem encNarrow_phase {sym : Nat} {u v : EncUnit} (h : encNarrow sym u = .ok v) : v.phase = u.phase := by
  unfold encNarrow at h
  split at h
  · cases h
  · split at h
    · cases h
    · cases h; rfl

/-- The phase in which `enc.code sym` completes from phase `p`: Done after EOF (R178, R179). -/
theorem encodeSymbol_inPhase {p : Phase} (sym : Nat) {x : EncSide} (hx : InPhase p x) :
    Completes (InPhase (if sym = Config.eofSymbol then .done else p)) (encodeSymbol sym x) := by
  refine completes_lift fun u hu => ?_
  have hstart : InPhase p { x with unit := u } := (encNarrow_phase hu).trans hx
  refine completes_andThen (encRenorm_inPhase _ hstart) fun _ y hy => ?_
  split
  · exact encFinish_inPhase y
  · exact completes_done hy

theorem onEncTable_inPhase {p : Phase} (f : Table → Except Fault (Operand × Table)) {x : EncSide} (hx : InPhase p x) :
    Completes (InPhase p) (onEncTable f x) :=
  completes_lift fun _ _ => completes_done hx

/-- How a command other than `enc.init` moves ENC's phase (R180): not at all, or from Active to Done at the end of the
stream, or from Active to Failed. -/
def MovesPhase (i : Instr) (s t : State) : Prop :=
  (t.enc.phase = s.enc.phase ∧ ¬(i = .encCode 256 ∧ s.enc.phase = .active ∧ t.status = 0) ∧
      ¬(isEncCommand i = true ∧ t.status = 1)) ∨
    (s.enc.phase = .active ∧ i = .encCode 256 ∧ t.status = 0 ∧ t.enc.phase = .done) ∨
    (s.enc.phase = .active ∧ isEncCommand i = true ∧ t.status = 1 ∧ t.enc.phase = .failed)

theorem movesPhase_reject (i : Instr) (s : State) {e : Status} (he : IsRejection e) : MovesPhase i s (reject e s) := by
  have h0 : (reject e s).status ≠ 0 := statusCode_ne_of_isRejection (a := .ok) not_isRejection_ok he |>.symm
  have h1 : (reject e s).status ≠ 1 :=
    (statusCode_ne_of_isRejection (a := .ioError) (IsFatal.not_isRejection (.inl rfl)) he).symm
  exact .inl ⟨rfl, fun h => h0 h.2.2, fun h => h1 h.2⟩

/-- A result of a command that is not `enc.code 256` on an Active ENC leaves the phase. -/
theorem movesPhase_respond {i : Instr} {s t : State} (d : Operand) (hp : t.enc.phase = s.enc.phase)
    (hi : ¬(i = .encCode 256 ∧ s.enc.phase = .active)) : MovesPhase i s (respond d t) :=
  .inl ⟨hp, fun h => hi ⟨h.1, h.2.1⟩, fun h => absurd h.2 (by simp; decide)⟩

/-- A checked ENC command: rejected, failed, or completed in the phase that its run leaves. -/
theorem movesPhase_checked {i : Instr} {s t : State} {ok : Bool} {r : Run EncSide Operand} (hi : isEncCommand i = true)
    (hstops : Stops (SinkKeeps (encSide s)) IsIoError r)
    (hr : Completes (InPhase (if i = .encCode 256 then .done else s.enc.phase)) r)
    (h : checked s.enc.phase ok s (endEnc i s r) = .next t) (hw : t.waiting = none) : MovesPhase i s t := by
  obtain ⟨_, rfl⟩ | ⟨_, _, rfl⟩ | ⟨hactive, _, hrun⟩ := checked_next h
  · exact movesPhase_reject i s (.inl rfl)
  · exact movesPhase_reject i s (.inr rfl)
  obtain ⟨d, x, hd, rfl⟩ | ⟨e, x, hd, rfl⟩ | ⟨x, hd, rfl⟩ := endEnc_next hrun
  · have hx : x.unit.phase = _ := hr d x hd
    by_cases heof : i = .encCode 256
    · rw [if_pos heof] at hx
      exact .inr (.inl ⟨hactive, heof, rfl, hx⟩)
    · rw [if_neg heof] at hx
      exact movesPhase_respond d hx fun h => heof h.1
  · rw [hd] at hstops
    cases hstops.1
    exact .inr (.inr ⟨hactive, hi, rfl, rfl⟩)
  · cases hw

/-- A checked ENC command that completes in the phase it started from. -/
theorem movesPhase_kept {i : Instr} {s t : State} {ok : Bool} {r : Run EncSide Operand} (hi : isEncCommand i = true)
    (hne : i ≠ .encCode 256) (hstops : Stops (SinkKeeps (encSide s)) IsIoError r)
    (hr : Completes (InPhase s.enc.phase) r) (h : checked s.enc.phase ok s (endEnc i s r) = .next t)
    (hw : t.waiting = none) : MovesPhase i s t :=
  movesPhase_checked hi hstops (by rwa [if_neg hne]) h hw

theorem movesPhase_table {i : Instr} {s t : State} {ok : Bool} {f : Table → Except Fault (Operand × Table)}
    (hi : isEncCommand i = true) (hne : i ≠ .encCode 256)
    (h : checked s.enc.phase ok s (endEnc i s (onEncTable f (encSide s))) = .next t) (hw : t.waiting = none) :
    MovesPhase i s t :=
  movesPhase_kept hi hne (onEncTable_stops f _) (onEncTable_inPhase f rfl) h hw

/-- A run of the writer for `enc.bits` or `enc.bflush`. -/
theorem movesPhase_writer {i : Instr} {s t : State} {ok : Bool} {r : Run EncSide Unit} (hi : isEncCommand i = true)
    (hne : i ≠ .encCode 256) (hr : Stops (WriterFrame (encSide s)) IsIoError r)
    (h : checked s.enc.phase ok s (endEnc i s (r.andThen fun _ x => .done 0 x)) = .next t) (hw : t.waiting = none) :
    MovesPhase i s t :=
  movesPhase_kept hi hne (stops_result (fun _ => 0) (stops_mono hr fun _ hx => hx.2))
    (completes_andThen (completes_inPhase rfl hr) fun _ _ hx => completes_done hx) h hw

/-- A DEC command leaves ENC alone. -/
theorem movesPhase_dec {i : Instr} {s t : State} (hi : isEncCommand i = false) (h : exec i s = .next t) :
    MovesPhase i s t := by
  obtain ⟨_, _, _, hother⟩ := unitsAreIndependent i s t h
  refine .inl ⟨congrArg EncUnit.phase (hother hi).1, ?_, by simp [hi]⟩
  rintro ⟨rfl, _⟩
  cases hi

theorem exec_movesPhase {i : Instr} {s t : State} (hne : i ≠ .encInit) (h : exec i s = .next t) (hw : t.waiting = none) :
    MovesPhase i s t := by
  cases i with
  | encInit => exact absurd rfl hne
  | encPreload sym => exact movesPhase_table rfl nofun h hw
  | encCode sym =>
    refine movesPhase_checked rfl (stops_result (fun _ => 0) (encodeSymbol_stops sym _)) ?_ h hw
    simp only [Instr.encCode.injEq]
    exact completes_andThen (encodeSymbol_inPhase sym rfl) fun _ _ hx => completes_done hx
  | encProb sym => exact movesPhase_table rfl nofun h hw
  | encSymfor => exact movesPhase_table rfl nofun h hw
  | encUpdate sym => exact movesPhase_table rfl nofun h hw
  | encRescale => exact movesPhase_table rfl nofun h hw
  | encBits n => exact movesPhase_writer rfl nofun (writeBits_stops s.din n _) h hw
  | encBflush => exact movesPhase_writer rfl nofun (writerFlush_stops _) h hw
  | encRdstate sel =>
    injection h with h
    obtain ha | ⟨d, ha⟩ | ⟨d, ha⟩ := answerRead_cases s.enc.phase sel (encRegister s.enc sel) s
    · rw [← h, ha]; exact movesPhase_reject _ s (.inr rfl)
    · rw [← h, ha]; exact movesPhase_respond d rfl (fun hi => nomatch hi.1)
    · rw [← h, ha]; exact movesPhase_respond d rfl (fun hi => nomatch hi.1)
  | decInit => exact movesPhase_dec rfl h
  | decPreload sym => exact movesPhase_dec rfl h
  | decCode => exact movesPhase_dec rfl h
  | decProb sym => exact movesPhase_dec rfl h
  | decSymfor => exact movesPhase_dec rfl h
  | decUpdate sym => exact movesPhase_dec rfl h
  | decRescale => exact movesPhase_dec rfl h
  | decBits n => exact movesPhase_dec rfl h
  | decRdstate sel => exact movesPhase_dec rfl h

/-- Settles O20: `enc.init` writes a fresh ENC, and every other command moves the phase as `MovesPhase` says. -/
theorem encPhaseTransitions : Obligations.EncPhaseTransitions := by
  intro i s t _ h hw
  refine ⟨?_, fun hne => exec_movesPhase hne h hw⟩
  rintro rfl
  cases h
  rfl

/-! ### What a command depends on (R185, R20) -/

section Alike
variable {σ : Type} {side : State → σ} {s s' : State}

/-- The two states look the same to the commands of the unit and the device that `side` reads: the operand and the draw
counter are the same too, and no command is in progress. -/
structure Alike (side : State → σ) (s s' : State) : Prop where
  side : side s' = side s
  din : s'.din = s.din
  draws : s'.draws = s.draws
  free : s.waiting = none
  free' : s'.waiting = none

theorem Alike.waiting (h : Alike side s s') : s'.waiting = s.waiting := h.free'.trans h.free.symm

/-- What two runs of a command have in common: the same side and the same waiting, and the same response if the command
ends. -/
def AnswersAlike (side : State → σ) : Host.Outcome State Fault Refusal → Host.Outcome State Fault Refusal → Prop
  | .next t, o' => ∃ t', o' = .next t' ∧ side t' = side t ∧ t'.waiting = t.waiting ∧
      (t.waiting = none → t'.status = t.status ∧ t'.dout = t.dout)
  | .fault _, _ => True
  | .refused _, _ => True

/-- `side` reads neither the response nor the draw counter. -/
def IgnoresResponse (side : State → σ) : Prop :=
  ∀ (t : State) (st : Byte) (d : Operand) (n : Nat), side { t with status := st, dout := d, draws := n } = side t

theorem encSide_ignoresResponse : IgnoresResponse encSide := fun _ _ _ _ => rfl

theorem decSide_ignoresResponse : IgnoresResponse decSide := fun _ _ _ _ => rfl

/-- The same response from alike states. -/
theorem answersAlike_response (hside : IgnoresResponse side) (h : Alike side s s') (st : Byte) (d : Operand) (n n' : Nat) :
    AnswersAlike side (.next { s with status := st, dout := d, draws := n })
      (.next { s' with status := st, dout := d, draws := n' }) :=
  ⟨_, rfl, (hside s' st d n').trans (h.side.trans (hside s st d n).symm), h.waiting, fun _ => ⟨rfl, rfl⟩⟩

theorem checked_alike (hside : IgnoresResponse side) (h : Alike side s s') (p : Phase) (ok : Bool)
    {o o' : Host.Outcome State Fault Refusal} (ho : AnswersAlike side o o') :
    AnswersAlike side (checked p ok s o) (checked p ok s' o') := by
  unfold checked
  split_ifs
  · exact ho
  · exact answersAlike_response hside h _ _ _ _
  · exact answersAlike_response hside h _ _ _ _

theorem answerRead_alike (hside : IgnoresResponse side) (h : Alike side s s') (p : Phase) (sel : Nat) (v : Option Nat) :
    AnswersAlike side (.next (answerRead p sel v s)) (.next (answerRead p sel v s')) := by
  unfold answerRead
  split
  · exact answersAlike_response hside h _ _ _ _
  · split_ifs
    · rw [h.draws]; exact answersAlike_response hside h _ _ _ _
    · exact answersAlike_response hside h _ _ _ _

/-- Command `i` checks, runs and ends on its side: what is checked and run is a function of the side and the operand. -/
def RunsOn (side : State → σ) (finish : State → Run σ Operand → Host.Outcome State Fault Refusal) (i : Instr) : Prop :=
  ∃ (p : σ → Phase) (ok : Operand → σ → Bool) (P : Operand → σ → Run σ Operand),
    ∀ s, exec i s = checked (p (side s)) (ok s.din (side s)) s (finish s (P s.din (side s)))

theorem RunsOn.alike {finish : State → Run σ Operand → Host.Outcome State Fault Refusal} {i : Instr}
    (hi : RunsOn side finish i) (hside : IgnoresResponse side) (h : Alike side s s')
    (hfinish : ∀ r, AnswersAlike side (finish s r) (finish s' r)) : AnswersAlike side (exec i s) (exec i s') := by
  obtain ⟨p, ok, P, hexec⟩ := hi
  rw [hexec, hexec, h.side, h.din]
  exact checked_alike hside h _ _ (hfinish _)

end Alike

theorem endEnc_alike {s s' : State} (h : Alike encSide s s') (i : Instr) (r : Run EncSide Operand) :
    AnswersAlike encSide (endEnc i s r) (endEnc i s' r) := by
  cases r with
  | done d x => exact ⟨_, rfl, rfl, h.waiting, fun _ => ⟨rfl, rfl⟩⟩
  | raised e x =>
    exact ⟨_, rfl, by simp only [encSide, failEnc_enc, failEnc_sink, h.draws], h.waiting, fun _ => ⟨rfl, rfl⟩⟩
  | waiting x => exact ⟨_, rfl, rfl, by simp only [h.side], nofun⟩
  | broken f => trivial

theorem endDec_alike {s s' : State} (h : Alike decSide s s') (i : Instr) (r : Run DecSide Operand) :
    AnswersAlike decSide (endDec i s r) (endDec i s' r) := by
  cases r with
  | done d x => exact ⟨_, rfl, rfl, h.waiting, fun _ => ⟨rfl, rfl⟩⟩
  | raised e x =>
    exact ⟨_, rfl, by simp only [decSide, failDec_dec, failDec_source, h.draws], h.waiting, fun _ => ⟨rfl, rfl⟩⟩
  | waiting x => exact ⟨_, rfl, rfl, by simp only [h.side], nofun⟩
  | broken f => trivial

/-- Every ENC command but RDSTATE runs on ENC's side. -/
theorem encCommand_runsOn {i : Instr} (hi : isEncCommand i = true) (hread : ∀ sel, i ≠ .encRdstate sel) :
    RunsOn encSide (endEnc i) i := by
  cases i with
  | encInit =>
    exact ⟨fun _ => .active, fun _ _ => true, fun _ x => .done 0 ⟨freshEnc, x.sink⟩, fun _ => checked_active.symm⟩
  | encPreload sym =>
    exact ⟨fun x => x.unit.phase, fun _ _ => symbolInRange sym, fun d => onEncTable (preloadTable sym d.toNat),
      fun _ => rfl⟩
  | encCode sym =>
    exact ⟨fun x => x.unit.phase, fun _ _ => symbolInRange sym,
      fun _ x => (encodeSymbol sym x).andThen fun _ y => .done 0 y, fun _ => rfl⟩
  | encProb sym =>
    exact ⟨fun x => x.unit.phase, fun _ _ => symbolInRange sym, fun _ => onEncTable (probTable sym), fun _ => rfl⟩
  | encSymfor =>
    exact ⟨fun x => x.unit.phase, fun d x => scaledInRange x.unit.freqs d, fun d => onEncTable (symforTable d.toNat),
      fun _ => rfl⟩
  | encUpdate sym =>
    exact ⟨fun x => x.unit.phase, fun _ _ => symbolInRange sym, fun _ => onEncTable (updateTable sym), fun _ => rfl⟩
  | encRescale => exact ⟨fun x => x.unit.phase, fun _ _ => true, fun _ => onEncTable rescaleTable, fun _ => rfl⟩
  | encBits n =>
    exact ⟨fun x => x.unit.phase, fun _ _ => countInRange n, fun d x => (writeBits d n x).andThen fun _ y => .done 0 y,
      fun _ => rfl⟩
  | encBflush =>
    exact ⟨fun x => x.unit.phase, fun _ _ => true, fun _ x => (writerFlush x).andThen fun _ y => .done 0 y, fun _ => rfl⟩
  | encRdstate sel => exact absurd rfl (hread sel)
  | decInit => cases hi
  | decPreload sym => cases hi
  | decCode => cases hi
  | decProb sym => cases hi
  | decSymfor => cases hi
  | decUpdate sym => cases hi
  | decRescale => cases hi
  | decBits n => cases hi
  | decRdstate sel => cases hi

/-- Every DEC command but RDSTATE runs on DEC's side. -/
theorem decCommand_runsOn {i : Instr} (hi : isEncCommand i = false) (hread : ∀ sel, i ≠ .decRdstate sel) :
    RunsOn decSide (endDec i) i := by
  cases i with
  | encInit => cases hi
  | encPreload sym => cases hi
  | encCode sym => cases hi
  | encProb sym => cases hi
  | encSymfor => cases hi
  | encUpdate sym => cases hi
  | encRescale => cases hi
  | encBits n => cases hi
  | encBflush => cases hi
  | encRdstate sel => cases hi
  | decInit =>
    exact ⟨fun _ => .active, fun _ _ => true,
      fun _ x => (primeValue ⟨startDec x.unit, x.source⟩).andThen fun _ y => .done 0 y, fun _ => checked_active.symm⟩
  | decPreload sym =>
    exact ⟨fun x => x.unit.phase, fun _ _ => symbolInRange sym, fun d => onDecTable (preloadTable sym d.toNat),
      fun _ => rfl⟩
  | decCode =>
    exact ⟨fun x => x.unit.phase, fun _ _ => true,
      fun _ x => (decodeSymbol x).andThen fun sym y => .done (BitVec.ofNat 64 sym) y, fun _ => rfl⟩
  | decProb sym =>
    exact ⟨fun x => x.unit.phase, fun _ _ => symbolInRange sym, fun _ => onDecTable (probTable sym), fun _ => rfl⟩
  | decSymfor =>
    exact ⟨fun x => x.unit.phase, fun d x => scaledInRange x.unit.freqs d, fun d => onDecTable (symforTable d.toNat),
      fun _ => rfl⟩
  | decUpdate sym =>
    exact ⟨fun x => x.unit.phase, fun _ _ => symbolInRange sym, fun _ => onDecTable (updateTable sym), fun _ => rfl⟩
  | decRescale => exact ⟨fun x => x.unit.phase, fun _ _ => true, fun _ => onDecTable rescaleTable, fun _ => rfl⟩
  | decBits n =>
    exact ⟨fun x => x.unit.phase, fun _ _ => countInRange n,
      fun _ x => (readBits n x).andThen fun v y => Run.lift (narrowTo 64 v) fun d => .done d y, fun _ => rfl⟩
  | decRdstate sel => exact absurd rfl (hread sel)

theorem encCommand_alike {i : Instr} {s s' : State} (hi : isEncCommand i = true) (h : Alike encSide s s') :
    AnswersAlike encSide (exec i s) (exec i s') := by
  by_cases hread : ∃ sel, i = .encRdstate sel
  · obtain ⟨sel, rfl⟩ := hread
    have henc : s'.enc = s.enc := congrArg EncSide.unit h.side
    simp only [exec, execEncRdstate, henc]
    exact answerRead_alike encSide_ignoresResponse h _ _ _
  · exact (encCommand_runsOn hi fun sel hsel => hread ⟨sel, hsel⟩).alike encSide_ignoresResponse h (endEnc_alike h i)

theorem decCommand_alike {i : Instr} {s s' : State} (hi : isEncCommand i = false) (h : Alike decSide s s') :
    AnswersAlike decSide (exec i s) (exec i s') := by
  by_cases hread : ∃ sel, i = .decRdstate sel
  · obtain ⟨sel, rfl⟩ := hread
    have hdec : s'.dec = s.dec := congrArg DecSide.unit h.side
    simp only [exec, execDecRdstate, hdec]
    exact answerRead_alike decSide_ignoresResponse h _ _ _
  · exact (decCommand_runsOn hi fun sel hsel => hread ⟨sel, hsel⟩).alike decSide_ignoresResponse h (endDec_alike h i)

/-- Settles O25: what a command checks and runs is a function of its side and DIN, and how it ends reads no more than the
draw counter. -/
theorem commandDependsOnItsSideOnly : Obligations.CommandDependsOnItsSideOnly := by
  refine ⟨fun i s s' t hi henc hsink hdin hdraws hw hw' h => ?_, fun i s s' t hi hdec hsource hdin hdraws hw hw' h => ?_⟩
  · have halike := encCommand_alike hi ⟨by rw [encSide, henc, hsink]; rfl, hdin, hdraws, hw, hw'⟩
    rw [h] at halike
    obtain ⟨t', ht', hside, hwaiting, hresponse⟩ := halike
    exact ⟨t', ht', congrArg EncSide.unit hside, congrArg EncSide.sink hside, hwaiting, hresponse⟩
  · have halike := decCommand_alike hi ⟨by rw [decSide, hdec, hsource]; rfl, hdin, hdraws, hw, hw'⟩
    rw [h] at halike
    obtain ⟨t', ht', hside, hwaiting, hresponse⟩ := halike
    exact ⟨t', ht', congrArg DecSide.unit hside, congrArg DecSide.source hside, hwaiting, hresponse⟩

end Sys2Proof.Machine
end

section
/-! # The decoder's statements (43_decoder.md)

`dec.init` is a read of 32 bits and `dec.code` is `decodeSymbol`; both are said on plain numbers and bits by Laws/BitIo and
Laws/Decoder. Then what every command does to DEC's phase, and why the two units move in lockstep. -/
namespace Sys2Proof.Machine

/-! ### Decoding a symbol (R203 to R208) -/

/-- DEC's side with another table. -/
def withDecTable (t : Table) (x : DecSide) : DecSide := { x with unit := { x.unit with freqs := t } }

/-- The end of `dec.code` writes the phase only (R203). -/
theorem finishDec_eq (sym : Nat) (x : DecSide) : finishDec sym x =
    { x with unit := { x.unit with phase := if sym = Config.eofSymbol then .done else x.unit.phase } } := by
  unfold finishDec
  split <;> rfl

/-- From a legal DEC, on a source that gives bytes and then ends, the symbol whose range holds the count is selected, and
then DEC's window is that of decoding the symbol on plain numbers, or runs out of bits (R203, R204, R205, R233). -/
theorem decodeSymbol_windowed {x : DecSide} {bytes : List Byte} (ht : TableOk x.unit.freqs)
    (hi : IntervalOk (decInterval x.unit)) (hv : ValueOk x.unit) (hs : SourceGives x.source bytes) :
    ∃ sym t', sym ≤ 256 ∧ tableAt x.unit.freqs sym ≤ windowCount (windowOf x.unit bytes) (total x.unit.freqs) ∧
      windowCount (windowOf x.unit bytes) (total x.unit.freqs) < tableAt x.unit.freqs (sym + 1) ∧
      tableUpdate x.unit.freqs sym = .ok t' ∧ TableOk t' ∧
      (∀ w, windowSymbol sym x.unit.freqs (windowOf x.unit bytes) = some w →
        ∃ y left, decodeSymbol x = .done sym (finishDec sym y) ∧ Windowed (withDecTable t' x) y bytes left w ∧
          IntervalOk (decInterval y.unit) ∧ ValueOk y.unit) ∧
      (windowSymbol sym x.unit.freqs (windowOf x.unit bytes) = none →
        ∃ y, decodeSymbol x = .raised .unexpectedEof y) := by
  obtain ⟨sym, hsel, hsym, hbelow, habove⟩ := selectSymbol_ok ht hv
  obtain ⟨t', iv, hup, hok, hnarrow, hlow, hhigh, hwide, hfrom, hto⟩ := decNarrow_ok ht hi hv hsym hbelow habove
  let narrowed : DecSide := { x with unit := setDecInterval { x.unit with freqs := t' } iv }
  have hrun : decodeSymbol x = (decRenorm Config.shiftFuel narrowed).andThen fun _ y => .done sym (finishDec sym y) := by
    rw [decodeSymbol, hsel, lift_ok, hnarrow, lift_ok]
  have hstart : Windowed (withDecTable t' x) narrowed bytes bytes
      ⟨iv.low.toNat, iv.high.toNat, x.unit.value.toNat, upcomingBits x.unit bytes⟩ :=
    ⟨hs, rfl, rfl, rfl, rfl, rfl, rfl, rfl⟩
  have hloop := decRenorm_supplied 15 Config.shiftFuel hstart (show iv.low.toNat ≤ iv.high.toNat by omega) ⟨hfrom, hto⟩
    (range_of_narrowed hwide) (by decide)
  have hwindow : windowRenorm 15 ⟨iv.low.toNat, iv.high.toNat, x.unit.value.toNat, upcomingBits x.unit bytes⟩ =
      windowSymbol sym x.unit.freqs (windowOf x.unit bytes) := by rw [hlow, hhigh]; rfl
  rw [hwindow] at hloop
  refine ⟨sym, t', hsym, hbelow, habove, hup, hok, fun w hw => ?_, fun hnone => ?_⟩
  · rw [hw] at hloop
    obtain ⟨y, left, hy, hend⟩ := hloop
    exact ⟨y, left, by rw [hrun, hy, andThen_done], hend⟩
  · rw [hnone] at hloop
    obtain ⟨y, hy⟩ := hloop
    exact ⟨y, by rw [hrun, hy, andThen_raised]⟩

/-- `dec.code` past its check, where decoding a symbol completes. -/
theorem exec_decCode_done {s : State} {sym : Nat} {y : DecSide} (hp : s.dec.phase = .active)
    (hy : decodeSymbol (decSide s) = .done sym y) :
    exec .decCode s = .next (respond (BitVec.ofNat 64 sym) (withDecSide s y)) := by
  simp only [exec, execDecCode, hp, checked_active, hy, andThen_done, endDec_done]

theorem exec_decCode_raised {s : State} {e : Status} {y : DecSide} (hp : s.dec.phase = .active)
    (hy : decodeSymbol (decSide s) = .raised e y) : exec .decCode s = .next (failDec e y.source s) := by
  simp only [exec, execDecCode, hp, checked_active, hy, andThen_raised, endDec_raised]

/-- The symbol in DOUT (R73). -/
theorem toNat_ofNat_symbol {sym : Nat} (hs : sym ≤ 256) : (BitVec.ofNat 64 sym).toNat = sym :=
  toNat_ofNat_of_lt (by omega)

/-- Settles O54: what decoding the symbol leaves; no case applies in the legal interval at the loop's end. -/
theorem decCodeRefinesSymbolDecoding : Obligations.DecCodeRefinesSymbolDecoding := by
  intro s bytes hp ht hi hv hs
  obtain ⟨sym, t', hsym, hbelow, habove, hup, -, hsome, hnone⟩ := decodeSymbol_windowed (x := decSide s) ht hi hv hs
  refine ⟨sym, hsym, hbelow, habove, fun w hw => ?_, fun hw => ?_⟩
  · obtain ⟨y, left, hy, hwin, hexit, -⟩ := hsome w hw
    have hcase : bitCase y.unit.low.toNat y.unit.high.toNat = none :=
      (renormCase_eq_bitCase _).symm.trans (exit_of_intervalOk hexit)
    rw [hwin.low, hwin.high] at hcase
    rw [finishDec_eq, hwin.phase.trans hp] at hy
    exact ⟨_, left, exec_decCode_done hp hy, toNat_ofNat_symbol hsym, hwin.low, hwin.high, hwin.value, hcase, hwin.source,
      hwin.bits, hwin.taken.symm, hup.trans (congrArg _ hwin.freqs.symm), rfl, rfl⟩
  · obtain ⟨y, hy⟩ := hnone hw
    exact ⟨_, exec_decCode_raised hp hy, rfl, rfl⟩

/-- The loop finds all its bits where it has one for each shift it may make (R182, R205). -/
theorem windowRenorm_enough : ∀ (n : Nat) (w : Window), n ≤ w.bits.length → ∃ w', windowRenorm n w = some w' := by
  intro n
  induction n with
  | zero => exact fun w _ => ⟨w, rfl⟩
  | succ n ih =>
    intro w hn
    unfold windowRenorm
    cases bitCase w.low w.high with
    | none => exact ⟨w, rfl⟩
    | some sh =>
      cases hb : w.bits with
      | nil => rw [hb] at hn; cases hn
      | cons b rest => exact ih _ (by rw [hb] at hn; exact Nat.le_of_succ_le_succ hn)

/-- Settles O55: a symbol needs at most 15 bits, and the end of the loop is legal again. -/
theorem decCodeCompletesWithFifteenBits : Obligations.DecCodeCompletesWithFifteenBits := by
  intro s bytes hp ht hi hv hs hbits
  obtain ⟨sym, t', hsym, -, -, -, hok, hsome, -⟩ := decodeSymbol_windowed (x := decSide s) ht hi hv hs
  obtain ⟨w, hw⟩ := windowRenorm_enough 15 { windowOf s.dec bytes with
    low := _, high := _ } hbits
  obtain ⟨y, left, hy, hwin, hexit, hvalue⟩ := hsome w hw
  rw [finishDec_eq] at hy
  exact ⟨_, exec_decCode_done hp hy, rfl, (toNat_ofNat_symbol hsym).trans_le hsym, hexit, ⟨hvalue.fromLow, hvalue.toHigh⟩,
    hwin.freqs.symm ▸ hok⟩

/-! ### dec.init (R200 to R202) -/

/-- Priming on a source that gives bytes and then ends reads the first 32 bits of the stream and the padding (R201). -/
theorem primeValue_supplied {x : DecSide} {bytes : List Byte} (hs : SourceGives x.source bytes) :
    ∃ v y left, v.toNat = bitsValue ((bytes.flatMap byteBits ++ List.replicate 32 false).take 32) ∧
      primeValue ⟨startDec x.unit, x.source⟩ = .done () (setValue v y) ∧
      Supplied ⟨startDec x.unit, x.source⟩ y bytes left ((bytes.flatMap byteBits ++ List.replicate 32 false).take 32) ∧
      upcomingBits y.unit left = (bytes.flatMap byteBits ++ List.replicate 32 false).drop 32 := by
  have hup : upcomingBits (startDec x.unit) bytes = bytes.flatMap byteBits ++ List.replicate 32 false := rfl
  have hlen : ((bytes.flatMap byteBits ++ List.replicate 32 false).take 32).length = Config.codeWidth :=
    List.length_take_of_le (by simp)
  obtain ⟨y, left, hy, hsup, hrest⟩ := readBits_supplies (x := ⟨startDec x.unit, x.source⟩) hs
    (hup.trans (List.take_append_drop 32 _).symm)
  have hfits := bitsValue_lt ((bytes.flatMap byteBits ++ List.replicate 32 false).take 32)
  rw [hlen] at hy hfits
  have hnarrow : narrowTo 32 _ = .ok _ := narrowTo_ok hfits
  exact ⟨_, y, left, toNat_ofNat_of_lt hfits, by rw [primeValue, hy, andThen_done, hnarrow, lift_ok], hsup, hrest⟩

/-- `dec.init`, where priming completes. -/
theorem exec_decInit_done {s : State} {y : DecSide} (hy : primeValue ⟨startDec s.dec, s.source⟩ = .done () y) :
    exec .decInit s = .next (respond 0 (withDecSide s y)) := by
  simp only [exec, execDecInit, hy, andThen_done, endDec_done]

/-- Settles O52: the reader moved from DEC as `dec.init` starts it, and `value` is written last. -/
theorem decInitPrimesValue : Obligations.DecInitPrimesValue := by
  intro s bytes hs
  obtain ⟨v, y, left, hv, hy, hsup, hrest⟩ := primeValue_supplied (x := decSide s) hs
  have hfreqs : y.unit.freqs = freshTable := congrArg DecUnit.freqs hsup.unit
  have hlow : y.unit.low = 0 := congrArg DecUnit.low hsup.unit
  have hhigh : y.unit.high = 0xFFFFFFFF := congrArg DecUnit.high hsup.unit
  have hphase : y.unit.phase = .active := congrArg DecUnit.phase hsup.unit
  exact ⟨_, left, exec_decInit_done hy, fun i hi => (congrArg (tableAt · i) hfreqs).trans (tableAt_freshTable hi), hlow,
    hhigh, hphase, hv, hsup.source, hrest, hsup.taken.symm, rfl⟩

/-- `stops_andThen` where what follows may leave more than what came before. -/
theorem stops_andThen_of_le {σ α β : Type} {P Q : σ → Prop} {E : Status → Prop}
    {r : Run σ α} {k : α → σ → Run σ β}
    (hr : Stops P E r) (hpq : ∀ x, P x → Q x) (hk : ∀ a x, P x → Stops Q E (k a x)) : Stops Q E (r.andThen k) := by
  cases r with
  | done a x => exact hk a x hr
  | raised e x => exact ⟨hr.1, hpq x hr.2⟩
  | waiting x => exact hpq x hr
  | broken f => trivial

/-- At most `n` padding bits were supplied (R28). -/
def PadWithin (n : Nat) (x : DecSide) : Prop := x.unit.padUsed ≤ n

theorem fillReader_padWithin {n : Nat} {x : DecSide} (h : PadWithin n x) :
    Stops (PadWithin n) IsIoError (fillReader x) := by
  unfold fillReader
  split
  · split
    · exact h
    · exact h
    · exact h
    · exact ⟨rfl, h⟩
  · exact h

/-- Below the budget RBit raises IO_ERROR only, whatever the source answers, and supplies at most one padding bit
(R103). -/
theorem rbit_padWithin {n : Nat} {x : DecSide} (h : PadWithin n x) (hn : n < Config.extraBits) :
    Stops (PadWithin (n + 1)) IsIoError (rbit x) := by
  refine stops_andThen_of_le (fillReader_padWithin h) (fun _ hy => Nat.le_succ_of_le hy) fun _ y hy => ?_
  unfold takeBit
  split
  · exact Nat.le_succ_of_le hy
  · rw [if_pos (Nat.lt_of_le_of_lt hy hn)]
    exact Nat.succ_le_succ hy

theorem readBitsFrom_padWithin : ∀ (k v n : Nat) {x : DecSide}, PadWithin n x → n + k ≤ Config.extraBits →
    Stops (PadWithin (n + k)) IsIoError (readBitsFrom k v x)
  | 0, _, _, _, h, _ => h
  | k + 1, v, n, x, h, hk => by
    refine stops_andThen_of_le (rbit_padWithin h (by omega)) (fun y hy => ?_) fun b y hy => ?_
    · exact Nat.le_trans hy (by omega)
    · rw [show n + (k + 1) = n + 1 + k by omega]
      exact readBitsFrom_padWithin k _ (n + 1) hy (by omega)

/-- Priming needs no more bits than the whole budget (R202). -/
theorem primeValue_raises (u : DecUnit) (src : Source) :
    Stops (PadWithin Config.extraBits) IsIoError (primeValue ⟨startDec u, src⟩) :=
  stops_andThen (readBitsFrom_padWithin Config.codeWidth 0 0 (Nat.zero_le _) (by decide)) fun _ _ hy =>
    stops_lift fun _ _ => hy

/-! ### Runs that complete -/

section Done
variable {σ α β γ : Type}

/-- What ran to its end, ran its first part to its end. -/
theorem andThen_eq_done {r : Run σ α} {k : α → σ → Run σ β} {b : β} {y : σ} (h : r.andThen k = .done b y) :
    ∃ a x, r = .done a x ∧ k a x = .done b y := by
  cases r with
  | done a x => exact ⟨a, x, rfl, h⟩
  | raised e x => cases h
  | waiting x => cases h
  | broken f => cases h

theorem lift_eq_done {c : Except Fault γ} {k : γ → Run σ α} {a : α} {y : σ} (h : Run.lift c k = .done a y) :
    ∃ v, c = .ok v ∧ k v = .done a y := by
  cases c with
  | ok v => exact ⟨v, rfl, h⟩
  | error f => cases h

end Done

/-- A completed read moves the reader only. -/
theorem rbit_done {x y : DecSide} {b : Bool} (h : rbit x = .done b y) : ReaderFrame x y := by
  have hstops := rbit_stops x
  rw [h] at hstops
  exact hstops

theorem readBitsFrom_done {x y : DecSide} {n v r : Nat} (h : readBitsFrom n v x = .done r y) : ReaderFrame x y := by
  have hstops := readBitsFrom_stops n v x
  rw [h] at hstops
  exact hstops

theorem ReaderFrame.phase {x y : DecSide} (h : ReaderFrame x y) : y.unit.phase = x.unit.phase := by rw [h.1]

theorem primeValue_done {x y : DecSide} (h : primeValue x = .done () y) : y.unit.phase = x.unit.phase := by
  obtain ⟨v, z, hz, h⟩ := andThen_eq_done h
  obtain ⟨c, -, h⟩ := lift_eq_done h
  cases h
  exact (readBitsFrom_done hz).phase

/-- How `dec.init` ends: Active with its result, or Failed with IO_ERROR (R200, R202). -/
theorem exec_decInit_ends {s t : State} (h : exec .decInit s = .next t) (hw : t.waiting = none) :
    (t.status = 0 ∧ t.dec.phase = .active) ∨ (t.status = 1 ∧ t.dec.phase = .failed) := by
  obtain ⟨d, x, hd, rfl⟩ | ⟨e, x, hd, rfl⟩ | ⟨x, hd, rfl⟩ := endDec_next h
  · obtain ⟨_, y, hy, hx⟩ := andThen_eq_done hd
    cases hx
    exact .inl ⟨rfl, primeValue_done hy⟩
  · have hraises := stops_result (fun _ => 0) (primeValue_raises s.dec s.source)
    rw [hd] at hraises
    cases hraises.1
    exact .inr ⟨rfl, rfl⟩
  · cases hw

/-- Settles O53: the 32 bits of `value` are no more than the budget. -/
theorem primingNeverRunsOutOfBits : Obligations.PrimingNeverRunsOutOfBits := by
  intro s t _ h hw
  exact (exec_decInit_ends h hw).imp And.left And.left

/-! ### One shift, one loop, one symbol, where they complete

What becomes of the interval does not depend on the stream, and is the same on both units. -/

/-- The loop of R178 and R203 on the interval alone. -/
def renormInterval : Nat → Interval → Except Fault Interval
  | 0, iv =>
    match renormCase iv with
    | none => .ok iv
    | some _ => .error .endlessShifts
  | n + 1, iv =>
    match renormCase iv with
    | none => .ok iv
    | some sh =>
      match shiftInterval sh iv with
      | .ok iv' => renormInterval n iv'
      | .error f => .error f

theorem renormInterval_exit {iv : Interval} (h : renormCase iv = none) (n : Nat) : renormInterval n iv = .ok iv := by
  cases n <;> simp only [renormInterval, h]

theorem renormInterval_shift {iv iv' : Interval} {sh : Shift} (h : renormCase iv = some sh)
    (hs : shiftInterval sh iv = .ok iv') (n : Nat) : renormInterval (n + 1) iv = renormInterval n iv' := by
  simp only [renormInterval, h, hs]

/-- A completed shift moves the interval, with the table and the phase left alone (R205). -/
theorem decShift_done {sh : Shift} {x y : DecSide} (h : decShift sh x = .done () y) :
    shiftInterval sh (decInterval x.unit) = .ok (decInterval y.unit) ∧ y.unit.freqs = x.unit.freqs ∧
      y.unit.phase = x.unit.phase := by
  obtain ⟨iv, hiv, h⟩ := lift_eq_done h
  obtain ⟨b, z, hz, h⟩ := andThen_eq_done h
  obtain ⟨v, -, h⟩ := lift_eq_done h
  cases h
  obtain ⟨hunit, -⟩ := rbit_done hz
  refine ⟨hiv.trans (congrArg Except.ok ?_), ?_, ?_⟩
  · show iv = decInterval z.unit
    rw [hunit]; rfl
  · show z.unit.freqs = x.unit.freqs
    rw [hunit]; rfl
  · show z.unit.phase = x.unit.phase
    rw [hunit]; rfl

/-- The completed loop moves the interval as `renormInterval` says. -/
theorem decRenorm_done : ∀ (n : Nat) {x y : DecSide}, decRenorm n x = .done () y →
    renormInterval n (decInterval x.unit) = .ok (decInterval y.unit) ∧ y.unit.freqs = x.unit.freqs ∧
      y.unit.phase = x.unit.phase := by
  intro n
  induction n with
  | zero =>
    intro x y h
    cases hc : renormCase (decInterval x.unit) with
    | none =>
      simp only [decRenorm, hc] at h
      cases h
      exact ⟨renormInterval_exit hc 0, rfl, rfl⟩
    | some sh => simp only [decRenorm, hc] at h; cases h
  | succ n ih =>
    intro x y h
    cases hc : renormCase (decInterval x.unit) with
    | none =>
      simp only [decRenorm, hc] at h
      cases h
      exact ⟨renormInterval_exit hc _, rfl, rfl⟩
    | some sh =>
      simp only [decRenorm, hc] at h
      obtain ⟨_, z, hz, h⟩ := andThen_eq_done h
      obtain ⟨hshift, hfreqs, hphase⟩ := decShift_done hz
      obtain ⟨hloop, hfreqs', hphase'⟩ := ih h
      exact ⟨(renormInterval_shift hc hshift n).trans hloop, hfreqs'.trans hfreqs, hphase'.trans hphase⟩

theorem decNarrow_eq_ok {sym : Nat} {u v : DecUnit} (h : decNarrow sym u = .ok v) :
    ∃ t' iv, tableUpdate u.freqs sym = .ok t' ∧
      narrowInterval (decInterval u) (tableAt u.freqs sym) (tableAt u.freqs (sym + 1)) (total u.freqs) = .ok iv ∧
        v = setDecInterval { u with freqs := t' } iv := by
  unfold decNarrow at h
  split at h
  · cases h
  · rename_i t' hup
    split at h
    · cases h
    · rename_i iv hiv
      exact ⟨t', iv, hup, hiv, (Except.ok.inj h).symm⟩

/-- SymbolFor finds no symbol over 256, whatever the table (R139). -/
theorem symbolFor_le {t : Table} {v sym : Nat} (h : symbolFor t v = .ok sym) : sym ≤ 256 := by
  have hspec := findFrom_spec v t.toList.tail 0
  unfold symbolFor findSymbol at h
  split at h
  · rename_i r hr
    cases h
    rw [hr] at hspec
    obtain ⟨j, hj, rfl, -⟩ := hspec
    rw [List.length_tail, Vector.length_toList] at hj
    omega
  · cases h

theorem selectSymbol_le {u : DecUnit} {sym : Nat} (h : selectSymbol u = .ok sym) : sym ≤ 256 := by
  unfold selectSymbol at h
  split at h
  · cases h
  · exact symbolFor_le h

/-- What decoding a symbol, if it completes, makes of DEC's table, interval and phase (R203). -/
theorem decodeSymbol_done {x y : DecSide} {sym : Nat} (h : decodeSymbol x = .done sym y) :
    ∃ iv, sym ≤ 256 ∧ tableUpdate x.unit.freqs sym = .ok y.unit.freqs ∧
      narrowInterval (decInterval x.unit) (tableAt x.unit.freqs sym) (tableAt x.unit.freqs (sym + 1))
        (total x.unit.freqs) = .ok iv ∧
      renormInterval Config.shiftFuel iv = .ok (decInterval y.unit) ∧
      y.unit.phase = if sym = Config.eofSymbol then .done else x.unit.phase := by
  obtain ⟨sym', hsel, h⟩ := lift_eq_done h
  obtain ⟨u, hu, h⟩ := lift_eq_done h
  obtain ⟨_, z, hz, h⟩ := andThen_eq_done h
  rw [finishDec_eq] at h
  cases h
  obtain ⟨t', iv, hup, hiv, rfl⟩ := decNarrow_eq_ok hu
  obtain ⟨hloop, hfreqs, hphase⟩ := decRenorm_done _ hz
  exact ⟨iv, selectSymbol_le hsel, hup.trans (congrArg _ hfreqs.symm), hiv, hloop, by rw [hphase]; rfl⟩

/-! ### Phases (R209) -/

/-- How a command other than `dec.init` moves DEC's phase (R209): not at all, or from Active to Done at the end of the
stream, or from Active to Failed. -/
def DecMovesPhase (i : Instr) (s t : State) : Prop :=
  (t.dec.phase = s.dec.phase ∧ ¬(i = .decCode ∧ s.dec.phase = .active ∧ t.status = 0 ∧ t.dout = 256) ∧
      ¬(isEncCommand i = false ∧ (t.status = 1 ∨ t.status = 2))) ∨
    (s.dec.phase = .active ∧ i = .decCode ∧ t.status = 0 ∧ t.dout = 256 ∧ t.dec.phase = .done) ∨
    (s.dec.phase = .active ∧ (i = .decCode ∨ ∃ n, i = .decBits n) ∧ (t.status = 1 ∨ t.status = 2) ∧
      t.dec.phase = .failed)

theorem decMovesPhase_reject (i : Instr) (s : State) {e : Status} (he : IsRejection e) :
    DecMovesPhase i s (reject e s) := by
  refine .inl ⟨rfl, ?_, ?_⟩
  · rintro ⟨-, -, h, -⟩
    obtain rfl | rfl := he <;> cases h
  · rintro ⟨-, h | h⟩
    · obtain rfl | rfl := he <;> cases h
    · obtain rfl | rfl := he <;> cases h

/-- A result that is not 256 from `dec.code` leaves the phase. -/
theorem decMovesPhase_respond {i : Instr} {s t : State} {d : Operand} (hp : t.dec.phase = s.dec.phase)
    (hd : i = .decCode → d ≠ 256) : DecMovesPhase i s (respond d t) := by
  refine .inl ⟨hp, fun h => hd h.1 h.2.2.2, ?_⟩
  rintro ⟨-, h | h⟩ <;> cases h

/-- The commands that may end Failed (R209). -/
def MayFail (i : Instr) : Prop := i = .decCode ∨ ∃ n, i = .decBits n

/-- A checked DEC command: rejected, failed if it may, or completed in the phase that its run leaves. -/
theorem decMovesPhase_checked {i : Instr} {s t : State} {ok : Bool} {r : Run DecSide Operand}
    (hstops : Stops (fun _ => True) (fun e => IsFatal e ∧ MayFail i) r)
    (hdone : ∀ d x, r = .done d x →
      if i = .decCode ∧ d = 256 then x.unit.phase = .done else x.unit.phase = s.dec.phase)
    (h : checked s.dec.phase ok s (endDec i s r) = .next t) (hw : t.waiting = none) : DecMovesPhase i s t := by
  obtain ⟨_, rfl⟩ | ⟨_, _, rfl⟩ | ⟨hactive, _, hrun⟩ := checked_next h
  · exact decMovesPhase_reject i s (.inl rfl)
  · exact decMovesPhase_reject i s (.inr rfl)
  obtain ⟨d, x, hd, rfl⟩ | ⟨e, x, hd, rfl⟩ | ⟨x, hd, rfl⟩ := endDec_next hrun
  · have hphase := hdone d x hd
    split at hphase
    · rename_i heof
      exact .inr (.inl ⟨hactive, heof.1, rfl, heof.2, hphase⟩)
    · rename_i hother
      exact decMovesPhase_respond hphase fun hi hd => hother ⟨hi, hd⟩
  · rw [hd] at hstops
    obtain ⟨⟨hfatal, hi⟩, -⟩ := hstops
    refine .inr (.inr ⟨hactive, hi, ?_, rfl⟩)
    obtain rfl | rfl := hfatal
    · exact .inl rfl
    · exact .inr rfl
  · cases hw

theorem decMovesPhase_table {i : Instr} {s t : State} {ok : Bool} {f : Table → Except Fault (Operand × Table)}
    (hne : i ≠ .decCode) (h : checked s.dec.phase ok s (endDec i s (onDecTable f (decSide s))) = .next t)
    (hw : t.waiting = none) : DecMovesPhase i s t := by
  refine decMovesPhase_checked (stops_lift fun _ _ => by exact trivial) (fun d x hd => ?_) h hw
  obtain ⟨_, -, hd⟩ := lift_eq_done hd
  cases hd
  rw [if_neg fun hi => hne hi.1]
  rfl

/-- An ENC command leaves DEC alone. -/
theorem decMovesPhase_enc {i : Instr} {s t : State} (hi : isEncCommand i = true) (h : exec i s = .next t) :
    DecMovesPhase i s t := by
  obtain ⟨_, _, hother, _⟩ := unitsAreIndependent i s t h
  refine .inl ⟨congrArg DecUnit.phase (hother hi).1, ?_, by simp [hi]⟩
  rintro ⟨rfl, -⟩
  cases hi

/-- A run that keeps the source's bytes may fail where its command may (R209). -/
theorem stops_mayFail {i : Instr} {x : DecSide} {r : Run DecSide Operand} (hi : MayFail i)
    (h : Stops (SourceKeeps x) IsFatal r) : Stops (fun _ => True) (fun e => IsFatal e ∧ MayFail i) r := by
  cases r with
  | done a y => trivial
  | raised e y => exact ⟨⟨h.1, hi⟩, trivial⟩
  | waiting y => trivial
  | broken f => trivial

theorem decMovesPhase_code {s t : State} (h : exec .decCode s = .next t) (hw : t.waiting = none) :
    DecMovesPhase .decCode s t := by
  refine decMovesPhase_checked
    (stops_mayFail (.inl rfl) (stops_result (BitVec.ofNat 64) (decodeSymbol_stops (decSide s)))) (fun d x hd => ?_) h hw
  obtain ⟨sym, y, hy, hd⟩ := andThen_eq_done hd
  cases hd
  obtain ⟨_, hsym, -, -, -, hphase⟩ := decodeSymbol_done hy
  have heof : BitVec.ofNat 64 sym = 256 ↔ sym = Config.eofSymbol := by
    rw [← BitVec.toNat_inj, toNat_ofNat_symbol hsym]
    rfl
  simp only [true_and, heof]
  split
  · rwa [if_pos ‹_›] at hphase
  · rwa [if_neg ‹_›] at hphase

theorem decMovesPhase_bits {n : Nat} {s t : State} (h : exec (.decBits n) s = .next t) (hw : t.waiting = none) :
    DecMovesPhase (.decBits n) s t := by
  have hstops : Stops (SourceKeeps (decSide s)) IsFatal (readBits n (decSide s)) :=
    stops_mono (readBitsFrom_stops n 0 _) fun _ hx => hx.2
  refine decMovesPhase_checked
    (stops_mayFail (.inr ⟨n, rfl⟩) (stops_andThen hstops fun _ _ hx => stops_lift fun _ _ => by exact hx))
    (fun d x hd => ?_) h hw
  obtain ⟨v, y, hy, hd⟩ := andThen_eq_done hd
  obtain ⟨_, -, hd⟩ := lift_eq_done hd
  cases hd
  rw [if_neg (by simp)]
  exact (readBitsFrom_done hy).phase

theorem exec_decMovesPhase {i : Instr} {s t : State} (hne : i ≠ .decInit) (h : exec i s = .next t)
    (hw : t.waiting = none) : DecMovesPhase i s t := by
  cases i with
  | encInit => exact decMovesPhase_enc rfl h
  | encPreload sym => exact decMovesPhase_enc rfl h
  | encCode sym => exact decMovesPhase_enc rfl h
  | encProb sym => exact decMovesPhase_enc rfl h
  | encSymfor => exact decMovesPhase_enc rfl h
  | encUpdate sym => exact decMovesPhase_enc rfl h
  | encRescale => exact decMovesPhase_enc rfl h
  | encBits n => exact decMovesPhase_enc rfl h
  | encBflush => exact decMovesPhase_enc rfl h
  | encRdstate sel => exact decMovesPhase_enc rfl h
  | decInit => exact absurd rfl hne
  | decPreload sym => exact decMovesPhase_table nofun h hw
  | decCode => exact decMovesPhase_code h hw
  | decProb sym => exact decMovesPhase_table nofun h hw
  | decSymfor => exact decMovesPhase_table nofun h hw
  | decUpdate sym => exact decMovesPhase_table nofun h hw
  | decRescale => exact decMovesPhase_table nofun h hw
  | decBits n => exact decMovesPhase_bits h hw
  | decRdstate sel =>
    injection h with h
    obtain ha | ⟨d, ha⟩ | ⟨d, ha⟩ := answerRead_cases s.dec.phase sel (decRegister s.dec sel) s
    · rw [← h, ha]; exact decMovesPhase_reject _ s (.inr rfl)
    · rw [← h, ha]; exact decMovesPhase_respond rfl nofun
    · rw [← h, ha]; exact decMovesPhase_respond rfl nofun

/-- Settles O21: how `dec.init` ends, and every other command moves the phase as `DecMovesPhase` says. -/
theorem decPhaseTransitions : Obligations.DecPhaseTransitions := by
  intro i s t _ h hw
  refine ⟨?_, fun hne => exec_decMovesPhase hne h hw⟩
  rintro rfl
  exact exec_decInit_ends h hw

/-! ### Lockstep (R210) -/

/-- From `x` to `y` neither the interval nor the table moved. -/
def SameCoding (x y : EncSide) : Prop := encInterval y.unit = encInterval x.unit ∧ y.unit.freqs = x.unit.freqs

theorem SameCoding.trans {x y z : EncSide} (h : SameCoding x y) (k : SameCoding y z) : SameCoding x z :=
  ⟨k.1.trans h.1, k.2.trans h.2⟩

/-- A writer's operation moves neither. -/
theorem completes_sameCoding {α : Type} {x : EncSide} {r : Run EncSide α} (h : Stops (WriterFrame x) IsIoError r) :
    Completes (SameCoding x) r :=
  completes_of_stops (stops_mono h fun _ hy => by rw [SameCoding, hy.1]; exact ⟨rfl, rfl⟩)

theorem emitWithPending_sameCoding (b : Bool) (x : EncSide) : Completes (SameCoding x) (emitWithPending b x) :=
  completes_andThen (completes_sameCoding (wbit_stops b x)) fun _ y hy =>
    completes_andThen (completes_sameCoding (repeatBit_stops _ _ y)) fun _ _ hz => completes_done (hy.trans hz)

theorem encShiftBits_sameCoding (sh : Shift) (x : EncSide) : Completes (SameCoding x) (encShiftBits sh x) := by
  cases sh with
  | e1 => exact emitWithPending_sameCoding false x
  | e2 => exact emitWithPending_sameCoding true x
  | e3 => exact completes_done ⟨rfl, rfl⟩

theorem encFinish_sameCoding (x : EncSide) : Completes (SameCoding x) (encFinish x) :=
  completes_andThen (P := SameCoding x) (emitWithPending_sameCoding _ (beginFlush x)) fun _ y hy =>
    completes_andThen (completes_sameCoding (writerFlush_stops y)) fun _ _ hz => completes_done (hy.trans hz)

/-- A completed shift moves the interval as on DEC (R174 to R176). -/
theorem encShift_done {sh : Shift} {x y : EncSide} (h : encShift sh x = .done () y) :
    shiftInterval sh (encInterval x.unit) = .ok (encInterval y.unit) ∧ y.unit.freqs = x.unit.freqs := by
  obtain ⟨_, z, hz, h⟩ := andThen_eq_done h
  obtain ⟨hiv, hfreqs⟩ := encShiftBits_sameCoding sh x _ _ hz
  obtain ⟨iv, hshift, h⟩ := lift_eq_done h
  cases h
  rw [hiv] at hshift
  exact ⟨hshift, hfreqs⟩

/-- The completed loop moves the interval as on DEC (R178). -/
theorem encRenorm_done : ∀ (n : Nat) {x y : EncSide}, encRenorm n x = .done () y →
    renormInterval n (encInterval x.unit) = .ok (encInterval y.unit) ∧ y.unit.freqs = x.unit.freqs := by
  intro n
  induction n with
  | zero =>
    intro x y h
    cases hc : renormCase (encInterval x.unit) with
    | none =>
      simp only [encRenorm, hc] at h
      cases h
      exact ⟨renormInterval_exit hc 0, rfl⟩
    | some sh => simp only [encRenorm, hc] at h; cases h
  | succ n ih =>
    intro x y h
    cases hc : renormCase (encInterval x.unit) with
    | none =>
      simp only [encRenorm, hc] at h
      cases h
      exact ⟨renormInterval_exit hc _, rfl⟩
    | some sh =>
      simp only [encRenorm, hc] at h
      obtain ⟨_, z, hz, h⟩ := andThen_eq_done h
      obtain ⟨hshift, hfreqs⟩ := encShift_done hz
      obtain ⟨hloop, hfreqs'⟩ := ih h
      exact ⟨(renormInterval_shift hc hshift n).trans hloop, hfreqs'.trans hfreqs⟩

theorem encNarrow_eq_ok {sym : Nat} {u v : EncUnit} (h : encNarrow sym u = .ok v) :
    ∃ t' iv, tableUpdate u.freqs sym = .ok t' ∧
      narrowInterval (encInterval u) (tableAt u.freqs sym) (tableAt u.freqs (sym + 1)) (total u.freqs) = .ok iv ∧
        v = setEncInterval { u with freqs := t' } iv := by
  unfold encNarrow at h
  split at h
  · cases h
  · rename_i t' hup
    split at h
    · cases h
    · rename_i iv hiv
      exact ⟨t', iv, hup, hiv, (Except.ok.inj h).symm⟩

/-- What coding a symbol, if it completes, makes of ENC's table and interval: the flush after EOF moves neither (R178,
R179). -/
theorem encodeSymbol_done {x y : EncSide} {sym : Nat} (h : encodeSymbol sym x = .done () y) :
    ∃ iv, tableUpdate x.unit.freqs sym = .ok y.unit.freqs ∧
      narrowInterval (encInterval x.unit) (tableAt x.unit.freqs sym) (tableAt x.unit.freqs (sym + 1))
        (total x.unit.freqs) = .ok iv ∧
      renormInterval Config.shiftFuel iv = .ok (encInterval y.unit) := by
  obtain ⟨u, hu, hrun⟩ := lift_eq_done h
  obtain ⟨_, z, hz, hend⟩ := andThen_eq_done hrun
  obtain ⟨t', iv, hup, hiv, rfl⟩ := encNarrow_eq_ok hu
  obtain ⟨hloop, hfreqs⟩ := encRenorm_done _ hz
  have hsame : SameCoding z y := by
    split at hend
    · exact encFinish_sameCoding z _ _ hend
    · cases hend; exact ⟨rfl, rfl⟩
  obtain ⟨hsameiv, hsamefreqs⟩ := hsame
  exact ⟨iv, hup.trans (congrArg _ (hsamefreqs.trans hfreqs).symm), hiv, hsameiv ▸ hloop⟩

/-- `enc.code` that ends with OK coded its symbol. -/
theorem exec_encCode_ok {s t : State} {sym : Nat} (h : exec (.encCode sym) s = .next t) (hw : t.waiting = none)
    (hok : t.status = 0) : ∃ y, encodeSymbol sym (encSide s) = .done () y ∧ t = respond 0 (withEncSide s y) := by
  obtain ⟨_, rfl⟩ | ⟨_, _, rfl⟩ | ⟨_, _, hrun⟩ := checked_next h
  · cases hok
  · cases hok
  obtain ⟨d, x, hd, rfl⟩ | ⟨e, x, hd, rfl⟩ | ⟨x, hd, rfl⟩ := endEnc_next hrun
  · obtain ⟨_, y, hy, hd⟩ := andThen_eq_done hd
    cases hd
    exact ⟨x, hy, rfl⟩
  · have hstops := stops_result (fun _ => 0) (encodeSymbol_stops sym (encSide s))
    rw [hd] at hstops
    cases hstops.1
    cases hok
  · cases hw

/-- `dec.code` that ends with OK decoded the symbol in DOUT. -/
theorem exec_decCode_ok {s t : State} (h : exec .decCode s = .next t) (hw : t.waiting = none) (hok : t.status = 0) :
    ∃ sym y, decodeSymbol (decSide s) = .done sym y ∧ t = respond (BitVec.ofNat 64 sym) (withDecSide s y) := by
  obtain ⟨_, rfl⟩ | ⟨_, _, rfl⟩ | ⟨_, _, hrun⟩ := checked_next h
  · cases hok
  · cases hok
  obtain ⟨d, x, hd, rfl⟩ | ⟨e, x, hd, rfl⟩ | ⟨x, hd, rfl⟩ := endDec_next hrun
  · obtain ⟨sym, y, hy, hd⟩ := andThen_eq_done hd
    cases hd
    exact ⟨sym, x, hy, rfl⟩
  · have hstops := stops_result (BitVec.ofNat 64) (decodeSymbol_stops (decSide s))
    rw [hd] at hstops
    obtain ⟨rfl | rfl, -⟩ := hstops
    · cases hok
    · cases hok
  · cases hw

/-- Settles O56: the same Update, the same narrowing and the same loop on both units. -/
theorem unitsStayInLockstep : Obligations.UnitsStayInLockstep := by
  intro s t u sym _ _ _ hfreqs hlow hhigh ht htw htok hu huw huok hsym
  obtain ⟨y, hy, rfl⟩ := exec_encCode_ok ht htw htok
  obtain ⟨sym', z, hz, rfl⟩ := exec_decCode_ok hu huw huok
  obtain ⟨iv, hup, hnarrow, hloop⟩ := encodeSymbol_done hy
  obtain ⟨iv', hsym', hup', hnarrow', hloop', -⟩ := decodeSymbol_done hz
  obtain rfl : sym' = sym := (toNat_ofNat_symbol hsym').symm.trans hsym
  have hinterval : decInterval s.dec = encInterval s.enc := by rw [decInterval, encInterval, hlow, hhigh]
  rw [decSide_unit, hfreqs] at hup' hnarrow'
  rw [hinterval] at hnarrow'
  obtain rfl : iv' = iv := Except.ok.inj (hnarrow'.symm.trans hnarrow)
  have hend : decInterval z.unit = encInterval y.unit := Except.ok.inj (hloop'.symm.trans hloop)
  exact ⟨Except.ok.inj (hup'.symm.trans hup), congrArg Interval.low hend, congrArg Interval.high hend⟩

end Sys2Proof.Machine
end

section
/-! # A reader whose coming bits are known (40_bit_io.md R103)

What follows a stream at its source may be anything, so here the decoder is said on the bits that its reader will give
(`Feeds`), whatever the source answers after them. -/
namespace Sys2Proof.Machine

/-! ### The reader -/

/-- The reader gives the bits `bits` next. -/
def Feeds : List Bool → DecSide → Prop
  | [], _ => True
  | b :: bits, x => ∃ y, rbit x = .done b y ∧ Feeds bits y

/-- The reader and the source of `x` under the other registers of `u`. -/
def underReader (u : DecUnit) (x : DecSide) : DecSide :=
  { x with unit := { u with rbuf := x.unit.rbuf, rcount := x.unit.rcount, padUsed := x.unit.padUsed,
                            srcEnd := x.unit.srcEnd } }

theorem fillReader_underReader {x y : DecSide} (u : DecUnit) (h : fillReader x = .done () y) :
    fillReader (underReader u x) = .done () (underReader u y) := by
  unfold fillReader at h
  split at h
  · rename_i hempty
    refine (if_pos hempty).trans ?_
    split at h
    · cases h
    · rename_i hread; cases h; rw [show sourceRead (underReader u x).source = _ from hread]; rfl
    · rename_i hread; cases h; rw [show sourceRead (underReader u x).source = _ from hread]; rfl
    · cases h
  · rename_i hbuffered
    cases h
    exact if_neg hbuffered

theorem takeBit_underReader {x y : DecSide} {b : Bool} (u : DecUnit) (h : takeBit x = .done b y) :
    takeBit (underReader u x) = .done b (underReader u y) := by
  unfold takeBit at h
  split at h
  · rename_i hbuffered
    cases h
    exact if_pos hbuffered
  · rename_i hempty
    refine (if_neg hempty).trans ?_
    split at h
    · rename_i hbudget; cases h; exact if_pos hbudget
    · cases h

/-- RBit neither reads nor writes a register outside the reader (R103). -/
theorem rbit_underReader {x y : DecSide} {b : Bool} (u : DecUnit) (h : rbit x = .done b y) :
    rbit (underReader u x) = .done b (underReader u y) := by
  obtain ⟨_, z, hz, hy⟩ := andThen_eq_done h
  rw [rbit, fillReader_underReader u hz, andThen_done, takeBit_underReader u hy]

theorem Feeds.underReader (u : DecUnit) : ∀ {bits : List Bool} {x : DecSide}, Feeds bits x → Feeds bits (underReader u x)
  | [], _, _ => trivial
  | _ :: _, _, ⟨_, hy, hrest⟩ => ⟨_, rbit_underReader u hy, hrest.underReader u⟩

theorem Feeds.setValue {bits : List Bool} {x : DecSide} (h : Feeds bits x) (v : Code) : Feeds bits (setValue v x) :=
  h.underReader (Machine.setValue v x).unit

/-- ReadBits gives the number of the next bits (R104). -/
theorem readBitsFrom_fed : ∀ (bits l : List Bool) {rest : List Bool} {x : DecSide}, Feeds (bits ++ rest) x →
    ∃ y, readBitsFrom bits.length (bitsValue l) x = .done (bitsValue (l ++ bits)) y ∧ Feeds rest y
  | [], l, _, x, h => ⟨x, by rw [List.append_nil]; rfl, h⟩
  | b :: bits, l, _, x, ⟨y, hy, hrest⟩ => by
    obtain ⟨z, hz, hend⟩ := readBitsFrom_fed bits (l ++ [b]) hrest
    rw [bitsValue_append_one, List.append_assoc] at hz
    exact ⟨z, by rw [List.length_cons, readBitsFrom, hy, andThen_done, hz]; rfl, hend⟩

/-! ### The decoder -/

/-- DEC's registers are those of the window `w`, and the reader gives its bits next. -/
structure Shows (x : DecSide) (w : Window) : Prop where
  low : x.unit.low.toNat = w.low
  high : x.unit.high.toNat = w.high
  value : x.unit.value.toNat = w.value
  feeds : Feeds w.bits x

/-- A shift where its case applies and a bit comes next is the bit-level one (R205). -/
theorem decShift_fed {sh : Shift} {u : DecUnit} {n : Nat} {x : DecSide} {w : Window} {b : Bool} {rest : List Bool}
    (h : DecRenorming u n x) (hx : Shows x w) (hc : renormCase (decInterval x.unit) = some sh) (hb : w.bits = b :: rest) :
    ∃ z, decShift sh x = .done () z ∧ Shows z (windowShift sh w b rest) := by
  obtain ⟨iv, hiv, hlow, hhigh, -, -⟩ := shift_ok h.ordered hc
  obtain ⟨hfit, htop, -⟩ := case_bounds h.ordered hc
  have hfeeds := hx.feeds
  rw [hb] at hfeeds
  obtain ⟨y, hy, hrest⟩ := hfeeds
  have hread := rbit_underReader (setDecInterval x.unit iv) hy
  have hfrom := h.value.fromLow
  have hto := h.value.toHigh
  have hbit := Bool.toNat_lt b
  simp only [decInterval_low, decInterval_high] at hfit htop hlow hhigh
  obtain ⟨v, hv, hval⟩ := shiftCode_ok (sh := sh) (v := x.unit.value) (bit := b.toNat) (by omega) (by omega)
  refine ⟨setValue v (underReader (setDecInterval x.unit iv) y), ?_, ?_, ?_, ?_, (hrest.underReader _).setValue v⟩
  · rw [decShift, hiv, lift_ok]
    exact (congrArg (Run.andThen · _) hread).trans (by rw [andThen_done]; exact congrArg (Run.lift · _) hv)
  · exact hlow.trans (by rw [hx.low]; rfl)
  · exact hhigh.trans (by rw [hx.high]; rfl)
  · exact hval.trans (by rw [hx.value]; rfl)

/-- The loop, where the coming bits are enough, is the bit-level one (R203). -/
theorem decRenorm_fed {u : DecUnit} : ∀ (n m : Nat) {x : DecSide} {w w' : Window}, DecRenorming u n x → Shows x w →
    n ≤ m → windowRenorm n w = some w' → ∃ z, decRenorm m x = .done () z ∧ Shows z w' := by
  intro n
  induction n with
  | zero =>
    intro m x w w' h hx _ hw
    cases hw
    have hc := exit_of_range h.ordered h.range
    exact ⟨x, by cases m <;> simp only [decRenorm, hc], hx⟩
  | succ n ih =>
    intro m x w w' h hx hm hw
    obtain ⟨m', rfl⟩ : ∃ m', m = m' + 1 := ⟨m - 1, by omega⟩
    have hcase : renormCase (decInterval x.unit) = bitCase w.low w.high := by
      rw [renormCase_eq_bitCase, decInterval_low, decInterval_high, hx.low, hx.high]
    cases hc : renormCase (decInterval x.unit) with
    | none =>
      simp only [windowRenorm, ← hcase, hc] at hw
      cases hw
      exact ⟨x, by simp only [decRenorm, hc], hx⟩
    | some sh =>
      simp only [windowRenorm, ← hcase, hc] at hw
      cases hb : w.bits with
      | nil => rw [hb] at hw; cases hw
      | cons b rest =>
        rw [hb] at hw
        obtain ⟨y, hy, hshows⟩ := decShift_fed h hx hc hb
        have hnext := decShift_ends h hc
        rw [hy] at hnext
        obtain ⟨z, hz, hend⟩ := ih m' hnext hshows (by omega) hw
        exact ⟨z, by simp only [decRenorm, hc, hy, andThen_done, hz], hend⟩

/-- From a legal Active DEC, the symbol whose range holds the count is decoded where the coming bits are enough (R203). -/
theorem decodeSymbol_fed {x : DecSide} {w w' : Window} {sym : Nat} (hok : DecOk x.unit) (hp : x.unit.phase = .active)
    (hx : Shows x w) (hs : sym ≤ 256) (hbelow : tableAt x.unit.freqs sym ≤ windowCount w (total x.unit.freqs))
    (habove : windowCount w (total x.unit.freqs) < tableAt x.unit.freqs (sym + 1))
    (hw : windowSymbol sym x.unit.freqs w = some w') :
    ∃ z, decodeSymbol x = .done sym (finishDec sym z) ∧ Shows z w' := by
  have hst : holdsStream x.unit.phase := .inl hp
  have hcount : windowCount w (total x.unit.freqs) =
      ((x.unit.value.toNat - x.unit.low.toNat + 1) * total x.unit.freqs - 1) / rangeOf (decInterval x.unit) := by
    rw [windowCount, ← hx.low, ← hx.high, ← hx.value]; rfl
  obtain ⟨sym', hsel, hs', hbelow', habove'⟩ := selectSymbol_ok (hok.table hst) (hok.value hst)
  rw [hcount] at hbelow habove
  obtain rfl := (hok.table hst).symbol_unique hs' hs hbelow' habove' hbelow habove
  obtain ⟨t', iv, -, -, hnarrow, hlow, hhigh, hwide, hfrom, hto⟩ :=
    decNarrow_ok (hok.table hst) (hok.interval hst) (hok.value hst) hs hbelow habove
  let u : DecUnit := setDecInterval { x.unit with freqs := t' } iv
  have hreader := hok.readerBounds hst
  have hstart : DecRenorming u 15 (underReader u x) :=
    ⟨show iv.low.toNat ≤ iv.high.toNat by omega, ⟨hfrom, hto⟩, range_of_narrowed hwide,
      ⟨⟨hreader.1.count, hreader.1.ended⟩, hreader.2⟩, rfl, rfl⟩
  have hshows : Shows (underReader u x) ⟨iv.low.toNat, iv.high.toNat, w.value, w.bits⟩ :=
    ⟨rfl, rfl, hx.value, hx.feeds.underReader u⟩
  have hwindow : windowRenorm 15 ⟨iv.low.toNat, iv.high.toNat, w.value, w.bits⟩ = some w' := by
    rw [hlow, hhigh, ← hw, hx.low, rangeOf, decInterval_low, decInterval_high, hx.low, hx.high]; rfl
  obtain ⟨z, hz, hend⟩ := decRenorm_fed 15 Config.shiftFuel hstart hshows (by decide) hwindow
  refine ⟨z, ?_, hend⟩
  rw [decodeSymbol, hsel, lift_ok, hnarrow, lift_ok]
  exact congrArg (Run.andThen · _) hz

/-- Priming reads the first 32 bits into `value` (R200, R201). -/
theorem primeValue_fed {u : DecUnit} {src : Source} {bits : List Bool} (h : Feeds bits ⟨startDec u, src⟩)
    (hl : 32 ≤ bits.length) : ∃ y, primeValue ⟨startDec u, src⟩ = .done () y ∧
      Shows y (windowOver 0 Config.maxCode bits) ∧ y.unit.freqs = freshTable ∧ y.unit.phase = .active := by
  have hlen : (bits.take 32).length = Config.codeWidth := List.length_take_of_le hl
  have hfits := bitsValue_lt (bits.take 32)
  rw [← List.take_append_drop 32 bits] at h
  obtain ⟨y, hy, hrest⟩ := readBitsFrom_fed (bits.take 32) [] h
  rw [hlen] at hy hfits
  have hread : readBits Config.codeWidth ⟨startDec u, src⟩ = .done (bitsValue (bits.take 32)) y := hy
  have hnarrow : narrowTo 32 _ = .ok _ := narrowTo_ok hfits
  obtain ⟨hunit, -⟩ := readBitsFrom_done hy
  refine ⟨setValue (BitVec.ofNat 32 (bitsValue (bits.take 32))) y, ?_, ⟨?_, ?_, ?_, hrest.setValue _⟩, ?_, ?_⟩
  · rw [primeValue, hread, andThen_done, hnarrow, lift_ok]
  · exact congrArg (fun v : DecUnit => v.low.toNat) hunit
  · exact congrArg (fun v : DecUnit => v.high.toNat) hunit
  · exact toNat_ofNat_of_lt hfits
  · exact congrArg DecUnit.freqs hunit
  · exact congrArg DecUnit.phase hunit

/-! ### What a source feeds to a fresh reader -/

/-- A fresh reader on the source `src` gives `bits` next. -/
def FeedsFresh (bits : List Bool) (src : Source) : Prop :=
  ∀ u : DecUnit, u.rcount = 0 → u.srcEnd = false → u.padUsed = 0 → Feeds bits ⟨u, src⟩

/-- The buffered bits come first (R103). -/
theorem feeds_buffered {bits : List Bool} : ∀ (n : Nat) {x : DecSide}, x.unit.rcount.toNat = n →
    Feeds bits { x with unit := { x.unit with rcount := 0 } } → Feeds (msbBits x.unit.rbuf.toNat n ++ bits) x := by
  intro n
  induction n with
  | zero =>
    intro x hn h
    have hzero : x.unit.rcount = 0 := BitVec.eq_of_toNat_eq hn
    rwa [← hzero] at h
  | succ n ih =>
    intro x hn h
    obtain ⟨hbit, hbits⟩ := rbit_buffered (x := x) (by omega)
    have hless : (x.unit.rcount - 1).toNat = n := by
      have hlen := congrArg List.length hbits
      rw [List.length_cons, msbBits_length, msbBits_length] at hlen
      omega
    rw [← hn, hbits, hless]
    exact ⟨_, hbit, ih (x := { x with unit := { x.unit with rcount := x.unit.rcount - 1 } }) hless h⟩

/-- Where the reader must ask its source, its bits are those it gives with the byte it gets (R103). -/
theorem feedsFresh_byte {src src' : Source} {b : Byte} {bits : List Bool}
    (hread : sourceRead src = (some (.byte b), src')) (h : FeedsFresh bits src') : FeedsFresh (byteBits b ++ bits) src := by
  intro u hcount hend hpad
  let buffered : DecSide := ⟨{ u with rbuf := b, rcount := 8 }, src'⟩
  have hrbit : rbit ⟨u, src⟩ = rbit buffered := by
    rw [rbit, rbit, fillReader, if_pos ⟨hcount, hend⟩, hread, fillReader, if_neg (by simp [buffered])]
  obtain ⟨y, hy, hrest⟩ : Feeds (byteBits b ++ bits) buffered :=
    feeds_buffered 8 (x := buffered) rfl (h { u with rbuf := b, rcount := 0 } rfl hend hpad)
  exact ⟨y, hrbit.trans hy, hrest⟩

/-- Once the source has ended the padding's zeros come (R103). -/
theorem feeds_padding : ∀ (n : Nat) {x : DecSide}, x.unit.rcount = 0 → x.unit.srcEnd = true →
    x.unit.padUsed + n = Config.extraBits → Feeds (List.replicate n false) x := by
  intro n
  induction n with
  | zero => intros; trivial
  | succ n ih =>
    intro x hcount hend hpad
    refine ⟨{ x with unit := { x.unit with padUsed := x.unit.padUsed + 1 } }, ?_, ih hcount hend ?_⟩
    · rw [rbit, fillReader, if_neg (by simp [hend]), andThen_done, takeBit, if_neg (by simp [hcount]), if_pos (by omega)]
    · show x.unit.padUsed + 1 + n = _
      omega

theorem feedsFresh_end {src src' : Source} (hread : sourceRead src = (some .endOfData, src')) :
    FeedsFresh (List.replicate Config.extraBits false) src := by
  intro u hcount hend hpad
  let ended : DecSide := ⟨{ u with srcEnd := true }, src'⟩
  have hrbit : rbit ⟨u, src⟩ = rbit ended := by
    rw [rbit, rbit, fillReader, if_pos ⟨hcount, hend⟩, hread, fillReader, if_neg (by simp [ended])]
  obtain ⟨y, hy, hrest⟩ : Feeds (List.replicate Config.extraBits false) ended :=
    feeds_padding Config.extraBits hcount rfl (by rw [show ended.unit.padUsed = 0 from hpad, Nat.zero_add])
  exact ⟨y, hrbit.trans hy, hrest⟩

/-- The source answers each call at once: with `answers`, and then always with `a`. -/
structure Prompt (src : Source) (answers : List SourceAnswer) (a : SourceAnswer) : Prop where
  scripted : src.answers = answers.map .answer
  thereafter : src.thereafter = some a

/-- The first answer of such a source, and the source after it. -/
theorem Prompt.sourceAnswer_cons {src : Source} {answers : List SourceAnswer} {a c : SourceAnswer}
    (h : Prompt src (c :: answers) a) : ∃ src', sourceAnswer src = (some c, src') ∧ Prompt src' answers a := by
  refine ⟨{ src with answers := answers.map .answer }, ?_, rfl, h.thereafter⟩
  rw [sourceAnswer, h.scripted]
  rfl

theorem Prompt.sourceAnswer_nil {src : Source} {a : SourceAnswer} (h : Prompt src [] a) :
    sourceAnswer src = (some a, src) := by
  rw [sourceAnswer, h.scripted, ← h.thereafter]
  rfl

theorem Prompt.sourceRead_byte {src src' : Source} {answers : List SourceAnswer} {a : SourceAnswer} {b : Byte}
    (hread : sourceAnswer src = (some (.byte b), src')) (h : Prompt src' answers a) :
    ∃ src'', sourceRead src = (some (.byte b), src'') ∧ Prompt src'' answers a :=
  ⟨{ src' with taken := src'.taken ++ [b] }, by simp only [sourceRead, hread], h.scripted, h.thereafter⟩

/-- A source that gives the same byte from now on feeds as many bits as one likes. -/
theorem feedsFresh_forever (b : Byte) : ∀ (n : Nat) {src : Source}, Prompt src [] (.byte b) →
    FeedsFresh ((List.replicate n b).flatMap byteBits) src := by
  intro n
  induction n with
  | zero => intros; exact fun _ _ _ _ => trivial
  | succ n ih =>
    intro src h
    obtain ⟨src', hread, h'⟩ := Prompt.sourceRead_byte h.sourceAnswer_nil h
    exact feedsFresh_byte hread (ih h')

/-- A source that never fails feeds 30 bits or more, whatever they are. -/
theorem feedsFresh_any {a : SourceAnswer} (ha : a ≠ .ioError) : ∀ (answers : List SourceAnswer) {src : Source},
    Prompt src answers a → .ioError ∉ answers → ∃ tail, 30 ≤ tail.length ∧ FeedsFresh tail src := by
  intro answers
  induction answers with
  | nil =>
    intro src h _
    cases a with
    | byte b =>
      refine ⟨(List.replicate 4 b).flatMap byteBits, ?_, feedsFresh_forever b 4 h⟩
      rw [flatMap_byteBits_length, List.length_replicate]
      decide
    | endOfData => exact ⟨_, by decide, feedsFresh_end (src' := src) (by simp only [sourceRead, h.sourceAnswer_nil])⟩
    | ioError => exact absurd rfl ha
  | cons c answers ih =>
    intro src h hnone
    obtain ⟨src', hread, h'⟩ := h.sourceAnswer_cons
    cases c with
    | byte b =>
      obtain ⟨src'', hread', h''⟩ := Prompt.sourceRead_byte hread h'
      obtain ⟨tail, hlen, hfeeds⟩ := ih h'' fun hmem => hnone (List.mem_cons_of_mem _ hmem)
      exact ⟨byteBits b ++ tail, hlen.trans (by simp), feedsFresh_byte hread' hfeeds⟩
    | endOfData => exact ⟨_, by decide, feedsFresh_end (src' := src') (by simp only [sourceRead, hread])⟩
    | ioError => exact absurd List.mem_cons_self hnone

/-- A source that holds `bytes` and never fails feeds their bits and 30 more, whatever follows them. -/
theorem feedsFresh_bytes {a : SourceAnswer} {more : List SourceAnswer} (ha : a ≠ .ioError) (hmore : .ioError ∉ more) :
    ∀ (bytes : List Byte) {src : Source}, Prompt src (bytes.map .byte ++ more) a →
      ∃ tail, 30 ≤ tail.length ∧ FeedsFresh (bytes.flatMap byteBits ++ tail) src
  | [], _, h => feedsFresh_any ha more h hmore
  | b :: bytes, _, h => by
    obtain ⟨src', hread, h'⟩ := h.sourceAnswer_cons
    obtain ⟨src'', hread', h''⟩ := Prompt.sourceRead_byte hread h'
    obtain ⟨tail, hlen, hfeeds⟩ := feedsFresh_bytes ha hmore bytes h''
    refine ⟨tail, hlen, ?_⟩
    rw [List.flatMap_cons, List.append_assoc]
    exact feedsFresh_byte hread' hfeeds

end Sys2Proof.Machine
end

section
/-! # Runs (42_encoder.md R187, 43_decoder.md R214)

A run presents one command after another and waits for each response. A command's answer on its unit and on its device
without the delays (`EncAnswers`, `DecAnswers`) is its answer in a run, whatever the delays (Laws/Late). -/
namespace Sys2Proof.Machine

/-! ### Presenting a command (R70, R248) -/

/-- A command presented with its DIN runs at the next step. -/
theorem step_hostCommand {i : Instr} {d : Operand} {s : State} (hwf : i.wellFormed = true) (hw : s.waiting = none) :
    step { s with host := [hostCommand i d] } = exec i { s with din := d, host := [] } := by
  rw [step_command (s := { s with host := [hostCommand i d] }) rfl hw, runWord, decodeOfEncode i hwf]

/-- A command that ends on its device without the delays ends in a run, in the same state but for the delays still to
come. -/
theorem present_late {i : Instr} {d : Operand} {s t₀ : State} (hwf : i.wellFormed = true) (hw : s.waiting = none)
    (h : exec i (calmState dropAll i { s with din := d, host := [] }) = .next t₀) (ht : t₀.waiting = none) :
    ∃ t, present (hostCommand i d) s = .next t ∧ t.waiting = none ∧ calmState dropAll i t = t₀ := by
  have hlate : lateCalls i { s with din := d, host := [] } ≤ lateTurns s.sink.answers + lateTurns s.source.answers := by
    unfold lateCalls
    split
    · exact Nat.le_add_right _ _
    · exact Nat.le_add_left _ _
  obtain ⟨t', t, hexec, hawait, hend, hcalm⟩ :=
    awaitResponse_late (s := { s with din := d, host := [] }) _ hw hlate rfl h ht
  refine ⟨t, ?_, hend, hcalm⟩
  rw [present, step_hostCommand hwf hw, hexec]
  exact hawait

theorem calmState_status (i : Instr) (s : State) : (calmState dropAll i s).status = s.status := by
  unfold calmState; split <;> rfl

theorem calmState_dout (i : Instr) (s : State) : (calmState dropAll i s).dout = s.dout := by
  unfold calmState; split <;> rfl

theorem runAll_cons_ok {e : HostEvent} {rest : List HostEvent} {s t : State} (h : present e s = .next t)
    (hw : t.waiting = none) (hs : t.status = 0) : runAll (e :: rest) s = runAll rest t := by
  simp only [runAll, h, hw, responseOk, hs, statusCode, decide_true, if_true]

theorem runAll_cons_failed {e : HostEvent} {rest : List HostEvent} {s t : State} (h : present e s = .next t)
    (hw : t.waiting = none) (hs : t.status ≠ 0) : runAll (e :: rest) s = .failed t.status := by
  simp only [runAll, h, hw, responseOk, statusCode, hs, decide_false, Bool.false_eq_true, if_false]

/-! ### Commands of ENC in a run -/

/-- ENC's side without the delays of its sink. -/
def calmEnc (s : State) : EncSide := calmSink dropAll (encSide s)

/-- On ENC's side `x` the command `i` with DIN `d` responds OK and leaves the side `y`. -/
def EncAnswers (i : Instr) (d : Operand) (x y : EncSide) : Prop :=
  ∀ s, s.din = d → encSide s = x → exec i s = .next (respond 0 (withEncSide s y))

theorem EncAnswers.run {i : Instr} {d : Operand} {x y : EncSide} (h : EncAnswers i d x y)
    (hi : isEncCommand i = true) (hwf : i.wellFormed = true) {s : State} (hw : s.waiting = none) (hx : calmEnc s = x)
    (rest : List HostEvent) :
    ∃ t, runAll (hostCommand i d :: rest) s = runAll rest t ∧ t.waiting = none ∧ calmEnc t = y := by
  have hcalm : ∀ t, calmState dropAll i t = withEncSide t (calmEnc t) := fun t => if_pos hi
  have hexec := h (withEncSide { s with din := d, host := [] } (calmEnc s)) rfl hx
  obtain ⟨t, ht, hend, hy⟩ := present_late hwf hw ((congrArg (exec i) (hcalm _)).trans hexec) hw
  refine ⟨t, runAll_cons_ok ht hend ?_, hend, ?_⟩
  · rw [← calmState_status i t, hy]; rfl
  · rw [hcalm] at hy
    exact congrArg encSide hy

/-! ### Commands of DEC in a run -/

/-- DEC's side without the delays of its source. -/
def calmDec (s : State) : DecSide := calmSource dropAll (decSide s)

/-- On DEC's side `x` the command `i` with DIN `d` responds OK with result `o` and leaves the side `y`. -/
def DecAnswers (i : Instr) (d : Operand) (x : DecSide) (o : Operand) (y : DecSide) : Prop :=
  ∀ s, s.din = d → decSide s = x → exec i s = .next (respond o (withDecSide s y))

theorem calmState_dec {i : Instr} (hi : isEncCommand i = false) (s : State) :
    calmState dropAll i s = withDecSide s (calmDec s) := if_neg (by simp [hi])

theorem DecAnswers.run {i : Instr} {d o : Operand} {x y : DecSide} (h : DecAnswers i d x o y)
    (hi : isEncCommand i = false) (hwf : i.wellFormed = true) {s : State} (hw : s.waiting = none) (hx : calmDec s = x)
    (rest : List HostEvent) :
    ∃ t, runAll (hostCommand i d :: rest) s = runAll rest t ∧ t.waiting = none ∧ t.dout = o ∧ calmDec t = y := by
  have hexec := h (withDecSide { s with din := d, host := [] } (calmDec s)) rfl hx
  obtain ⟨t, ht, hend, hy⟩ := present_late hwf hw ((congrArg (exec i) (calmState_dec hi _)).trans hexec) hw
  refine ⟨t, runAll_cons_ok ht hend ?_, hend, ?_, ?_⟩
  · rw [← calmState_status i t, hy]; rfl
  · rw [← calmState_dout i t, hy]; rfl
  · rw [calmState_dec hi] at hy
    exact congrArg decSide hy

/-- A command of DEC that fails, fails its run. -/
theorem runAll_failDec {i : Instr} {d : Operand} {e : Status} {src : Source} {x : DecSide}
    (h : ∀ s, s.din = d → decSide s = x → exec i s = .next (failDec e src s)) (he : e ≠ .ok)
    (hi : isEncCommand i = false) (hwf : i.wellFormed = true) {s : State} (hw : s.waiting = none) (hx : calmDec s = x)
    (rest : List HostEvent) : runAll (hostCommand i d :: rest) s = .failed (statusCode e) := by
  have hexec := h (withDecSide { s with din := d, host := [] } (calmDec s)) rfl hx
  obtain ⟨t, ht, hend, hy⟩ := present_late hwf hw ((congrArg (exec i) (calmState_dec hi _)).trans hexec) hw
  have hstatus : t.status = statusCode e := by rw [← calmState_status i t, hy]; rfl
  rw [runAll_cons_failed ht hend (by rw [hstatus]; exact statusCode_injective.ne he), hstatus]

/-! ### Preloads (R140, R263, R264) -/

/-- The table after the preloads of a histogram (R140). -/
def preloaded : List (Nat × Operand) → Table → Except Fault Table
  | [], t => .ok t
  | p :: rest, t =>
    match tablePreload p.1 p.2.toNat t with
    | .ok t' => preloaded rest t'
    | .error f => .error f

/-- Every pair of a histogram is of a symbol (R7). -/
def SymbolPairs (histogram : List (Nat × Operand)) : Prop := ∀ p ∈ histogram, p.1 ≤ 256

theorem SymbolPairs.tail {p : Nat × Operand} {rest : List (Nat × Operand)} (h : SymbolPairs (p :: rest)) :
    p.1 ≤ 256 ∧ SymbolPairs rest := List.forall_mem_cons.mp h

theorem symFits_of_le {sym : Nat} (h : sym ≤ 256) : symFits sym = true := decide_eq_true (by omega)

theorem encAnswers_preload {sym : Nat} {d : Operand} {r : Table} {x : EncSide} (hp : x.unit.phase = .active)
    (hs : sym ≤ 256) (hr : tablePreload sym d.toNat x.unit.freqs = .ok r) :
    EncAnswers (.encPreload sym) d x (withTable r x) := by
  rintro s rfl rfl
  exact checked_onEncTable hp (symbolInRange_of_le hs) (preloadTable_ok hr)

theorem decAnswers_preload {sym : Nat} {d : Operand} {r : Table} {x : DecSide} (hp : x.unit.phase = .active)
    (hs : sym ≤ 256) (hr : tablePreload sym d.toNat x.unit.freqs = .ok r) :
    DecAnswers (.decPreload sym) d x 0 (withDecTable r x) := by
  rintro s rfl rfl
  exact checked_onDecTable hp (symbolInRange_of_le hs) (preloadTable_ok hr)

/-- Preloads from a legal table complete, and leave a legal table (R140, R148). -/
theorem preloaded_ok : ∀ {histogram : List (Nat × Operand)} {t : Table}, SymbolPairs histogram → TableOk t →
    ∃ r, preloaded histogram t = .ok r ∧ TableOk r
  | [], t, _, ht => ⟨t, rfl, ht⟩
  | p :: rest, t, hh, ht => by
    obtain ⟨t', ht', hok⟩ := TableOk.preload hh.tail.1 p.2.toNat ht
    obtain ⟨r, hr, hlegal⟩ := preloaded_ok hh.tail.2 hok
    exact ⟨r, by rw [preloaded, ht']; exact hr, hlegal⟩

theorem preloaded_cons {p : Nat × Operand} {rest : List (Nat × Operand)} {t r : Table}
    (h : preloaded (p :: rest) t = .ok r) : ∃ t', tablePreload p.1 p.2.toNat t = .ok t' ∧ preloaded rest t' = .ok r := by
  unfold preloaded at h
  split at h
  · exact ⟨_, ‹_›, h⟩
  · cases h

theorem runAll_encPreloads (rest : List HostEvent) : ∀ {histogram : List (Nat × Operand)} {x : EncSide} {r : Table},
    SymbolPairs histogram → x.unit.phase = .active → preloaded histogram x.unit.freqs = .ok r →
      ∀ {s : State}, s.waiting = none → calmEnc s = x →
        ∃ t, runAll (encPreloads histogram ++ rest) s = runAll rest t ∧ t.waiting = none ∧ calmEnc t = withTable r x
  | [], x, r, _, _, hr, s, hw, hx => by
    cases hr
    exact ⟨s, rfl, hw, hx⟩
  | p :: histogram, x, r, hh, hp, hr, s, hw, hx => by
    obtain ⟨t', ht', hr'⟩ := preloaded_cons hr
    obtain ⟨m, hm, hmw, hmx⟩ := (encAnswers_preload hp hh.tail.1 ht').run rfl (symFits_of_le hh.tail.1) hw hx
      (encPreloads histogram ++ rest)
    obtain ⟨t, ht, htw, htx⟩ := runAll_encPreloads rest (x := withTable t' x) hh.tail.2 hp hr' hmw hmx
    exact ⟨t, hm.trans ht, htw, htx⟩

theorem runAll_decPreloads : ∀ {histogram : List (Nat × Operand)} {x : DecSide} {r : Table},
    SymbolPairs histogram → x.unit.phase = .active → preloaded histogram x.unit.freqs = .ok r →
      ∀ {s : State}, s.waiting = none → calmDec s = x →
        ∃ t, runAll (decPreloads histogram) s = .value t ∧ t.waiting = none ∧ calmDec t = withDecTable r x
  | [], x, r, _, _, hr, s, hw, hx => by
    cases hr
    exact ⟨s, rfl, hw, hx⟩
  | p :: histogram, x, r, hh, hp, hr, s, hw, hx => by
    obtain ⟨t', ht', hr'⟩ := preloaded_cons hr
    obtain ⟨m, hm, hmw, -, hmx⟩ := (decAnswers_preload hp hh.tail.1 ht').run rfl (symFits_of_le hh.tail.1) hw hx
      (decPreloads histogram)
    obtain ⟨t, ht, htw, htx⟩ := runAll_decPreloads (x := withDecTable t' x) hh.tail.2 hp hr' hmw hmx
    exact ⟨t, hm.trans ht, htw, htx⟩

/-! ### encode(S) (R187) -/

theorem encAnswers_init (d : Operand) (x : EncSide) : EncAnswers .encInit d x ⟨freshEnc, x.sink⟩ := by
  rintro s - rfl
  rfl

/-- The table after coding `sym` from a legal table `t`, on both units (R134). -/
def tableAfter (sym : Nat) (t : Table) : Table :=
  match tableUpdate t sym with
  | .ok t' => t'
  | .error _ => t

theorem tableAfter_eq {sym : Nat} {t t' : Table} (h : tableUpdate t sym = .ok t') : tableAfter sym t = t' := by
  rw [tableAfter, h]

/-- The part of the total that `sym` has (R133). -/
def partOf (sym : Nat) (t : Table) : Part := ⟨tableAt t sym, tableAt t (sym + 1), total t⟩

/-- The parts of the symbols coded one after another, from the table `t`. -/
def partsOf : List Nat → Table → List Part
  | [], _ => []
  | sym :: syms, t => partOf sym t :: partsOf syms (tableAfter sym t)

theorem TableOk.after {t : Table} (h : TableOk t) {sym : Nat} (hs : sym ≤ 256) : TableOk (tableAfter sym t) := by
  obtain ⟨t', ht', hok⟩ := h.update' hs
  rwa [tableAfter_eq ht']

theorem TableOk.part_ok {t : Table} (h : TableOk t) {sym : Nat} (hs : sym ≤ 256) : (partOf sym t).Ok :=
  ⟨h.rising sym hs, h.le_total (by omega), h.total_le⟩

theorem TableOk.parts_ok : ∀ {syms : List Nat} {t : Table}, TableOk t → (∀ sym ∈ syms, sym ≤ 256) →
    ∀ p ∈ partsOf syms t, p.Ok
  | [], _, _, _, _, hp => nomatch hp
  | sym :: syms, t, h, hs, p, hp => by
    obtain ⟨hsym, hsyms⟩ := List.forall_mem_cons.mp hs
    obtain rfl | hp := List.mem_cons.mp hp
    · exact h.part_ok hsym
    · exact (h.after hsym).parts_ok hsyms p hp

/-- From `x` to `y` ENC coded the parts that gave `c`, and it is legal and Active at `y`. -/
structure Encoding (x y : EncSide) (c : Coder) : Prop where
  coded : Coded x y c
  table : TableOk y.unit.freqs
  interval : IntervalOk (encInterval y.unit)
  phase : y.unit.phase = .active

/-- Up to the EOF flush, coding a symbol codes its part (R178). -/
theorem Encoding.symbol {x y : EncSide} {c : Coder} (h : Encoding x y c) {sym : Nat} (hs : sym ≤ 256) :
    ∃ z, encodeSymbol sym y = (if sym = Config.eofSymbol then encFinish z else .done () z) ∧
      Encoding (withTable (tableAfter sym y.unit.freqs) x) z (coderPart (partOf sym y.unit.freqs) c) := by
  obtain ⟨hcoded, ht, hi, hp⟩ := h
  obtain ⟨t', iv, hup, hok, hnarrow, hwide, hcoder⟩ := encNarrow_ok ht hi hs
  let narrowed : EncSide := { y with unit := setEncInterval { y.unit with freqs := t' } iv }
  have hpart : coderNarrow (tableAt y.unit.freqs sym) (tableAt y.unit.freqs (sym + 1)) (total y.unit.freqs) c =
      ⟨iv.low.toNat, iv.high.toNat, c.pending, c.bits⟩ := by
    rw [Coder.mk.injEq] at hcoder
    simp only [coderNarrow, coderOf, hcoded.low, hcoded.high] at hcoder ⊢
    rw [hcoder.1, hcoder.2.1]
  have hstart : Coded (withTable t' x) narrowed ⟨iv.low.toNat, iv.high.toNat, c.pending, c.bits⟩ :=
    ⟨hcoded.ready, ⟨hcoded.writer.count, hcoded.writer.bits⟩, rfl, rfl, hcoded.pending, hcoded.written, rfl, hcoded.phase,
      hcoded.flushes, hcoded.passedOn, hcoded.received⟩
  obtain ⟨z, hz, hend, hexit⟩ := encRenorm_ready 15 Config.shiftFuel hstart
    (show iv.low.toNat ≤ iv.high.toNat by omega) (range_of_narrowed hwide) (by decide)
  rw [← hpart] at hend
  rw [tableAfter_eq hup]
  refine ⟨z, by rw [encodeSymbol, hnarrow, lift_ok, hz, andThen_done], hend, ?_, hexit, ?_⟩
  · rw [hend.freqs]; exact hok
  · exact hend.phase.trans (hcoded.phase.symm.trans hp)

theorem Encoding.freqs {t : Table} {x y : EncSide} {c : Coder} (h : Encoding (withTable t x) y c) : y.unit.freqs = t :=
  h.coded.freqs

/-- `enc.code` of a data symbol. -/
theorem Encoding.answers {x y : EncSide} {c : Coder} (h : Encoding x y c) {sym : Nat} (hs : sym < 256) :
    ∃ z, EncAnswers (.encCode sym) 0 y z ∧
      Encoding (withTable (tableAfter sym y.unit.freqs) x) z (coderPart (partOf sym y.unit.freqs) c) := by
  obtain ⟨z, hz, hnext⟩ := h.symbol hs.le
  rw [if_neg (show sym ≠ Config.eofSymbol from hs.ne)] at hz
  refine ⟨z, ?_, hnext⟩
  rintro s - rfl
  exact exec_encCode_done h.phase hs.le hz

/-- `enc.code 256` sends the whole stream: the bits of the parts coded, those of the flush, and a pad. -/
theorem Encoding.answers_eof {x y : EncSide} {c : Coder} (h : Encoding x y c) :
    ∃ z pad, EncAnswers (.encCode 256) 0 y z ∧ x.sink.received <+: z.sink.received ∧
      z.sink.received.flatMap byteBits = writtenBits x ++
        (coderFinish (coderPart (partOf 256 y.unit.freqs) c)).bits ++ List.replicate pad false := by
  obtain ⟨z, hz, hnext⟩ := h.symbol (le_refl 256)
  obtain ⟨m, w, hfinish, hcoded, hflushed⟩ := encFinish_ready hnext.coded
  rw [if_pos (show 256 = Config.eofSymbol from rfl), hfinish] at hz
  refine ⟨setEncPhase .done w, _, ?_, hcoded.received.trans hflushed.received,
    hflushed.padded.trans (congrArg (· ++ _) hcoded.written)⟩
  rintro s - rfl
  exact exec_encCode_done h.phase (le_refl 256) hz

/-- The symbols of a byte sequence's stream (R187). -/
def streamSymbols (bytes : List Byte) : List Nat := bytes.map BitVec.toNat ++ [256]

theorem streamSymbols_le (bytes : List Byte) : ∀ sym ∈ streamSymbols bytes, sym ≤ 256 := by
  intro sym hsym
  obtain hmem | hmem := List.mem_append.mp hsym
  · obtain ⟨b, -, rfl⟩ := List.mem_map.mp hmem
    exact b.isLt.le
  · exact (List.mem_singleton.mp hmem).le

/-- One `enc.code` per byte and `enc.code 256`. -/
theorem runAll_encCodes : ∀ (bytes : List Byte) {x y : EncSide} {c : Coder}, Encoding x y c →
    ∀ {s : State}, s.waiting = none → calmEnc s = y → ∃ t pad,
      runAll (bytes.map (fun b => hostCommand (.encCode b.toNat) 0) ++ [hostCommand (.encCode 256) 0]) s = .value t ∧
      x.sink.received <+: t.sink.received ∧ t.sink.received.flatMap byteBits = writtenBits x ++
        (coderFinish (coderParts (partsOf (streamSymbols bytes) y.unit.freqs) c)).bits ++ List.replicate pad false
  | [], x, y, c, h, s, hw, hy => by
    obtain ⟨z, pad, hz, hprefix, hbits⟩ := h.answers_eof
    obtain ⟨t, ht, -, htz⟩ := hz.run rfl rfl hw hy []
    have hsink : t.sink.received = z.sink.received := congrArg (fun w => w.sink.received) htz
    exact ⟨t, pad, ht, hsink ▸ hprefix, hsink ▸ hbits⟩
  | b :: bytes, x, y, c, h, s, hw, hy => by
    obtain ⟨z, hz, hnext⟩ := h.answers b.isLt
    obtain ⟨m, hm, hmw, hmz⟩ := hz.run rfl (symFits_of_le b.isLt.le) hw hy _
    obtain ⟨t, pad, ht, hprefix, hbits⟩ := runAll_encCodes bytes hnext hmw hmz
    rw [hnext.freqs] at hbits
    exact ⟨t, pad, hm.trans ht, hprefix, hbits⟩

/-- ENC's interval at the start of a stream, on plain numbers (R170). -/
def startCoder : Coder := ⟨0, Config.maxCode, 0, []⟩

theorem startCoder_ok : CoderOk startCoder := ⟨by decide, by decide, by decide⟩

/-- A sink that answers ok after any delay answers ok at once without the delays. -/
theorem calmEnc_ready {s : State} (h : SinkAnswersOk s.sink) : SinkReady (calmEnc s).sink := by
  refine ⟨fun a ha => ?_, h.thereafter⟩
  obtain ⟨c, hc, rfl⟩ := List.mem_map.mp ha
  rw [h.scripted c hc]

/-- A fresh ENC with a legal table encodes from its start. -/
theorem encoding_start {t : Table} (ht : TableOk t) {k : Sink} (hk : SinkReady k) :
    Encoding (withTable t ⟨freshEnc, k⟩) (withTable t ⟨freshEnc, k⟩) startCoder := by
  obtain ⟨hcount, hbits⟩ := freshEnc_ok.writer (.inl rfl)
  exact ⟨Coded.refl hk ⟨hcount, hbits⟩, ht, fullInterval_ok, rfl⟩

/-- `encode(S)` completes, and the bits it sends are those of the symbols' parts coded on plain numbers, of the flush, and a
pad (R187). -/
theorem encodeRun_sends {histogram : List (Nat × Operand)} (bytes : List Byte) {s : State} {t : Table}
    (hh : SymbolPairs histogram) (ht : preloaded histogram freshTable = .ok t) (hok : TableOk t) (hw : s.waiting = none)
    (hs : SinkAnswersOk s.sink) : ∃ sent pad, encodeRun histogram bytes s = .value sent ∧
      sent.flatMap byteBits =
        (coderFinish (coderParts (partsOf (streamSymbols bytes) t) startCoder)).bits ++ List.replicate pad false := by
  let start : EncSide := ⟨freshEnc, (calmEnc s).sink⟩
  obtain ⟨s₁, h₁, hw₁, hx₁⟩ := (encAnswers_init 0 (calmEnc s)).run rfl rfl hw rfl _
  obtain ⟨s₂, h₂, hw₂, hx₂⟩ := runAll_encPreloads
    (bytes.map (fun b => hostCommand (.encCode b.toNat) 0) ++ [hostCommand (.encCode 256) 0]) (x := start) hh rfl ht hw₁ hx₁
  obtain ⟨s₃, pad, h₃, ⟨sent, hsent⟩, hbits⟩ :=
    runAll_encCodes bytes (encoding_start hok (calmEnc_ready hs)) hw₂ hx₂
  have hreceived : s₃.sink.received = s.sink.received ++ sent := hsent.symm
  have hrun : runAll (encodeEvents histogram bytes) s = .value s₃ := by
    rw [encodeEvents, List.cons_append, List.cons_append, List.append_assoc, h₁, h₂, h₃]
  refine ⟨sent, pad, ?_, ?_⟩
  · rw [encodeRun, hrun, Ending.andThen, hreceived, List.drop_left]
  · have hstart : writtenBits (withTable t start) = s.sink.received.flatMap byteBits := List.append_nil _
    rw [hstart, hreceived, List.flatMap_append, List.append_assoc] at hbits
    exact List.append_cancel_left hbits

/-! ### decode(B) (R214) -/

/-- DEC is legal and Active at `x`, with the window `w`. -/
structure Decoding (x : DecSide) (w : Window) : Prop where
  legal : DecOk x.unit
  phase : x.unit.phase = .active
  shows : Shows x w

theorem DecOk.withTable {x : DecSide} (h : DecOk x.unit) {t : Table} (ht : TableOk t) : DecOk (withDecTable t x).unit where
  phase := h.phase
  pad := h.pad
  table := fun _ => ht
  interval := h.interval
  value := fun hst => ⟨(h.value hst).fromLow, (h.value hst).toHigh⟩
  reader := fun hst => ⟨(h.reader hst).count, (h.reader hst).ended⟩

theorem Decoding.withTable {x : DecSide} {w : Window} (h : Decoding x w) {t : Table} (ht : TableOk t) :
    Decoding (withDecTable t x) w := by
  obtain ⟨hok, hp, hlow, hhigh, hvalue, hfeeds⟩ := h
  exact ⟨hok.withTable ht, hp, hlow, hhigh, hvalue, hfeeds.underReader { x.unit with freqs := t }⟩

/-- `dec.code` where a symbol's range holds the count and the coming bits are enough (R203). -/
theorem Decoding.answers {x : DecSide} {w w' : Window} {sym : Nat} (h : Decoding x w) (hs : sym ≤ 256)
    (hbelow : tableAt x.unit.freqs sym ≤ windowCount w (total x.unit.freqs))
    (habove : windowCount w (total x.unit.freqs) < tableAt x.unit.freqs (sym + 1))
    (hw : windowSymbol sym x.unit.freqs w = some w') : ∃ y, DecAnswers .decCode 0 x (BitVec.ofNat 64 sym) y ∧
      y.unit.freqs = tableAfter sym x.unit.freqs ∧ (sym ≠ 256 → Decoding y w') := by
  obtain ⟨z, hz, hshows⟩ := decodeSymbol_fed h.legal h.phase h.shows hs hbelow habove hw
  obtain ⟨_, -, hup, -, -, hphase⟩ := decodeSymbol_done hz
  have hlegal := decodeSymbol_ends h.legal h.phase
  rw [hz] at hlegal
  refine ⟨finishDec sym z, ?_, (tableAfter_eq hup).symm, fun hne => ⟨hlegal, ?_, ?_⟩⟩
  · rintro s - rfl
    exact exec_decCode_done h.phase hz
  · rw [hphase, if_neg (show sym ≠ Config.eofSymbol from hne), h.phase]
  · rwa [finishDec, if_neg (show sym ≠ Config.eofSymbol from hne)]

/-- A decoder that finds the parts of a stream returns its bytes (R211). -/
theorem decodeLoop_finds : ∀ (bytes : List Byte) {n : Nat} {x : DecSide} {w v : Window}, bytes.length < n →
    Decoding x w → FindsParts (partsOf (streamSymbols bytes) x.unit.freqs) w v →
      ∀ {s : State}, s.waiting = none → calmDec s = x → decodeLoop n s = .value (bytes.map BitVec.toNat)
  | [], n + 1, x, w, v, _, h, hfinds, s, hw, hx => by
    obtain ⟨-, -, hbelow, habove, w', hw', -⟩ := hfinds
    obtain ⟨y, hy, -, -⟩ := h.answers (le_refl 256) hbelow habove hw'
    obtain ⟨t, ht, -, hdout, -⟩ := hy.run rfl rfl hw hx []
    have hsym : t.dout.toNat = Config.eofSymbol := by rw [hdout]; rfl
    rw [decodeLoop, ht, runAll, Ending.andThen, if_pos hsym]
    rfl
  | b :: bytes, n + 1, x, w, v, hn, h, hfinds, s, hw, hx => by
    obtain ⟨-, -, hbelow, habove, w', hw', hfinds'⟩ := hfinds
    obtain ⟨y, hy, hfreqs, hnext⟩ := h.answers b.isLt.le hbelow habove hw'
    obtain ⟨t, ht, htw, hdout, hty⟩ := hy.run rfl rfl hw hx []
    rw [← hfreqs] at hfinds'
    have hloop := decodeLoop_finds bytes (Nat.lt_of_succ_lt_succ hn) (hnext b.isLt.ne) hfinds' htw hty
    have hsym : t.dout.toNat = b.toNat := by rw [hdout, toNat_ofNat_symbol b.isLt.le]
    rw [decodeLoop, ht, runAll, Ending.andThen, hsym, if_neg (show b.toNat ≠ Config.eofSymbol from b.isLt.ne), hloop]
    rfl

/-- `dec.init` on a source that never fails: DEC's window is over the source's bits (R200, R201). -/
theorem decAnswers_init {x : DecSide} {bits : List Bool} (h : FeedsFresh bits x.source) (hl : 32 ≤ bits.length)
    (d : Operand) : ∃ y, DecAnswers .decInit d x 0 y ∧ Decoding y (windowOver 0 Config.maxCode bits) ∧
      y.unit.freqs = freshTable := by
  obtain ⟨y, hy, hshows, hfreqs, hphase⟩ := primeValue_fed (h (startDec x.unit) rfl rfl rfl) hl
  have hlegal := primeValue_ends x.unit x.source
  rw [hy] at hlegal
  refine ⟨y, ?_, ⟨hlegal, hphase, hshows⟩, hfreqs⟩
  rintro s - rfl
  exact exec_decInit_done hy

/-- A source that never fails is prompt without its delays. -/
theorem calmDec_prompt {r : State} {bytes : List Byte} (h : SourceHolds r.source bytes) :
    ∃ more a, a ≠ .ioError ∧ .ioError ∉ more ∧ Prompt (calmDec r).source (bytes.map .byte ++ more) a := by
  obtain ⟨⟨more, hscript, hmore⟩, a, hafter, ha⟩ := h
  exact ⟨more, a, ha, hmore, congrArg (List.map Turn.answer) hscript, hafter⟩

/-- `decode` of what `encode` sent: the sent bits, the pad and 30 more bits, whatever they are, hold the stream's parts
(R211, R212). -/
theorem decodeRun_returns {histogram : List (Nat × Operand)} {bytes sent : List Byte} {pad n : Nat} {r : State} {t : Table}
    (hh : SymbolPairs histogram) (ht : preloaded histogram freshTable = .ok t) (hok : TableOk t)
    (hbits : sent.flatMap byteBits =
      (coderFinish (coderParts (partsOf (streamSymbols bytes) t) startCoder)).bits ++ List.replicate pad false)
    (hw : r.waiting = none) (hs : SourceHolds r.source sent) (hn : bytes.length < n) :
    decodeRun histogram n r = .value (bytes.map BitVec.toNat) := by
  obtain ⟨more, a, ha, hmore, hprompt⟩ := calmDec_prompt hs
  obtain ⟨tail, hlen, hfeeds⟩ := feedsFresh_bytes ha hmore sent hprompt
  have hparts := hok.parts_ok (streamSymbols_le bytes)
  obtain ⟨future, seen, hfuture, hsees, hseen, -, -, v, hfinds, -⟩ :=
    parts_found _ startCoder_ok hparts (tail := List.replicate pad false ++ tail) (by simp; omega)
  obtain rfl : future = seen := sees_zero hsees
  rw [hbits, List.append_assoc, hfuture] at hfeeds
  obtain ⟨y, hy, hdecoding, hfreqs⟩ := decAnswers_init (x := calmDec r) hfeeds hseen 0
  obtain ⟨r₁, h₁, hw₁, -, hx₁⟩ := hy.run rfl rfl hw rfl (decPreloads histogram)
  obtain ⟨r₂, h₂, hw₂, hx₂⟩ := runAll_decPreloads (x := y) hh hdecoding.phase (by rw [hfreqs]; exact ht) hw₁ hx₁
  rw [decodeRun, h₁, h₂]
  exact decodeLoop_finds bytes hn (hdecoding.withTable hok) hfinds hw₂ hx₂

end Sys2Proof.Machine
end

section
/-! # decode(B) ends, and gives back S (43_decoder.md R211, R214)

A `dec.code` either reads a bit or shrinks the interval without one, and it can do that at most 88 times in a row. -/
namespace Sys2Proof.Machine

/-! ### What a symbol uses up -/

/-- The loop either leaves the window or takes bits from it (R205). -/
theorem windowRenorm_uses : ∀ (n : Nat) {w w' : Window}, windowRenorm n w = some w' →
    w' = w ∨ w'.bits.length < w.bits.length := by
  intro n
  induction n with
  | zero => intro w w' h; cases h; exact .inl rfl
  | succ n ih =>
    intro w w' h
    unfold windowRenorm at h
    split at h
    · cases h; exact .inl rfl
    · split at h
      · cases h
      · rename_i b rest hb
        right
        rw [hb, List.length_cons]
        obtain rfl | hless := ih h
        · exact Nat.lt_succ_self _
        · exact Nat.lt_succ_of_lt hless

/-- DEC is legal and Active at `x`, on a source that gives `bytes` and then ends. -/
structure Draining (x : DecSide) (bytes : List Byte) : Prop where
  legal : DecOk x.unit
  phase : x.unit.phase = .active
  source : SourceGives x.source bytes

/-- The bits that are still to come. -/
def bitsLeft (x : DecSide) (bytes : List Byte) : Nat := (upcomingBits x.unit bytes).length

theorem rangeOf_le (iv : Interval) : rangeOf iv ≤ 2 ^ 32 := by
  have := iv.high.isLt
  rw [rangeOf]
  omega

/-- From `x` to `y` bits were read, or the interval shrank and none were. -/
def UsesUp (x : DecSide) (bytes : List Byte) (y : DecSide) (left : List Byte) : Prop :=
  bitsLeft y left < bitsLeft x bytes ∨
    (bitsLeft y left = bitsLeft x bytes ∧ rangeOf (decInterval y.unit) ≤ shrink (rangeOf (decInterval x.unit)))

/-- Decoding a symbol of a legal table reads bits, or shrinks the interval (R214). -/
theorem usesUp_of_windowed {x x' y : DecSide} {bytes left : List Byte} {sym : Nat} {w : Window} (ht : TableOk x.unit.freqs)
    (hs : sym ≤ 256) (hw : windowSymbol sym x.unit.freqs (windowOf x.unit bytes) = some w)
    (h : Windowed x' y bytes left w) (hi : IntervalOk (decInterval y.unit)) : UsesUp x bytes y left := by
  obtain rfl | hless := windowRenorm_uses 15 hw
  · have hbits : bitsLeft y left = bitsLeft x bytes := congrArg List.length h.bits
    refine .inr ⟨hbits, ?_⟩
    have hshrink := ht.narrowed_le hs (rangeOf (decInterval x.unit))
    have hlow : (decInterval y.unit).low.toNat = x.unit.low.toNat +
        rangeOf (decInterval x.unit) * tableAt x.unit.freqs sym / total x.unit.freqs := h.low
    have hhigh : (decInterval y.unit).high.toNat = x.unit.low.toNat +
        rangeOf (decInterval x.unit) * tableAt x.unit.freqs (sym + 1) / total x.unit.freqs - 1 := h.high
    have hordered := hi.low_le_high
    have hpos : 0 < shrink (rangeOf (decInterval x.unit)) := Nat.succ_pos _
    have hcut : rangeOf (decInterval y.unit) =
        (decInterval y.unit).high.toNat - (decInterval y.unit).low.toNat + 1 := rfl
    generalize rangeOf (decInterval x.unit) * tableAt x.unit.freqs sym / total x.unit.freqs = below at *
    generalize rangeOf (decInterval x.unit) * tableAt x.unit.freqs (sym + 1) / total x.unit.freqs = above at *
    omega
  · refine .inl ?_
    rw [bitsLeft, h.bits]
    exact hless

/-- `dec.code` on such a source: a symbol, with bits or range used up, or UNEXPECTED_EOF. -/
theorem Draining.code {x : DecSide} {bytes : List Byte} (h : Draining x bytes) :
    (∃ y left sym, sym ≤ 256 ∧ DecAnswers .decCode 0 x (BitVec.ofNat 64 sym) y ∧
      (sym ≠ 256 → Draining y left ∧ UsesUp x bytes y left)) ∨
    ∃ src, ∀ s, s.din = 0 → decSide s = x → exec .decCode s = .next (failDec .unexpectedEof src s) := by
  have hst : holdsStream x.unit.phase := .inl h.phase
  have ht := h.legal.table hst
  obtain ⟨sym, t', hs, -, -, -, -, hsome, hnone⟩ :=
    decodeSymbol_windowed ht (h.legal.interval hst) (h.legal.value hst) h.source
  cases hw : windowSymbol sym x.unit.freqs (windowOf x.unit bytes) with
  | some w =>
    obtain ⟨z, left, hz, hwin, hexit, -⟩ := hsome w hw
    have hlegal := decodeSymbol_ends h.legal h.phase
    rw [hz] at hlegal
    refine .inl ⟨finishDec sym z, left, sym, hs, ?_, fun hne => ?_⟩
    · rintro s - rfl
      exact exec_decCode_done h.phase hz
    · rw [finishDec, if_neg (show sym ≠ Config.eofSymbol from hne)] at hlegal ⊢
      exact ⟨⟨hlegal, hwin.phase.trans h.phase, hwin.source⟩, usesUp_of_windowed ht hs hw hwin hexit⟩
  | none =>
    obtain ⟨z, hz⟩ := hnone hw
    refine .inr ⟨z.source, ?_⟩
    rintro s - rfl
    exact exec_decCode_raised h.phase hz

/-! ### The bound (R214) -/

/-- The run ended, with a value or with UNEXPECTED_EOF. -/
def Ended (r : Ending (List Nat)) : Prop := (∃ symbols, r = .value symbols) ∨ r = .failed 2

theorem Ended.andThen {r : Ending (List Nat)} (h : Ended r) (f : List Nat → List Nat) :
    Ended (r.andThen fun symbols => .value (f symbols)) := by
  obtain ⟨symbols, rfl⟩ | rfl := h
  · exact .inl ⟨_, rfl⟩
  · exact .inr rfl

/-- After `i` symbols without a bit, `n` commands are enough where they are 89 for each bit to come and 89 more, less
those `i`. -/
theorem decodeLoop_ends : ∀ (n i : Nat) {x : DecSide} {bytes : List Byte}, Draining x bytes → i < 89 →
    rangeOf (decInterval x.unit) ≤ shrink^[i] (2 ^ 32) → 89 * bitsLeft x bytes + 89 ≤ n + i →
      ∀ {s : State}, s.waiting = none → calmDec s = x → Ended (decodeLoop n s) := by
  intro n
  induction n with
  | zero => intro i x bytes _ hi _ hn; omega
  | succ n ih =>
    intro i x bytes h hi hrange hn s hw hx
    obtain ⟨y, left, sym, hs, hy, hnext⟩ | ⟨src, hfail⟩ := h.code
    · obtain ⟨t, ht, htw, hdout, hty⟩ := hy.run rfl rfl hw hx []
      have hsym : t.dout.toNat = sym := by rw [hdout, toNat_ofNat_symbol hs]
      rw [decodeLoop, ht, runAll, Ending.andThen, hsym]
      split
      · exact .inl ⟨_, rfl⟩
      · rename_i hne
        obtain ⟨hdraining, hused⟩ := hnext hne
        refine Ended.andThen ?_ _
        obtain hless | ⟨hsame, hshrunk⟩ := hused
        · exact ih 0 hdraining (by decide) (rangeOf_le _) (by omega) htw hty
        · have hrange' : rangeOf (decInterval y.unit) ≤ shrink^[i + 1] (2 ^ 32) := by
            rw [Function.iterate_succ_apply']
            exact hshrunk.trans (shrink_mono hrange)
          have hi' : i + 1 ≠ 89 := by
            intro heq
            have hwide := (hdraining.legal.interval (.inl hdraining.phase)).range_ge
            rw [heq] at hrange'
            exact absurd (hwide.trans hrange') (Nat.not_le_of_lt shrink_89)
          exact ih (i + 1) hdraining (by omega) hrange' (by omega) htw hty
    · rw [decodeLoop, runAll_failDec hfail nofun rfl rfl hw hx []]
      exact .inr rfl

/-! ### decode(B) on a source of bytes (R214) -/

theorem Draining.withTable {x : DecSide} {bytes : List Byte} (h : Draining x bytes) {t : Table} (ht : TableOk t) :
    Draining (withDecTable t x) bytes := ⟨h.legal.withTable ht, h.phase, h.source⟩

theorem lateTurns_map_answer (bytes : List Byte) : lateTurns (bytes.map fun b => .answer (SourceAnswer.byte b)) = 0 := by
  induction bytes with
  | nil => rfl
  | cons b bytes ih => exact ih

theorem answersOf_map_answer (bytes : List Byte) :
    answersOf (bytes.map fun b => .answer (SourceAnswer.byte b)) = bytes.map .byte := by
  induction bytes with
  | nil => rfl
  | cons b bytes ih => exact congrArg (_ :: ·) ih

/-- A source that answers at once is the same without its delays. -/
theorem SourceGives.calm {r : State} {bytes : List Byte} (h : SourceGives r.source bytes) :
    SourceGives (calmDec r).source bytes := by
  refine ⟨?_, h.thereafter⟩
  show dropAll.drop r.source.answers = _
  rw [h.scripted, dropAll_of_none (lateTurns_map_answer bytes)]

/-- After `dec.init` on `L` bytes and their end, the bits of the bytes are still to come, less the first 32, and the padding
(R201). -/
theorem decAnswers_init_draining {x : DecSide} {bytes : List Byte} (h : SourceGives x.source bytes) (d : Operand) :
    ∃ y left, DecAnswers .decInit d x 0 y ∧ Draining y left ∧ bitsLeft y left = 8 * bytes.length ∧
      y.unit.freqs = freshTable := by
  obtain ⟨v, y, left, -, hy, hsup, hleft⟩ := primeValue_supplied h
  have hlegal := primeValue_ends x.unit x.source
  rw [hy] at hlegal
  refine ⟨setValue v y, left, ?_, ⟨hlegal, primeValue_done hy, hsup.source⟩, ?_, congrArg DecUnit.freqs hsup.unit⟩
  · rintro s - rfl
    exact exec_decInit_done hy
  · show (upcomingBits y.unit left).length = _
    rw [hleft, List.length_drop, List.length_append, flatMap_byteBits_length, List.length_replicate]
    exact Nat.add_sub_cancel _ _

/-- Settles O58: once primed, `8 * L` bits are to come, and 89 `dec.code` commands use up one of them or end the run. -/
theorem decodeAlwaysEnds : Obligations.DecodeAlwaysEnds := by
  intro histogram bytes r hh hw hs
  obtain ⟨y, left, hy, hdraining, hbits, hfreqs⟩ := decAnswers_init_draining (x := calmDec r) hs.calm 0
  obtain ⟨t, ht, hok⟩ := preloaded_ok hh freshTable_ok
  obtain ⟨r₁, h₁, hw₁, -, hx₁⟩ := hy.run rfl rfl hw rfl (decPreloads histogram)
  obtain ⟨r₂, h₂, hw₂, hx₂⟩ := runAll_decPreloads (x := y) hh hdraining.phase (by rw [hfreqs]; exact ht) hw₁ hx₁
  have hbound : 89 * bitsLeft (withDecTable t y) left + 89 ≤ decodeBound bytes.length + 0 := by
    rw [show bitsLeft (withDecTable t y) left = 8 * bytes.length from hbits, decodeBound, Config.extraBits,
      Config.codeWidth]
    omega
  rw [decodeRun, h₁, h₂]
  exact decodeLoop_ends _ 0 (hdraining.withTable hok) (by decide) (rangeOf_le _) hbound hw₂ hx₂

/-! ### decode(encode(S)) = S (R211) -/

/-- A run that has ended goes the same with more commands allowed. -/
theorem decodeLoop_mono : ∀ (n : Nat) {m : Nat} {s : State}, decodeLoop n s ≠ .unfinished → n ≤ m →
    decodeLoop m s = decodeLoop n s := by
  intro n
  induction n with
  | zero => exact fun h _ => absurd rfl h
  | succ n ih =>
    intro m s h hm
    obtain ⟨m, rfl⟩ := Nat.exists_eq_add_of_lt hm
    rw [decodeLoop] at h
    rw [decodeLoop, decodeLoop]
    cases hcode : runAll [hostCommand .decCode 0] s with
    | value t =>
      rw [hcode] at h
      simp only [Ending.andThen] at h ⊢
      split
      · rfl
      · rename_i hne
        rw [if_neg hne] at h
        rw [ih (fun hloop => h (by rw [hloop])) (by omega)]
    | _ => rfl

theorem decodeRun_mono {histogram : List (Nat × Operand)} {n m : Nat} {s : State}
    (h : decodeRun histogram n s ≠ .unfinished) (hm : n ≤ m) : decodeRun histogram m s = decodeRun histogram n s := by
  rw [decodeRun, decodeRun] at *
  cases hstart : runAll (hostCommand .decInit 0 :: decPreloads histogram) s with
  | value t =>
    rw [hstart] at h
    exact decodeLoop_mono n h hm
  | _ => rfl

theorem Ended.ne_unfinished {r : Ending (List Nat)} (h : Ended r) : r ≠ .unfinished := by
  obtain ⟨symbols, rfl⟩ | rfl := h <;> nofun

theorem sourceOf_gives (bytes : List Byte) : SourceGives (sourceOf bytes) bytes := ⟨rfl, rfl⟩

theorem sourceOf_holds (bytes : List Byte) : SourceHolds (sourceOf bytes) bytes :=
  ⟨⟨[], by rw [List.append_nil]; exact answersOf_map_answer bytes, List.not_mem_nil⟩, .endOfData, rfl, nofun⟩

/-- Settles O57: the sent bits, the pad and what follows hold the parts of the stream's symbols, which DEC finds one after
another; on exactly the sent bytes the run returns within its bound, as it ends within it (O58). -/
theorem decodeOfEncodedStream : Obligations.DecodeOfEncodedStream := by
  intro histogram bytes s r hh hw hs hr
  obtain ⟨t, ht, hok⟩ := preloaded_ok hh freshTable_ok
  obtain ⟨sent, pad, hsent, hbits⟩ := encodeRun_sends bytes hh ht hok hw hs
  refine ⟨sent, hsent, fun hsource n hn => decodeRun_returns hh ht hok hbits hr hsource hn, ?_⟩
  have hended : Ended (decodeOf histogram sent) := decodeAlwaysEnds histogram sent _ hh rfl (sourceOf_gives sent)
  rw [decodeOf, ← decodeRun_mono hended.ne_unfinished (le_max_left _ (bytes.length + 1))]
  exact decodeRun_returns hh ht hok hbits rfl (sourceOf_holds sent)
    (Nat.lt_of_succ_le (le_max_right _ _))

end Sys2Proof.Machine
end

section
/-! # The statements on reading the registers (44_state_read.md)

A read answers its register wherever that register is specified, that is, on a unit that holds a stream and for selector
261 in every phase; elsewhere it answers some value. Both are said once of `answerRead`, for both units. -/
namespace Sys2Proof.Machine

theorem holdsStream.dataSpecified {p : Phase} (h : holdsStream p) : dataUnspecified p = false := by
  obtain rfl | rfl := h <;> rfl

theorem phaseCode_toNat (p : Phase) : (BitVec.ofNat 64 (phaseCode p)).toNat = phaseCode p := by
  cases p <;> rfl

theorem ofNat_boolToNat (b : Bool) : BitVec.ofNat 64 b.toNat = if b = true then 1 else 0 := by
  cases b <;> rfl

/-- A specified register is read as it is, cut to 64 bits (R221). -/
theorem answerRead_specified {p : Phase} {sel : Nat} (h : holdsStream p ∨ sel = phaseSelector) (n : Nat) (s : State) :
    answerRead p sel (some n) s = respond (BitVec.ofNat 64 n) s := by
  refine if_neg fun ⟨hun, hsel⟩ => ?_
  obtain hp | hp := h
  · simp [hp.dataSpecified] at hun
  · exact hsel hp

/-- A read of a defined selector answers OK and moves nothing but the draw counter, in every phase (R220, R222). -/
theorem answerRead_defined (p : Phase) (sel n : Nat) (s : State) :
    ∃ d m, answerRead p sel (some n) s = respond d { s with draws := m } := by
  obtain h | ⟨d, h⟩ | ⟨d, h⟩ := answerRead_cases p sel (some n) s
  · cases (answerRead_eq_badOperand_iff p sel (some n) s).mp h
  · exact ⟨d, s.draws, h⟩
  · exact ⟨d, _, h⟩

/-! ### A register of ENC, a register of DEC -/

theorem exec_encRdstate_specified {s : State} {sel n : Nat} (h : holdsStream s.enc.phase ∨ sel = phaseSelector)
    (hreg : encRegister s.enc sel = some n) : exec (.encRdstate sel) s = .next (respond (BitVec.ofNat 64 n) s) := by
  rw [exec, execEncRdstate, hreg, answerRead_specified h]

theorem exec_decRdstate_specified {s : State} {sel n : Nat} (h : holdsStream s.dec.phase ∨ sel = phaseSelector)
    (hreg : decRegister s.dec sel = some n) : exec (.decRdstate sel) s = .next (respond (BitVec.ofNat 64 n) s) := by
  rw [exec, execDecRdstate, hreg, answerRead_specified h]

/-- A register that is a word of `w` bits is read zero-extended. -/
theorem exec_encRdstate_word {w : Nat} {s : State} {sel : Nat} {x : BitVec w} (h : holdsStream s.enc.phase)
    (hreg : encRegister s.enc sel = some x.toNat) :
    exec (.encRdstate sel) s = .next (respond (x.zeroExtend 64) s) := by
  rw [exec_encRdstate_specified (.inl h) hreg, BitVec.ofNat_toNat]

theorem exec_decRdstate_word {w : Nat} {s : State} {sel : Nat} {x : BitVec w} (h : holdsStream s.dec.phase)
    (hreg : decRegister s.dec sel = some x.toNat) :
    exec (.decRdstate sel) s = .next (respond (x.zeroExtend 64) s) := by
  rw [exec_decRdstate_specified (.inl h) hreg, BitVec.ofNat_toNat]

theorem encRegister_table {sel : Nat} (h : sel ≤ 257) (u : EncUnit) : encRegister u sel = some (tableAt u.freqs sel) :=
  if_pos h

theorem decRegister_table {sel : Nat} (h : sel ≤ 257) (u : DecUnit) : decRegister u sel = some (tableAt u.freqs sel) :=
  if_pos h

theorem encRegister_defined {sel : Nat} (h : sel ≤ 263) (u : EncUnit) : ∃ n, encRegister u sel = some n :=
  Option.ne_none_iff_exists'.mp fun hnone => h.not_gt ((encRegister_eq_none_iff u sel).mp hnone)

theorem decRegister_defined {sel : Nat} (h : sel ≤ 265) (u : DecUnit) : ∃ n, decRegister u sel = some n :=
  Option.ne_none_iff_exists'.mp fun hnone => h.not_gt ((decRegister_eq_none_iff u sel).mp hnone)

/-- Settles O59: on a unit that holds a stream every register is specified, so each selector answers its own. -/
theorem rdstateReadsRegister : Obligations.RdstateReadsRegister := by
  refine ⟨fun s hp => ⟨fun sel hsel => ?table, ?low, ?high, ?pending, ?wcount, ?wbuf⟩,
    fun s hp => ⟨fun sel hsel => ?table', ?low', ?high', ?value', ?rcount', ?rbuf', ?padUsed', ?srcEnd'⟩⟩
  case table => exact exec_encRdstate_specified (.inl hp) (encRegister_table hsel s.enc)
  case low | high | wcount | wbuf => exact exec_encRdstate_word hp rfl
  case pending => exact exec_encRdstate_specified (.inl hp) rfl
  case table' => exact exec_decRdstate_specified (.inl hp) (decRegister_table hsel s.dec)
  case low' | high' | value' | rcount' | rbuf' => exact exec_decRdstate_word hp rfl
  case padUsed' => exact exec_decRdstate_specified (.inl hp) rfl
  case srcEnd' =>
    rw [← ofNat_boolToNat]
    exact exec_decRdstate_specified (.inl hp) rfl

/-- Settles O60: selector 261 is specified in every phase, and a defined selector always answers OK. -/
theorem rdstateInIdleAndFailed : Obligations.RdstateInIdleAndFailed := by
  refine ⟨fun s => ⟨_, exec_encRdstate_specified (.inr rfl) rfl, phaseCode_toNat _, rfl⟩,
    fun s => ⟨_, exec_decRdstate_specified (.inr rfl) rfl, phaseCode_toNat _, rfl⟩,
    fun s sel _ hsel => ?enc, fun s sel _ hsel => ?dec⟩
  case enc =>
    obtain ⟨n, hreg⟩ := encRegister_defined hsel s.enc
    obtain ⟨d, m, hread⟩ := answerRead_defined s.enc.phase sel n s
    exact ⟨d, m, by rw [exec, execEncRdstate, hreg, hread]; rfl⟩
  case dec =>
    obtain ⟨n, hreg⟩ := decRegister_defined hsel s.dec
    obtain ⟨d, m, hread⟩ := answerRead_defined s.dec.phase sel n s
    exact ⟨d, m, by rw [exec, execDecRdstate, hreg, hread]; rfl⟩

end Sys2Proof.Machine
end

section
/-! # Errors and waiting (60_exceptions.md)

Which responses a command can give is said once for every command (`exec_responds`); the statements on STATUS and DOUT are
read off it. A fatal error's frame is that of `EncEnded` and `DecEnded`. What a command does on a device that stops at one
of its calls is `CutCommand` and `CutDecCommand` of Laws/Cut, for the answer `io_error` and for none alike; what is left to
show here is which call each command needs. -/
namespace Sys2Proof.Machine

/-! ### BAD_PHASE (R235) -/

theorem ne_reject_of_status {s t : State} {e e' : Status} (ht : t.status = statusCode e) (hne : e ≠ e') :
    t ≠ reject e' s := fun h => hne (statusCode_injective (ht.symm.trans (congrArg State.status h)))

/-- A read of a register is not answered so. -/
theorem answerRead_ne_badPhase (p : Phase) (sel : Nat) (v : Option Nat) (s : State) :
    answerRead p sel v s ≠ reject .badPhase s := by
  obtain ha | ⟨d, ha⟩ | ⟨d, ha⟩ := answerRead_cases p sel v s <;> rw [ha]
  · exact ne_reject_of_status (e := .badOperand) rfl nofun
  · exact ne_reject_of_status (e := .ok) rfl nofun
  · exact ne_reject_of_status (e := .ok) rfl nofun

/-- Only a command that is not legal in every phase, on a unit that is not Active, is answered so. -/
theorem badPhase_of_exec {i : Instr} {s : State} (hw : s.waiting = none)
    (h : exec i s = .next (reject .badPhase s)) : legalInEveryPhase i = false ∧ addressedPhase i s ≠ .active := by
  cases hi : legalInEveryPhase i with
  | false =>
    obtain ⟨ok, run, hexec, -, hrun⟩ := exec_checksOperand hi s
    obtain ⟨hp, -⟩ | ⟨-, -, ht⟩ | ⟨-, -, hran⟩ := checked_next (hexec ▸ h)
    · exact ⟨rfl, hp⟩
    · exact absurd ht (ne_reject_of_status (e := .badPhase) rfl nofun)
    · exact absurd hran (hrun hw .badPhase (by decide))
  | true =>
    obtain rfl | ⟨sel, rfl⟩ | rfl | ⟨sel, rfl⟩ := legalInEveryPhase_cases hi
    · injection h with h
      exact absurd h (ne_reject_of_status (e := .ok) rfl nofun)
    · injection h with h
      exact absurd h (answerRead_ne_badPhase _ _ _ s)
    · exact absurd h (endDec_ne_reject _ hw (by decide))
    · injection h with h
      exact absurd h (answerRead_ne_badPhase _ _ _ s)

/-- Settles O12: the phase check stands first, and a STATUS of 4 is its rejection. -/
theorem badPhaseExactly : Obligations.BadPhaseExactly := by
  refine fun i s => ⟨exec_badPhase, fun hw t h htw ht => badPhase_of_exec hw ?_⟩
  rw [h, exec_eq_reject (e := .badPhase) h htw ht (.inl rfl)]

/-! ### The responses a command can give (R230, R231, R73) -/

/-- The errors that command `i`, its word being legal, may answer (R232, R233, R235, R236). -/
def MayAnswer (i : Instr) : Status → Prop
  | .ok => False
  | .ioError => callsDevice i = true
  | .unexpectedEof => MayFail i
  | .illegalCommand => False
  | .badPhase => True
  | .badOperand => True

/-- The response in `t` is one that command `i` may give: OK, DOUT 0 if it has no result, or an error with DOUT 0. -/
def Responds (i : Instr) (t : State) : Prop :=
  (t.status = statusCode .ok ∧ (hasResult i = false → t.dout = 0)) ∨
    ∃ e, MayAnswer i e ∧ t.status = statusCode e ∧ t.dout = 0

section Responds
variable {σ α γ : Type} {i : Instr}

/-- Where the run `r` ends, it ends in a response that command `i` may give. -/
def RunResponds (i : Instr) : Run σ Operand → Prop
  | .done d _ => hasResult i = false → d = 0
  | .raised e _ => MayAnswer i e
  | .waiting _ => True
  | .broken _ => True

theorem runResponds_andThen {P : σ → Prop} {E : Status → Prop} {r : Run σ α} {k : α → σ → Run σ Operand}
    (hr : Stops P E r) (he : ∀ e, E e → MayAnswer i e) (hk : ∀ a x, RunResponds i (k a x)) :
    RunResponds i (r.andThen k) := by
  cases r with
  | done a x => exact hk a x
  | raised e x => exact he e hr.1
  | waiting x => trivial
  | broken f => trivial

theorem runResponds_lift {c : Except Fault γ} {k : γ → Run σ Operand} (hk : ∀ v, c = .ok v → RunResponds i (k v)) :
    RunResponds i (Run.lift c k) := by
  cases c with
  | ok v => exact hk v rfl
  | error f => trivial

theorem runResponds_result (hi : hasResult i = true) (d : Operand) (x : σ) : RunResponds i (.done d x) :=
  fun hno => absurd (hi.symm.trans hno) nofun

/-- A command without a result answers DOUT 0 after its run. -/
theorem runResponds_zero {P : σ → Prop} {E : Status → Prop} {r : Run σ α} (hr : Stops P E r)
    (he : ∀ e, E e → MayAnswer i e) : RunResponds i (r.andThen fun _ x => .done 0 x) :=
  runResponds_andThen hr he fun _ _ _ => rfl

theorem mayAnswer_ioError (hi : callsDevice i = true) : ∀ e, IsIoError e → MayAnswer i e := by
  rintro _ rfl
  exact hi

theorem mayAnswer_fatal (hi : callsDevice i = true) (hfail : MayFail i) : ∀ e, IsFatal e → MayAnswer i e := by
  rintro _ (rfl | rfl)
  · exact hi
  · exact hfail

theorem responds_reject (s : State) {e : Status} (he : IsRejection e) : Responds i (reject e s) := by
  obtain rfl | rfl := he
  · exact .inr ⟨.badPhase, trivial, rfl, rfl⟩
  · exact .inr ⟨.badOperand, trivial, rfl, rfl⟩

theorem endEnc_responds {s t : State} {r : Run EncSide Operand} (hr : RunResponds i r) (h : endEnc i s r = .next t)
    (hw : t.waiting = none) : Responds i t := by
  obtain ⟨d, x, rfl, rfl⟩ | ⟨e, x, rfl, rfl⟩ | ⟨x, -, rfl⟩ := endEnc_next h
  · exact .inl ⟨rfl, hr⟩
  · exact .inr ⟨e, hr, rfl, rfl⟩
  · cases hw

theorem endDec_responds {s t : State} {r : Run DecSide Operand} (hr : RunResponds i r) (h : endDec i s r = .next t)
    (hw : t.waiting = none) : Responds i t := by
  obtain ⟨d, x, rfl, rfl⟩ | ⟨e, x, rfl, rfl⟩ | ⟨x, -, rfl⟩ := endDec_next h
  · exact .inl ⟨rfl, hr⟩
  · exact .inr ⟨e, hr, rfl, rfl⟩
  · cases hw

theorem checked_responds {p : Phase} {ok : Bool} {s t : State} {run : Host.Outcome State Fault Refusal}
    (h : checked p ok s run = .next t) (hrun : run = .next t → Responds i t) : Responds i t := by
  obtain ⟨-, rfl⟩ | ⟨-, -, rfl⟩ | ⟨-, -, hran⟩ := checked_next h
  · exact responds_reject s (.inl rfl)
  · exact responds_reject s (.inr rfl)
  · exact hrun hran

theorem checkedEnc_responds {p : Phase} {ok : Bool} {s t : State} {r : Run EncSide Operand} (hr : RunResponds i r)
    (h : checked p ok s (endEnc i s r) = .next t) (hw : t.waiting = none) : Responds i t :=
  checked_responds h fun hran => endEnc_responds hr hran hw

theorem checkedDec_responds {p : Phase} {ok : Bool} {s t : State} {r : Run DecSide Operand} (hr : RunResponds i r)
    (h : checked p ok s (endDec i s r) = .next t) (hw : t.waiting = none) : Responds i t :=
  checked_responds h fun hran => endDec_responds hr hran hw

/-- What `f` makes of a table gives DOUT 0 if command `i` has no result. -/
def ZeroUnlessResult (i : Instr) (f : Table → Except Fault (Operand × Table)) : Prop :=
  ∀ t d t', f t = .ok (d, t') → hasResult i = false → d = 0

theorem onEncTable_responds {f : Table → Except Fault (Operand × Table)} (hf : ZeroUnlessResult i f) (x : EncSide) :
    RunResponds i (onEncTable f x) :=
  runResponds_lift fun v hv => hf _ v.1 v.2 hv

theorem onDecTable_responds {f : Table → Except Fault (Operand × Table)} (hf : ZeroUnlessResult i f) (x : DecSide) :
    RunResponds i (onDecTable f x) :=
  runResponds_lift fun v hv => hf _ v.1 v.2 hv

theorem zeroUnlessResult_of_hasResult (hi : hasResult i = true) (f : Table → Except Fault (Operand × Table)) :
    ZeroUnlessResult i f := fun _ _ _ _ hno => absurd (hi.symm.trans hno) nofun

theorem preloadTable_zero (sym n : Nat) : ZeroUnlessResult i (preloadTable sym n) := fun t d t' h _ => by
  unfold preloadTable at h
  split at h <;> cases h
  rfl

theorem updateTable_zero (sym : Nat) : ZeroUnlessResult i (updateTable sym) := fun t d t' h _ => by
  unfold updateTable at h
  split at h <;> cases h
  rfl

theorem rescaleTable_zero : ZeroUnlessResult i rescaleTable := fun t d t' h _ => by
  unfold rescaleTable at h
  split at h <;> cases h
  rfl

theorem answerRead_responds (hi : hasResult i = true) (p : Phase) (sel : Nat) (v : Option Nat) (s : State) :
    Responds i (answerRead p sel v s) := by
  obtain ha | ⟨d, ha⟩ | ⟨d, ha⟩ := answerRead_cases p sel v s <;> rw [ha]
  · exact responds_reject s (.inr rfl)
  · exact .inl ⟨rfl, fun hno => absurd (hi.symm.trans hno) nofun⟩
  · exact .inl ⟨rfl, fun hno => absurd (hi.symm.trans hno) nofun⟩

end Responds

/-- Said once for every command that ends: the responses it can give. -/
theorem exec_responds {i : Instr} {s t : State} (h : exec i s = .next t) (hw : t.waiting = none) : Responds i t := by
  cases i with
  | encInit => cases h; exact .inl ⟨rfl, fun _ => rfl⟩
  | encPreload sym => exact checkedEnc_responds (onEncTable_responds (preloadTable_zero sym _) _) h hw
  | encCode sym => exact checkedEnc_responds (runResponds_zero (encodeSymbol_stops sym _) (mayAnswer_ioError rfl)) h hw
  | encProb sym => exact checkedEnc_responds (onEncTable_responds (zeroUnlessResult_of_hasResult rfl _) _) h hw
  | encSymfor => exact checkedEnc_responds (onEncTable_responds (zeroUnlessResult_of_hasResult rfl _) _) h hw
  | encUpdate sym => exact checkedEnc_responds (onEncTable_responds (updateTable_zero sym) _) h hw
  | encRescale => exact checkedEnc_responds (onEncTable_responds rescaleTable_zero _) h hw
  | encBits n => exact checkedEnc_responds (runResponds_zero (writeBits_stops s.din n _) (mayAnswer_ioError rfl)) h hw
  | encBflush => exact checkedEnc_responds (runResponds_zero (writerFlush_stops _) (mayAnswer_ioError rfl)) h hw
  | encRdstate sel => cases h; exact answerRead_responds rfl _ sel _ s
  | decInit => exact endDec_responds (runResponds_zero (primeValue_raises _ _) (mayAnswer_ioError rfl)) h hw
  | decPreload sym => exact checkedDec_responds (onDecTable_responds (preloadTable_zero sym _) _) h hw
  | decCode =>
    exact checkedDec_responds
      (runResponds_andThen (decodeSymbol_stops _) (mayAnswer_fatal rfl (.inl rfl)) fun _ _ => runResponds_result rfl _ _) h hw
  | decProb sym => exact checkedDec_responds (onDecTable_responds (zeroUnlessResult_of_hasResult rfl _) _) h hw
  | decSymfor => exact checkedDec_responds (onDecTable_responds (zeroUnlessResult_of_hasResult rfl _) _) h hw
  | decUpdate sym => exact checkedDec_responds (onDecTable_responds (updateTable_zero sym) _) h hw
  | decRescale => exact checkedDec_responds (onDecTable_responds rescaleTable_zero _) h hw
  | decBits n =>
    exact checkedDec_responds
      (runResponds_andThen (readBitsFrom_stops n 0 _) (mayAnswer_fatal rfl (.inr ⟨n, rfl⟩)) fun _ _ =>
        runResponds_lift fun _ _ => runResponds_result rfl _ _) h hw
  | decRdstate sel => cases h; exact answerRead_responds rfl _ sel _ s

/-- Settles O14: an OK response's DOUT, or an error's code with DOUT 0. -/
theorem responseOfEveryCommand : Obligations.ResponseOfEveryCommand := by
  intro i s t _ h hw
  obtain ⟨hok, hresult⟩ | ⟨e, -, hcode, hzero⟩ := exec_responds h hw
  · exact ⟨.inl hok, fun hne => absurd hok hne, hresult⟩
  · refine ⟨?_, fun _ => hzero, fun _ => hzero⟩
    rw [hcode]
    cases e <;> decide

/-- Settles O16: 1 and 2 are the codes of the two fatal errors, and who may answer them is `MayAnswer`. -/
theorem fatalErrorsComeFromDeviceCommands : Obligations.FatalErrorsComeFromDeviceCommands := by
  intro i s t _ h hw
  have hmay : ∀ e, e ≠ .ok → t.status = statusCode e → MayAnswer i e := fun e hne hcode => by
    obtain ⟨hok, -⟩ | ⟨e', he', hcode', -⟩ := exec_responds h hw
    · exact absurd (statusCode_injective (hcode.symm.trans hok)) hne
    · rwa [statusCode_injective (hcode.symm.trans hcode')]
  exact ⟨hmay .ioError nofun, hmay .unexpectedEof nofun⟩

/-! ### Fatal errors (R237, R244) -/

/-- The code of a fatal error is no other response's. -/
theorem isFatal_of_status {e : Status} (h : statusCode e = 1 ∨ statusCode e = 2) : IsFatal e :=
  h.imp (statusCode_injective (a₂ := .ioError) ·) (statusCode_injective (a₂ := .unexpectedEof) ·)

theorem not_isFatal_ok : ¬IsFatal .ok := by simp [IsFatal]

/-- Settles O15: of the ways to end, only a fatal error has its codes, and that changes its own side only. -/
theorem fatalErrorFailsItsUnit : Obligations.FatalErrorFailsItsUnit := by
  intro i s t _ h hw hstatus
  unfold addressedPhase
  cases hi : isEncCommand i with
  | true =>
    obtain ⟨d, x, -, rfl⟩ | ⟨x, hkeeps, rfl⟩ | ⟨x, -, rfl⟩ | ⟨e, he, rfl⟩ | ⟨d, rfl⟩ := exec_enc_next hi h
    · exact absurd (isFatal_of_status (e := .ok) hstatus) not_isFatal_ok
    · exact ⟨rfl, rfl, rfl, hkeeps⟩
    · cases hw
    · exact absurd he (isFatal_of_status hstatus).not_isRejection
    · exact absurd (isFatal_of_status (e := .ok) hstatus) not_isFatal_ok
  | false =>
    obtain ⟨d, x, -, rfl⟩ | ⟨e, x, -, hkeeps, rfl⟩ | ⟨x, -, rfl⟩ | ⟨e, he, rfl⟩ | ⟨d, rfl⟩ := exec_dec_next hi h
    · exact absurd (isFatal_of_status (e := .ok) hstatus) not_isFatal_ok
    · exact ⟨rfl, rfl, rfl, hkeeps⟩
    · cases hw
    · exact absurd he (isFatal_of_status hstatus).not_isRejection
    · exact absurd (isFatal_of_status (e := .ok) hstatus) not_isFatal_ok

/-- `dec.bits n` past its checks. -/
theorem exec_decBits_active {s : State} {n : Nat} (hp : s.dec.phase = .active) (hn : n ≤ 64) :
    exec (.decBits n) s = endDec (.decBits n) s
      ((readBits n (decSide s)).andThen fun v x => Run.lift (narrowTo 64 v) fun d => .done d x) := by
  have hok : countInRange n = true := by simpa [countInRange] using hn
  simp only [exec, execDecBits, hp, hok, checked_active]

/-- `dec.code` past its check. -/
theorem exec_decCode_active {s : State} (hp : s.dec.phase = .active) : exec .decCode s =
    endDec .decCode s ((decodeSymbol (decSide s)).andThen fun sym x => .done (BitVec.ofNat 64 sym) x) := by
  simp only [exec, execDecCode, hp, checked_active]

/-- Settles O29: ReadBits runs out of bits. -/
theorem decBitsPastBudgetIsUnexpectedEof : Obligations.DecBitsPastBudgetIsUnexpectedEof := by
  intro s n bytes hp hn hs hshort
  obtain ⟨y, -, hy, -⟩ := (readBitsFrom_supplies n [] (x := decSide s) hs).2 hshort
  have hread : readBits n (decSide s) = .raised .unexpectedEof y := hy
  have hexec : exec (.decBits n) s = .next (failDec .unexpectedEof y.source s) := by
    rw [exec_decBits_active hp hn, hread, andThen_raised, endDec_raised]
  exact ⟨_, hexec, rfl, rfl, rfl, rfl⟩

/-! ### The sink refuses a call (R232, R186, R110) -/

theorem openFrom_ready (k : Sink) : SinkReady (openFrom k) := ⟨nofun, rfl⟩

/-- A command whose first call the sink refuses, where on an open sink it makes one. -/
theorem exec_first_call_refused {i : Instr} {s t₀ : State} (hi : isEncCommand i = true)
    (h₀ : exec i { s with sink := openFrom s.sink } = .next t₀)
    (hcall : s.sink.received.length < t₀.sink.received.length ∨ s.sink.flushes < t₀.sink.flushes)
    (hs : SinkStopsAt s.sink 0 (some .ioError)) :
    ∃ t, exec i s = .next t ∧ t.status = 1 ∧ t.dout = 0 ∧ t.enc.phase = .failed := by
  have hmade : 0 < callsMade s.sink t₀.sink := by unfold callsMade; omega
  obtain ⟨y, hexec, -⟩ := exec_sink_stops hi h₀ hmade hs
  exact ⟨_, hexec, rfl, rfl, rfl⟩

/-- A writer between bytes that has written 8 bits or more, its partial byte counted, has sent a byte. -/
theorem byte_sent {x y : EncSide} {bits : List Bool} (hw : WriterOk y.unit)
    (hwrote : writtenBits y = writtenBits x ++ bits) (hfull : 8 ≤ x.unit.wcount.toNat + bits.length) :
    x.sink.received.length < y.sink.received.length := by
  have hlen := congrArg List.length hwrote
  rw [List.length_append, writtenBits_length, writtenBits_length] at hlen
  have hcount := hw.count
  omega

/-- Settles O17: the command is cut at the refused call; that there is one is what the command does on an open sink. -/
theorem sinkErrorFailsEncoder : Obligations.SinkErrorFailsEncoder := by
  refine ⟨fun i s t₀ n hi _ h₀ hn hs => ?_, fun s hp hw hs => ⟨fun n hn hfull => ?bits, ?bflush,
    fun sym hsym ht hiv hcase => ?code⟩⟩
  · obtain ⟨y, hexec, hcut⟩ := exec_sink_stops hi h₀ hn hs
    exact ⟨_, hexec, rfl, rfl, rfl, hcut.received, hcut.flushes, hcut.passedOn, rfl⟩
  case bits =>
    obtain ⟨t₀, h₀, hwrote, hw₀, -⟩ :=
      encBitsAppendsBits.1 { s with sink := openFrom s.sink } n hp hn hw (openFrom_ready _)
    exact exec_first_call_refused rfl h₀ (.inl (byte_sent hw₀ hwrote (by rwa [msbBits_length]))) hs
  case bflush =>
    obtain ⟨t₀, h₀, -, -, -, -, -, hflushes, -⟩ :=
      encBflushPadsAndFlushes.1 { s with sink := openFrom s.sink } hp hw (openFrom_ready _)
    exact exec_first_call_refused rfl h₀ (.inr (Nat.lt_of_succ_le hflushes.ge)) hs
  case code =>
    obtain rfl | hlt := hsym.eq_or_lt
    · obtain ⟨t₀, -, h₀, -, -, -, -, -, -, -, -, -, -, -, -, hflushes, -⟩ :=
        encCodeEofFinishesStream { s with sink := openFrom s.sink } hp ht hiv hw (openFrom_ready _)
      exact exec_first_call_refused rfl h₀ (.inr (Nat.lt_of_succ_le hflushes.ge)) hs
    · obtain ⟨t₀, h₀, -, -, -, -, hwrote, -, hw₀, -⟩ :=
        encCodeRefinesSymbolCoding { s with sink := openFrom s.sink } sym hp hlt ht hiv hw (openFrom_ready _)
      exact exec_first_call_refused rfl h₀ (.inl (byte_sent hw₀ hwrote (hcase.resolve_left hlt.ne))) hs

/-! ### The source stops at a read (R232, R248, R110) -/

section Source
variable {s : State} {bytes : List Byte} {a : Option SourceAnswer} (hs : SourceStopsAt s.source bytes a)
include hs

theorem exec_decInit_cut (hfew : bytes.length < 4) : CutDecCommand .decInit a s (s.source.taken ++ bytes) :=
  exec_source_stops rfl ((primeValue_cut (x := decSide s) hs hfew).andThen _)

theorem exec_decBits_cut (hp : s.dec.phase = .active) (he : s.dec.srcEnd = false) {n : Nat} (hn : n ≤ 64)
    (hfew : s.dec.rcount.toNat + 8 * bytes.length < n) :
    CutDecCommand (.decBits n) a s (s.source.taken ++ bytes) := by
  have hknown : (knownBits s.dec bytes).length < n := by
    rwa [knownBits, List.length_append, msbBits_length, flatMap_byteBits_length]
  exact exec_source_stops (exec_decBits_active hp hn) ((readBitsFrom_cut n 0 (x := decSide s) hs he hknown).andThen _)

/-- The symbol whose range holds the count is the selected one; after it is narrowed to, the loop runs out of known bits. -/
theorem decodeSymbol_cut {sym : Nat} (he : s.dec.srcEnd = false) (ht : TableOk s.dec.freqs)
    (hi : IntervalOk (decInterval s.dec)) (hv : ValueOk s.dec) (hsym : sym ≤ 256)
    (hbelow : tableAt s.dec.freqs sym ≤ windowCount (knownWindow s.dec bytes) (total s.dec.freqs))
    (habove : windowCount (knownWindow s.dec bytes) (total s.dec.freqs) < tableAt s.dec.freqs (sym + 1))
    (hnone : windowSymbol sym s.dec.freqs (knownWindow s.dec bytes) = none) :
    CutRead a (s.source.taken ++ bytes) (decodeSymbol (decSide s)) := by
  obtain ⟨sym', hsel, hsym', hbelow', habove'⟩ := selectSymbol_ok ht hv
  obtain rfl : sym' = sym := ht.symbol_unique hsym' hsym hbelow' habove' hbelow habove
  obtain ⟨t', iv, -, -, hnarrow, hlow, hhigh, hwide, hfrom, hto⟩ := decNarrow_ok ht hi hv hsym hbelow habove
  let narrowed : DecSide := ⟨setDecInterval { s.dec with freqs := t' } iv, s.source⟩
  have hwindow : windowRenorm 15 (knownWindow narrowed.unit bytes) = none := by
    rw [← hnone]
    show windowRenorm 15 ⟨iv.low.toNat, iv.high.toNat, _, _⟩ = _
    rw [hlow, hhigh]
    rfl
  have hloop : CutRead a (s.source.taken ++ bytes) (decRenorm Config.shiftFuel narrowed) :=
    decRenorm_cut 15 _ hs he (show iv.low.toNat ≤ iv.high.toNat by omega) ⟨hfrom, hto⟩ (by decide) hwindow
  rw [decodeSymbol, decSide_unit, hsel, lift_ok, hnarrow, lift_ok]
  exact hloop.andThen _

theorem exec_decCode_cut {sym : Nat} (hp : s.dec.phase = .active) (he : s.dec.srcEnd = false)
    (ht : TableOk s.dec.freqs) (hi : IntervalOk (decInterval s.dec)) (hv : ValueOk s.dec) (hsym : sym ≤ 256)
    (hbelow : tableAt s.dec.freqs sym ≤ windowCount (knownWindow s.dec bytes) (total s.dec.freqs))
    (habove : windowCount (knownWindow s.dec bytes) (total s.dec.freqs) < tableAt s.dec.freqs (sym + 1))
    (hnone : windowSymbol sym s.dec.freqs (knownWindow s.dec bytes) = none) :
    CutDecCommand .decCode a s (s.source.taken ++ bytes) :=
  exec_source_stops (exec_decCode_active hp) ((decodeSymbol_cut hs he ht hi hv hsym hbelow habove hnone).andThen _)

end Source

/-- A DEC command cut by `io_error` fails its unit, and nothing outside DEC's side changes but the response. -/
theorem CutDecCommand.fails {i : Instr} {s : State} {whole : List Byte} (h : CutDecCommand i (some .ioError) s whole) :
    ∃ t, exec i s = .next t ∧ t.status = 1 ∧ t.dout = 0 ∧ t.dec.phase = .failed ∧ t.source.taken = whole ∧
      t = { s with dec := t.dec, source := t.source, status := 1, dout := 0, draws := t.draws } := by
  obtain ⟨y, hexec, htaken⟩ := h
  exact ⟨_, hexec, rfl, rfl, rfl, htaken, rfl⟩

/-- A DEC command cut at a read that is not answered waits, and nothing outside DEC's side changes. -/
theorem CutDecCommand.waits {i : Instr} {s : State} {whole : List Byte} (h : CutDecCommand i none s whole) :
    ∃ t, exec i s = .next t ∧ t.waiting = some (.onSource i (promptSource (decSide s))) ∧ t.source.taken = whole ∧
      t = { s with dec := t.dec, source := t.source, waiting := t.waiting } := by
  obtain ⟨y, hexec, htaken⟩ := h
  exact ⟨_, hexec, rfl, htaken, rfl⟩

/-- Settles O18: each of the three commands is cut at the read that is answered `io_error`. -/
theorem sourceErrorFailsDecoder : Obligations.SourceErrorFailsDecoder := by
  refine fun s bytes hs => ⟨fun hfew => (exec_decInit_cut hs hfew).fails, fun hp he =>
    ⟨fun n hn hfew => (exec_decBits_cut hs hp he hn hfew).fails, fun sym ht hi hv hsym hbelow habove hnone => ?_⟩⟩
  exact (exec_decCode_cut hs hp he ht hi hv hsym hbelow habove hnone).fails

/-! ### A command that waits (R248, R251) -/

/-- Without a reset next, a command that waits runs again from where it started, its device's first delay over. -/
theorem step_of_waiting {i : Instr} {s t : State} (hw : s.waiting = none) (h : exec i s = .next t)
    (hwaits : t.waiting ≠ none) (hh : ∀ rest, t.host ≠ .reset :: rest) : step t = exec i (promptState i s) := by
  obtain ⟨w, htw⟩ := Option.ne_none_iff_exists'.mp hwaits
  obtain ⟨hcommand, hrestart, -⟩ := ((exec_late dropFirst i hw).2 t h).2 w htw
  rw [step_resumes htw hh, hcommand, hrestart]

/-- Settles O19: a command is cut at the call that is not answered, and goes on from where it started. -/
theorem unansweredCallLeavesCommandWaiting : Obligations.UnansweredCallLeavesCommandWaiting := by
  refine ⟨fun i s t₀ n hi _ h₀ hn hs => ?enc, fun s bytes _ hs => ⟨fun hfew => (exec_decInit_cut hs hfew).waits,
    fun hp he => ⟨fun n hn hfew => (exec_decBits_cut hs hp he hn hfew).waits,
      fun sym ht hi hv hsym hbelow habove hnone => ?code⟩⟩, fun i s t hw h hwaits hh => step_of_waiting hw h hwaits hh⟩
  case enc =>
    obtain ⟨y, hexec, hcut⟩ := exec_sink_stops hi h₀ hn hs
    exact ⟨_, hexec, rfl, hcut.received, hcut.flushes, hcut.passedOn, rfl⟩
  case code => exact (exec_decCode_cut hs hp he ht hi hv hsym hbelow habove hnone).waits

theorem lateTurns_of_not_mem {α : Type} {l : List (Turn α)} (h : .late ∉ l) : lateTurns l = 0 := by
  induction l with
  | nil => rfl
  | cons u rest ih =>
    cases u with
    | answer a => exact ih fun hrest => h (List.mem_cons_of_mem _ hrest)
    | late => exact absurd List.mem_cons_self h

/-- On a device with no delay to come there is none to take off. -/
theorem promptState_of_none {i : Instr} {s : State} (h : lateCalls i s = 0) : promptState i s = s := by
  unfold lateCalls at h
  unfold promptState
  split
  · rename_i hi
    rw [if_pos hi] at h
    simp [withEncSide, promptSink, encSide, dropLate_of_none h]
  · rename_i hi
    rw [if_neg hi] at h
    simp [withDecSide, promptSource, decSide, dropLate_of_none h]

theorem step_idle {s : State} (hh : s.host = []) (hw : s.waiting = none) : step s = .next s := by
  simp only [step, takeEvent, hh, hw]

/-- Settles O7: with no delay to come, a command that waits starts again from the state it started from. -/
theorem stepHoldsStateWithoutEvent : Obligations.StepHoldsStateWithoutEvent := by
  refine ⟨fun s hh hw => step_idle hh hw, fun i s t hw h hwaits hsink hsource hh => ?_⟩
  have hnone : lateCalls i s = 0 := by
    unfold lateCalls
    cases hi : isEncCommand i with
    | true => exact lateTurns_of_not_mem (hsink hi)
    | false => exact lateTurns_of_not_mem (hsource hi)
  rw [step_of_waiting hw h hwaits hh, promptState_of_none hnone, h]

end Sys2Proof.Machine
end

section
/-! # The statements on reset (70_reset_and_hazards.md R260, R261)

A unit that holds no stream is legal whatever its data registers hold, so what R261 leaves unspecified plays no part. -/
namespace Sys2Proof.Machine

/-- Settles O8: the step takes the reset input before it asks whether a command is in progress. -/
theorem resetInputResetsBothUnits : Obligations.ResetInputResetsBothUnits := by
  intro s rest hh
  exact ⟨_, step_reset hh, unspecifiedEnc_phase _ _, unspecifiedDec_phase _ _, rfl, resetBlock_dout _,
    resetBlock_waiting _, resetBlock_sink _, resetBlock_source _, resetBlock_host _⟩

/-- Settles O9: each is the value `State.reset` is defined with. -/
theorem resetStateHoldsGivenValues : Obligations.ResetStateHoldsGivenValues :=
  ⟨rfl, rfl, rfl, rfl, rfl, rfl⟩

/-- Outside a stream only the phase of ENC is constrained. -/
theorem encOk_of_not_holdsStream {u : EncUnit} (hf : u.phase ≠ .flushing) (hn : ¬holdsStream u.phase) : EncOk u where
  phase := hf
  table h := absurd h hn
  interval h := absurd h hn
  writer h := absurd h hn

/-- Outside a stream only the phase and the padding budget of DEC are constrained. -/
theorem decOk_of_not_holdsStream {u : DecUnit} (hf : u.phase ≠ .flushing) (hn : ¬holdsStream u.phase)
    (hpad : u.padUsed ≤ Config.extraBits) : DecOk u where
  phase := hf
  pad := hpad
  table h := absurd h hn
  interval h := absurd h hn
  value h := absurd h hn
  reader h := absurd h hn

theorem not_holdsStream_idle : ¬holdsStream .idle := by simp [holdsStream]

/-- At reset no command is in progress, the response is OK with DOUT 0, and both units are Idle. -/
theorem reset_ready : Ready State.reset where
  waiting := rfl
  response := ⟨by decide, fun _ => rfl⟩
  enc := encOk_of_not_holdsStream (by decide) not_holdsStream_idle
  dec := decOk_of_not_holdsStream (by decide) not_holdsStream_idle (by decide)

/-- Settles O10: the reset state is a legal state with no command in progress. -/
theorem resetStateMeetsInvariant : Obligations.ResetStateMeetsInvariant := reset_ready.inv

end Sys2Proof.Machine
end
